-- ==== Sys2Proof/Word.lean ====
section
/-!
DEFINITION. The word types of the EZ1 (R10, R11, R13) and the index types of its numbered parts.
-/
namespace Sys2Proof

/-- One byte. -/
abbrev Byte := BitVec 8
/-- A register of BAR0 (R13: every register in BAR0 is 32 bits wide). -/
abbrev Word := BitVec 32
/-- An address of the 48-bit device address space (R661). -/
abbrev DevAddr := BitVec 48

/-- A mailbox number (R211): 0–63 are user mailboxes, 64 is the admin mailbox. -/
abbrev Mbx := Fin 65
/-- A Lysesh port (Table 8-10). -/
abbrev Port := Fin 16
/-- A SerDes quad (section 8.9). -/
abbrev Quad := Fin 4
/-- A physical tile (section 2.6). -/
abbrev Tile := Fin 68
/-- An HBM stack (R702). -/
abbrev Stack := Fin 6
/-- A control core (R640). -/
abbrev CtrlCore := Fin 4
/-- A function that placement can move (Table 1-4). -/
abbrev MovFn := Fin 10

/-- The admin mailbox (R211). -/
def adminMbx : Mbx := 64

end Sys2Proof
end

