-- ==== Sys2Proof/Syntax.lean ====
section
/-!
DEFINITION. The commands of the block: one constructor of `Instr` per row of spec/opcode_table.json,
with the operands that the spec's tables give the row, and the operand structures they use.
-/
namespace Sys2Proof

/-- The fields of a submission entry outside opcode and operands (Table 5-3, R222). -/
structure Hdr where
  /-- bytes 2–3: bit 0 fence, bit 1 tick hint valid, bit 2 interrupt on completion -/
  flags : BitVec 16
  tag : BitVec 16
  layer : BitVec 16
  operator : BitVec 16
  /-- group or stream handle -/
  handle : BitVec 16
  tickHint : BitVec 32
deriving DecidableEq, Repr

/-- The operands shared by TOPK, QUANT, LOWRANK, REDUCE_TO_ONE and BUCKET_OPEN (Table 5-8, R235). -/
structure CompressOps where
  bucket : BitVec 8
  compressor : BitVec 8
  input : BitVec 16
  output : BitVec 16
  residual : BitVec 16
  residualOut : BitVec 16
  auxA : BitVec 16
  auxB : BitVec 16
  exponent : BitVec 8
  coding : BitVec 8
  step : BitVec 32
  parameter : BitVec 32
  table : BitVec 48
deriving DecidableEq, Repr

/-- The operands of STREAM_OPEN (Table 5-11). -/
structure StreamOps where
  layers : BitVec 16
  role : BitVec 8
  format : BitVec 8
  maxPositions : BitVec 32
  bpp : BitVec 32
  pageList : BitVec 48
  coding : BitVec 8
deriving DecidableEq, Repr

/-- The operands of KV_HANDOFF (Table 5-11). -/
structure HandoffOps where
  destMember : BitVec 16
  destStream : BitVec 16
  first : BitVec 32
  positions : BitVec 32
  firstLayer : BitVec 16
  layerCount : BitVec 16
deriving DecidableEq, Repr

/-- A mailbox command with its operands: one constructor per opcode of sections 5.5 to 5.8
(Tables 5-6, 5-7, 5-8, 5-9, 5-10, 5-11, 5-12), and `unknown` for an opcode none of them defines. -/
inductive Cmd where
  | init (annals : BitVec 32)
  | setPlacement (mask value : BitVec 10)
  | setSeed (seed : BitVec 128)
  | loadTree (source : BitVec 48) (count : BitVec 16)
  | openGroup (members : BitVec 16) (slots sizeCode : BitVec 8)
  | closeGroup
  | setTick (period : BitVec 16) (leapFloor holiday : BitVec 8)
  | repairApprove (request : BitVec 32) (decision : BitVec 8)
  | bindTenant (mailbox label : BitVec 8) (unbind : Bool)
  | alloc (label memory : BitVec 8) (size : BitVec 64)
  | free (allocation : BitVec 32)
  | fwUpdate (address : BitVec 48) (length : BitVec 32)
  | createDesc (address : BitVec 48)
  | destroyDesc (descriptor : BitVec 16)
  | loadOwners (table : BitVec 16) (source : BitVec 48)
  | topk (o : CompressOps)
  | quant (o : CompressOps)
  | lowrank (o : CompressOps)
  | residualFlush (bucket : BitVec 8) (fromBucket : Bool) (source destination : BitVec 16)
  | maskGen (output threshold : BitVec 16) (step : BitVec 32) (random : BitVec 16)
  | bcast (source destination : BitVec 16) (fromOwners : Bool)
  | reduceToOne (o : CompressOps)
  | bucketOpen (o : CompressOps)
  | bucketAdd (bucket : BitVec 8) (descriptor : BitVec 16)
  | bucketSeal (bucket : BitVec 8)
  | streamOpen (o : StreamOps)
  | streamClose
  | kvPut (layer : BitVec 16) (first positions : BitVec 32) (source : BitVec 16)
  | kvHandoff (o : HandoffOps)
  | kvStage (layer : BitVec 16) (first positions : BitVec 32)
  | kvCommit (positions : BitVec 32)
  | kvEvict (firstLayer layerCount : BitVec 16)
  | traceStart (kindMask : BitVec 32) (label : BitVec 8) (allLabels : Bool)
  | traceStop
  | watchTensor (descriptor layer operator : BitVec 16) (step : BitVec 32) (action : BitVec 8)
  | breakSet (core kind : BitVec 8) (address : BitVec 32) (hits : BitVec 16)
  | countersSnapshot (set : BitVec 8) (destination : BitVec 48)
  | unknown (opcode : BitVec 16)
deriving DecidableEq, Repr

/-- One byte that host software made visible before a doorbell (R248): in the BAR2 ring area when
`bar2`, at a BAR2 offset, and in host memory otherwise, at a host physical address. `bad` says that the
host answers later accesses to its line with an error or poisoned data (R255). -/
structure HostStore where
  bar2 : Bool
  addr : Nat
  byte : Byte
  bad : Bool
deriving DecidableEq, Repr

/-- A plan entry (Table 2-1, bytes 64 + 16n). -/
structure PlanEntry where
  resource : BitVec 16
  handle : BitVec 16
  sequence : BitVec 32
  cost : BitVec 24
  cls : BitVec 8
deriving DecidableEq, Repr

/-- The Lysesh header of a received frame (Table 8-3), but for version, channel and type, which the
row of the frame fixes. `malformed` says that the version is reserved or a reserved field is not
zero (R378). -/
structure LysHdr where
  era : BitVec 16
  tick : BitVec 16
  source : BitVec 12
  dest : BitVec 12
  first : Bool
  last : Bool
  credit : Bool
  isLocal : Bool
  attempt : BitVec 2
  stream : Bool
  handle : BitVec 16
  seq : BitVec 32
  offset : BitVec 24
  length : BitVec 14
  creditVc : BitVec 2
  creditLimit : BitVec 30
  chunkLength : BitVec 24
  malformed : Bool
  /-- source address of the frame's Ethernet header (R380) -/
  mac : BitVec 48
deriving DecidableEq, Repr

/-- A timestamp carried on VC0: a tick number and an offset in ns (section 8.7). -/
structure WireTime where
  tick : BitVec 48
  ns : BitVec 20
deriving DecidableEq, Repr

/-- The body of a tick frame (Table 8-7, type 0x01). -/
structure TickBody where
  tick : BitVec 48
  era : BitVec 16
  period : BitVec 16
  leap : BitVec 4
  /-- announced leap level, 0xF for none -/
  announced : BitVec 4
  holiday : BitVec 8
  announcedAt : BitVec 48
  master : BitVec 16
  origin : WireTime
  /-- signed, in units of 2^−16 ns -/
  correction : BitVec 64
  eraChange : Bool
  leapFloor : BitVec 4
  newLeapFloor : BitVec 4
  lastTick : BitVec 48
  newPeriod : BitVec 10
  newHoliday : BitVec 3
deriving DecidableEq, Repr

/-- The body of a Proclamation or of an era frame (Table 8-7, types 0x02 and 0x03). -/
structure ProcBody where
  priority : BitVec 4
  hops : BitVec 8
  era : BitVec 16
  serial : BitVec 64
  /-- era frame only: master member number -/
  master : BitVec 16
deriving DecidableEq, Repr

/-- The body of a hello (Table 12-1, kind 1). -/
structure HelloBody where
  port : BitVec 8
  serial : BitVec 64
  member : BitVec 12
  masterPri : BitVec 8
  eraHost : Bool
deriving DecidableEq, Repr

/-- The body of a link report or a join request (Table 12-1, kinds 2 and 4): reporting member, its
serial and, per entry, the peer member and the own port. -/
structure ReportBody where
  member : BitVec 12
  serial : BitVec 64
  links : List (BitVec 12 × BitVec 4)
deriving DecidableEq, Repr

/-- The body of a topology segment (Table 12-1, kind 3): edges are (lower member, higher member). -/
structure TopoBody where
  index : BitVec 16
  count : BitVec 16
  era : BitVec 16
  firstTick : BitVec 48
  edges : List (BitVec 12 × BitVec 12)
deriving DecidableEq, Repr

/-- What the board's supplies, straps and flash present to one run of start-up (Tables 13-7, 13-8,
R682): the inputs of step STARTUP that no register holds. -/
structure BootInputs where
  /-- MASTER_PRI[3:0] -/
  masterPri : BitVec 4
  /-- TRAY_POS[2:0] -/
  trayPos : BitVec 3
  fusesOk : Bool
  maskRomOk : Bool
  pllsLock : Bool
  /-- HBM stacks that fail training after repair -/
  hbmFailed : List Nat
  /-- physical tiles that fail SRAM or tile BIST -/
  tilesFailed : List Nat
  /-- (physical tile, bank) that fail SRAM BIST (R618) -/
  banksFailed : List (Nat × Nat)
  /-- the AES known-answer test passes (R162) -/
  aesOk : Bool
  /-- REFCLK_AON is present (R698) -/
  refclkAon : Bool
deriving DecidableEq, Repr

/-- The commands of the block, one constructor per row of spec/opcode_table.json. -/
inductive Instr where
  -- the opcodes of sections 5.5 to 5.8, issued on mailbox `n`
  | init (n : Mbx) (h : Hdr) (annals : BitVec 32)
  | setPlacement (n : Mbx) (h : Hdr) (mask value : BitVec 10)
  | setSeed (n : Mbx) (h : Hdr) (seed : BitVec 128)
  | loadTree (n : Mbx) (h : Hdr) (source : BitVec 48) (count : BitVec 16)
  | openGroup (n : Mbx) (h : Hdr) (members : BitVec 16) (slots sizeCode : BitVec 8)
  | closeGroup (n : Mbx) (h : Hdr)
  | setTick (n : Mbx) (h : Hdr) (period : BitVec 16) (leapFloor holiday : BitVec 8)
  | repairApprove (n : Mbx) (h : Hdr) (request : BitVec 32) (decision : BitVec 8)
  | bindTenant (n : Mbx) (h : Hdr) (mailbox label : BitVec 8) (unbind : Bool)
  | alloc (n : Mbx) (h : Hdr) (label memory : BitVec 8) (size : BitVec 64)
  | free (n : Mbx) (h : Hdr) (allocation : BitVec 32)
  | fwUpdate (n : Mbx) (h : Hdr) (address : BitVec 48) (length : BitVec 32)
  | createDesc (n : Mbx) (h : Hdr) (address : BitVec 48)
  | destroyDesc (n : Mbx) (h : Hdr) (descriptor : BitVec 16)
  | loadOwners (n : Mbx) (h : Hdr) (table : BitVec 16) (source : BitVec 48)
  | topk (n : Mbx) (h : Hdr) (o : CompressOps)
  | quant (n : Mbx) (h : Hdr) (o : CompressOps)
  | lowrank (n : Mbx) (h : Hdr) (o : CompressOps)
  | residualFlush (n : Mbx) (h : Hdr) (bucket : BitVec 8) (fromBucket : Bool) (source destination : BitVec 16)
  | maskGen (n : Mbx) (h : Hdr) (output threshold : BitVec 16) (step : BitVec 32) (random : BitVec 16)
  | bcast (n : Mbx) (h : Hdr) (source destination : BitVec 16) (fromOwners : Bool)
  | reduceToOne (n : Mbx) (h : Hdr) (o : CompressOps)
  | bucketOpen (n : Mbx) (h : Hdr) (o : CompressOps)
  | bucketAdd (n : Mbx) (h : Hdr) (bucket : BitVec 8) (descriptor : BitVec 16)
  | bucketSeal (n : Mbx) (h : Hdr) (bucket : BitVec 8)
  | streamOpen (n : Mbx) (h : Hdr) (o : StreamOps)
  | streamClose (n : Mbx) (h : Hdr)
  | kvPut (n : Mbx) (h : Hdr) (layer : BitVec 16) (first positions : BitVec 32) (source : BitVec 16)
  | kvHandoff (n : Mbx) (h : Hdr) (o : HandoffOps)
  | kvStage (n : Mbx) (h : Hdr) (layer : BitVec 16) (first positions : BitVec 32)
  | kvCommit (n : Mbx) (h : Hdr) (positions : BitVec 32)
  | kvEvict (n : Mbx) (h : Hdr) (firstLayer layerCount : BitVec 16)
  | traceStart (n : Mbx) (h : Hdr) (kindMask : BitVec 32) (label : BitVec 8) (allLabels : Bool)
  | traceStop (n : Mbx) (h : Hdr)
  | watchTensor (n : Mbx) (h : Hdr) (descriptor layer operator : BitVec 16) (step : BitVec 32) (action : BitVec 8)
  | breakSet (n : Mbx) (h : Hdr) (core kind : BitVec 8) (address : BitVec 32) (hits : BitVec 16)
  | countersSnapshot (n : Mbx) (h : Hdr) (set : BitVec 8) (destination : BitVec 48)
  | unknownOpcode (n : Mbx) (h : Hdr) (opcode : BitVec 16)
  -- mailboxes
  | submissionTailDoorbell (n : Mbx) (tail : Word) (stores : List HostStore)
  | completionHeadDoorbell (n : Mbx) (head : Word)
  | mailboxEnable (n : Mbx) (value : Word)
  | mailboxDisable (n : Mbx) (value : Word)
  | commandStart (n : Mbx)
  -- BAR0 writes and reads with an effect of their own
  | fplModeWrite (value : Word)
  | placementTakesEffect (fn : MovFn)
  | tickSnap (value : Word)
  | tikCableDlyWrite (value : Word)
  | trayWrite (value : Word)
  | designateMaster
  | undesignateMaster
  | pwrResetKey
  | recoverGo (value : Word)
  | openSettingWrite (value : Word)
  | halt
  | resume
  | step (core : CtrlCore)
  | watchCancel (mask : BitVec 16)
  | intAck (mask : BitVec 11)
  | metCollectRead
  | loReadLatch (offset : BitVec 26)
  | clvGrpStateRead (group : Fin 256)
  | rcCounterRead (offset : BitVec 26)
  | bar0Misaligned (write : Bool) (offset : BitVec 26) (size : Nat)
  | registerWrite (offset : BitVec 26) (value : Word)
  -- BAR4 and the CXL window
  | bar4Read (offset : Word) (length : Nat)
  | bar4Write (offset : Word) (data : List Byte)
  | windowRead (offset : BitVec 40) (cached : Bool)
  | windowWrite (offset : BitVec 40) (data : List Byte)
  | birsp (offset : BitVec 40) (dirty : Option (List Byte))
  | stagingReadTimeout (offset : BitVec 40)
  -- the tick and the plan
  | tickBoundary (firmwarePlan : List PlanEntry) (vcoreSettled : Bool)
  | planEntryStart (resource : BitVec 16) (appended : List PlanEntry)
  | compressEntryDone (resource : BitVec 16) (engineFault : Bool)
  | codecEntryDone (resource : BitVec 16)
  | transmitEntryDone (p : Port)
  | entryOverrun (resource : BitVec 16)
  | groupSlip (group : Fin 256)
  | groupStalled (group : Fin 256)
  | tickFrame (p : Port) (h : LysHdr) (b : TickBody) (measuredOffset : Int)
  | tickLock
  | cableFault
  | tickReportSend
  | tickReport (p : Port) (h : LysHdr) (window : BitVec 48) (count : BitVec 16)
  | leapLower
  | peerDelaySend (p : Port)
  | peerDelayRequest (p : Port) (h : LysHdr) (number : BitVec 16) (received : WireTime)
  | peerDelayResponse (p : Port) (h : LysHdr) (number : BitVec 16) (t2 t3 t4 : WireTime)
  | holdoverEntry
  | almanacLost
  | eraBoundary
  | tickWrapEraChange
  -- eras and membership
  | joinAnnounce
  | electionStart
  | proclamationSend
  | proclamation (p : Port) (h : LysHdr) (b : ProcBody)
  | becomeMaster
  | eraFrame (p : Port) (h : LysHdr) (b : ProcBody)
  | eraFramePeriodic
  | topologyForm
  | topologyMissing
  | helloSend (p : Port)
  | hello (p : Port) (h : LysHdr) (b : HelloBody)
  | linkReport (p : Port) (h : LysHdr) (b : ReportBody)
  | topologySegment (p : Port) (h : LysHdr) (b : TopoBody)
  | joinRequest (p : Port) (h : LysHdr) (b : ReportBody)
  | memberLost (p : Port) (h : LysHdr) (member : BitVec 12)
  | childAttach (p : Port) (h : LysHdr)
  | duplicateNotice (p : Port) (h : LysHdr) (serial : BitVec 64)
  -- Lysesh chunks and control frames
  | chunkSegment (p : Port) (h : LysHdr) (payload : List Byte)
  | ack (p : Port) (h : LysHdr)
  | reAsk (p : Port) (h : LysHdr) (reason : BitVec 8) (missing : BitVec 32)
  | reasmTimeout (p : Port) (stream : Bool) (handle : BitVec 16) (seq : BitVec 32)
  | ackTimeout (p : Port) (stream : Bool) (handle : BitVec 16) (seq : BitVec 32)
  | slipNotice (p : Port) (h : LysHdr) (tick : BitVec 48) (group : BitVec 16) (count : BitVec 32)
  | exponentNotice (p : Port) (h : LysHdr) (group : BitVec 16) (bucket exponent : BitVec 8)
  | grant (p : Port) (h : LysHdr) (limit : BitVec 32)
  | adopt (p : Port) (h : LysHdr) (first : BitVec 32)
  | adoptReply (p : Port) (h : LysHdr) (first : BitVec 32) (accepted : Bool)
  | abort (p : Port) (h : LysHdr) (status : BitVec 16)
  | handoffBegin (p : Port) (h : LysHdr) (first positions : BitVec 32) (firstLayer layersM1 bppUnits format : BitVec 8)
  | handoffReply (p : Port) (h : LysHdr) (status : BitVec 16) (limit : BitVec 32)
  | handoffGrant (p : Port) (h : LysHdr) (limit : BitVec 32)
  | handoffDone (p : Port) (h : LysHdr) (status : BitVec 16)
  | credit (p : Port) (h : LysHdr) (limits : Vector (BitVec 30) 4)
  | creditSend (p : Port)
  | creditSyncSend (p : Port)
  | creditSync (p : Port) (h : LysHdr) (sent : Vector (BitVec 30) 4)
  | laneSwap (p : Port) (h : LysHdr) (kind lane : BitVec 8) (swapTick : BitVec 48)
  | macControlFrame (p : Port)
  | fcsErrorFrame (p : Port) (badFcs : Bool)
  | portUp (p : Port) (rate : BitVec 2) (limits : Vector (BitVec 30) 4)
  | portDown (p : Port)
  | laneSignalLoss (p : Port) (lane : Fin 4) (peerSpareFree : Bool)
  | laneDegraded (p : Port) (lane : Fin 4)
  | laneSwapExecute (p : Port)
  | quadSettled (q : Quad)
  -- the Reckoner island
  | tapEntryTake
  | intervalEnd
  | islandBoot (checksPass : Bool)
  | islandSupplyLoss
  | islandDebugAccess
  | sealFuseBlow
  | clockAnomaly (deviation : BitVec 16)
  -- power, clocks and resets
  | brownHoldEntry (vcoreMv : BitVec 12)
  | requalificationStart (vcoreMv : BitVec 12)
  | requalificationComplete
  | brownHoldResume (failed : List Nat)
  | brownoutReset
  | powerReset (aonLost : Bool)
  | fundamentalReset
  | deviceReset
  | startup (b : BootInputs)
  | sequenceError
  | thermalCompare (readings : List (Nat × Nat))
  | thermalTrip
  | sensorTimeout (sensor : Nat)
  | clockLockLoss (domain : Fin 25)
  | tickLogicFault
  | hostLinkDown
  | hostLinkUp (width : BitVec 5) (speed : BitVec 3) (flit cxl hdm : Bool)
  -- repair and background work
  | engineParityError (tile : Tile) (engine : Fin 4)
  | tileFailure (tile : Tile)
  | tileCopyDone (logical : Fin 64)
  | tileSwitch (logical : Fin 64)
  | bankRepair (tile : Tile) (bank : Fin 48)
  | hbmRowRepair (stack : Stack) (detail : Word)
  | pageRetire (stack : Stack) (page : Word)
  | backgroundTask (unit : Fin 90) (overdue passed : List (Fin 5))
  | uncorrectableEcc (address : DevAddr)
  | breakpointHit (core : CtrlCore) (slot : Fin 4) (pc : Word)
  | clockLockRegained (domain : Fin 25)
  | metRecRead (offset : BitVec 21)
  | unlistedFrameType (p : Port)
deriving DecidableEq, Repr

end Sys2Proof
end

