-- ==== Sys2Proof/Decode.lean ====
section
/-!
DEFINITION. The command that a word of the opcode table spells. No row of spec/opcode_table.json gives
its command any bits, so no word spells one. The 64-byte command entry of a submission ring has its
decoder and its encoder in `Machine/Operands.lean`.
-/
namespace Sys2Proof

def decodeTableWord (_nbits _w : Nat) : Option Instr := none

end Sys2Proof
end

