-- ==== Sys2Proof/Config.lean ====
section
/-!
DEFINITION. The values the spec leaves open: opaque constants without a body. Nothing can be proved
about what they answer, so a statement that mentions them holds for every choice.
-/
namespace Sys2Proof.Config

/-- A place the device or its firmware may choose freely among several that the spec allows (which free
pool page, which spare, which staging slot): the draw's number in, a proposal out (log 8). -/
opaque choice : Nat → Nat

/-- A value the spec leaves open after an operation (what an uninitialised or undefined word holds),
by the number of the draw (log 8). -/
opaque freeWord : Nat → BitVec 32

/-- A byte of memory whose contents a reset leaves undefined, by the number of the draw. -/
opaque freeByte : Nat → BitVec 8

/-- Whether ECDSA P-384 accepts these bytes as a Uahias image (R233, R568; log 10). -/
opaque imageAuthentic : List (BitVec 8) → Bool

/-- The Uahias version that a firmware image carries (log 10). -/
opaque imageVersion : List (BitVec 8) → BitVec 16

/-- The island's private key, written into its OTP at factory test (R482; log 10). -/
opaque islandPrivate : BitVec 256

/-- The per-signature secret with which the island signs these bytes, by attempt (R482; log 10). -/
opaque islandSecret : List (BitVec 8) → Nat → BitVec 256

/-- Skovven's private key (R482; log 10). -/
opaque factoryPrivate : BitVec 256

/-- The per-signature secret with which Skovven signs these bytes, by attempt (R482; log 10). -/
opaque factorySecret : List (BitVec 8) → Nat → BitVec 256

/-- An unset CDC or trace value that the spec does not give: (what, argument) (log 8). -/
opaque unstated : Nat → Nat → Nat

end Sys2Proof.Config
end

