-- ==== Sys2Proof/Machine/Bits.lean ====
section
/-!
DEFINITION. Byte order (R11: little-endian), association lists and vectors: the plain helpers that
every other file of the machine uses.
-/
namespace Sys2Proof.Machine

/-- `n` bytes of `v`, least significant first (R11). -/
def leBytes : Nat → Nat → List Byte
  | 0, _ => []
  | n + 1, v => BitVec.ofNat 8 v :: leBytes n (v / 256)

/-- The number that little-endian bytes spell. -/
def fromLe : List Byte → Nat
  | [] => 0
  | b :: bs => b.toNat + 256 * fromLe bs

/-- `n` bytes of `v`, most significant first (frames, section 8.2). -/
def beBytes (n v : Nat) : List Byte := (leBytes n v).reverse

/-- The number that big-endian bytes spell. -/
def fromBe (bs : List Byte) : Nat := fromLe bs.reverse

/-- The little-endian field of `n` bytes at byte `i`; bytes past the end count as 0. -/
def field (bs : List Byte) (i n : Nat) : Nat := fromLe ((bs.drop i).take n)

/-- `bs` cut or filled with zeros to exactly `n` bytes. -/
def fit (n : Nat) (bs : List Byte) : List Byte := bs.take n ++ List.replicate (n - bs.length) 0

/-- The signed reading of the low `w` bits of `v`. -/
def signed (w v : Nat) : Int := (BitVec.ofNat w v).toInt

/-- `v` as a two's complement number of `w` bits. -/
def unsigned (w : Nat) (v : Int) : Nat := (BitVec.ofInt w v).toNat

/-- Bit `i` of `v`, as a Bool. -/
def bit (v i : Nat) : Bool := v.testBit i

/-- A Bool as bit `i`. -/
def bitAt (b : Bool) (i : Nat) : Nat := if b then 2 ^ i else 0

/-- `a` rounded up to a multiple of `n`. -/
def roundUp (a n : Nat) : Nat := (a + n - 1) / n * n

/-- ⌈a / n⌉. -/
def ceilDiv (a n : Nat) : Nat := (a + n - 1) / n

/-! ### Association lists, keys strictly rising -/

def assoc {α : Type} (k : Nat) : List (Nat × α) → Option α
  | [] => none
  | (j, v) :: t => if j = k then some v else assoc k t

def assocSet {α : Type} (k : Nat) (v : α) : List (Nat × α) → List (Nat × α)
  | [] => [(k, v)]
  | (j, w) :: t => if k < j then (k, v) :: (j, w) :: t else if j = k then (k, v) :: t else (j, w) :: assocSet k v t

def assocDel {α : Type} (k : Nat) (l : List (Nat × α)) : List (Nat × α) := l.filter fun e => e.1 != k

/-- `f` applied to the value of key `k`, if it is there. -/
def assocMod {α : Type} (k : Nat) (f : α → α) (l : List (Nat × α)) : List (Nat × α) :=
  l.map fun e => if e.1 = k then (e.1, f e.2) else e

/-- The lowest key from `i` on, below `i + fuel`, that is not in the list. -/
def lowestFree {α : Type} (l : List (Nat × α)) : Nat → Nat → Option Nat
  | _, 0 => none
  | i, fuel + 1 => if (assoc i l).isNone then some i else lowestFree l (i + 1) fuel

/-! ### Vectors -/

/-- Component `i` changed by `f`. -/
def vmod {α : Type} {n : Nat} (v : Vector α n) (i : Fin n) (f : α → α) : Vector α n := v.set i (f v[i])

/-- Component `i`, a default out of range. -/
def vget {α : Type} {n : Nat} (v : Vector α n) (i : Nat) (dflt : α) : α := if h : i < n then v[i] else dflt

/-- Component `i` changed by `f`; nothing out of range. -/
def vset {α : Type} {n : Nat} (v : Vector α n) (i : Nat) (x : α) : Vector α n :=
  if h : i < n then v.set i x else v

/-- `f` applied to every component, through the list of them. -/
def vmap {α : Type} {n : Nat} (f : α → α) (v : Vector α n) : Vector α n :=
  (List.range n).foldl (fun w i => if h : i < n then w.set i (f w[i]) else w) v

/-- `a + b` as a counter that saturates at its top (R15: RC counters that saturate). -/
def satAdd {w : Nat} (a : BitVec w) (b : Nat) : BitVec w := BitVec.ofNat w (min (a.toNat + b) (2 ^ w - 1))

/-- Is `a` in the cyclic window of length `span` that starts at `base`, modulo `m`? -/
def within (m base span a : Nat) : Bool := (a + m - base % m) % m < span

/-- The first element of a list that satisfies `p`, with its place. -/
def findIdx {α : Type} (p : α → Bool) : List α → Nat → Option (Nat × α)
  | [], _ => none
  | x :: t, i => if p x then some (i, x) else findIdx p t (i + 1)

/-- Element `i` of a list replaced. -/
def replaceAt {α : Type} (i : Nat) (x : α) (l : List α) : List α := l.set i x

end Sys2Proof.Machine
end

