-- ==== Sys2Proof/Machine/Crc.lean ====
section
/-!
DEFINITION. CRC-32C, SHA-256 and AES-128 as the spec names them: the chunk check of section 8.3, the
record digests of chapter 11 and the keyed generator of section 3.9 (log 10).
-/
namespace Sys2Proof.Machine

/-! ### CRC-32C: reflected polynomial 0x82F63B78, initial value and final exclusive-or all ones -/

def crcStep (poly c : BitVec 32) : Nat → BitVec 32
  | 0 => c
  | n + 1 => crcStep poly (if c.getLsbD 0 then (c >>> 1) ^^^ poly else c >>> 1) n

def crcByte (poly c : BitVec 32) (b : Byte) : BitVec 32 := crcStep poly (c ^^^ b.zeroExtend 32) 8

def crc32 (poly : BitVec 32) (bs : List Byte) : BitVec 32 := ~~~ (bs.foldl (crcByte poly) 0xFFFF_FFFF)

def crc32c (bs : List Byte) : BitVec 32 := crc32 0x82F63B78 bs

/-- The frame check sequence of an Ethernet frame, the CRC-32 of IEEE 802.3 (PRESUMED, log 39). -/
def frameCheck (bs : List Byte) : BitVec 32 := crc32 0xEDB88320 bs

/-! ### SHA-256

The constants are the leading 32 bits of the fractional parts of roots of primes: square roots of the first
eight for the initial digest, cube roots of the first 64 for the rounds. -/

/-- The bits below `2 ^ n` of the largest `x` at least `x0` whose `e`-th power is at most `v`. -/
def rootBits (e v : Nat) : Nat → Nat → Nat
  | 0, x0 => x0
  | n + 1, x0 => rootBits e v n (if (x0 + 2 ^ n) ^ e ≤ v then x0 + 2 ^ n else x0)

/-- 32 bits after the point of the `e`-th root of `p`. -/
def rootFraction (e p : Nat) : BitVec 32 := BitVec.ofNat 32 (rootBits e (p * 2 ^ (32 * e)) 38 0)

/-- Primes below 312, of which there are 64. -/
def smallPrimes : List Nat :=
  (List.range 312).filter fun n => 1 < n && [2, 3, 5, 7, 11, 13, 17].all fun q => n = q || n % q != 0

def roundConstants : List (BitVec 32) := smallPrimes.map (rootFraction 3)

/-- Three rotations of a word, the exclusive or of which each Σ is. -/
def mixRotations (x : BitVec 32) (i j k : Nat) : BitVec 32 := x.rotateRight i ^^^ x.rotateRight j ^^^ x.rotateRight k

/-- Two rotations and a shift, as each σ of the message schedule. -/
def mixShift (x : BitVec 32) (i j k : Nat) : BitVec 32 := x.rotateRight i ^^^ x.rotateRight j ^^^ x >>> k

/-- The eight working words of a digest. -/
structure Digest where
  a : BitVec 32
  b : BitVec 32
  c : BitVec 32
  d : BitVec 32
  e : BitVec 32
  f : BitVec 32
  g : BitVec 32
  h : BitVec 32

def Digest.initial : Digest :=
  let r := rootFraction 2
  ⟨r 2, r 3, r 5, r 7, r 11, r 13, r 17, r 19⟩

/-- One round: `kw` is the sum of the round's constant and its message word. -/
def Digest.round (s : Digest) (kw : BitVec 32) : Digest :=
  let choose := s.g ^^^ (s.e &&& (s.f ^^^ s.g))
  let majority := (s.a &&& s.b) ||| (s.c &&& (s.a ||| s.b))
  let t := s.h + mixRotations s.e 6 11 25 + choose + kw
  { a := t + mixRotations s.a 2 13 22 + majority, b := s.a, c := s.b, d := s.c, e := s.d + t, f := s.e, g := s.f, h := s.g }

def Digest.add (s t : Digest) : Digest :=
  ⟨s.a + t.a, s.b + t.b, s.c + t.c, s.d + t.d, s.e + t.e, s.f + t.f, s.g + t.g, s.h + t.h⟩

def Digest.bytes (s : Digest) : List Byte := [s.a, s.b, s.c, s.d, s.e, s.f, s.g, s.h].flatMap fun w => beBytes 4 w.toNat

/-- The rounds over a window of 16 message words: each takes the oldest and puts one more behind. -/
def digestRounds : List (BitVec 32) → List (BitVec 32) → Digest → Digest
  | [], _, s => s
  | k :: ks, w, s =>
    let at_ := fun i => w.getD i 0
    let next := at_ 0 + mixShift (at_ 1) 7 18 3 + at_ 9 + mixShift (at_ 14) 17 19 10
    digestRounds ks (w.drop 1 ++ [next]) (s.round (k + at_ 0))

def digestBlock (s : Digest) (block : List Byte) : Digest :=
  let words := (List.range 16).map fun i => BitVec.ofNat 32 (fromBe ((block.drop (4 * i)).take 4))
  s.add (digestRounds roundConstants words s)

/-- SHA-256 of a byte string: 32 bytes. -/
def sha256 (bs : List Byte) : List Byte :=
  let bits := beBytes 8 (8 * bs.length)
  let message := bs ++ [0x80] ++ List.replicate ((119 - bs.length % 64) % 64) 0 ++ bits
  let blocks := (List.range (message.length / 64)).map fun i => (message.drop (64 * i)).take 64
  (blocks.foldl digestBlock .initial).bytes

/-! ### AES-128 -/

/-- Multiplication by x in GF(2^8) modulo x^8 + x^4 + x^3 + x + 1. -/
def xtime (b : Byte) : Byte := if b.getLsbD 7 then (b <<< 1) ^^^ 0x1B else b <<< 1

def gmulN : Nat → Byte → Byte → Byte
  | 0, _, _ => 0
  | n + 1, a, b => (if b.getLsbD 0 then a else 0) ^^^ gmulN n (xtime a) (b >>> 1)

def gmul (a b : Byte) : Byte := gmulN 8 a b

/-- a^254, the inverse in GF(2^8), 0 for 0. -/
def ginv (a : Byte) : Byte :=
  let a2 := gmul a a
  let a4 := gmul a2 a2
  let a8 := gmul a4 a4
  let a16 := gmul a8 a8
  let a32 := gmul a16 a16
  let a64 := gmul a32 a32
  let a128 := gmul a64 a64
  gmul a2 (gmul a4 (gmul a8 (gmul a16 (gmul a32 (gmul a64 a128)))))

def sbox (a : Byte) : Byte :=
  let i := ginv a
  i ^^^ i.rotateLeft 1 ^^^ i.rotateLeft 2 ^^^ i.rotateLeft 3 ^^^ i.rotateLeft 4 ^^^ 0x63

def xorBytes (a b : List Byte) : List Byte := (a.zip b).map fun p => p.1 ^^^ p.2

/-- The next round key from a round key and its round constant. -/
def nextKey (k : List Byte) (rcon : Byte) : List Byte :=
  let w3 := k.drop 12
  let t := ((w3.drop 1) ++ (w3.take 1)).map sbox
  let t := xorBytes t [rcon, 0, 0, 0]
  let w0 := xorBytes (k.take 4) t
  let w1 := xorBytes ((k.drop 4).take 4) w0
  let w2 := xorBytes ((k.drop 8).take 4) w1
  w0 ++ w1 ++ w2 ++ xorBytes w3 w2

/-- Row shift on the column-major state: byte i comes from byte 5i mod 16. -/
def shiftRows (s : List Byte) : List Byte := (List.range 16).map fun i => s.getD (5 * i % 16) 0

def mixColumn (c : List Byte) : List Byte :=
  match c with
  | [a, b, c, d] =>
    [xtime a ^^^ xtime b ^^^ b ^^^ c ^^^ d, a ^^^ xtime b ^^^ xtime c ^^^ c ^^^ d,
     a ^^^ b ^^^ xtime c ^^^ xtime d ^^^ d, xtime a ^^^ a ^^^ b ^^^ c ^^^ xtime d]
  | _ => c

def mixColumns (s : List Byte) : List Byte :=
  mixColumn (s.take 4) ++ mixColumn ((s.drop 4).take 4) ++ mixColumn ((s.drop 8).take 4) ++ mixColumn (s.drop 12)

/-- The remaining rounds: state, round key, round constant. -/
def aesRounds : Nat → List Byte → List Byte → Byte → List Byte
  | 0, s, _, _ => s
  | 1, s, k, r => xorBytes (shiftRows (s.map sbox)) (nextKey k r)
  | n + 2, s, k, r =>
    let k' := nextKey k r
    aesRounds (n + 1) (xorBytes (mixColumns (shiftRows (s.map sbox))) k') k' (xtime r)

/-- AES-128 encryption of one 16-byte block. -/
def aes128 (key block : List Byte) : List Byte := aesRounds 10 (xorBytes block key) key 1

end Sys2Proof.Machine
end

