-- ==== Sys2Proof/Machine/Ledger.lean ====
section
/-!
DEFINITION. Ledger arithmetic (chapter 3): rounding, the value of an element, conversion into and out
of the ledger, stores with saturation, and the keyed generator.
-/
namespace Sys2Proof.Machine

/-- num / den rounded to the nearest integer, ties to even (R125). -/
def roundHalfEven (num : Int) (den : Nat) : Int :=
  let q := num / (den : Int)
  let r := num % (den : Int)
  if 2 * r < den then q else if (den : Int) < 2 * r then q + 1 else if q % 2 = 0 then q else q + 1

/-- num / den toward zero. -/
def truncZero (num : Int) (den : Nat) : Int := if num < 0 then -(-num / (den : Int)) else num / (den : Int)

/-- m × 2^k rounded half even. -/
def scaleRound (m : Int) (k : Int) : Int :=
  if 0 ≤ k then m * 2 ^ k.toNat else roundHalfEven m (2 ^ (-k).toNat)

/-- The bit length of |x| (R140). -/
def bitLength (x : Int) : Nat := if x = 0 then 0 else x.natAbs.log2 + 1

/-! ### Formats (Tables 3-1 and 4-2) -/

def fBF16 : Nat := 0
def fE4M3 : Nat := 1
def fE5M2 : Nat := 2
def fINT8 : Nat := 3
def fINT4 : Nat := 4
def fS16 : Nat := 5
def fL48 : Nat := 6
def fL24 : Nat := 7
def fFP32 : Nat := 8

/-- A dyadic number man × 2^exp. -/
structure Dyadic where
  man : Int
  exp : Int
deriving DecidableEq, Repr

/-- A float pattern with `eb` exponent and `fb` fraction bits; `top` says how the top exponent reads:
0 as infinity and NaN, 1 as numbers but for the all-ones pattern (E4M3). -/
def floatValue (eb fb top raw : Nat) : Option Dyadic :=
  let s := raw / 2 ^ (eb + fb) % 2
  let e := raw / 2 ^ fb % 2 ^ eb
  let f := raw % 2 ^ fb
  let bias : Int := 2 ^ (eb - 1) - 1
  let sign : Int := if s = 1 then -1 else 1
  if e = 2 ^ eb - 1 && (top = 0 || f = 2 ^ fb - 1) then none
  else if e = 0 then some ⟨sign * f, 1 - bias - fb⟩
  else some ⟨sign * (2 ^ fb + f), (e : Int) - bias - fb⟩

/-- The exact value of an element pattern; none for NaN and infinity. `scale` is the S16 block scale.
L48 and L24 patterns are ledger units and are converted by `toLedger` itself. -/
def elemValue (fmt raw : Nat) (scale : Int) : Option Dyadic :=
  if fmt = fBF16 then floatValue 8 7 0 raw
  else if fmt = fE4M3 then floatValue 4 3 1 raw
  else if fmt = fE5M2 then floatValue 5 2 0 raw
  else if fmt = fINT8 then some ⟨signed 8 raw, 0⟩
  else if fmt = fINT4 then some ⟨signed 4 raw, 0⟩
  else if fmt = fS16 then some ⟨signed 16 raw, scale⟩
  else if fmt = fL48 then some ⟨signed 48 raw, 0⟩
  else if fmt = fL24 then some ⟨signed 24 raw, 0⟩
  else floatValue 8 23 0 raw

/-- A converted input: m, whether it was rounded, and its dust in units of 2^(E−16). -/
structure Converted where
  m : Int
  inexact : Bool
  dust : Int
deriving DecidableEq, Repr

/-- R125, R126: conversion into the ledger at exponent `e`; none for 0x0304. -/
def toLedger (fmt raw : Nat) (scale e : Int) : Option Converted :=
  match elemValue fmt raw scale with
  | none => none
  | some v =>
    if fmt = fL48 || fmt = fL24 then some ⟨v.man, false, 0⟩
    else
      let k := v.exp - e
      let m := scaleRound v.man k
      if 2 ^ 62 ≤ m.natAbs then none
      else if 0 ≤ k then some ⟨m, false, 0⟩
      else
        let den : Nat := 2 ^ (-k).toNat
        let rest := v.man - m * (den : Int)
        some ⟨m, rest != 0, roundHalfEven (rest * 2 ^ 16) den⟩

/-- The least and greatest integers of a ledger format (R128). -/
def ledgerLo (fmt : Nat) : Int := if fmt = fL24 then -(2 ^ 23) else -(2 ^ 47)
def ledgerHi (fmt : Nat) : Int := if fmt = fL24 then 2 ^ 23 - 1 else 2 ^ 47 - 1

/-- A store with saturation (section 3.4). -/
def saturate (x lo hi : Int) : Int := min (max x lo) hi

/-! ### Conversion out of the ledger (R143) -/

/-- A rounded number as a pattern, and whether it was saturated. -/
structure Narrowed where
  raw : Nat
  sat : Bool
deriving DecidableEq, Repr

/-- Magnitude m × 2^e as a float with `p` significant bits and least step 2^lsb: the pattern without
its sign, rounded to nearest even, the exponent without an upper limit. -/
def roundMag (m : Nat) (e : Int) (p : Nat) (lsb : Int) : Nat :=
  let top := max (e + (m.log2 + 1 : Nat) - p) lsb
  let mant := (scaleRound (m : Int) (e - top)).toNat
  let (mant, top) := if mant = 2 ^ p then (2 ^ (p - 1), top + 1) else (mant, top)
  if mant < 2 ^ (p - 1) then mant else (top - lsb + 1).toNat * 2 ^ (p - 1) + (mant - 2 ^ (p - 1))

/-- A float format: significant bits, least step, largest finite pattern, sign bit. A zero that a negative value rounds
to has the sign that the spec leaves open, and any other zero is positive (DESIGN CHOICE, log 14). -/
def narrowFloat (fmt : Nat) (m e : Int) (p : Nat) (lsb : Int) (top sign : Nat) : Narrowed :=
  if m = 0 then ⟨0, false⟩
  else
    let mag := roundMag m.natAbs e p lsb
    let neg := if mag = 0 then Config.unstated fmt m.natAbs % 2 = 1 && m < 0 else m < 0
    ⟨min mag top + (if neg then 2 ^ sign else 0), top < mag⟩

def narrowInt (w : Nat) (lo hi v : Int) : Narrowed :=
  ⟨unsigned w (saturate v lo hi), v < lo || hi < v⟩

/-- One element of every format but S16 (R143). -/
def narrow (fmt : Nat) (m e : Int) : Narrowed :=
  if fmt = fBF16 then narrowFloat fmt m e 8 (-133) 0x7F7F 15
  else if fmt = fE4M3 then narrowFloat fmt m e 4 (-9) 0x7E 7
  else if fmt = fE5M2 then narrowFloat fmt m e 3 (-16) 0x7B 7
  else if fmt = fINT8 then narrowInt 8 (-128) 127 (scaleRound m e)
  else if fmt = fINT4 then narrowInt 4 (-8) 7 (scaleRound m e)
  else if fmt = fL48 then narrowInt 48 (-(2 ^ 47)) (2 ^ 47 - 1) m
  else if fmt = fL24 then narrowInt 24 (-(2 ^ 23)) (2 ^ 23 - 1) m
  else narrowFloat fmt m e 24 (-149) 0x7F7F_FFFF 31

/-- The scale of an S16 group (R143): the smallest c that fits every element, searched upward. -/
def s16Scale (ms : List Int) (e : Int) : Nat → Int → Int
  | 0, _ => 127
  | n + 1, c =>
    if ms.all fun m => let v := scaleRound m (e - c); decide (-32768 ≤ v) && decide (v ≤ 32767) then c
    else s16Scale ms e n (c + 1)

/-- An S16 group: its scale and its elements. -/
def narrowS16 (ms : List Int) (e : Int) : Int × List Narrowed :=
  let c := if ms.all (· = 0) then 0 else s16Scale ms e 255 (-128)
  (c, ms.map fun m => narrowInt 16 (-32768) 32767 (scaleRound m (e - c)))

/-! ### The keyed generator (R146–R150) -/

/-- The 16-bit number u of element `i` (Table 3-6, R148). -/
def drawU (seed : BitVec 128) (layer operator step purpose i : Nat) : Nat :=
  let block := beBytes 2 layer ++ beBytes 2 operator ++ beBytes 4 step ++ [BitVec.ofNat 8 purpose]
    ++ beBytes 7 (i / 8)
  field (aes128 (leBytes 16 seed.toNat) block) (2 * (i % 8)) 2

/-- x rounded stochastically to the grid 2^k with u (R149), as a count of grid steps. -/
def stochastic (x : Int) (k u : Nat) : Int :=
  let q := x / (2 ^ k : Int)
  let a := x - q * 2 ^ k
  if (u : Int) < a * 2 ^ 16 / (2 ^ k : Int) then q + 1 else q

end Sys2Proof.Machine
end

