-- ==== Sys2Proof/Machine/Compress.lean ====
section
/-!
DEFINITION. The four compressors (chapter 6): how each splits a record's ledger values, the records of
Tables 6-2 and 6-3, their sizes, what a receiver rebuilds from them, and the time model of Table 6-5.
-/
namespace Sys2Proof.Machine

def pad8 (n : Nat) : Nat := roundUp n 8

/-- `bs` padded with zero bytes to a multiple of 8. -/
def padded8 (bs : List Byte) : List Byte := fit (pad8 bs.length) bs

/-! ### Parameters (R267, R272, R275) -/

def cNone : Nat := 0
def cTopk : Nat := 1
def cQuant : Nat := 2
def cLowrank : Nat := 3

def paramK (p : Word) : Nat := p.toNat % 2 ^ 17
def paramW (p : Word) : Nat := p.toNat % 2 ^ 5
def paramR (p : Word) : Nat := p.toNat % 2 ^ 9
def paramInt4 (p : Word) : Bool := p.getLsbD 12
def paramH (p : Word) : Nat := p.toNat / 2 ^ 16 % 2 ^ 6

/-- Reserved bits of the parameter (R267, R272, R275, R704). -/
def paramReserved (comp : Nat) (p : Word) : Bool :=
  if comp = cNone then p != 0
  else if comp = cTopk then p.toNat / 2 ^ 17 != 0
  else if comp = cQuant then p.toNat / 2 ^ 5 != 0
  else (p &&& 0xFFC0_EE00) != 0

/-- The parameter lies in the range of Table 6-6 for rows of `n` elements (R282). -/
def paramOk (comp : Nat) (p : Word) (n : Nat) : Bool :=
  if comp = cTopk then 1 ≤ paramK p && paramK p ≤ 65536
  else if comp = cQuant then paramW p = 16 || paramW p = 8 || paramW p = 4
  else if comp = cLowrank then 1 ≤ paramR p && paramR p ≤ 160 && paramR p ≤ n
  else true

/-! ### Selection (R263, R284) -/

/-- Ranking order: larger magnitude first, then lower index. -/
def ranksBefore (a b : Int × Nat) : Bool :=
  a.1.natAbs > b.1.natAbs || (a.1.natAbs = b.1.natAbs && a.2 < b.2)

def rankInsert (a : Int × Nat) : List (Int × Nat) → List (Int × Nat)
  | [] => [a]
  | b :: t => if ranksBefore a b then a :: b :: t else b :: rankInsert a t

def rankSort : List (Int × Nat) → List (Int × Nat)
  | [] => []
  | a :: t => rankInsert a (rankSort t)

/-- The indices of the first k elements in ranking order; indices count from `first`. -/
def selectTop (k first : Nat) (xs : List Int) : List Nat :=
  ((rankSort (xs.zip ((List.range xs.length).map (first + ·)))).take k).map (·.2)

/-! ### Splits -/

/-- A value split exactly: t + r = x (R128). -/
structure Split where
  t : Int
  r : Int
deriving DecidableEq, Repr

def lim47 : Int := 2 ^ 47 - 1

/-- The clamp of the QUANT and LOWRANK pseudocode. -/
def clamp47 (x : Int) : Int := saturate x (-lim47) lim47

/-- Smallest s ≥ 0, from `s` on, with max ≤ M × 2^s. -/
def gridScale (m mx : Nat) : Nat → Nat → Nat
  | 0, s => s
  | fuel + 1, s => if mx ≤ m * 2 ^ s then s else gridScale m mx fuel (s + 1)

def maxAbs (xs : List Int) : Nat := xs.foldl (fun a x => max a x.natAbs) 0

/-- Largest code of a width (section 6.4). -/
def maxCode (w : Nat) : Nat := 2 ^ (w - 1) - 1

/-- One value of the grid: half-even, or stochastic with u (R271). -/
def gridRound (c : Int) (s : Nat) : Option Nat → Int
  | none => roundHalfEven c (2 ^ s)
  | some u => stochastic c s u

/-- R270: one block of QUANT: its scale, codes and splits. `us` gives u per element when stochastic. -/
def quantBlock (w : Nat) (xs : List Int) (us : List (Option Nat)) : Nat × List Int × List Split :=
  let cs := xs.map clamp47
  let s := gridScale (maxCode w) (maxAbs cs) 48 0
  let qs := (cs.zip us).map fun p =>
    let q := gridRound p.1 s p.2
    if lim47 < ((q * 2 ^ s).natAbs : Int) then truncZero p.1 (2 ^ s) else q
  (s, qs, (xs.zip qs).map fun p => ⟨p.2 * 2 ^ s, p.1 - p.2 * 2 ^ s⟩)

/-- Cut a list into pieces of `n`, `fuel` pieces at most. -/
def pieces {α : Type} (n : Nat) : Nat → List α → List (List α)
  | 0, _ => []
  | fuel + 1, l => if l.isEmpty then [] else l.take n :: pieces n fuel (l.drop n)

def dot (a b : List Int) : Int := (a.zip b).foldl (fun acc p => acc + p.1 * p.2) 0

/-- R273: the reconstruction of a row from p and its factor. `q` holds Q[j] per element j. -/
def lowrankRebuild (q : List (List Int)) (h s : Nat) (p : List Int) : List Int :=
  q.map fun row =>
    let t := roundHalfEven (dot p row) (2 ^ h) * 2 ^ s
    if lim47 < (t.natAbs : Int) then 0 else t

/-- R273: a row projected: its scale, p and splits. -/
def lowrankRow (int4 : Bool) (r h : Nat) (q : List (List Int)) (xs : List Int) (us : List (Option Nat)) :
    Nat × List Int × List Split :=
  let cs := xs.map clamp47
  let s := gridScale (if int4 then 7 else 127) (maxAbs cs) 48 0
  let a := (cs.zip us).map fun p => gridRound p.1 s p.2
  let p := (List.range r).map fun col => dot a (q.map fun row => row.getD col 0)
  let ts := lowrankRebuild q h s p
  (s, p, (xs.zip ts).map fun e => ⟨e.2, e.1 - e.2⟩)

/-! ### Records (Tables 6-2, 6-3) -/

/-- What a record needs besides the values: compressor parameters and the auxiliary operands. -/
structure RecAux where
  /-- TOPK: indices selected in the row -/
  chosen : List Nat
  /-- TOPK gathering: payload row bytes of an index, none without gathering -/
  payload : Option (Nat → List Byte)
  /-- u of each element of the range when rounding is stochastic -/
  us : List (Option Nat)
  /-- LOWRANK factor, Q[j] per element of the row, and the CRC of its bytes -/
  factor : List (List Int)
  factorCrc : Nat

/-- A formed record: its bytes, and per element t and r before the stores. -/
structure FormedRec where
  bytes : List Byte
  splits : List Split
  selected : Nat

def recHeader (row first scale count extra : Nat) : List Byte :=
  leBytes 4 row ++ leBytes 3 first ++ leBytes 1 scale ++ leBytes 4 count ++ leBytes 4 extra

def l48 (x : Int) : List Byte := leBytes 6 (unsigned 48 x)

/-- One block of QUANT codes packed in w bits (Table 6-3), pad elements 0. -/
def packCodes (w : Nat) (qs : List Int) : List Byte :=
  let qs := qs ++ List.replicate (64 - qs.length) 0
  if w = 16 then qs.flatMap fun q => leBytes 2 (unsigned 16 q)
  else if w = 8 then qs.map fun q => BitVec.ofInt 8 q
  else (List.range 32).map fun i =>
    BitVec.ofNat 8 (unsigned 4 (qs.getD (2 * i) 0) + 16 * unsigned 4 (qs.getD (2 * i + 1) 0))

/-- The record of elements `first …` of a row, with t stored in the L48 parcel range (R262). -/
def formRecord (comp : Nat) (p : Word) (row first : Nat) (xs : List Int) (aux : RecAux) : FormedRec :=
  let n := xs.length
  if comp = cNone then
    ⟨recHeader row first 0 n 0 ++ padded8 (xs.flatMap fun x => l48 (saturate x (ledgerLo fL48) (ledgerHi fL48))),
      xs.map fun x => ⟨x, 0⟩, 0⟩
  else if comp = cTopk then
    let picked := (List.range n).filter fun i => aux.chosen.contains (first + i)
    let splits := (List.range n).zip xs |>.map fun e => if picked.contains e.1 then ⟨e.2, 0⟩ else ⟨0, e.2⟩
    let sumT := splits.foldl (fun a (s : Split) => a + s.t) 0
    let sumR := splits.foldl (fun a (s : Split) => a + s.r) 0
    let lists := (picked.flatMap fun i => leBytes 4 (first + i)) ++ picked.flatMap fun i =>
      l48 (saturate (xs.getD i 0) (ledgerLo fL48) (ledgerHi fL48))
    let body := leBytes 8 (unsigned 64 sumT) ++ leBytes 8 (unsigned 64 sumR) ++ match aux.payload with
      | none => lists
      | some f => padded8 lists ++ picked.flatMap fun i => padded8 (f (first + i))
    ⟨recHeader row first 0 n picked.length ++ padded8 body, splits, picked.length⟩
  else if comp = cQuant then
    let w := paramW p
    let blocks := (pieces 64 (ceilDiv n 64) (xs.zip aux.us)).map fun b => quantBlock w (b.map (·.1)) (b.map (·.2))
    ⟨recHeader row first 0 n w ++ padded8 (blocks.map fun b => BitVec.ofNat 8 b.1)
        ++ blocks.flatMap fun b => packCodes w b.2.1,
      blocks.flatMap fun b => b.2.2, 0⟩
  else
    let (s, ps, splits) := lowrankRow (paramInt4 p) (paramR p) (paramH p) aux.factor xs aux.us
    ⟨recHeader row first s n aux.factorCrc ++ padded8 (ps.flatMap l48), splits, 0⟩

/-- The size a record of `n` elements is judged at when chunks are filled (R278, Table 6-3). -/
def recordSize (comp : Nat) (p : Word) (n payloadRow : Nat) (gather : Bool) : Nat :=
  if comp = cNone then 16 + pad8 (6 * n)
  else if comp = cTopk then
    let sel := min (paramK p) n
    16 + (if gather then 16 + pad8 (10 * sel) + sel * pad8 payloadRow else pad8 (16 + 10 * sel))
  else if comp = cQuant then 16 + pad8 (ceilDiv n 64) + ceilDiv n 64 * 8 * paramW p
  else 16 + pad8 (6 * paramR p)

/-! ### The receiver's side (R280) -/

/-- A record read back: where it lies, its t values, its length. -/
structure ReadRec where
  row : Nat
  first : Nat
  ts : List Int
  length : Nat
  /-- payload bytes after the values, for a gathering TOPK -/
  payload : List Byte

def readCode (w : Nat) (bs : List Byte) (j : Nat) : Int :=
  if w = 16 then signed 16 (field bs (2 * j) 2)
  else if w = 8 then signed 8 (field bs j 1)
  else signed 4 (field bs (j / 2) 1 / (if j % 2 = 0 then 1 else 16) % 16)

/-- One record at the head of `bs`; none when it is malformed or names another factor (R277). -/
def readRecord (comp : Nat) (p : Word) (payloadRow : Nat) (gather : Bool) (factor : List (List Int))
    (factorCrc : Nat) (bs : List Byte) : Option ReadRec :=
  if bs.length < 16 then none
  else
    let row := field bs 0 4
    let first := field bs 4 3
    let scale := field bs 7 1
    let n := field bs 8 4
    let extra := field bs 12 4
    let body := bs.drop 16
    if n = 0 then none
    else if comp = cNone then
      let len := 16 + pad8 (6 * n)
      if bs.length < len || extra != 0 then none
      else some ⟨row, first, (List.range n).map fun i => signed 48 (field body (6 * i) 6), len, []⟩
    else if comp = cTopk then
      let len := if gather then 16 + 16 + pad8 (10 * extra) + extra * pad8 payloadRow else 16 + pad8 (16 + 10 * extra)
      if n < extra || bs.length < len then none
      else
        let idx := (List.range extra).map fun i => field body (16 + 4 * i) 4
        let val := (List.range extra).map fun i => signed 48 (field body (16 + 4 * extra + 6 * i) 6)
        some ⟨row, first, (List.range n).map fun i =>
            match (idx.zip val).find? fun e => e.1 = first + i with
            | some e => e.2
            | none => 0,
          len, if gather then (body.drop (16 + pad8 (10 * extra))).take (extra * pad8 payloadRow) else []⟩
    else if comp = cQuant then
      let w := paramW p
      let nb := ceilDiv n 64
      let len := 16 + pad8 nb + nb * 8 * w
      if bs.length < len || extra != w then none
      else some ⟨row, first, (List.range n).map fun i =>
        readCode w (body.drop (pad8 nb + i / 64 * 8 * w)) (i % 64) * 2 ^ field body (i / 64) 1, len, []⟩
    else
      let r := paramR p
      let len := 16 + pad8 (6 * r)
      if bs.length < len || extra != factorCrc || n != factor.length then none
      else some ⟨row, first,
        lowrankRebuild factor (paramH p) scale ((List.range r).map fun i => signed 48 (field body (6 * i) 6)), len, []⟩

/-- All records of a parcel; none when one is malformed. -/
def readRecords (comp : Nat) (p : Word) (payloadRow : Nat) (gather : Bool) (factor : List (List Int))
    (factorCrc : Nat) : Nat → List Byte → Option (List ReadRec)
  | 0, bs => if bs.isEmpty then some [] else none
  | fuel + 1, bs =>
    if bs.isEmpty then some []
    else (readRecord comp p payloadRow gather factor factorCrc bs).bind fun r =>
      (readRecords comp p payloadRow gather factor factorCrc fuel (bs.drop r.length)).map (r :: ·)

/-! ### The time model (Table 6-5), in units of 1/1,800 ns so that every rate is exact -/

/-- Engine time of TOPK for one row of `n` elements: passes over ranges and the merge (R264, R265). -/
def topkTime (k n : Nat) : Nat :=
  let one := fun m => ceilDiv (min k m) 256 * (ceilDiv m 256 + 64)
  if n ≤ 65536 then one n
  else
    let full := n / 65536
    let rest := n % 65536
    let cand := full * min k 65536 + min k rest
    full * one 65536 + one rest + ceilDiv k 256 * (ceilDiv cand 256 + 64)

/-- Engine time of a record of `n` elements in ns × 5,600 (rates 1.4 and 1.6 per ns, 112.5 for HBM). -/
def engineTime (comp : Nat) (p : Word) (hostIdx : Bool) (n children : Nat) : Nat :=
  if comp = cTopk && !hostIdx then topkTime (paramK p) n * 4000
  else if comp = cLowrank then
    let l := if paramInt4 p then 25600 else 12800
    ceilDiv ((2 + children) * n * paramR p * 3500) l
  else ceilDiv n 256 * 4000

end Sys2Proof.Machine
end

