-- ==== Sys2Proof/Machine/Codec.lean ====
section
/-!
DEFINITION. The lossless codec (chapter 7): code-length tables, canonical codes, the built and the
fixed tables, the encoding and the decoding of a block, and the time bounds of Table 7-5.
-/
namespace Sys2Proof.Machine

/-! ### Code-length tables (R301, R302) -/

/-- The 256 lengths of a 128-byte table. -/
def tableLengths (bs : List Byte) : List Nat :=
  (List.range 256).map fun s => field bs (s / 2) 1 / (if s % 2 = 0 then 1 else 16) % 16

/-- The 128 bytes of 256 lengths. -/
def tableBytes (ls : List Nat) : List Byte :=
  (List.range 128).map fun i => BitVec.ofNat 8 (ls.getD (2 * i) 0 + 16 * ls.getD (2 * i + 1) 0)

def kraft (ls : List Nat) : Nat := ls.foldl (fun a l => if l = 0 then a else a + 2 ^ (12 - l)) 0

def tableValid (ls : List Nat) : Bool :=
  let used := ls.filter (· != 0)
  ls.all (· ≤ 12) && !used.isEmpty && (used == [1] || kraft ls == 4096)

/-! ### Canonical codes (R303) -/

/-- (code, length) per symbol: the codes of length `l`, symbols ascending, from `code` on. -/
def codesOfLength (ls : List Nat) (l : Nat) : Nat → List Nat → List (Nat × Nat × Nat) × Nat
  | code, [] => ([], code)
  | code, s :: t =>
    if ls.getD s 0 = l then
      let (r, c) := codesOfLength ls l (code + 1) t
      ((s, code, l) :: r, c)
    else codesOfLength ls l code t

def canonicalFrom (ls : List Nat) : Nat → Nat → Nat → List (Nat × Nat × Nat)
  | 0, _, _ => []
  | fuel + 1, l, code =>
    let (r, c) := codesOfLength ls l code (List.range 256)
    r ++ canonicalFrom ls fuel (l + 1) (c * 2)

/-- (symbol, codeword, length) of every symbol that has a code. -/
def canonical (ls : List Nat) : List (Nat × Nat × Nat) := canonicalFrom ls 12 1 0

/-! ### The built table (R305) -/

/-- A node of the construction: weight, order, and its leaves with their depths. -/
structure HuffNode where
  weight : Nat
  order : Nat
  leaves : List (Nat × Nat)

def nodeLess (a b : HuffNode) : Bool := a.weight < b.weight || (a.weight = b.weight && a.order < b.order)

def nodeInsert (a : HuffNode) : List HuffNode → List HuffNode
  | [] => [a]
  | b :: t => if nodeLess a b then a :: b :: t else b :: nodeInsert a t

def huffMerge : Nat → Nat → List HuffNode → List (Nat × Nat)
  | fuel + 1, next, a :: b :: t =>
    huffMerge fuel (next + 1)
      (nodeInsert ⟨a.weight + b.weight, next, (a.leaves ++ b.leaves).map fun l => (l.1, l.2 + 1)⟩ t)
  | _, _, a :: _ => a.leaves
  | _, _, [] => []

/-- The best symbol under a strict preference, first found kept otherwise. -/
def bestSym (better : Nat → Nat → Bool) : List Nat → Option Nat
  | [] => none
  | s :: t => match bestSym better t with
    | none => some s
    | some b => if better b s then some b else some s

/-- Lengthen codes until the Kraft sum is at most 4,096 (first loop of R305). -/
def kraftDown (f : List Nat) : Nat → Int → List Nat → Int × List Nat
  | 0, k, ls => (k, ls)
  | fuel + 1, k, ls =>
    if k ≤ 0 then (k, ls)
    else
      let cand := (List.range 256).filter fun s => ls.getD s 0 != 0 && ls.getD s 0 < 12
      let better := fun a b =>
        ls.getD a 0 > ls.getD b 0 || (ls.getD a 0 = ls.getD b 0 &&
          (f.getD a 0 < f.getD b 0 || (f.getD a 0 = f.getD b 0 && a > b)))
      match bestSym better cand with
      | none => (k, ls)
      | some s => kraftDown f fuel (k - 2 ^ (11 - ls.getD s 0)) (ls.set s (ls.getD s 0 + 1))

/-- Shorten codes until the Kraft sum is 4,096 (second loop of R305). -/
def kraftUp (f : List Nat) : Nat → Int → List Nat → List Nat
  | 0, _, ls => ls
  | fuel + 1, k, ls =>
    if 0 ≤ k then ls
    else
      let cand := (List.range 256).filter fun s => 1 < ls.getD s 0 && (2 ^ (12 - ls.getD s 0) : Int) ≤ -k
      let better := fun a b =>
        ls.getD a 0 > ls.getD b 0 || (ls.getD a 0 = ls.getD b 0 &&
          (f.getD a 0 > f.getD b 0 || (f.getD a 0 = f.getD b 0 && a < b)))
      match bestSym better cand with
      | none => ls
      | some s => kraftUp f fuel (k + 2 ^ (12 - ls.getD s 0)) (ls.set s (ls.getD s 0 - 1))

/-- How often each symbol occurs. -/
def frequencies (syms : List Nat) : List Nat :=
  syms.foldl (fun f s => f.set s (f.getD s 0 + 1)) (List.replicate 256 0)

/-- R305: the length-limited table of a symbol buffer. -/
def buildTable (syms : List Nat) : List Nat :=
  let f := frequencies syms
  let present := (List.range 256).filter fun s => f.getD s 0 != 0
  match present with
  | [] => List.replicate 256 0
  | [s] => (List.replicate 256 0).set s 1
  | _ =>
    let nodes := present.foldl (fun l s => nodeInsert ⟨f.getD s 0, s, [(s, 0)]⟩ l) []
    let depths := huffMerge 256 256 nodes
    let ls := depths.foldl (fun ls e => ls.set e.1 (min e.2 12)) (List.replicate 256 0)
    let (k, ls) := kraftDown f 4096 ((kraft ls : Int) - 4096) ls
    kraftUp f 4096 k ls

/-! ### Fixed tables (Table 7-4) -/

def inR (a b s : Nat) : Bool := a ≤ s && s ≤ b

/-- n of FT6. -/
def ft6n (x : Nat) : Nat :=
  if x = 0 then 2 else if x = 1 || x = 0xF then 3
  else if inR 2 3 x || inR 0xD 0xE x then 4
  else if x = 7 || x = 8 then 6 else 5

def fixedLength (t s : Nat) : Nat :=
  let m := s % 128
  match t with
  | 0 => 8
  | 1 => if s = 0 || s = 0xFF then 2 else if s = 1 || s = 0xFE then 4
    else if inR 2 3 s || inR 0xFC 0xFD s then 5 else if inR 4 7 s || inR 0xF8 0xFB s then 6
    else if inR 8 0xF s || inR 0xF0 0xF7 s then 8 else if inR 0x10 0x1F s || inR 0xE0 0xEF s then 11 else 12
  | 2 => if s = 0 then 1 else if s = 1 then 8 else 9
  | 3 => if inR 0x36 0x3D m then 5 else if m = 0 || inR 0x32 0x35 m || inR 0x3E 0x3F m then 6
    else if inR 0x21 0x31 m || inR 0x40 0x4D m then 9 else 10
  | 4 => if inR 0x3D 0x44 m then 5 else if m = 0 || inR 0x39 0x3C m || inR 0x45 0x46 m then 6
    else if inR 0x28 0x38 m || inR 0x47 0x54 m then 9 else 10
  | 5 =>
    let e := m / 8
    if inR 5 8 e then 7 else if e = 0 || e = 3 || e = 4 || e = 9 || e = 10 then 8
    else if e = 1 || e = 2 || inR 11 13 e then 9 else 10
  | 6 => ft6n (s % 16) + ft6n (s / 16)
  | _ => if s = 0 || s = 0xFF then 2 else if s = 1 || s = 0xFE then 8 else 9

def fixedTable (t : Nat) : List Nat := (List.range 256).map (fixedLength t)

/-! ### Encoding (R296–R313) -/

/-- How a block takes its table (Table 7-3); `plain` is a block of a stream without coding. -/
inductive TableChoice where
  | plain | built
  | fixedNo (t : Nat)
  | host (table : List Byte)

/-- The symbol buffer S (R299). -/
def splitPlanes (split : Bool) (bs : List Byte) : List Nat :=
  let s := bs.map (·.toNat)
  if split then
    (List.range (bs.length / 2)).map (fun i => s.getD (2 * i + 1) 0)
      ++ (List.range (bs.length / 2)).map fun i => s.getD (2 * i) 0
  else s

def joinPlanes (split : Bool) (s : List Nat) : List Byte :=
  if split then
    let h := s.length / 2
    (List.range s.length).map fun i => BitVec.ofNat 8 (if i % 2 = 1 then s.getD (i / 2) 0 else s.getD (h + i / 2) 0)
  else s.map (BitVec.ofNat 8 ·)

/-- Bits of a codeword, most significant first. -/
def codeBits (code len : Nat) : List Bool := (List.range len).map fun i => code.testBit (len - 1 - i)

/-- Bits into bytes, the first in bit 7 (R304). -/
def packBits : Nat → List Bool → List Byte
  | 0, _ => []
  | n + 1, bs =>
    BitVec.ofNat 8 ((List.range 8).foldl (fun a i => a * 2 + (if bs.getD i false then 1 else 0)) 0)
      :: packBits n (bs.drop 8)

/-- One sub-stream: stored bit and bytes (R304, R311). -/
def encodeSub (codes : List (Nat × Nat × Nat)) (syms : List Nat) : Bool × List Byte :=
  let words := syms.map fun s => codes.find? fun c => c.1 = s
  let bits := words.foldl (fun a w => a + match w with
    | some c => c.2.2
    | none => 0) 0
  if words.any (·.isNone) || syms.length ≤ ceilDiv bits 8 then (true, syms.map (BitVec.ofNat 8 ·))
  else (false, packBits (ceilDiv bits 8) (words.flatMap fun w => match w with
    | some c => codeBits c.2.1 c.2.2
    | none => []))

def blockHeader (mode fixed : Nat) (split : Bool) (u stored : Nat) (crc : BitVec 32) : List Byte :=
  [BitVec.ofNat 8 (mode + fixed * 4 + bitAt split 5), 1, 0, 0] ++ leBytes 4 u ++ leBytes 4 stored ++ leBytes 4 crc.toNat

/-- An encoded block, with whether the size rules made it raw and how many sub-streams were stored. -/
structure EncodedBlock where
  bytes : List Byte
  fallback : Bool
  storedSubs : Nat

def rawBlock (bs : List Byte) (fallback : Bool) : EncodedBlock :=
  ⟨blockHeader 0 0 false bs.length (bs.length + 16) (crc32c bs) ++ bs, fallback, 0⟩

/-- One block (R296–R313). -/
def encodeBlock (choice : TableChoice) (split : Bool) (bs : List Byte) : EncodedBlock :=
  let coded := fun (mode fixed : Nat) (ls : List Nat) =>
    let syms := splitPlanes split bs
    let subs := (pieces 2048 32 syms).map (encodeSub (canonical ls))
    let fixedPart := 80 + (if mode = 1 then 128 else 0)
    let c := fixedPart + (subs.map fun s => s.2.length).foldl (· + ·) 0
    if bs.length ≤ c + 128 || subs.any (fun s => !s.1 && 3072 < s.2.length) then rawBlock bs true
    else
      let dir := (List.range 32).flatMap fun j => match subs[j]? with
        | some s => leBytes 2 (s.2.length + bitAt s.1 15)
        | none => [0, 0]
      ⟨blockHeader mode fixed split bs.length c (crc32c bs) ++ dir ++ (if mode = 1 then tableBytes ls else [])
          ++ subs.flatMap (·.2), false, (subs.filter (·.1)).length⟩
  match choice with
  | .plain => rawBlock bs false
  | .built => coded 1 0 (buildTable (splitPlanes split bs))
  | .fixedNo t => coded 2 t (fixedTable t)
  | .host table => coded 1 0 (tableLengths table)

/-- Bytes cut into blocks and coded (R293). -/
def encodeBlocks (choice : TableChoice) (split : Bool) (bs : List Byte) : List EncodedBlock :=
  (pieces 65536 (ceilDiv bs.length 65536) bs).map (encodeBlock choice split)

/-! ### Decoding (R324, Table 7-7) -/

/-- `n` symbols from bits; the symbols and the bits left, none on a codeword outside the table. -/
def decodeSyms (codes : List (Nat × Nat × Nat)) : Nat → List Bool → Option (List Nat × List Bool)
  | 0, bits => some ([], bits)
  | n + 1, bits =>
    match codes.find? fun c => c.2.2 ≤ bits.length && codeBits c.2.1 c.2.2 == bits.take c.2.2 with
    | none => none
    | some c => (decodeSyms codes n (bits.drop c.2.2)).map fun r => (c.1 :: r.1, r.2)

def byteBits (bs : List Byte) : List Bool := bs.flatMap fun b => (List.range 8).map fun i => b.getLsbD (7 - i)

/-- Check 6 of Table 7-7 for one sub-stream. -/
def decodeSub (codes : List (Nat × Nat × Nat)) (stored : Bool) (n : Nat) (bs : List Byte) : Option (List Nat) :=
  if stored then (if bs.length = n then some (bs.map (·.toNat)) else none)
  else match decodeSyms codes n (byteBits bs) with
    | some (syms, rest) => if rest.length < 8 && rest.all (· == false) then some syms else none
    | none => none

/-- All sub-streams in order. -/
def decodeSubs (codes : List (Nat × Nat × Nat)) : List (Bool × Nat × Nat) → List Byte → Option (List Nat)
  | [], _ => some []
  | (stored, len, n) :: t, bs =>
    (decodeSub codes stored n (bs.take len)).bind fun s => (decodeSubs codes t (bs.drop len)).map (s ++ ·)

/-- Total length of the block at the head of `bs`, for stepping over blocks. -/
def blockStored (bs : List Byte) : Nat := field bs 8 4

/-- Mode of a block (Table 7-1). -/
def blockMode (bs : List Byte) : Nat := field bs 0 1 % 4

/-- Length U of a block. -/
def blockLength (bs : List Byte) : Nat := field bs 4 4

/-- Checks 1 and 2 of Table 7-7 on the block at the head of `bs`. -/
def blockHeadOk (bs : List Byte) : Bool :=
  let b0 := field bs 0 1
  let fixed := b0 / 4 % 8
  let split := bit b0 5
  let u := blockLength bs
  field bs 1 1 = 1 && field bs 2 2 = 0 && b0 / 64 = 0 && blockMode bs != 3 && (blockMode bs = 2 || fixed = 0)
    && !(blockMode bs = 0 && split) && u != 0 && u ≤ 65536 && !(split && u % 2 = 1)

/-- Checks 1 to 5 of Table 7-7 on the block at the head of `bs`; bytes missing at the end of the data
fail check 5. -/
def blockWellFormed (bs : List Byte) : Bool :=
  let mode := blockMode bs
  let u := blockLength bs
  let stored := field bs 8 4
  let head := blockHeadOk bs
  let ns := ceilDiv u 2048
  let dir := (List.range 32).map fun j => field bs (16 + 2 * j) 2
  let body :=
    if mode = 0 then stored = u + 16
    else
      (mode != 1 || tableValid (tableLengths ((bs.drop 80).take 128)))
        && dir.all (fun e => e / 4096 % 8 = 0)
        && (List.range ns).all (fun j => let e := dir.getD j 0
            1 ≤ e % 4096 && e % 4096 ≤ 3072 && (!bit e 15 || e % 4096 = min 2048 (u - 2048 * j)))
        && (dir.drop ns).all (· = 0)
        && stored = 80 + (if mode = 1 then 128 else 0) + ((dir.take ns).map (· % 4096)).foldl (· + ·) 0
  head && body && stored ≤ bs.length

/-- A decoded block: its bytes, or none for a codec format error (R324). -/
def decodeBlock (bs : List Byte) : Option (List Byte) :=
  let b0 := field bs 0 1
  let mode := b0 % 4
  let u := field bs 4 4
  let out :=
    if mode = 0 then some ((bs.drop 16).take u)
    else
      let ls := if mode = 1 then tableLengths ((bs.drop 80).take 128) else fixedTable (b0 / 4 % 8)
      let dir := (List.range 32).map fun j => field bs (16 + 2 * j) 2
      let subs := (List.range (ceilDiv u 2048)).map fun j =>
        (bit (dir.getD j 0) 15, dir.getD j 0 % 4096, min 2048 (u - 2048 * j))
      (decodeSubs (canonical ls) subs (bs.drop (80 + (if mode = 1 then 128 else 0)))).map (joinPlanes (bit b0 5))
  if !blockWellFormed bs then none
  else match out with
    | some o => if crc32c o = BitVec.ofNat 32 (field bs 12 4) then some o else none
    | none => none

/-- A run of blocks to its bytes; none on the first format error. -/
def decodeBlocks : Nat → List Byte → Option (List Byte)
  | 0, bs => if bs.isEmpty then some [] else none
  | fuel + 1, bs =>
    if bs.isEmpty then some []
    else match decodeBlock bs with
      | none => none
      | some out => (decodeBlocks fuel (bs.drop (blockStored bs))).map (out ++ ·)

/-! ### Time bounds (Table 7-5), in CLK_CODEC cycles -/

/-- Symbols of sub-streams 0, 8, 16 and 24. -/
def s0Count (u : Nat) : Nat :=
  ([0, 8, 16, 24].map fun j => min 2048 (u - 2048 * j)).foldl (· + ·) 0

def encodeCycles (choice : TableChoice) (u : Nat) : Nat :=
  match choice with
  | .plain => 20 + ceilDiv u 64
  | .built => ceilDiv u 64 + 1024 + ceilDiv (s0Count u) 2 + 64
  | _ => ceilDiv u 64 + 32 + ceilDiv (s0Count u) 2 + 64

def decodeCycles (mode u : Nat) : Nat := if mode = 0 then 20 + ceilDiv u 64 else 52 + min u 2048

/-- Cycles that decode the block at the head of `bs`; one that is rejected takes those of a raw block when its head
says that it is one, and 2,100 at most otherwise (R315). -/
def blockCycles (good : Bool) (bs : List Byte) : Nat :=
  if good || (blockHeadOk bs && blockMode bs = 0) then decodeCycles (blockMode bs) (blockLength bs) else 2100

end Sys2Proof.Machine
end

