-- ==== Sys2Proof/Machine/Ecdsa.lean ====
section
/-!
DEFINITION. ECDSA over the curve P-256 with SHA-256, as R482 has the island sign its records and Skovven
certify its key: FIPS 186-5 with the curve's published constants (log 10). The private keys and the
per-signature secrets are the opaque constants of Config; nothing reads them but these definitions.
-/
namespace Sys2Proof.Machine

/-! ### The curve y² = x³ − 3x + b over the integers modulo p -/

/-- The field's prime. -/
def curveP : Nat := 2 ^ 256 - 2 ^ 224 + 2 ^ 192 + 2 ^ 96 - 1

/-- The order of the base point. -/
def curveN : Nat := 0xFFFFFFFF00000000FFFFFFFFFFFFFFFFBCE6FAADA7179E84F3B9CAC2FC632551

/-- The base point. -/
def curveBase : Nat × Nat :=
  (0x6B17D1F2E12C4247F8BCE6E563A440F277037D812DEB33A0F4A13945D898C296,
   0x4FE342E2FE1A7F9B8EE7EB4A7C0F9E162BCE33576B315ECECBB6406837BF51F5)

/-- `b ^ e` modulo `m`, over the low `n` bits of `e`. -/
def powMod (m : Nat) : Nat → Nat → Nat → Nat
  | 0, _, _ => 1
  | n + 1, b, e =>
    let r := powMod m n (b * b % m) (e / 2)
    if e % 2 = 1 then r * b % m else r

/-- The inverse modulo a prime. -/
def invMod (m a : Nat) : Nat := powMod m 256 (a % m) (m - 2)

/-- The line through two points with this slope meets the curve again, reflected. -/
def chord (slope : Nat) (a b : Nat × Nat) : Nat × Nat :=
  let x := (slope * slope + 2 * curveP - a.1 - b.1) % curveP
  (x, (slope * (a.1 + curveP - x) + curveP - a.2) % curveP)

/-- The sum of two points; none is the point at infinity. -/
def pointAdd : Option (Nat × Nat) → Option (Nat × Nat) → Option (Nat × Nat)
  | none, b => b
  | a, none => a
  | some a, some b =>
    if a.1 != b.1 then
      some (chord ((b.2 + curveP - a.2) * invMod curveP (b.1 + curveP - a.1) % curveP) a b)
    else if a.2 = b.2 && a.2 != 0 then
      some (chord ((3 * a.1 * a.1 + curveP - 3) * invMod curveP (2 * a.2) % curveP) a b)
    else none

/-- `k` times a point, over the low `n` bits of `k`. -/
def pointMul : Nat → Nat → Option (Nat × Nat) → Option (Nat × Nat)
  | 0, _, _ => none
  | n + 1, k, a =>
    let r := pointMul n (k / 2) (pointAdd a a)
    if k % 2 = 1 then pointAdd a r else r

/-- A secret as a number from 1 to n − 1. -/
def secretNat (w : BitVec 256) : Nat := w.toNat % (curveN - 1) + 1

/-- `k` times the base point. -/
def baseTimes (k : Nat) : Nat × Nat := (pointMul 256 k (some curveBase)).getD (0, 0)

/-- A pair as 64 bytes, each number big-endian (R482, Table of section 11.13). -/
def pairBytes (p : Nat × Nat) : List Byte := beBytes 32 p.1 ++ beBytes 32 p.2

/-- One attempt to sign the hash `z` with the private key `key` and the per-signature secret `k`. -/
def ecdsaPair (key k z : Nat) : Nat × Nat :=
  let r := (baseTimes k).1 % curveN
  (r, invMod curveN k * (z + r * key) % curveN)

/-- The signature: an attempt that gives a zero is made again with another secret (FIPS 186-5), at most
`n` times (log 10). -/
def ecdsaSign (key : BitVec 256) (secret : Nat → BitVec 256) (z : Nat) : Nat → Nat × Nat
  | 0 => ecdsaPair (secretNat key) (secretNat (secret 0)) z
  | n + 1 =>
    let a := ecdsaPair (secretNat key) (secretNat (secret (n + 1))) z
    if a.1 = 0 || a.2 = 0 then ecdsaSign key secret z n else a

/-- SHA-256 of the message as a number: its bytes big-endian. -/
def hashNat (body : List Byte) : Nat := fromBe (sha256 body)

/-- The number of further attempts after one that gives a zero (log 10). -/
def signAttempts : Nat := 8

/-- The island's public key: x then y (R482). -/
def islandKeyBytes : List Byte := pairBytes (baseTimes (secretNat Config.islandPrivate))

/-- The island's signature over these bytes: r then s (R482). -/
def islandSign (body : List Byte) : List Byte :=
  pairBytes (ecdsaSign Config.islandPrivate (Config.islandSecret body) (hashNat body) signAttempts)

/-- Skovven's signature over the serial number and the public key (R482; the form of the signed bytes,
the serial in eight bytes little-endian before the key's 64, is log 10's). -/
def islandCertBytes (serial : BitVec 64) : List Byte :=
  let body := leBytes 8 serial.toNat ++ islandKeyBytes
  pairBytes (ecdsaSign Config.factoryPrivate (Config.factorySecret body) (hashNat body) signAttempts)

end Sys2Proof.Machine
end

