-- ==== Sys2Proof/Machine/Objects.lean ====
section
/-!
DEFINITION. The plain data the device is made of: one structure per block of the register map and per
kind of object (mailbox, command in progress, descriptor, group, bucket, stream, chunk of work, port,
island, repair state). `Machine/State.lean` puts them together.
-/
namespace Sys2Proof.Machine

/-- Memory that a block holds: (address, byte) pairs, addresses strictly rising, no byte equal to what
an unlisted address reads as (0; log 4). -/
abbrev Memory := List Host.Cell

/-- A 64-bit register pair (R18): its value and the half last written to NAME_LO (R22). -/
structure Pair where
  value : BitVec 64
  lo : Word
deriving DecidableEq, Repr

/-- An era and a tick (R63, R95). -/
structure Stamp where
  era : BitVec 16
  tick : BitVec 48
deriving DecidableEq, Repr

/-! ### Global registers and the host interface (chapter 16) -/

/-- What fuses and straps hold: read by registers, written by no command of the host. -/
structure Fuses where
  /-- GLB_ID.variant: 1 EZ1-C, 2 EZ1-N -/
  variant : BitVec 2
  serial : BitVec 64
  /-- fused MAC base address (R380) -/
  macBase : BitVec 48
  /-- V0 in mV (chapter 13) -/
  v0 : BitVec 12
  /-- factory map (R582): physical tiles out of service -/
  factoryTiles : List Nat
  /-- factory map: (tile, bank, spare bank) -/
  factoryBanks : List (Nat × Nat × Nat)
  /-- factory map: (port, logical lane) on the quad's spare lane -/
  factoryLanes : List (Nat × Nat)
  /-- a crystal is mounted on MET_XI and MET_XO (R698) -/
  metCrystal : Bool
deriving DecidableEq, Repr

/-- GLB registers (Tables 16-4, 16-5, 16-6) and the MSI-X table (section 16.4). -/
structure Glb where
  uahias : BitVec 16
  ready : Bool
  initialised : Bool
  accessError : Bool
  tickFault : Bool
  hostLink : Bool
  firmwareFault : Bool
  memoryFault : Bool
  intEnable : BitVec 11
  intVec : Vector Byte 11
  /-- MSI-X table: four words per vector (log 9) -/
  msixTable : Vector Word 1024
  msixPending : BitVec 256
deriving DecidableEq, Repr

/-- HIF registers (Table 16-7). -/
structure Hif where
  flit : Bool
  width : BitVec 5
  speed : BitVec 3
  hdm : Bool
  cxl : Bool
  linkUp : Bool
  event : BitVec 4
  win : Vector Pair 4
deriving DecidableEq, Repr

/-- What the host sees of the device on its buses and pins, besides registers and memory. -/
structure Bus where
  /-- data of the last host read (BAR0, BAR4 or window), lowest byte first -/
  readData : List Byte
  /-- the last host read carried poison -/
  readPoison : Bool
  /-- the last window read is held by the device (Table 10-4) -/
  readHeld : Bool
  /-- MSI-X vectors sent, oldest first -/
  msi : List Byte
  /-- BROWN_N driven low (R699) -/
  brownLow : Bool
  /-- THERMTRIP_N driven low (R559) -/
  thermTripLow : Bool
  /-- rising edges driven on TICK_OUT (R91) -/
  tickOut : Nat
deriving DecidableEq, Repr

/-! ### Power and clocks (chapter 13) -/

structure Pwr where
  tj : Byte
  /-- hottest junction at the last comparison, in hundredths of a degree (R548, R550) -/
  hot : Nat
  level : BitVec 4
  /-- throttle level whose set point is posted and whose effect waits for a tick boundary (R550) -/
  levelNext : BitVec 4
  /-- level of the engine clocks, which follow a falling level late (R550) -/
  clockLevel : BitVec 4
  hold : Bool
  warn : Bool
  /-- requalification runs (R555) -/
  requal : Bool
  /-- requalification is complete and the boundary is awaited (R556) -/
  requalDone : Bool
  sequenceErr : Bool
  resetCount : Byte
  kind : BitVec 3
  event : Byte
  vwarn : BitVec 3
  brownCount : Word
  request : BitVec 12
  sensed : BitVec 12
  floor : BitVec 4
  bootCode : Byte
  stage : BitVec 4
  recoverResult : BitVec 2
  recoverLength : BitVec 24
  /-- PWR_RECOVER.go was written in the hold, which the boot core sits out (R574, R579) -/
  recoverGo : Bool
  /-- the main die is held in reset (R544, R559, PERST_N) -/
  inReset : Bool
  /-- held until PWRGOOD is cycled (R544, R687) or the rails are cycled (R559, R560) -/
  heldForPowerCycle : Bool
  /-- CLK_SENSE lost: level 8 is forced (R576) -/
  senseForced : Bool
  /-- sensors without a reading (R577) -/
  deadSensors : List Nat
  /-- CLK_LOCK.locked -/
  lock : BitVec 25
  /-- CLK_EVENT.lost -/
  clkEvent : BitVec 25
  /-- what CLK_FREQ shows of a domain that is not locked -/
  freq : Vector Word 25
deriving DecidableEq, Repr

/-! ### Flash (Table 13-7) and the field repair map (Tables 14-1 to 14-3) -/

structure PortCfg where
  ctrl : Word
  timers : Word
  peerMac : BitVec 48
  ip : Word
  peerIp : Word
  udp : Word
  ethertype : BitVec 16
  laneLimit : Word
deriving DecidableEq, Repr

structure MapEntry where
  kind : Byte
  unit : BitVec 16
  detail : Word
  stamp : Stamp
  crcOk : Bool
deriving DecidableEq, Repr

structure MapCopy where
  /-- magic, version and crc are valid (R584) -/
  headerOk : Bool
  generation : Word
  serial : BitVec 64
  entries : List MapEntry
deriving DecidableEq, Repr

structure Flash where
  /-- bytes 0–3 of the directory are "EZFL" (R565) -/
  directory : Bool
  placementWord : Word
  trayWord : Word
  cableWord : Word
  /-- the port configuration block is present (R379) -/
  portBlock : Bool
  ports : Vector (Option PortCfg) 16
  quadRate : Vector (BitVec 2) 4
  image : List Byte
  mapA : MapCopy
  mapB : MapCopy
deriving DecidableEq, Repr

/-! ### Placement (chapter 1) -/

structure Fpl where
  mode : BitVec 10
  active : BitVec 10
  event : BitVec 10
  planMiss : Word
  /-- an era boundary has passed during BROWN_HOLD (R51) -/
  eraPassed : Bool
deriving DecidableEq, Repr

/-! ### Almanac and membership (chapters 2 and 12) -/

/-- An announced era change (R99): last tick of the old era and settings of the new one. -/
structure EraChange where
  lastTick : BitVec 48
  period : BitVec 10
  holiday : BitVec 3
  floor : BitVec 4
deriving DecidableEq, Repr

structure Tik where
  era : BitVec 16
  /-- tick in force; before an era, the device's own count (R705) -/
  tick : BitVec 48
  /-- ns since the boundary that began the tick (R63) -/
  offset : BitVec 20
  /-- boundaries still to come before tick 0 of an era just established begins (R514; log 26) -/
  starting : BitVec 2
  eraValid : Bool
  period : BitVec 10
  leap : BitVec 4
  /-- announced leap level and the tick at which it takes effect (R84) -/
  leapNext : Option (BitVec 4 × BitVec 48)
  /-- master: raises that wait until the announced level is in force (R83, R84) -/
  leapOwed : Nat
  /-- master: sum of the last window judged, with what has come late for it (R82, R83) -/
  windowSum : Nat
  /-- holiday spacing code of the era in force -/
  holidayForce : BitVec 3
  leapFloor : BitVec 4
  /-- an era has been held or followed since the last reset, with these settings (R102) -/
  carried : Option (BitVec 10 × BitVec 3 × BitVec 4)
  isMaster : Bool
  /-- the master sends no tick and era frames (R522) -/
  silent : Bool
  source : BitVec 2
  locked : Bool
  holdover : Bool
  almanacLost : Bool
  -- TIK_CTRL
  holiday : BitVec 3
  leapMax : BitVec 4
  slipLimit : Byte
  guard : Byte
  /-- guard and slip limit in force (R104) -/
  guardForce : Byte
  slipForce : Byte
  -- snapshot
  snapPeriod : BitVec 10
  snapLeap : BitVec 4
  snapEra : BitVec 16
  snapNs : BitVec 20
  snapTick : BitVec 48
  holdoverLimit : BitVec 16
  cableDly : Byte
  planBase : Pair
  event : BitVec 7
  late : Word
  slips : Word
  /-- a cabled edge is ignored after a fault (R109) -/
  cableIgnored : Bool
  /-- ticks since the test of the cabled edge began (R109) -/
  cableRun : Nat
  /-- ticks since the last tick frame (R111) -/
  sinceFrame : Nat
  /-- ticks in holdover (R112) -/
  holdoverTicks : Nat
  /-- consecutive tick frames with the offset inside ±40 ns (R94) -/
  lockRun : Nat
  /-- this member found a late chunk in the current 16-tick window (R82) -/
  lateInWindow : Bool
  /-- children's counts for the current window (R82) -/
  childReports : Nat
  /-- consecutive ticks with a summed report of 0 on the master (R83) -/
  zeroTicks : Nat
  change : Option EraChange
  /-- causes of an era change that wait behind the announced one (R99) -/
  deferred : List EraChange
  /-- era that ended at the last era boundary, and the ticks since (R362) -/
  lastEra : BitVec 16
  sinceEra : Nat
  /-- the tick that ended at the last boundary (R74, R76) -/
  ended : Stamp
  /-- tick in which the latest tick report was sent (R82) -/
  lastReport : BitVec 48
deriving DecidableEq, Repr

/-- A Proclamation as strength and era (section 12.3). -/
structure Procl where
  priority : BitVec 4
  serial : BitVec 64
  era : BitVec 16
  hops : BitVec 8
deriving DecidableEq, Repr

structure Join where
  /-- TIK_MEMBER.member: member number in force -/
  member : BitVec 12
  tray : BitVec 9
  position : BitVec 3
  masterPri : BitVec 4
  duplicate : Bool
  designate : Bool
  topoValid : Bool
  edges : List (BitVec 12 × BitVec 12)
  members : List (BitVec 12)
  /-- topology segments received for the era to come or in force -/
  segments : List TopoBody
  /-- H: highest era number held or seen since the last reset -/
  highEra : BitVec 16
  electing : Bool
  best : Option Procl
  /-- largest proposed era received in a Proclamation (R514) -/
  maxProposed : BitVec 16
  /-- strength and member number of the master of the era held -/
  master : Option (Procl × BitVec 12)
  /-- hop count of the era in force on each port, if an era frame came in on it (R515) -/
  hopsAt : Vector (Option (BitVec 8)) 16
  parent : Option Port
  children : List Port
  /-- follows the era's ticks and is not yet a member (R523) -/
  attached : Bool
  /-- an era was left for that of a stronger master (R529, R530) -/
  merging : Bool
  /-- era whose segments gave the topology held (R537) -/
  topoEra : BitVec 16
  /-- copies of a Proclamation, for every port but this one, that a pending change of ERA holds (R36, R43) -/
  heldProcl : Option (ProcBody × Port)
  /-- link reports held by the master for the topology (R519) -/
  reports : List ReportBody
  /-- join requests not yet acted on, and the tick of the first (R524) -/
  joins : List ReportBody
  firstJoin : Option (BitVec 48)
  /-- join requests admitted by the announced change -/
  admitting : List ReportBody
  /-- members marked lost and not yet removed (R525), and those of them that the announced change removes -/
  lost : List (BitVec 12)
  removing : List (BitVec 12)
  /-- edges reported down by one end: (reporter, peer) (R525) -/
  downReports : List (BitVec 12 × BitVec 12)
deriving DecidableEq, Repr

/-! ### Mailboxes (chapter 5) -/

/-- A fetched entry that has not started. -/
structure Fetched where
  hdr : Hdr
  cmd : Cmd
  /-- a reserved flag or operand bit is set (0x0102) -/
  reserved : Bool
  /-- the tick in whose guard its doorbell came, if one (R71) -/
  rung : Option Stamp
deriving DecidableEq, Repr

/-- A finished completion or an event completion (Table 5-4). -/
structure Completion where
  tag : BitVec 16
  status : BitVec 16
  opcode : BitVec 16
  event : Bool
  lostBefore : Bool
  stamp : Stamp
  /-- bytes 20–31, byte 20 in bits 7:0 -/
  result : BitVec 96
  interrupt : Bool
deriving DecidableEq, Repr

structure Mailbox where
  enable : Bool
  vector : Byte
  depth : BitVec 4
  cqDev : Bool
  sqDev : Bool
  /-- MBX_STATUS.enabled: enabled or still draining -/
  enabled : Bool
  /-- fetching has stopped under R219, R250 or R255 -/
  stopped : Bool
  /-- completions are discarded under R255 -/
  discard : Bool
  label : Byte
  bound : Bool
  configError : Bool
  postError : Bool
  fetchError : Bool
  doorbellError : Bool
  sqBase : Pair
  cqBase : Pair
  sqHead : BitVec 12
  sqTail : BitVec 12
  cqHead : BitVec 12
  cqTail : BitVec 12
  phase : Bool
  eventLost : Word
  /-- an event was lost since the last event completion posted (R230) -/
  lostPending : Bool
  /-- completion count (R96) -/
  sequence : Word
  /-- the last tick in whose guard a doorbell came, and the tail before the first of them (R71) -/
  guardRung : Option (Stamp × BitVec 12)
  /-- standalone chunk sequence (R69) -/
  chunkSeq : Word
  fetched : List Fetched
  ready : List Completion
deriving DecidableEq, Repr

/-! ### Descriptors, owner tables, allocations (chapters 4 and 5) -/

structure Alloc where
  label : Byte
  hbm : Bool
  addr : Nat
  size : Nat
deriving DecidableEq, Repr

/-- A descriptor as created (Table 4-1) with the counts of R186. -/
structure Desc where
  format : Byte
  rank : BitVec 3
  errorMode : Bool
  view : BitVec 2
  transpose : Bool
  ownerValid : Bool
  packed : Bool
  allocation : Word
  base : BitVec 40
  sizeM1 : Vector (BitVec 24) 6
  /-- byte stride of stored dimension d + 1 -/
  stride : Vector (BitVec 40) 5
  owner : BitVec 10
  fill : BitVec 16
  plane : Word
  label : Byte
  /-- start of the allocation, fixed at creation -/
  start : Nat
  /-- packed: block numbers this member owns, in order (R192) -/
  ownBlocks : List Nat
  blockSize : Nat
  /-- member number in force at creation (R203) -/
  member : BitVec 12
  filled : Word
  dropped : Word
  destroying : Bool
  poisoned : Bool
deriving DecidableEq, Repr

structure OwnerTable where
  label : Byte
  block : Nat
  owners : List (BitVec 12)
  poisoned : Bool
deriving DecidableEq, Repr

/-! ### Groups, buckets, streams (chapters 9 and 10) -/

/-- A tree table entry (Table 9-1). -/
structure TreeEntry where
  member : BitVec 12
  parent : BitVec 12
  root : Bool
  alternate : BitVec 12
  altValid : Bool
deriving DecidableEq, Repr

/-- A neighbour in a group's tree: member, the port that reaches it, and the latest grant limit it
gave this member (R394). -/
structure Nbr where
  member : BitVec 12
  port : Port
  grant : BitVec 32
  /-- a child taken in later: the first sequence of its chunks that counts here (R415) -/
  since : Option (BitVec 32)
deriving DecidableEq, Repr

inductive SlotState where
  | free | gather | compute | held
deriving DecidableEq, Repr

/-- A chunk slot (Table 9-2). -/
structure Slot where
  state : SlotState
  seq : BitVec 32
deriving DecidableEq, Repr

/-- A checked chunk that a neighbour sent, waiting in its slot: where it came from, its sequence and
its bytes (header included). -/
structure RxChunk where
  port : Port
  /-- its port led to a child when it came (R416) -/
  child : Bool
  seq : BitVec 32
  bytes : List Byte
  /-- its records once plain: the payload, or what its codec blocks decode to -/
  parcel : List Byte
  /-- not coded, or its codec decode entry has run (R292) -/
  plain : Bool
  /-- records that only the own command's context can check: the attempt to answer (R277, R414) -/
  unchecked : Option (BitVec 2)
deriving DecidableEq, Repr

structure Group where
  label : Byte
  opener : Mbx
  slotsS : BitVec 8
  sizeCode : BitVec 8
  tree : List TreeEntry
  derived : Bool
  level : Nat
  parent : Option Nbr
  children : List Nbr
  nextSeq : BitVec 32
  slots : List Slot
  slip : Nat
  stalled : Bool
  /-- status with which the group faulted (R420) -/
  faulted : Option (BitVec 16)
  received : List RxChunk
  /-- the slips applied, newest first: the late tick and the count it brought (R76, R105) -/
  slipSeen : List (Stamp × Nat)
  /-- an adoption is asked for: oldest unacknowledged sequence (R415) -/
  adopting : Option (BitVec 32)
  /-- the limit last granted to the neighbours, counted from 0 at OPEN_GROUP (R394) -/
  granted : BitVec 32
deriving DecidableEq, Repr

/-- The elements that one record covers: flat row, first element, count (Table 6-2). -/
structure Rec where
  row : Nat
  first : Nat
  count : Nat
deriving DecidableEq, Repr

/-- The bucket balance record (Table 3-4), sums modulo 2^64. -/
structure BalRecord where
  input : BitVec 64
  transmitted : BitVec 64
  residualChange : BitVec 64
  lost : BitVec 64
  dustSum : BitVec 64
  dustCount : Word
  spills : BitVec 16
  exponent : Byte
  flags : Byte
deriving DecidableEq, Repr

structure Bucket where
  group : BitVec 8
  ops : CompressOps
  label : Byte
  hdr : Hdr
  /-- exponent in force -/
  exponent : Byte
  /-- descriptors added, in order, with the first padded element of each (R407) -/
  added : List (BitVec 16 × Nat)
  /-- padded elements added so far -/
  elements : Nat
  /-- rows added so far -/
  rows : Nat
  /-- input bytes added so far (R239) -/
  bytes : Nat
  /-- rows already cut into chunks -/
  cutRows : Nat
  chunks : Nat
  sealing : Bool
  record : BalRecord
  recordAddr : Nat
  bmax : Nat
  spillsOut : Word
  late : Bool
  /-- records of rows added that are not yet cut into a chunk (R408) -/
  waiting : List Rec
  /-- placement, key and code-length table in force at BUCKET_OPEN (R36, R155, R309) -/
  modes : BitVec 10
  seed : Option (BitVec 128)
  table : Option (List Byte)
  /-- TOPK: rows in several records whose selection is made (row, indices) (R263) -/
  chosen : List (Nat × List Nat)
  /-- status with which its work failed; BUCKET_SEAL reports it (R126, R421) -/
  failed : Option (BitVec 16)
deriving DecidableEq, Repr

/-- A residual store that the device keeps (R39): its descriptor as it was when last used. -/
structure ResStore where
  desc : Desc
  /-- zeroed since the last change of RESIDUAL to hardware mode, or used first after it (R39) -/
  fresh : Bool
deriving DecidableEq, Repr

/-- A stored page of a stream (R427): page number, device address, stored bytes. -/
structure Page where
  k : Nat
  addr : Nat
  len : Nat
deriving DecidableEq, Repr

structure Layer where
  /-- committed length C_l -/
  c : Nat
  /-- put frontier G_l -/
  g : Nat
  evicted : Bool
  tail : Nat
  pages : List Page
deriving DecidableEq, Repr

/-- A staged set (R446): the run of slots that one KV_STAGE fills. -/
structure StagedSet where
  layer : Nat
  first : Nat
  positions : Nat
  slot : Nat
  count : Nat
  filling : Bool
  /-- byte ranges of the set already written (offset, length) -/
  written : List (Nat × Nat)
deriving DecidableEq, Repr

structure Stream where
  label : Byte
  opener : Mbx
  decode : Bool
  format : Byte
  bpp : Nat
  maxPositions : Nat
  coding : Byte
  generation : BitVec 16
  layers : List Layer
  /-- host-supplied page addresses, entry l × pagesPerLayer + k (R428); empty in hardware mode -/
  pageList : List Nat
  nextPageSeq : BitVec 32
  nextChunkSeq : BitVec 32
  staged : List StagedSet
deriving DecidableEq, Repr

/-- An incoming handoff (section 10.3). -/
structure Incoming where
  stream : BitVec 16
  port : Port
  fromMember : BitVec 12
  first : Nat
  positions : Nat
  firstLayer : Nat
  layers : Nat
  limit : BitVec 32
  /-- oldest chunk not yet received, and those received after it -/
  nextSeq : BitVec 32
  got : List (BitVec 32)
  /-- pages stored so far, per layer, committed together at the end (R439) -/
  stored : List (Nat × Page)
deriving DecidableEq, Repr

/-! ### Commands in progress and their work -/

/-- What a started command still waits for. -/
inductive Wait where
  /-- its chunks or pages (`Work` items it owns) -/
  | work
  /-- placement changes of these functions (R42) -/
  | placement (mask : BitVec 10)
  /-- the announcement of its era change (R99) -/
  | eraChange
  /-- the end of the uses of a descriptor (R197) -/
  | descUses (descriptor : BitVec 16)
  /-- the completion of the other commands of its group (R387) -/
  | groupIdle
  /-- the chunks of its bucket (R409) -/
  | bucketSeal
  /-- its turn among the commands of one stream, bucket or residual store (R246, R154) -/
  | turn
  /-- back-invalidate responses of these window lines (Table 10-6, step 4) -/
  | birsp (lines : List Nat)
  /-- HANDOFF_REPLY -/
  | handoffReply
  /-- HANDOFF_DONE -/
  | handoffDone
  /-- an incoming handoff that its range needs (Table 10-5, step 1) -/
  | incoming
  /-- the writing of earlier trace records (R634) -/
  | traceDrain
deriving DecidableEq, Repr

/-- A started command that has not completed. -/
structure Running where
  id : Nat
  mbx : Mbx
  hdr : Hdr
  cmd : Cmd
  label : Byte
  wait : Wait
  /-- the tick in whose guard its doorbell came, if one (R71) -/
  rung : Option Stamp
  /-- placement in force at the start (R36, R37) -/
  modes : BitVec 10
  /-- key in force at the start (R155) -/
  seed : Option (BitVec 128)
  /-- code-length table copied at the start (R309) -/
  table : Option (List Byte)
  late : Bool
  filled : Word
  dropped : Word
  spills : Word
  /-- status found, to be reported once the command's work ends -/
  failed : Option (BitVec 16)
  /-- result bytes fixed at the start -/
  result : BitVec 96
  /-- outgoing handoff: grant limit and ports (R432, R438) -/
  limit : BitVec 32
  firstSeq : BitVec 32
  chunks : Nat
  /-- TOPK: rows in several records whose selection is made (row, indices) (R263) -/
  chosen : List (Nat × List Nat)
  /-- committed length of each layer of its stream at the start (R460) -/
  cs : List Nat
  /-- append lines it has back-invalidated (Table 10-6, step 2) -/
  lines : List Nat
  /-- first staging slot of the set it fills (R445) -/
  slot : Nat
deriving DecidableEq, Repr

/-- What a chunk or page of work does. -/
inductive Job where
  /-- standalone compress chunk: its records and its byte offset in the output -/
  | compress (recs : List Rec)
  /-- reduce chunk of a leaf or interior member (R135) or of the root (R136) -/
  | reduce (recs : List Rec) (index : Nat)
  /-- MASK_GEN over elements first … first + count − 1 -/
  | mask (first count : Nat)
  /-- RESIDUAL_FLUSH (one step, R237) -/
  | flush
  /-- broadcast chunk: byte offset and length in the source image; originating member -/
  | bcast (index offset length : Nat) (origin : BitVec 12)
  /-- encode page k of a layer into store (KV_PUT, commit step 6) -/
  | encodePage (layer k positions : Nat) (retire : Bool)
  /-- decode page k of a layer into a staged set -/
  | decodePage (layer k : Nat)
  /-- handoff chunk: pages (layer, k) -/
  | handoff (pages : List (Nat × Nat))
deriving DecidableEq, Repr

inductive Stage where
  /-- waits for children's chunks, or for the chunk from the parent -/
  | gather
  /-- ready for its engine entry -/
  | engine
  /-- ready for a codec entry -/
  | codec
  /-- ready for transmit entries on these ports -/
  | send (ports : List Port)
  /-- sent; ACKs awaited from these ports -/
  | held (ports : List Port)
  | done
deriving DecidableEq, Repr

/-- One chunk or page of work on this device (R69, R73). -/
structure Work where
  owner : Nat
  cls : BitVec 8
  handle : BitVec 16
  seq : BitVec 32
  job : Job
  stage : Stage
  /-- ports still to be sent to after the current ones, and ports whose ACK is awaited -/
  unacked : List Port
  /-- tick in which it was first planned -/
  planned : Option Stamp
  /-- last tick of its deadline, one past the last tick there is at the end of an era (R62, R73) -/
  deadline : Option Nat
  late : Bool
  started : Bool
  /-- tick in whose guard its command came, if it did (R71) -/
  guarded : Option Stamp
  /-- tick that a slip keeps it out of (R75) -/
  notIn : Option Stamp
  /-- records formed by the engine -/
  parcel : List Byte
  /-- chunk bytes, header included, once formed -/
  chunk : List Byte
  /-- blocks of a page already run by codec entries (R69) -/
  blocksDone : Nat
  /-- sums of the entry that formed the chunk: transmitted, residual change, lost (Table 3-3) -/
  balance : BitVec 64 × BitVec 64 × BitVec 64
  bmax : Nat
  covered : Nat
deriving DecidableEq, Repr

/-- A plan entry that a resource runs or carries over (R68). -/
structure RunEntry where
  entry : PlanEntry
  carried : Bool
  rerun : Bool
  reverify : Bool
  /-- began alone with a cost above the whole budget (R706) -/
  alone : Bool
  /-- the rerun after a second parity error: its own failure ends the command (R288) -/
  lastTry : Bool
deriving DecidableEq, Repr

/-- The tick plan in force (section 2.2). -/
structure Plan where
  valid : Bool
  /-- entries taken and not yet started, in buffer order -/
  entries : List PlanEntry
  /-- entries of the buffer already taken -/
  taken : Nat
  /-- (resource, ns assigned in this tick) (R65) -/
  assigned : List (Nat × Nat)
  running : List RunEntry
  /-- carried-over work, in order: reruns, resends, re-verifications (R68) -/
  carried : List RunEntry
  /-- resources whose only entry of this tick costs more than the whole budget (R706) -/
  alone : List Nat
  /-- units that an overdue background task takes from the foreground work of this tick (R87) -/
  displaced : List Nat
deriving DecidableEq, Repr

/-- Work in the hold (R557) that awaits re-verification. -/
inductive HoldItem where
  /-- a compress, hop or root entry that ended in the hold -/
  | entry (x : RunEntry)
  | codec (x : RunEntry)
  /-- a chunk received and acknowledged in the hold; of a handoff, the pages (layer, k) it brought -/
  | received (p : Port) (stream : Bool) (handle : BitVec 16) (seq : BitVec 32) (attempt : BitVec 2) (pages : List (Nat × Nat))
  | launched (p : Port) (stream : Bool) (handle : BitVec 16) (seq : BitVec 32)
deriving DecidableEq, Repr

/-! ### Lysesh ports and quads (chapter 8) -/

/-- A frame the device sends. -/
structure Frame where
  vc : BitVec 2
  type : Byte
  hdr : LysHdr
  body : List Byte
  /-- what precedes the Lysesh header on the wire, fixed as the frame starts (R335, R336, R379) -/
  link : List Byte
deriving DecidableEq, Repr

/-- A chunk whose bytes are kept until it is acknowledged (R354). -/
structure SentChunk where
  stream : Bool
  /-- the group, or the sender's own stream, and the handle its frames carry: the group, or the
  destination's stream (R435) -/
  handle : BitVec 16
  dest : BitVec 16
  seq : BitVec 32
  attempt : BitVec 2
  bytes : List Byte
  /-- segments still to leave in the latest attempt -/
  segments : List Nat
  /-- its last segment of the latest attempt has left -/
  left : Bool
deriving DecidableEq, Repr

/-- A chunk of which some segments are held (R353). -/
structure Partial where
  stream : Bool
  handle : BitVec 16
  seq : BitVec 32
  attempt : BitVec 2
  length : Nat
  /-- (segment number, payload) -/
  segments : List (Nat × List Byte)
deriving DecidableEq, Repr

/-- A chunk already acknowledged, with the attempts whose ACK has been sent (R356). -/
structure Acked where
  stream : Bool
  handle : BitVec 16
  seq : BitVec 32
  attempts : List (BitVec 2)
deriving DecidableEq, Repr

/-- A lane swap under way: logical lane, swap tick, accepted (R366). -/
structure Swap where
  lane : BitVec 2
  tick : BitVec 48
  accepted : Bool
  ours : Bool
  /-- not awaiting REPAIR_APPROVE (R367); a peer's proposal awaits none here -/
  approved : Bool
deriving DecidableEq, Repr

structure PortSt where
  ctrl : Word
  /-- encapsulation in force since link-up (R379) -/
  routedForce : Bool
  peer : BitVec 12
  peerValid : Bool
  /-- 0 disabled, 1 training, 2 up, 3 settling, 4 down -/
  state : BitVec 3
  rate : BitVec 2
  spare : Bool
  event : Byte
  timers : Word
  peerMac : Pair
  /-- LYS_PEER_MAC has been taken from a received frame (R380) -/
  macLearned : Bool
  ip : Word
  peerIp : Word
  udp : Word
  ethertype : BitVec 16
  laneMap : BitVec 20
  laneLimit : Word
  /-- LYS_TX_FRAMES … LYS_MACCTL, in the order of Table 8-11 -/
  counters : Vector Word 10
  /-- sent count S and latest limit of the peer, per channel (R348) -/
  sent : Vector (BitVec 30) 4
  limit : Vector (BitVec 30) 4
  /-- received count R per channel (R349) -/
  received : Vector (BitVec 30) 4
  /-- limit last sent to the peer per channel -/
  advertised : Vector (BitVec 30) 4
  /-- next channel whose limit goes into a credit field -/
  rotate : BitVec 2
  /-- frames queued for want of credit or while the quad settles -/
  queue : List Frame
  /-- frames put on the wire, oldest first -/
  wire : List Frame
  /-- the peer's tick in the last valid frame, in full (R97) -/
  heard : BitVec 48
  /-- (group handle, limit) of GRANTs that came before the group was open here (R394) -/
  grants : List (Nat × BitVec 32)
  /-- since link-up: the hello has been sent, and the peer's has been received (R510) -/
  helloSent : Bool
  helloHeard : Bool
  /-- its own proposal gave way to the peer's (R374) -/
  yielded : Bool
  /-- swap tick of a peer's proposal that this port has accepted: VC2 plans leave the port out for it (R366) -/
  leftOut : Option (BitVec 48)
  held : List SentChunk
  partials : List Partial
  acked : List Acked
  swap : Option Swap
  degraded : Option (BitVec 2)
  /-- peer-delay measurement: next request number, time t1 of the open request, link delay (2^−16 ns) -/
  delayNumber : BitVec 16
  delaySent : Option WireTime
  linkDelay : BitVec 64
deriving DecidableEq, Repr

structure QuadSt where
  rateActive : BitVec 2
  rateRequest : BitVec 2
  locked : Bool
  settling : Bool
  recalibrating : Bool
  /-- settle time still to pass, in ns (R365) -/
  remaining : Nat
  /-- settle time that the ports' budgets of this tick lose, in ns (R365, R373) -/
  lost : Nat
  /-- (port within quad, logical lane) on the spare lane -/
  spare : Option (Fin 4 × Fin 4)
deriving DecidableEq, Repr

/-! ### Tiles, HBM and repair (chapters 6, 7, 14, 16) -/

/-- Registers of one physical tile. -/
structure TileRegs where
  sevRows : Word
  sevPasses : Word
  qpkBlocks : Word
  qpkSpills : Word
  prjRows : Word
  /-- parity error counts and error bits: SEV, QPK, PRJ, CDC -/
  errCount : Vector Byte 4
  error : BitVec 4
  cdcEnc : Word
  cdcFallback : Word
  cdcStored : Word
  cdcDec : Word
  cdcFormat : Word
  spCe : Word
  spUe : Word
  tilEvent : BitVec 3
deriving DecidableEq, Repr

/-- Repair state of one physical tile (RPR_PHYS). -/
structure Phys where
  /-- 0 active, 1 spare, 2 draining, 3 failed, 4 receiving copy -/
  state : BitVec 3
  logical : BitVec 6
  sliceLost : Bool
  /-- banks replaced by spare banks 0 and 1 -/
  bank0 : Option (BitVec 6)
  bank1 : Option (BitVec 6)
  /-- the chunk now rerun after a first parity error, per engine (R288) -/
  suspect : BitVec 4
deriving DecidableEq, Repr

/-- A copy of a failed tile's slice to a spare (R590). -/
structure SliceCopy where
  logical : BitVec 6
  source : Nat
  spare : Nat
  complete : Bool
deriving DecidableEq, Repr

structure HbmSt where
  temp : Byte
  selfRefresh : Bool
  trained : Bool
  ce : Word
  ue : Word
  soft : List Word
  hard : Byte
  /-- retired device page number and replacement page address (R598) -/
  retired : List (Nat × Nat)
deriving DecidableEq, Repr

/-- A repair request (R608). -/
structure RepairReq where
  id : Word
  /-- 1 tile switch, 2 bank, 3 lane, 4 row, 5 page -/
  kind : Byte
  unit : BitVec 16
  detail : Word
deriving DecidableEq, Repr

structure Rpr where
  failed : Bool
  degraded : Bool
  mapValid : Bool
  mapForeign : Bool
  mapCopyB : Bool
  event : BitVec 10
  limitRow : BitVec 16
  limitBank : BitVec 16
  overdue : Vector Word 5
  /-- the sixteen places of RPR_REQ -/
  posted : Vector (Option RepairReq) 16
  waiting : List RepairReq
  approved : List RepairReq
  declined : List RepairReq
  /-- repairs that fell due while a REPAIR change is pending, not yet scheduled (R36, R38) -/
  held : List RepairReq
  nextId : Word
  copies : List SliceCopy
  /-- logical numbers that are missing (R600), each with the physical tile it ran on -/
  missing : List (BitVec 6 × Nat)
deriving DecidableEq, Repr

/-! ### Observation (chapter 15) -/

structure Watch where
  descriptor : BitVec 16
  layer : BitVec 16
  operator : BitVec 16
  step : Word
  halt : Bool
  user : Bool
  /-- command it has matched and not yet acted on (action 1) -/
  matched : Option Nat
deriving DecidableEq, Repr

structure Break where
  data : Bool
  address : Word
  hits : BitVec 16
  user : Bool
deriving DecidableEq, Repr

structure Dbg where
  itrace : BitVec 4
  openSet : Bool
  halted : Bool
  cause : BitVec 2
  core : BitVec 2
  id : Byte
  event : BitVec 3
  watches : Vector (Option Watch) 16
  breaks : Vector (Option Break) 16
  tcmCore : BitVec 2
  tcmOffset : BitVec 17
  pc : Vector Word 4
  /-- event completions that fell due while halted (R643) -/
  heldEvents : List (Mbx × Completion)
  /-- fired watches with action 0 whose command still runs: command, descriptor, watch (R647) -/
  copying : List (Nat × BitVec 16 × Nat)
  /-- the hold has ended in this halt, and re-verification waits for the cores (R651) -/
  verify : Bool
deriving DecidableEq, Repr

/-- A trace record before it is written (Table 15-3) and its body. -/
structure TraceRec where
  kind : Byte
  unit : Byte
  stamp : Stamp
  ns : BitVec 20
  layer : BitVec 16
  operator : BitVec 16
  detail : BitVec 64
  body : List Byte
deriving DecidableEq, Repr

structure Session where
  mask : Word
  label : Byte
  all : Bool
  written : Word
  user : Bool
deriving DecidableEq, Repr

structure Trc where
  mode : Bool
  stopped : Bool
  full : Bool
  session : Option Session
  base : BitVec 48
  written : BitVec 64
  dropped : Word
  /-- all records dropped, for the control page (R636) -/
  droppedTotal : BitVec 64
  sequence : Word
  /-- records in the units' buffers, oldest first -/
  buffer : List TraceRec
  /-- units whose next written record carries flags bit 0 (R624) -/
  lossy : List Byte
  /-- bytes the writer may still write at the drain rate (R622) -/
  drain : Nat
  /-- written count at which a stopped ring resumed (R638) -/
  resumeAt : BitVec 64
deriving DecidableEq, Repr

/-- Index of a counter of Table 15-1: set, mailbox or label (0 for set 2), index. -/
structure CtrKey where
  set : Nat
  scope : Nat
  idx : Nat
deriving DecidableEq, Repr

/-! ### KV window (chapter 10) -/

structure Kvs where
  wac : Word
  unbacked : Word
  stageWr : Word
  event : BitVec 3
  /-- host-held filter, oldest line first (R444) -/
  filter : List Nat
  /-- lines whose BISnpInv awaits its BIRsp -/
  snoops : List Nat
  /-- lines that re-enter the filter at their BIRsp (R459) -/
  reenter : List Nat
  /-- lines of reads held until their staging line is written, and whether a cached copy is asked for -/
  heldReads : List (Nat × Bool)
  /-- lines of cached reads held until the filter has room for them (R444) -/
  roomReads : List Nat
  /-- content of the staging slots, by window offset (Table 10-3) -/
  staging : Memory
deriving DecidableEq, Repr

/-! ### The Reckoner island (chapter 11) -/

/-- A tap entry (Table 11-1) with its valid mark implied by its place in the tap. -/
structure TapEntry where
  handle : BitVec 16
  generation : BitVec 16
  label : Byte
  role : Byte
  kind : BitVec 16
  n : Word
  stamp : Stamp
  sequence : Word
  /-- bytes 24–27 -/
  spare : Word
  crc : Word
deriving DecidableEq, Repr

structure LogEntry where
  kind : Byte
  /-- detail bytes 2–7 -/
  detail : BitVec 48
  time : BitVec 64
deriving DecidableEq, Repr

structure StreamCount where
  handle : BitVec 16
  generation : BitVec 16
  label : Byte
  role : Byte
  commits : Word
  positions : Word
deriving DecidableEq, Repr

structure LabelCount where
  label : Byte
  role : Byte
  positions : BitVec 64
deriving DecidableEq, Repr

/-- A closed, signed record in the record store. -/
structure MetRecord where
  interval : Word
  offset : Nat
  bytes : List Byte
deriving DecidableEq, Repr

structure Met where
  /-- 0 ABSENT, 1 UNSEALED, 2 SEALED, 3 BROKEN, 4 FAULT -/
  sealState : BitVec 4
  powered : Bool
  ready : Bool
  storeError : Bool
  suspect : Bool
  extended : Bool
  /-- reason with which an extended interval ends (R483, R485) -/
  closing : Byte
  /-- the main die holds the tap closed (BROWN_HOLD) -/
  tapClosed : Bool
  /-- interval length in OTP, 0 when left unset -/
  otpInterval : BitVec 12
  bootNumber : Word
  time : BitVec 64
  /-- ns counted since the last 10 ns step of Reckoner time -/
  timeNs : Nat
  interval : Word
  start : BitVec 64
  reserved : Nat
  tap : List TapEntry
  /-- sequence of the last entry taken, all ones after a main-die reset; none since the island booted
  (R478) -/
  lastSeq : Option Word
  /-- main-die side: sequence of the next entry written -/
  nextSeq : Word
  taken : Word
  -- the open interval
  seqFirst : Word
  events : Word
  firstEvent : Stamp
  lastEvent : Stamp
  labels : List LabelCount
  streams : List StreamCount
  overflow : Bool
  rejected : Bool
  log : List LogEntry
  /-- the most recent 1,024 log entries, oldest first -/
  recentLog : List LogEntry
  records : List MetRecord
  /-- offset at which the next record goes -/
  nextOffset : Nat
  /-- bytes of the oldest record read since it became the oldest (offsets within it) -/
  readBytes : List Nat
  previous : BitVec 256
  /-- the island's own test port is not yet disabled (R488) -/
  portOpen : Bool
deriving DecidableEq, Repr

end Sys2Proof.Machine
end

