-- ==== Sys2Proof/Machine/State.lean ====
section
/-!
DEFINITION. The state of the EZ1 (`Dev`), the queue of commands before it (`State`), the reasons a step
can stop, and the state right after reset. Every register is listed in INVENTORY.md with its rule.
-/
namespace Sys2Proof.Machine

/-- The device: every register, store, ring, queue and object the spec gives it. -/
structure Dev where
  fuses : Fuses
  glb : Glb
  hif : Hif
  bus : Bus
  pwr : Pwr
  flash : Flash
  fpl : Fpl
  tik : Tik
  join : Join
  mbx : Vector Mailbox 65
  /-- the user mailbox whose turn to be fetched is next (R245) -/
  nextMbx : BitVec 6
  /-- upper halves latched by reads of NAME_LO, by the offset of NAME_HI (R18, R21) -/
  latches : List (Nat × Word)
  /-- scratchpad, HBM and host memory, by device address (Table 16-2) -/
  mem : Memory
  /-- the BAR2 ring area, by BAR2 offset (Table 5-1) -/
  bar2 : Memory
  /-- lines of the ring area that the host has marked bad, by BAR2 offset (R255) -/
  bar2Poison : List Nat
  /-- lines whose data is known to be lost, by the device address of the line (R594) -/
  poison : List Nat
  /-- scratchpad and HBM ranges the device holds outside allocations: owner tag, address, size (R701) -/
  holds : List (Nat × Nat × Nat)
  allocs : List (Nat × Alloc)
  descs : List (Nat × Desc)
  owners : List (Nat × OwnerTable)
  trees : List (Nat × List TreeEntry)
  groups : List (Nat × Group)
  buckets : List (Nat × Bucket)
  streams : List (Nat × Stream)
  /-- open generation of each stream context that has been opened (chapter 11) -/
  generations : List (Nat × BitVec 16)
  incoming : List Incoming
  /-- residual stores the device keeps, by the device address of their first byte (R39, R163) -/
  resStores : List ResStore
  /-- RESIDUAL has changed to hardware mode since the last reset: a store starts at zero (R39) -/
  resZero : Bool
  /-- residual descriptor named by the latest BUCKET_OPEN of each bucket (Table 5-9) -/
  bucketStores : List (Nat × BitVec 16)
  /-- next exponent received or derived, by (group, bucket) (R141) -/
  exponents : List (Nat × Nat × Byte)
  /-- exponent last used, by (group, bucket) (R41) -/
  lastExponents : List (Nat × Nat × Byte)
  seed : Option (BitVec 128)
  aesFail : Bool
  running : List Running
  nextId : Nat
  work : List Work
  plan : Plan
  /-- Work in the hold (R557) -/
  holdWork : List HoldItem
  ports : Vector PortSt 16
  quads : Vector QuadSt 4
  tiles : Vector TileRegs 68
  phys : Vector Phys 68
  hbm : Vector HbmSt 6
  rpr : Rpr
  dbg : Dbg
  trc : Trc
  /-- Annals size S in MiB (R623) -/
  annalsMiB : Nat
  /-- counters of Table 15-1 that are not 0 -/
  counters : List (CtrKey × BitVec 64)
  kvs : Kvs
  met : Met
  /-- the model's own field: count of free values drawn (log 8) -/
  freeCount : Nat
deriving DecidableEq, Repr

/-- The state of the model: the device and the commands that wait, first in, first out. -/
structure State where
  pending : List Instr
  dev : Dev
deriving DecidableEq, Repr

/-- Faults: places where the spec gives the device no behaviour. There is none: every command of the table has an
effect in every state, and an access to an address that does not exist is answered as the spec says (R16, R663). -/
inductive Fault where
deriving DecidableEq, Repr

/-- Refusals. -/
inductive Refusal where
  /-- raised by an arm of `exec` whose meaning is not written yet; safe -/
  | notModelled (mnemonic : String)
deriving DecidableEq, Repr

/-! ### The values after reset -/

def Pair.zero : Pair := ⟨0, 0⟩

def Mailbox.reset : Mailbox where
  enable := false
  vector := 0
  depth := 0
  cqDev := false
  sqDev := false
  enabled := false
  stopped := false
  discard := false
  label := 0
  bound := false
  configError := false
  postError := false
  fetchError := false
  doorbellError := false
  sqBase := .zero
  cqBase := .zero
  sqHead := 0
  sqTail := 0
  cqHead := 0
  cqTail := 0
  phase := true
  eventLost := 0
  lostPending := false
  sequence := 0
  guardRung := none
  chunkSeq := 0
  fetched := []
  ready := []

/-- Table 5-16: the admin mailbox is always bound and its acting label is 0 after reset (R214). -/
def mailboxesReset : Vector Mailbox 65 :=
  (Vector.replicate 65 Mailbox.reset).set 64 { Mailbox.reset with bound := true }

def Glb.reset : Glb where
  uahias := 0
  ready := false
  initialised := false
  accessError := false
  tickFault := false
  hostLink := false
  firmwareFault := false
  memoryFault := false
  intEnable := 0
  intVec := Vector.replicate 11 0
  msixTable := Vector.ofFn fun i => if i.val % 4 = 3 then 1 else 0
  msixPending := 0

/-- Table 16-7 and its note: window 0 at 0, window w at 0x10_0000_0000 + (w − 1) × 0x4000_0000. -/
def Hif.reset : Hif where
  flit := false
  width := 0
  speed := 0
  hdm := false
  cxl := false
  linkUp := false
  event := 0
  win := #v[⟨0, 0⟩, ⟨0x10_0000_0000, 0⟩, ⟨0x10_4000_0000, 0x4000_0000⟩, ⟨0x10_8000_0000, 0x8000_0000⟩]

def Bus.reset : Bus := ⟨[], false, false, [], false, false, 0⟩

def Fuses.reset : Fuses where
  variant := 1
  serial := 0
  macBase := 0
  v0 := 750
  factoryTiles := []
  factoryBanks := []
  factoryLanes := []
  metCrystal := true

def MapCopy.empty : MapCopy := ⟨false, 0, 0, []⟩

def Flash.reset : Flash where
  directory := false
  placementWord := 0
  trayWord := 0
  cableWord := 0
  portBlock := false
  ports := Vector.replicate 16 none
  quadRate := Vector.replicate 4 0
  image := []
  mapA := .empty
  mapB := .empty

def Pwr.reset (v0 : BitVec 12) : Pwr where
  tj := 0
  hot := 0
  level := 0
  levelNext := 0
  clockLevel := 0
  hold := false
  warn := false
  requal := false
  requalDone := false
  sequenceErr := false
  resetCount := 0
  kind := 0
  event := 0
  vwarn := 2
  brownCount := 0
  request := v0
  sensed := 0
  floor := 0
  bootCode := 0
  stage := 0
  recoverResult := 0
  recoverLength := 0
  recoverGo := false
  inReset := true
  heldForPowerCycle := false
  senseForced := false
  deadSensors := []
  lock := 0
  clkEvent := 0
  freq := Vector.replicate 25 0

def Fpl.reset (startup : BitVec 10) : Fpl := ⟨startup, startup, 0, 0, false⟩

def Tik.reset (cable : Byte) : Tik where
  era := 0
  tick := 0
  offset := 0
  starting := 0
  eraValid := false
  period := 0
  leap := 0
  leapNext := none
  leapOwed := 0
  windowSum := 0
  holidayForce := 0
  leapFloor := 0
  carried := none
  isMaster := false
  silent := false
  source := 0
  locked := false
  holdover := false
  almanacLost := false
  holiday := 2
  leapMax := 8
  slipLimit := 16
  guard := 50
  guardForce := 50
  slipForce := 16
  snapPeriod := 0
  snapLeap := 0
  snapEra := 0
  snapNs := 0
  snapTick := 0
  holdoverLimit := 64
  cableDly := cable
  planBase := .zero
  event := 0
  late := 0
  slips := 0
  cableIgnored := false
  cableRun := 0
  sinceFrame := 0
  holdoverTicks := 0
  lockRun := 0
  lateInWindow := false
  childReports := 0
  zeroTicks := 0
  change := none
  deferred := []
  lastEra := 0
  sinceEra := 0
  ended := ⟨0, 0⟩
  lastReport := 0

def Join.reset (tray : BitVec 9) (position : BitVec 3) (pri : BitVec 4) : Join where
  member := tray ++ position
  tray := tray
  position := position
  masterPri := pri
  duplicate := false
  designate := false
  topoValid := false
  edges := []
  members := []
  segments := []
  highEra := 0
  electing := false
  best := none
  maxProposed := 0
  master := none
  hopsAt := Vector.replicate 16 none
  parent := none
  children := []
  attached := false
  merging := false
  topoEra := 0
  heldProcl := none
  reports := []
  joins := []
  firstJoin := none
  admitting := []
  lost := []
  removing := []
  downReports := []

/-- Table 8-12 and 8-13 reset values of port `p` (R379 overrides the RW fields from the flash). -/
def PortSt.reset (p : Nat) : PortSt where
  ctrl := 1
  routedForce := false
  peer := 0
  peerValid := false
  state := 0
  rate := 0
  spare := false
  event := 0
  timers := 0x0190_00C8
  peerMac := ⟨0x0000_FFFF_FFFF_FFFF, 0xFFFF_FFFF⟩
  macLearned := false
  ip := 0
  peerIp := 0
  udp := 0xC12C_C12C
  ethertype := 0x88B5
  laneMap :=
    let b : BitVec 5 := BitVec.ofNat 5 (4 * (p % 4))
    (b + 3) ++ (b + 2) ++ (b + 1) ++ b
  laneLimit := 2048
  counters := Vector.replicate 10 0
  sent := Vector.replicate 4 0
  limit := Vector.replicate 4 0
  received := Vector.replicate 4 0
  advertised := Vector.replicate 4 0
  rotate := 0
  queue := []
  wire := []
  heard := 0
  grants := []
  helloSent := false
  helloHeard := false
  yielded := false
  leftOut := none
  held := []
  partials := []
  acked := []
  swap := none
  degraded := none
  delayNumber := 0
  delaySent := none
  linkDelay := 0

def portsReset : Vector PortSt 16 := Vector.ofFn fun p => PortSt.reset p.val

def QuadSt.reset : QuadSt := ⟨0, 0, false, false, false, 0, 0, none⟩

def TileRegs.reset : TileRegs where
  sevRows := 0
  sevPasses := 0
  qpkBlocks := 0
  qpkSpills := 0
  prjRows := 0
  errCount := Vector.replicate 4 0
  error := 0
  cdcEnc := 0
  cdcFallback := 0
  cdcStored := 0
  cdcDec := 0
  cdcFormat := 0
  spCe := 0
  spUe := 0
  tilEvent := 0

def Phys.reset : Phys := ⟨0, 0, false, none, none, 0⟩

def HbmSt.reset : HbmSt := ⟨0, false, false, 0, 0, [], 0, []⟩

def Rpr.reset : Rpr where
  failed := false
  degraded := false
  mapValid := false
  mapForeign := false
  mapCopyB := false
  event := 0
  limitRow := 16
  limitBank := 64
  overdue := Vector.replicate 5 0
  posted := Vector.replicate 16 none
  waiting := []
  approved := []
  declined := []
  held := []
  nextId := 1
  copies := []
  missing := []

def Dbg.reset : Dbg where
  itrace := 0
  openSet := false
  halted := false
  cause := 0
  core := 0
  id := 0
  event := 0
  watches := Vector.replicate 16 none
  breaks := Vector.replicate 16 none
  tcmCore := 0
  tcmOffset := 0
  pc := Vector.replicate 4 0
  heldEvents := []
  copying := []
  verify := false

/-- TRC registers after reset; `base` and `written` are sticky (Table 15-7). -/
def Trc.reset (base : BitVec 48) (written : BitVec 64) : Trc where
  mode := false
  stopped := false
  full := false
  session := none
  base := base
  written := written
  dropped := 0
  droppedTotal := 0
  sequence := 0
  buffer := []
  lossy := []
  drain := 0
  resumeAt := 0

def Kvs.reset : Kvs := ⟨0, 0, 0, 0, [], [], [], [], [], []⟩

/-- The island before its first boot: unsealed, unpowered (log 5). -/
def Met.reset : Met where
  sealState := 1
  powered := false
  ready := false
  storeError := false
  suspect := false
  extended := false
  closing := 0
  tapClosed := false
  otpInterval := 0
  bootNumber := 0
  time := 0
  timeNs := 0
  interval := 1
  start := 0
  reserved := 0
  tap := []
  lastSeq := none
  nextSeq := 0
  taken := 0
  seqFirst := 0
  events := 0
  firstEvent := ⟨0, 0⟩
  lastEvent := ⟨0, 0⟩
  labels := []
  streams := []
  overflow := false
  rejected := false
  log := []
  recentLog := []
  records := []
  nextOffset := 0
  readBytes := []
  previous := 0
  portOpen := true

def Plan.empty : Plan := ⟨false, [], 0, [], [], [], [], []⟩

def Dev.reset : Dev where
  fuses := .reset
  glb := .reset
  hif := .reset
  bus := .reset
  pwr := .reset 750
  flash := .reset
  fpl := .reset 0
  tik := .reset 0
  join := .reset 0 0 0
  mbx := mailboxesReset
  nextMbx := 0
  latches := []
  mem := []
  bar2 := []
  bar2Poison := []
  poison := []
  holds := []
  allocs := []
  descs := []
  owners := []
  trees := []
  groups := []
  buckets := []
  streams := []
  generations := []
  incoming := []
  resStores := []
  resZero := false
  bucketStores := []
  exponents := []
  lastExponents := []
  seed := none
  aesFail := false
  running := []
  nextId := 0
  work := []
  plan := .empty
  holdWork := []
  ports := portsReset
  quads := Vector.replicate 4 QuadSt.reset
  tiles := Vector.replicate 68 TileRegs.reset
  phys := Vector.replicate 68 Phys.reset
  hbm := Vector.replicate 6 HbmSt.reset
  rpr := .reset
  dbg := .reset
  trc := .reset 0 0
  annalsMiB := 1024
  counters := []
  kvs := .reset
  met := .reset
  freeCount := 0

/-- The machine right after reset: a POWER reset with the main die still held in reset, before step 2
of start-up (Table 13-8); STARTUP brings it up. -/
def State.reset : State := ⟨[], Dev.reset⟩

end Sys2Proof.Machine
end

