-- ==== Sys2Proof/Machine/Ops.lean ====
section
/-!
DEFINITION. The named operations over the device: memory and its address map, free values, counters,
trace records, interrupts messages, completions and event completions, and how a command's effect is
committed to the state.
-/
namespace Sys2Proof.Machine

abbrev Status := BitVec 16

/-! ### Memory in its canonical form (log 4) -/

def memGet (m : Memory) (a : Nat) : Byte := (assoc a m).getD 0

/-- Writing 0 removes the entry, so equal memories are equal data. -/
def memPut (m : Memory) (a : Nat) (b : Byte) : Memory := if b = 0 then assocDel a m else assocSet a b m

def memGets (m : Memory) (a n : Nat) : List Byte := (List.range n).map fun i => memGet m (a + i)

def memPuts : Memory → Nat → List Byte → Memory
  | m, _, [] => m
  | m, a, b :: bs => memPuts (memPut m a b) (a + 1) bs

/-- Every address from `a` up to, not including, `z` made unlisted. -/
def memErase (m : Memory) (a z : Nat) : Memory := m.filter fun c => c.1 < a || z ≤ c.1

/-- The canonical form: addresses strictly rising from `lo` on, no byte 0. -/
def Memory.wfFrom (lo : Nat) : Memory → Bool
  | [] => true
  | (a, b) :: t => lo ≤ a && b != 0 && Memory.wfFrom (a + 1) t

def Memory.wf (m : Memory) : Bool := Memory.wfFrom 0 m

/-! ### The device address space (Table 16-2, R702) -/

def scratchTop : Nat := 0x1800_0000
def sliceSize : Nat := 0x60_0000
def hbmBase : Nat := 0x10_0000_0000
def hbmTop : Nat := 0x34_0000_0000
def stackSize : Nat := 0x6_0000_0000
def hostBase : Nat := 0x80_0000_0000
def deviceTop : Nat := 0x1_0000_0000_0000
def mib : Nat := 0x10_0000
def kib : Nat := 0x400

def isScratch (a : Nat) : Bool := a < scratchTop
def isHbm (a : Nat) : Bool := hbmBase ≤ a && a < hbmTop
def isHost (a : Nat) : Bool := hostBase ≤ a && a < deviceTop
def stackOf (a : Nat) : Nat := (a - hbmBase) / stackSize

/-- The Annals carve-out starts here (R623). -/
def annalsBase (d : Dev) : Nat := hbmTop - d.annalsMiB * mib
/-- The descriptor and owner stores start here (R200). -/
def storeBase (d : Dev) : Nat := annalsBase d - 8 * mib

/-- Does the logical tile's slice exist? (R587, R601) -/
def tileActive (d : Dev) (logical : Nat) : Bool :=
  (List.range 68).any fun p =>
    let ph := vget d.phys p Phys.reset
    ph.logical.toNat == logical && (ph.state == 0 || ph.state == 2)

/-- Logical tiles that carry work: active or draining. -/
def activeCount (d : Dev) : Nat := ((List.range 64).filter (tileActive d)).length

/-- The physical tile that carries a logical tile. -/
def physOf (d : Dev) (logical : Nat) : Option Nat :=
  (List.range 68).find? fun p =>
    let ph := vget d.phys p Phys.reset
    ph.logical.toNat == logical && (ph.state == 0 || ph.state == 2)

/-- A slice that is not backed: never formed at start-up, or lost with its tile (R587, R601). -/
def sliceUnbacked (d : Dev) (logical : Nat) : Bool :=
  if tileActive d logical then false
  else !(d.rpr.missing.any fun e => e.1.toNat == logical && !(vget d.phys e.2 Phys.reset).sliceLost)

/-- Is every byte of the range outside the reserved and unbacked ranges? (R662, R587) -/
def rangeOk (d : Dev) (a n : Nat) : Bool :=
  let z := a + (if n = 0 then 1 else n)
  if z ≤ scratchTop then
    !((List.range 64).any fun l => sliceUnbacked d l && a < (l + 1) * sliceSize && l * sliceSize < z)
  else (hbmBase ≤ a && z ≤ hbmTop) || (hostBase ≤ a && z ≤ deviceTop)

/-- Where an address is held once retired pages are redirected (R598). -/
def redirect (d : Dev) (a : Nat) : Nat :=
  if isHbm a then
    match (vget d.hbm (stackOf a) HbmSt.reset).retired.find? fun e => e.1 == a / 65536 with
    | some e => e.2 + a % 65536
    | none => a
  else a

/-- Bytes of a memory line: 128 in scratchpad, 64 in HBM (log 12). -/
def lineSize (a : Nat) : Nat := if isScratch a then 128 else 64

def lineOf (a : Nat) : Nat := a / lineSize a * lineSize a

/-- Does the range touch the lost slice of a missing tile? (R601) -/
def lostSlice (d : Dev) (a n : Nat) : Bool :=
  d.rpr.missing.any fun l => sliceUnbacked d l.1.toNat && a < (l.1.toNat + 1) * sliceSize && l.1.toNat * sliceSize < a + n

/-- Is any line of the range poisoned? (R594, R601) -/
def poisoned (d : Dev) (a n : Nat) : Bool :=
  n != 0 && ((d.poison.any fun l => l < a + n && a < l + lineSize l) || lostSlice d a n)

def poisonLine (d : Dev) (a : Nat) : Dev :=
  if isHost a || d.poison.contains (lineOf a) then d else { d with poison := lineOf a :: d.poison }

/-- The host answers accesses to the line of `a` with an error or poisoned data, or no longer does (R255). -/
def hostLine (d : Dev) (a : Nat) (bad : Bool) : Dev :=
  let others := d.poison.filter (· != lineOf a)
  { d with poison := if bad then lineOf a :: others else others }

def byteAt (d : Dev) (a : Nat) : Byte := memGet d.mem (redirect d a)

/-- `n` bytes at device address `a`. -/
def load (d : Dev) (a n : Nat) : List Byte := (List.range n).map fun i => byteAt d (a + i)

/-- Lines wholly inside a written range lose their poison (R594). -/
def unpoison (d : Dev) (a n : Nat) : Dev :=
  { d with poison := d.poison.filter fun l => !(a ≤ l && l + lineSize l ≤ a + n) }

def storeBytes : Dev → Nat → List Byte → Dev
  | d, _, [] => d
  | d, a, b :: bs => storeBytes { d with mem := memPut d.mem (redirect d a) b } (a + 1) bs

/-! ### Free values (log 8) -/

/-- Draw the number of the next free value. -/
def draw (d : Dev) : Nat × Dev := (d.freeCount, { d with freeCount := d.freeCount + 1 })

/-- The number of the first of `n` free values in a row. -/
def drawN (d : Dev) (n : Nat) : Nat × Dev := (d.freeCount, { d with freeCount := d.freeCount + n })

/-- One of the candidates, freely chosen; none when there is none. -/
def choose {α : Type} (d : Dev) (l : List α) : Option α × Dev :=
  let (k, d) := draw d
  (l[Config.choice k % l.length]?, d)

/-! ### Counters (Table 15-1, R625) -/

def counter (d : Dev) (k : CtrKey) : BitVec 64 :=
  ((d.counters.find? fun e => e.1 = k).map (·.2)).getD 0

def bump (d : Dev) (set scope idx n : Nat) : Dev :=
  if n = 0 then d else
  let k : CtrKey := ⟨set, scope, idx⟩
  let v := counter d k + BitVec.ofNat 64 n
  { d with counters := (k, v) :: d.counters.filter fun e => e.1 ≠ k }

/-- Write bytes at a device address; a range that is not backed drops the write (R587). -/
def store (d : Dev) (a : Nat) (bs : List Byte) : Dev :=
  if rangeOk d a bs.length then unpoison (storeBytes d a bs) a bs.length else d

/-! ### Time -/

/-- Era, tick and offset as timestamps carry them (R63, R705). -/
def now (d : Dev) : Stamp := ⟨d.tik.era, d.tik.tick⟩

/-- The period in force: that of the era, or the one R102 would give the device as master (R705). -/
def periodNow (d : Dev) : Nat :=
  if d.tik.eraValid then d.tik.period.toNat
  else match d.tik.carried with
    | some (p, _, _) => p.toNat
    | none => 10

def holidayNow (d : Dev) : BitVec 3 := if d.tik.eraValid then d.tik.holidayForce else d.tik.holiday

/-- The stretched period in ns (R80). -/
def stretched (d : Dev) : Nat := periodNow d * 1000 * (8 + d.tik.leap.toNat) / 8

/-- The budget of a resource in this tick (R64). -/
def budget (d : Dev) : Nat := stretched d * (1000 - d.tik.guardForce.toNat) / 1000

/-- Is unit `u` on holiday in the tick in force? (R85) -/
def onHoliday (d : Dev) (u : Nat) : Bool :=
  let h := 2 ^ ((holidayNow d).toNat + 4)
  d.tik.tick.toNat % h == u % h

/-! ### Trace records (section 15.4) -/

/-- Does the session take a record of this kind and label? (R633) -/
def traceTakes (d : Dev) (kind : Nat) (label : Option Byte) : Bool :=
  match d.trc.session with
  | none => false
  | some s => bit s.mask.toNat kind && (s.all || label == some s.label)

/-- A unit forms a record (R622, R624): into its buffer of 64, or dropped. -/
def trace (d : Dev) (kind unit : Nat) (label : Option Byte) (layer operator : BitVec 16)
    (detail : Nat) (body : List Byte) : Dev :=
  if !traceTakes d kind label then d
  else
    let u := BitVec.ofNat 8 unit
    if ((d.trc.buffer.filter fun r => r.unit = u).length ≥ 64) then
      bump { d with trc := { d.trc with
        dropped := satAdd d.trc.dropped 1
        droppedTotal := d.trc.droppedTotal + 1
        lossy := if d.trc.lossy.contains u then d.trc.lossy else u :: d.trc.lossy } } 2 0 300 1
    else
      { d with trc := { d.trc with buffer := d.trc.buffer ++
        [⟨BitVec.ofNat 8 kind, u, now d, d.tik.offset, layer, operator, BitVec.ofNat 64 detail, body⟩] } }

/-- The unit of a record about the device as a whole: the spec names none (log 8). -/
def deviceUnit : Nat := Config.unstated 2 0

/-- A record of no label and no command. -/
def traceDevice (d : Dev) (kind unit detail : Nat) : Dev := trace d kind unit none 0xFFFF 0xFFFF detail []

/-! ### Messages to the host (section 16.4) -/

def withBus (d : Dev) (f : Bus → Bus) : Dev := { d with bus := f d.bus }

/-- The message of an MSI-X vector: sent, or made pending while the vector is masked (log 9). -/
def sendMsi (d : Dev) (v : Byte) : Dev :=
  if (vget d.glb.msixTable (4 * v.toNat + 3) 0).getLsbD 0 then
    { d with glb := { d.glb with msixPending := d.glb.msixPending ||| BitVec.ofNat 256 (2 ^ v.toNat) } }
  else withBus d fun b => { b with msi := b.msi ++ [v] }

/-! ### Completions (section 5.4) -/

def mailbox (d : Dev) (n : Mbx) : Mailbox := d.mbx[n]

def withMbx (d : Dev) (n : Mbx) (f : Mailbox → Mailbox) : Dev := { d with mbx := vmod d.mbx n f }

/-- Ring depth D (Table 5-15). -/
def Mailbox.ringDepth (m : Mailbox) : Nat := 2 ^ (m.depth.toNat + 4)

/-- Is a ring slot free for a completion? (R217) -/
def Mailbox.slotFree (m : Mailbox) : Bool := (m.cqTail.toNat + 1) % m.ringDepth != m.cqHead.toNat

/-- The 32 bytes of a completion entry (Table 5-4, R225). -/
def completionBytes (m : Mailbox) (c : Completion) : List Byte :=
  leBytes 2 c.tag.toNat ++ leBytes 2 c.status.toNat ++ leBytes 2 c.opcode.toNat
    ++ leBytes 2 m.sqHead.toNat
    ++ [BitVec.ofNat 8 (bitAt m.phase 0 + bitAt c.event 1 + bitAt c.lostBefore 2), 0]
    ++ leBytes 2 c.stamp.era.toNat ++ leBytes 4 c.stamp.tick.toNat ++ leBytes 4 m.sequence.toNat
    ++ leBytes 12 c.result.toNat

/-- Accesses to a ring that the host answers with an error or poisoned data, or no longer answers: a lost or marked
line of host memory, a marked line of the ring area (R255). -/
def ringFails (d : Dev) (dev : Bool) (a n : Nat) : Bool :=
  if dev then d.bar2Poison.any fun l => l < a + n && a < l + 64 else !d.hif.linkUp || poisoned d (hostBase + a) n

/-- Write into a ring: the BAR2 ring area or host memory. -/
def ringStore (d : Dev) (dev : Bool) (a : Nat) (bs : List Byte) : Dev :=
  if dev then { d with bar2 := memPuts d.bar2 a bs } else { d with mem := memPuts d.mem (hostBase + a) bs }

/-- One completion into the next slot of the ring, or the failure of R255. -/
def writeCompletion (d : Dev) (n : Mbx) (c : Completion) : Dev :=
  let m := mailbox d n
  let a := m.cqBase.value.toNat + 32 * m.cqTail.toNat
  if ringFails d m.cqDev a 32 then
    withMbx d n fun m => { m with postError := true, stopped := true, discard := true, ready := [] }
  else
    let next := (m.cqTail.toNat + 1) % m.ringDepth
    let c := if c.event then { c with lostBefore := m.lostPending } else c
    let d := ringStore d m.cqDev a (completionBytes m c)
    let d := withMbx d n fun m => { m with
      cqTail := BitVec.ofNat 12 next
      phase := if next = 0 then !m.phase else m.phase
      sequence := m.sequence + 1
      lostPending := if c.event then false else m.lostPending }
    let d := if c.event then bump d 0 n.val 11 1 else d
    if c.interrupt then sendMsi d m.vector else d

/-- MBX_STATUS.enabled clears once a disabled mailbox has nothing left to post (R250). -/
def settle (d : Dev) (n : Mbx) : Dev :=
  let m := mailbox d n
  if m.enabled && !m.enable && m.ready.isEmpty && m.fetched.isEmpty
      && !(d.running.any fun r => r.mbx = n) then
    withMbx d n fun m => { m with enabled := false }
  else d

/-- A completion that has become ready (R221, R247, R253): written, or held in order. -/
def post (d : Dev) (n : Mbx) (c : Completion) : Dev :=
  let m := mailbox d n
  if m.discard then settle d n
  else if m.ready.isEmpty && m.slotFree then settle (writeCompletion d n c) n
  else withMbx d n fun m => { m with ready := m.ready ++ [c] }

/-- Post held completions while slots are free (R221). -/
def drainReady (d : Dev) (n : Mbx) : Nat → Dev
  | 0 => settle d n
  | fuel + 1 =>
    match (mailbox d n).ready with
    | [] => settle d n
    | c :: t =>
      if (mailbox d n).slotFree then
        drainReady (writeCompletion (withMbx d n fun m => { m with ready := t }) n c) n fuel
      else settle d n

/-- Result bytes: (first byte, length, value) fields (Table 5-4: bytes 20–31). -/
def result (l : List (Nat × Nat × Nat)) : BitVec 96 :=
  BitVec.ofNat 96 (l.foldl (fun acc e => acc + e.2.2 % 256 ^ e.2.1 * 256 ^ (e.1 - 20)) 0)

/-- An event completion reaches its mailbox (R229, R230): lost to one that is not enabled (log 34) or whose
completions are discarded (R255), discarded and counted past 16 waiting. -/
def postEvent (d : Dev) (n : Mbx) (c : Completion) : Dev :=
  let m := mailbox d n
  if !m.enabled || m.discard then d
  else if (m.ready.filter (·.event)).length ≥ 16 then
    withMbx d n fun m => { m with eventLost := satAdd m.eventLost 1, lostPending := true }
  else post d n c

/-- An event completion to one mailbox, held during a halt (R643). -/
def eventTo (d : Dev) (n : Mbx) (status : Status) (l : List (Nat × Nat × Nat)) : Dev :=
  let c : Completion := ⟨0xFFFF, status, 0, true, false, now d, result l, false⟩
  if d.dbg.halted then { d with dbg := { d.dbg with heldEvents := d.dbg.heldEvents ++ [(n, c)] } }
  else postEvent d n c

/-! ### The end of a command -/

/-- Result layout of R228: filled reads, dropped writes, output spills. -/
def fillResult (filled dropped spills : Word) : BitVec 96 :=
  result [(20, 4, filled.toNat), (24, 4, dropped.toNat), (28, 4, spills.toNat)]

/-- The opcode of a command (Tables 5-6 to 5-12). -/
def cmdOpcode : Cmd → BitVec 16
  | .init .. => 0x0101
  | .setPlacement .. => 0x0102
  | .setSeed .. => 0x0103
  | .loadTree .. => 0x0104
  | .openGroup .. => 0x0105
  | .closeGroup => 0x0106
  | .setTick .. => 0x0107
  | .repairApprove .. => 0x0108
  | .bindTenant .. => 0x0109
  | .alloc .. => 0x010A
  | .free .. => 0x010B
  | .fwUpdate .. => 0x010C
  | .createDesc .. => 0x0201
  | .destroyDesc .. => 0x0202
  | .loadOwners .. => 0x0203
  | .topk .. => 0x0301
  | .quant .. => 0x0302
  | .lowrank .. => 0x0303
  | .residualFlush .. => 0x0304
  | .maskGen .. => 0x0305
  | .bcast .. => 0x0401
  | .reduceToOne .. => 0x0402
  | .bucketOpen .. => 0x0403
  | .bucketAdd .. => 0x0404
  | .bucketSeal .. => 0x0405
  | .streamOpen .. => 0x0501
  | .streamClose => 0x0502
  | .kvPut .. => 0x0503
  | .kvHandoff .. => 0x0504
  | .kvStage .. => 0x0505
  | .kvCommit .. => 0x0506
  | .kvEvict .. => 0x0507
  | .traceStart .. => 0x0601
  | .traceStop => 0x0602
  | .watchTensor .. => 0x0603
  | .breakSet .. => 0x0604
  | .countersSnapshot .. => 0x0605
  | .unknown op => op

/-- What every completion does whatever its command: counters (Table 15-1), the fault bits of Table
16-5 and PWR_EVENT.damage, the command end record, and the completion entry. -/
def endCommand (d : Dev) (n : Mbx) (label : Byte) (h : Hdr) (c : Cmd) (status : Status)
    (res : BitVec 96) : Dev :=
  let d := bump (bump d 0 n.val 0 1) 0 n.val (1 + status.toNat / 256) 1
  let d := bump d 1 label.toNat 0 1
  let d := { d with
    glb := { d.glb with
      memoryFault := d.glb.memoryFault || status = 0x0505
      firmwareFault := d.glb.firmwareFault || status = 0x0508 }
    pwr := { d.pwr with event := if status = 0x0502 then d.pwr.event ||| 4 else d.pwr.event } }
  let d := trace d 2 95 (some label) h.layer h.operator
    (n.val + (cmdOpcode c).toNat * 2 ^ 16 + h.tag.toNat * 2 ^ 32 + status.toNat * 2 ^ 48) []
  post d n ⟨h.tag, status, cmdOpcode c, false, false, now d, res, h.flags.getLsbD 2⟩

/-- A started command ends: 0x0401 stands in for success when a chunk went late (R79, R241). -/
def finishRunning (d : Dev) (r : Running) (status : Status) (res : BitVec 96) : Dev :=
  let d := { d with running := d.running.filter fun x => x.id != r.id }
  endCommand d r.mbx r.label r.hdr r.cmd (if status = 0 && r.late then 0x0401 else status) res

def updRunning (d : Dev) (id : Nat) (f : Running → Running) : Dev :=
  { d with running := d.running.map fun r => if r.id = id then f r else r }

def runningOf (d : Dev) (id : Nat) : Option Running := d.running.find? fun r => r.id = id

/-- Who issues a command: mailbox, header, label in force, and whether it is the admin mailbox. -/
structure Caller where
  mbx : Mbx
  hdr : Hdr
  label : Byte
  admin : Bool

/-- What the start of a command comes to: refused with a status and no effect, ended at once, or
running with work or a wait. -/
inductive Begin where
  | fail (status : Status)
  | done (d : Dev) (res : BitVec 96)
  /-- ended at once with another status than success, its effect kept -/
  | ended (d : Dev) (status : Status) (res : BitVec 96)
  | go (d : Dev) (r : Running)

/-- A fresh running command. -/
def newRunning (d : Dev) (c : Caller) (cmd : Cmd) (w : Wait) : Running where
  id := d.nextId
  mbx := c.mbx
  hdr := c.hdr
  cmd := cmd
  label := c.label
  wait := w
  rung := none
  modes := d.fpl.active
  seed := d.seed
  table := none
  late := false
  filled := 0
  dropped := 0
  spills := 0
  failed := none
  result := 0
  limit := 0
  firstSeq := 0
  chunks := 0
  chosen := []
  cs := []
  lines := []
  slot := 0

/-- Is function `n` of Table 1-4 in host-assisted mode? -/
def hostMode (d : Dev) (n : Nat) : Bool := d.fpl.active.getLsbD n

def pendingFn (d : Dev) (n : Nat) : Bool := d.fpl.mode.getLsbD n != d.fpl.active.getLsbD n

/-- An allocation that holds the whole range. -/
def allocOf (d : Dev) (a n : Nat) : Option (Nat × Alloc) :=
  d.allocs.find? fun e => e.2.addr ≤ a && a + n ≤ e.2.addr + e.2.size

/-- The caller may use objects of this label (R215). -/
def Caller.may (c : Caller) (label : Byte) : Bool := c.admin || c.label = label

end Sys2Proof.Machine
end

