-- ==== Sys2Proof/Machine/Flags.lean ====
section
/-!
DEFINITION. The interrupt summary: the sources of Table 16-6, the messages of R668, and `commit`, by
which every command's effect becomes the next state.
-/
namespace Sys2Proof.Machine

/-- GLB_FAULT bits 5:0 (Table 16-5). -/
def faultBits (d : Dev) : Nat :=
  bitAt d.glb.memoryFault 5 + bitAt d.glb.firmwareFault 4 + bitAt d.rpr.failed 3
    + bitAt d.glb.hostLink 2 + bitAt d.glb.tickFault 1 + bitAt d.glb.accessError 0

/-- Row `k` of Table 16-6 reads 1. -/
def sourceOn (d : Dev) : Nat → Bool
  | 0 => faultBits d != 0
  | 1 => d.fpl.event != 0
  | 2 => d.tik.event != 0
  | 3 => d.mbx.toList.any fun m => m.configError || m.postError || m.fetchError || m.doorbellError
  | 4 => d.tiles.toList.any fun t => t.error != 0 || t.tilEvent != 0
  | 5 => d.ports.toList.any fun p => p.event != 0
  | 6 => d.kvs.event != 0
  | 7 => d.pwr.event != 0 || d.pwr.clkEvent != 0
  | 8 => d.rpr.event != 0
  | 9 => d.dbg.event != 0 || d.trc.full || d.trc.stopped
  | 10 => d.hif.event != 0
  | _ => false

/-- Status bit k AND enable bit k (R668). -/
def sourceLevel (d : Dev) (k : Nat) : Bool := d.glb.intEnable.getLsbD k && sourceOn d k

/-- GLB_INT_STATUS (R666). -/
def intStatus (d : Dev) : Nat := (List.range 11).foldl (fun acc k => acc + bitAt (sourceOn d k) k) 0

/-- The sources whose level rises from `old` to `d`, in ascending order. -/
def risen (old d : Dev) : List Nat := (List.range 11).filter fun k => !sourceLevel old k && sourceLevel d k

/-- One message per source that rises (R668). -/
def raiseInts (old d : Dev) : Dev :=
  (risen old d).foldl (fun d k => sendMsi d (vget d.glb.intVec k 0)) d

/-- The next state of a command that makes the device `d` out of `s.dev`: the queue as it is, and the
messages of the interrupt sources that rose. -/
def commit (s : State) (d : Dev) : Host.Outcome State Fault Refusal :=
  .next { s with dev := raiseInts s.dev d }

end Sys2Proof.Machine
end

