-- ==== Sys2Proof/Machine/Regs.lean ====
section
/-!
DEFINITION. The register map (Table 16-11): the named registers, where each lies in BAR0, what a read
returns, what a read does besides (R15, R18, R20, R672), and the writes that only set a field.
-/
namespace Sys2Proof.Machine

/-- Registers of one port (Table 8-11). `counter` counts from LYS_TX_FRAMES to LYS_MACCTL. -/
inductive LysReg where
  | ctrl | status | event | timers | macLo | macHi | peerMacLo | peerMacHi | ip | peerIp | udp | ethertype
  | credit (v : Fin 4)
  | laneMap | laneLimit
  | counter (i : Fin 10)
deriving DecidableEq, Repr

/-- Registers of one physical tile (Tables 16-9, 6-7, 7-8). -/
inductive TileReg where
  | tilStatus | tilSpCe | tilSpUe | tilEvent
  | sevRows | sevPasses | sevErr
  | qpkBlocks | qpkSpills | qpkErr
  | prjRows | prjErr
  | cdcEnc | cdcFallback | cdcStored | cdcDec | cdcFormat | cdcErr
deriving DecidableEq, Repr

/-- Registers of one mailbox (Table 5-14). -/
inductive MbxReg where
  | ctrl | status | sqBaseLo | sqBaseHi | cqBaseLo | cqBaseHi | sqHead | cqTail | eventLost
deriving DecidableEq, Repr

/-- The registers of BAR0 (Table 16-11), with the MSI-X table and pending bits (section 16.4). -/
inductive Reg where
  | glbId | glbVersion | glbSerialLo | glbSerialHi | glbStatus | glbFault | glbIntStatus | glbIntEnable
  | glbIntAck
  | glbIntVec (k : Fin 11)
  | pwrStatus | pwrCause | pwrEvent | pwrBrown | pwrBrownCount | pwrVcore | pwrThermal | pwrReset
  | pwrBoot | pwrRecover | clkLock | clkEvent
  | clkFreq (i : Fin 25)
  | tikStatus | tikCtrl | tikSnapEra | tikSnapNs | tikSnapTickLo | tikSnapTickHi | tikHoldover
  | tikCableDly | tikPlanBaseLo | tikPlanBaseHi | tikEvent | tikLate | tikSlips | tikStalled
  | tikMember | tikDesignate | tikTopo
  | mbx (n : Mbx) (r : MbxReg)
  | fplMode | fplActive | fplPending | fplEvent | fplPlanMiss
  | rprStatus | rprEvent | rprCeLimit | rprMap
  | rprOverdue (k : Fin 5)
  | rprReqId (i : Fin 16)
  | rprReqInfo (i : Fin 16)
  | rprReqDetail (i : Fin 16)
  | rprPhys (p : Tile)
  | rprHbm (s : Stack)
  | hifStatus | hifEvent
  | hifWinLo (w : Fin 4)
  | hifWinHi (w : Fin 4)
  | msixTable (i : Fin 1024)
  | msixPba (i : Fin 8)
  | lys (p : Port) (r : LysReg)
  | lysQrate (q : Quad)
  | lysQstatus (q : Quad)
  | hbmStatus (s : Stack)
  | hbmCe (s : Stack)
  | hbmUe (s : Stack)
  | tile (p : Tile) (r : TileReg)
  | clvStatus | clvTree
  | clvGrpState (h : Fin 256)
  | clvGrpSeq (h : Fin 256)
  | clvBucket (b : Fin 64)
  | kvsStatus | kvsWac | kvsUnbacked | kvsStageWr | kvsEvent
  | dbgCtrl | dbgStatus | dbgHalt | dbgEvent | dbgWatch | dbgWatchCancel | dbgTcmAddr | dbgTcmData
  | dbgPc (c : CtrlCore)
  | trcCtrl | trcStatus | trcBaseLo | trcBaseHi | trcWrittenLo | trcWrittenHi | trcDropped | trcMask
  | trcFilter
  | metStatus | metImage | metSerialLo | metSerialHi | metConfig | metInterval | metTimeLo | metTimeHi
  | metTap | metStore | metRecHead | metCollect | metTaken
  | metPubkey (i : Fin 16)
  | metCert (i : Fin 16)
  | metLive (l : Fin 256) (r : Fin 2) (hi : Bool)
  | metRec (w : Fin 524288)
  | metLog (j : Fin 1024) (w : Fin 4)
deriving DecidableEq, Repr

def lysOffset : LysReg → Nat
  | .ctrl => 0x00
  | .status => 0x04
  | .event => 0x08
  | .timers => 0x0C
  | .macLo => 0x10
  | .macHi => 0x14
  | .peerMacLo => 0x18
  | .peerMacHi => 0x1C
  | .ip => 0x20
  | .peerIp => 0x24
  | .udp => 0x28
  | .ethertype => 0x2C
  | .credit v => 0x30 + 4 * v.val
  | .laneMap => 0x40
  | .laneLimit => 0x44
  | .counter i => 0x48 + 4 * i.val

def tileOffset : TileReg → Nat
  | .tilStatus => 0x0
  | .tilSpCe => 0x4
  | .tilSpUe => 0x8
  | .tilEvent => 0xC
  | .sevRows => 0x1000
  | .sevPasses => 0x1004
  | .sevErr => 0x1008
  | .qpkBlocks => 0x2000
  | .qpkSpills => 0x2004
  | .qpkErr => 0x2008
  | .prjRows => 0x3000
  | .prjErr => 0x3004
  | .cdcEnc => 0x4000
  | .cdcFallback => 0x4004
  | .cdcStored => 0x4008
  | .cdcDec => 0x400C
  | .cdcFormat => 0x4010
  | .cdcErr => 0x4014

def mbxOffset : MbxReg → Nat
  | .ctrl => 0x00
  | .status => 0x04
  | .sqBaseLo => 0x08
  | .sqBaseHi => 0x0C
  | .cqBaseLo => 0x10
  | .cqBaseHi => 0x14
  | .sqHead => 0x18
  | .cqTail => 0x1C
  | .eventLost => 0x20

/-- The BAR0 offset of a register (Table 16-11). -/
def Reg.offset : Reg → Nat
  | .glbId => 0x000_0000
  | .glbVersion => 0x000_0004
  | .glbSerialLo => 0x000_0008
  | .glbSerialHi => 0x000_000C
  | .glbStatus => 0x000_0010
  | .glbFault => 0x000_0014
  | .glbIntStatus => 0x000_0018
  | .glbIntEnable => 0x000_001C
  | .glbIntAck => 0x000_0020
  | .glbIntVec k => 0x000_0040 + 4 * k.val
  | .pwrStatus => 0x010_0000
  | .pwrCause => 0x010_0004
  | .pwrEvent => 0x010_0008
  | .pwrBrown => 0x010_000C
  | .pwrBrownCount => 0x010_0010
  | .pwrVcore => 0x010_0014
  | .pwrThermal => 0x010_0018
  | .pwrReset => 0x010_001C
  | .pwrBoot => 0x010_0020
  | .pwrRecover => 0x010_0024
  | .clkLock => 0x010_8000
  | .clkEvent => 0x010_8004
  | .clkFreq i => 0x010_8008 + 4 * i.val
  | .tikStatus => 0x020_0000
  | .tikCtrl => 0x020_0004
  | .tikSnapEra => 0x020_0008
  | .tikSnapNs => 0x020_000C
  | .tikSnapTickLo => 0x020_0010
  | .tikSnapTickHi => 0x020_0014
  | .tikHoldover => 0x020_0018
  | .tikCableDly => 0x020_001C
  | .tikPlanBaseLo => 0x020_0020
  | .tikPlanBaseHi => 0x020_0024
  | .tikEvent => 0x020_0028
  | .tikLate => 0x020_002C
  | .tikSlips => 0x020_0030
  | .tikStalled => 0x020_0034
  | .tikMember => 0x020_0040
  | .tikDesignate => 0x020_0044
  | .tikTopo => 0x020_0048
  | .mbx n r => 0x030_0000 + 0x40 * n.val + mbxOffset r
  | .fplMode => 0x040_0000
  | .fplActive => 0x040_0004
  | .fplPending => 0x040_0008
  | .fplEvent => 0x040_000C
  | .fplPlanMiss => 0x040_0010
  | .rprStatus => 0x050_0000
  | .rprEvent => 0x050_0004
  | .rprCeLimit => 0x050_0008
  | .rprMap => 0x050_000C
  | .rprOverdue k => 0x050_0010 + 4 * k.val
  | .rprReqId i => 0x050_0040 + 4 * i.val
  | .rprReqInfo i => 0x050_0080 + 4 * i.val
  | .rprReqDetail i => 0x050_00C0 + 4 * i.val
  | .rprPhys p => 0x050_0100 + 4 * p.val
  | .rprHbm s => 0x050_0300 + 4 * s.val
  | .hifStatus => 0x060_0000
  | .hifEvent => 0x060_0004
  | .hifWinLo w => 0x060_0010 + 8 * w.val
  | .hifWinHi w => 0x060_0014 + 8 * w.val
  | .msixTable i => 0x060_8000 + 4 * i.val
  | .msixPba i => 0x060_9000 + 4 * i.val
  | .lys p r => 0x080_0000 + 0x1_0000 * p.val + lysOffset r
  | .lysQrate q => 0x080_0100 + 0x4_0000 * q.val
  | .lysQstatus q => 0x080_0104 + 0x4_0000 * q.val
  | .hbmStatus s => 0x0A0_0000 + 0x1_0000 * s.val
  | .hbmCe s => 0x0A0_0004 + 0x1_0000 * s.val
  | .hbmUe s => 0x0A0_0008 + 0x1_0000 * s.val
  | .tile p r => 0x100_0000 + 0x1_0000 * p.val + tileOffset r
  | .clvStatus => 0x180_0000
  | .clvTree => 0x180_0004
  | .clvGrpState h => 0x180_1000 + 8 * h.val
  | .clvGrpSeq h => 0x180_1004 + 8 * h.val
  | .clvBucket b => 0x180_2000 + 4 * b.val
  | .kvsStatus => 0x190_0000
  | .kvsWac => 0x190_0004
  | .kvsUnbacked => 0x190_0008
  | .kvsStageWr => 0x190_000C
  | .kvsEvent => 0x190_0010
  | .dbgCtrl => 0x200_0000
  | .dbgStatus => 0x200_0004
  | .dbgHalt => 0x200_0008
  | .dbgEvent => 0x200_000C
  | .dbgWatch => 0x200_0010
  | .dbgWatchCancel => 0x200_0014
  | .dbgTcmAddr => 0x200_0018
  | .dbgTcmData => 0x200_001C
  | .dbgPc c => 0x200_0020 + 4 * c.val
  | .trcCtrl => 0x200_1000
  | .trcStatus => 0x200_1004
  | .trcBaseLo => 0x200_1008
  | .trcBaseHi => 0x200_100C
  | .trcWrittenLo => 0x200_1010
  | .trcWrittenHi => 0x200_1014
  | .trcDropped => 0x200_1018
  | .trcMask => 0x200_101C
  | .trcFilter => 0x200_1020
  | .metStatus => 0x300_0000
  | .metImage => 0x300_0004
  | .metSerialLo => 0x300_0008
  | .metSerialHi => 0x300_000C
  | .metConfig => 0x300_0010
  | .metInterval => 0x300_0014
  | .metTimeLo => 0x300_0018
  | .metTimeHi => 0x300_001C
  | .metTap => 0x300_0020
  | .metStore => 0x300_0024
  | .metRecHead => 0x300_0028
  | .metCollect => 0x300_002C
  | .metTaken => 0x300_0030
  | .metPubkey i => 0x300_0040 + 4 * i.val
  | .metCert i => 0x300_0080 + 4 * i.val
  | .metLive l r hi => 0x301_0000 + 16 * l.val + 8 * r.val + (if hi then 4 else 0)
  | .metRec w => 0x310_0000 + 4 * w.val
  | .metLog j w => 0x330_0000 + 16 * j.val + 4 * w.val

/-- Element `i` of an array of `n` registers. -/
def nth (n i : Nat) {α : Type} (f : Fin n → α) : Option α := if h : i < n then some (f ⟨i, h⟩) else none

/-- Registers at fixed offsets. -/
def fixedRegs : List Reg := [
  .glbId, .glbVersion, .glbSerialLo, .glbSerialHi, .glbStatus, .glbFault, .glbIntStatus, .glbIntEnable,
  .glbIntAck, .pwrStatus, .pwrCause, .pwrEvent, .pwrBrown, .pwrBrownCount, .pwrVcore, .pwrThermal,
  .pwrReset, .pwrBoot, .pwrRecover, .clkLock, .clkEvent] ++ [
  .tikStatus, .tikCtrl, .tikSnapEra, .tikSnapNs, .tikSnapTickLo, .tikSnapTickHi, .tikHoldover,
  .tikCableDly, .tikPlanBaseLo, .tikPlanBaseHi, .tikEvent, .tikLate, .tikSlips, .tikStalled,
  .tikMember, .tikDesignate, .tikTopo, .fplMode, .fplActive, .fplPending, .fplEvent, .fplPlanMiss] ++ [
  .rprStatus, .rprEvent, .rprCeLimit, .rprMap, .hifStatus, .hifEvent, .clvStatus, .clvTree,
  .kvsStatus, .kvsWac, .kvsUnbacked, .kvsStageWr, .kvsEvent, .dbgCtrl, .dbgStatus, .dbgHalt, .dbgEvent,
  .dbgWatch, .dbgWatchCancel, .dbgTcmAddr, .dbgTcmData, .trcCtrl, .trcStatus, .trcBaseLo, .trcBaseHi,
  .trcWrittenLo, .trcWrittenHi, .trcDropped, .trcMask, .trcFilter] ++ [
  .metStatus, .metImage, .metSerialLo, .metSerialHi, .metConfig, .metInterval, .metTimeLo, .metTimeHi,
  .metTap, .metStore, .metRecHead, .metCollect, .metTaken]

def lysAt (o : Nat) : Option LysReg :=
  ([.ctrl, .status, .event, .timers, .macLo, .macHi, .peerMacLo, .peerMacHi, .ip, .peerIp, .udp, .ethertype,
    .credit 0, .credit 1, .credit 2, .credit 3, .laneMap, .laneLimit] ++
   [.counter 0, .counter 1, .counter 2, .counter 3, .counter 4, .counter 5, .counter 6, .counter 7,
    .counter 8, .counter 9] : List LysReg).find? fun r => lysOffset r == o

def tileAt (o : Nat) : Option TileReg :=
  ([.tilStatus, .tilSpCe, .tilSpUe, .tilEvent, .sevRows, .sevPasses, .sevErr, .qpkBlocks, .qpkSpills,
    .qpkErr, .prjRows, .prjErr, .cdcEnc, .cdcFallback, .cdcStored, .cdcDec, .cdcFormat, .cdcErr] :
    List TileReg).find? fun r => tileOffset r == o

def mbxAt (o : Nat) : Option MbxReg :=
  ([.ctrl, .status, .sqBaseLo, .sqBaseHi, .cqBaseLo, .cqBaseHi, .sqHead, .cqTail, .eventLost] :
    List MbxReg).find? fun r => mbxOffset r == o

/-- The register at an array offset. -/
def indexedReg (o : Nat) : Option Reg :=
  if o < 0x010_0000 then if 0x40 ≤ o then nth 11 ((o - 0x40) / 4) .glbIntVec else none
  else if o < 0x020_0000 then if 0x010_8008 ≤ o then nth 25 ((o - 0x010_8008) / 4) .clkFreq else none
  else if o < 0x030_0000 then none
  else if o < 0x040_0000 then
    (mbxAt ((o - 0x030_0000) % 0x40)).bind fun r => nth 65 ((o - 0x030_0000) / 0x40) (.mbx · r)
  else if o < 0x050_0000 then none
  else if o < 0x060_0000 then
    if o < 0x050_0010 then none
    else if o < 0x050_0040 then nth 5 ((o - 0x050_0010) / 4) .rprOverdue
    else if o < 0x050_0080 then nth 16 ((o - 0x050_0040) / 4) .rprReqId
    else if o < 0x050_00C0 then nth 16 ((o - 0x050_0080) / 4) .rprReqInfo
    else if o < 0x050_0100 then nth 16 ((o - 0x050_00C0) / 4) .rprReqDetail
    else if o < 0x050_0300 then nth 68 ((o - 0x050_0100) / 4) .rprPhys
    else nth 6 ((o - 0x050_0300) / 4) .rprHbm
  else if o < 0x070_0000 then
    if o < 0x060_0010 then none
    else if o < 0x060_8000 then
      if o % 8 = 0 then nth 4 ((o - 0x060_0010) / 8) .hifWinLo else nth 4 ((o - 0x060_0010) / 8) .hifWinHi
    else if o < 0x060_9000 then nth 1024 ((o - 0x060_8000) / 4) .msixTable
    else nth 8 ((o - 0x060_9000) / 4) .msixPba
  else if o < 0x080_0000 then none
  else if o < 0x090_0000 then
    let p := (o - 0x080_0000) / 0x1_0000
    let r := (o - 0x080_0000) % 0x1_0000
    if r = 0x100 then (if p % 4 = 0 then nth 4 (p / 4) .lysQrate else none)
    else if r = 0x104 then (if p % 4 = 0 then nth 4 (p / 4) .lysQstatus else none)
    else (lysAt r).bind fun r => nth 16 p (.lys · r)
  else if o < 0x0A0_0000 then none
  else if o < 0x100_0000 then
    let s := (o - 0x0A0_0000) / 0x1_0000
    let r := (o - 0x0A0_0000) % 0x1_0000
    if r = 0 then nth 6 s .hbmStatus else if r = 4 then nth 6 s .hbmCe else if r = 8 then nth 6 s .hbmUe else none
  else if o < 0x180_0000 then
    (tileAt ((o - 0x100_0000) % 0x1_0000)).bind fun r => nth 68 ((o - 0x100_0000) / 0x1_0000) (.tile · r)
  else if o < 0x190_0000 then
    if o < 0x180_1000 then none
    else if o < 0x180_1800 then
      if o % 8 = 0 then nth 256 ((o - 0x180_1000) / 8) .clvGrpState else nth 256 ((o - 0x180_1000) / 8) .clvGrpSeq
    else if o < 0x180_2000 then none
    else nth 64 ((o - 0x180_2000) / 4) .clvBucket
  else if o < 0x200_0000 then none
  else if o < 0x200_1000 then if 0x200_0020 ≤ o then nth 4 ((o - 0x200_0020) / 4) .dbgPc else none
  else if o < 0x300_0000 then none
  else if o < 0x300_0040 then none
  else if o < 0x300_0080 then nth 16 ((o - 0x300_0040) / 4) .metPubkey
  else if o < 0x301_0000 then nth 16 ((o - 0x300_0080) / 4) .metCert
  else if o < 0x310_0000 then
    let i := o - 0x301_0000
    (nth 256 (i / 16) id).bind fun l => (nth 2 (i % 16 / 8) id).map fun r => .metLive l r (i % 8 == 4)
  else if o < 0x330_0000 then nth 524288 ((o - 0x310_0000) / 4) .metRec
  else (nth 1024 ((o - 0x330_0000) / 16) id).bind fun j => (nth 4 (o % 16 / 4) id).map fun w => .metLog j w

/-- The register at a BAR0 offset; none at a reserved offset (R16, R660, R673). -/
def regOfOffset (o : Nat) : Option Reg :=
  if o % 4 != 0 then none
  else match fixedRegs.find? fun r => r.offset == o with
    | some r => some r
    | none => indexedReg o

/-! ### What registers read -/

def image (d : Dev) : BitVec 16 := Config.imageVersion d.flash.image

/-- The island counts while it is ready (R503). -/
def metReady (d : Dev) : Bool := d.met.ready

/-- Every byte of the oldest held record has been read since it became the oldest (R486). -/
def oldestRead (d : Dev) : Bool :=
  match d.met.records with
  | r :: _ => metReady d && (List.range r.bytes.length).all fun i => d.met.readBytes.contains i
  | [] => false

/-- The free count is held at 0: by the main die in BROWN_HOLD, or by an island that is not ready or in
FAULT (R490, R501, R503). -/
def tapShut (d : Dev) : Bool := d.met.tapClosed || !d.met.ready || d.met.sealState = 4

/-- Free tap entries (R505). -/
def tapFree (d : Dev) : Nat := if tapShut d then 0 else 256 - d.met.reserved - d.met.tap.length

def recordReserve : Nat := 155840
def storeBytesTotal : Nat := 0x20_0000
def storeUsed (d : Dev) : Nat := (d.met.records.map fun r => r.bytes.length).foldl (· + ·) 0
/-- Free bytes of the record store above the reserve (R484). -/
def storeFree (d : Dev) : Nat := storeBytesTotal - storeUsed d - recordReserve

/-- The oldest sequence of a group's chunks in its slots, or the next sequence (Table 16-10). -/
def oldestSeq (g : Group) : BitVec 32 :=
  (g.slots.filter fun s => s.state ≠ .free).foldl
    (fun o s => if (g.nextSeq - s.seq).toNat > (g.nextSeq - o).toNat then s.seq else o) g.nextSeq

def groupRole (g : Group) : Nat := if g.parent.isNone then 0 else if g.children.isEmpty then 2 else 1

/-- CLV_GRP_STATE (Table 16-10). -/
def grpState (d : Dev) (h : Nat) : Nat :=
  match assoc h d.groups with
  | none => 0
  | some g =>
    (if g.faulted.isSome then 2 else 1) * 2 ^ 30 + groupRole g * 2 ^ 28 + g.level % 16 * 2 ^ 24
      + g.children.length % 32 * 2 ^ 16 + g.slotsS.toNat % 32 * 2 ^ 8 + min g.slip 255

def grpSeq (d : Dev) (h : Nat) : Nat :=
  match assoc h d.groups with
  | none => 0
  | some g => (oldestSeq g).toNat

/-- Staging slots in use by staged sets (R445, R446). -/
def stagedCount (d : Dev) : Nat :=
  (d.streams.flatMap fun e => e.2.staged).foldl (fun acc t => acc + t.count) 0

def satShow (w n : Nat) : Nat := min n (2 ^ w - 1)

/-- Free spare tiles. -/
def sparesFree (d : Dev) : Nat := (d.phys.toList.filter fun p => p.state == 1).length

/-- A plan entry runs on this physical tile. -/
def tileBusy (d : Dev) (p : Nat) : Bool :=
  let ph := vget d.phys p Phys.reset
  (ph.state == 0 || ph.state == 2)
    && d.plan.running.any fun r => r.entry.resource.toNat < 256 && r.entry.resource.toNat / 4 == ph.logical.toNat

/-- The copy of the field map that is used (R584). -/
def mapCopyInUse (d : Dev) : MapCopy := if d.rpr.mapCopyB then d.flash.mapB else d.flash.mapA

def logWord (e : LogEntry) (w : Nat) : Nat :=
  field ([e.kind, 0] ++ leBytes 6 e.detail.toNat ++ leBytes 8 e.time.toNat) (4 * w) 4

/-- A byte of the record store, 0 outside complete records (R499). -/
def recByte (d : Dev) (o : Nat) : Byte :=
  match d.met.records.find? fun r => (o + storeBytesTotal - r.offset) % storeBytesTotal < r.bytes.length with
  | some r => r.bytes.getD ((o + storeBytesTotal - r.offset) % storeBytesTotal) 0
  | none => 0

def readLys (d : Dev) (p : Port) : LysReg → Nat
  | .ctrl => d.ports[p].ctrl.toNat
  | .status =>
    let s := d.ports[p]
    s.peer.toNat * 2 ^ 8 + bitAt s.peerValid 7 + s.state.toNat * 2 ^ 4 + s.rate.toNat * 2 ^ 2
      + bitAt s.spare 1 + bitAt (onHoliday d (68 + p.val)) 0
  | .event => d.ports[p].event.toNat
  | .timers => d.ports[p].timers.toNat
  | .macLo => (d.fuses.macBase.toNat + p.val) % 2 ^ 32
  | .macHi => (d.fuses.macBase.toNat + p.val) / 2 ^ 32 % 2 ^ 16
  | .peerMacLo => d.ports[p].peerMac.value.toNat % 2 ^ 32
  | .peerMacHi => d.ports[p].peerMac.value.toNat / 2 ^ 32
  | .ip => d.ports[p].ip.toNat
  | .peerIp => d.ports[p].peerIp.toNat
  | .udp => d.ports[p].udp.toNat
  | .ethertype => d.ports[p].ethertype.toNat
  | .credit v => (d.ports[p].limit[v] - d.ports[p].sent[v]).toNat
  | .laneMap => d.ports[p].laneMap.toNat
  | .laneLimit => d.ports[p].laneLimit.toNat
  | .counter i => d.ports[p].counters[i].toNat

def errWord (t : TileRegs) (e : Nat) : Nat :=
  (vget t.errCount e 0).toNat * 2 ^ 8 + bitAt (t.error.getLsbD e) 0

def readTile (d : Dev) (p : Tile) : TileReg → Nat
  | .tilStatus =>
    let ph := d.phys[p]
    let on := ph.state == 0 || ph.state == 2
    (if on || ph.state == 3 then ph.logical.toNat else 0) * 2 ^ 8 + bitAt (onHoliday d p.val) 2 + bitAt (tileBusy d p.val) 1
      + bitAt on 0
  | .tilSpCe => d.tiles[p].spCe.toNat
  | .tilSpUe => d.tiles[p].spUe.toNat
  | .tilEvent => d.tiles[p].tilEvent.toNat
  | .sevRows => d.tiles[p].sevRows.toNat
  | .sevPasses => d.tiles[p].sevPasses.toNat
  | .sevErr => errWord d.tiles[p] 0
  | .qpkBlocks => d.tiles[p].qpkBlocks.toNat
  | .qpkSpills => d.tiles[p].qpkSpills.toNat
  | .qpkErr => errWord d.tiles[p] 1
  | .prjRows => d.tiles[p].prjRows.toNat
  | .prjErr => errWord d.tiles[p] 2
  | .cdcEnc => d.tiles[p].cdcEnc.toNat
  | .cdcFallback => d.tiles[p].cdcFallback.toNat
  | .cdcStored => d.tiles[p].cdcStored.toNat
  | .cdcDec => d.tiles[p].cdcDec.toNat
  | .cdcFormat => d.tiles[p].cdcFormat.toNat
  | .cdcErr => errWord d.tiles[p] 3

def readMbx (d : Dev) (n : Mbx) : MbxReg → Nat
  | .ctrl =>
    let m := d.mbx[n]
    m.vector.toNat * 2 ^ 24 + m.depth.toNat * 2 ^ 8 + bitAt m.cqDev 2 + bitAt m.sqDev 1 + bitAt m.enable 0
  | .status =>
    let m := d.mbx[n]
    m.label.toNat * 2 ^ 8 + bitAt m.bound 7 + bitAt (!m.ready.isEmpty) 6 + bitAt m.configError 5
      + bitAt m.postError 4 + bitAt m.fetchError 3 + bitAt m.doorbellError 2 + bitAt m.enabled 0
  | .sqBaseLo => d.mbx[n].sqBase.value.toNat % 2 ^ 32
  | .sqBaseHi => d.mbx[n].sqBase.value.toNat / 2 ^ 32
  | .cqBaseLo => d.mbx[n].cqBase.value.toNat % 2 ^ 32
  | .cqBaseHi => d.mbx[n].cqBase.value.toNat / 2 ^ 32
  | .sqHead => d.mbx[n].sqHead.toNat
  | .cqTail => bitAt d.mbx[n].phase 16 + d.mbx[n].cqTail.toNat
  | .eventLost => d.mbx[n].eventLost.toNat

/-- MET registers, which read 0 while the island is not ready, but for MET_STATUS (R505). -/
def readMet (d : Dev) (r : Reg) : Nat :=
  match r with
  | .metStatus =>
    if d.fuses.variant = 2 then 0 else
    bitAt d.met.storeError 8 + bitAt d.met.suspect 7 + bitAt d.met.extended 6 + bitAt (tapShut d) 5
      + bitAt (metReady d) 4 + d.met.sealState.toNat
  | _ =>
    if !metReady d then 0 else
    match r with
    | .metImage => 0x0102
    | .metSerialLo => d.fuses.serial.toNat % 2 ^ 32
    | .metSerialHi => d.fuses.serial.toNat / 2 ^ 32
    | .metConfig => (if d.met.otpInterval = 0 then 60 else d.met.otpInterval.toNat) * 2 ^ 16 + 256
    | .metInterval => d.met.interval.toNat
    | .metTimeLo => d.met.time.toNat % 2 ^ 32
    | .metTimeHi => d.met.time.toNat / 2 ^ 32
    | .metTap => tapFree d
    | .metStore => satShow 16 (storeFree d / 1024) * 2 ^ 16 + satShow 16 d.met.records.length
    | .metRecHead => match d.met.records with
      | r :: _ => r.offset
      | [] => d.met.nextOffset
    | .metCollect => match d.met.records with
      | r :: _ => if oldestRead d then r.interval.toNat else 0
      | [] => 0
    | .metTaken => d.met.taken.toNat
    | .metPubkey i => field islandKeyBytes (4 * i.val) 4
    | .metCert i => field (islandCertBytes d.fuses.serial) (4 * i.val) 4
    | .metLive l r hi =>
      let v := ((d.met.labels.filter fun e => e.label.toNat = l.val && e.role.toNat = r.val).map
        fun e => e.positions.toNat).foldl (· + ·) 0
      if hi then v / 2 ^ 32 % 2 ^ 32 else v % 2 ^ 32
    | .metRec w => fromLe ((List.range 4).map fun i => recByte d (4 * w.val + i))
    | .metLog j w => match d.met.recentLog[j.val]? with
      | some e => logWord e w.val
      | none => 0
    | _ => 0

/-- Domain `i + 1` runs within 1 % of its frequency: a quad's PLL, the island's crystal, or the domain's
own PLL. -/
def clockLocked (d : Dev) (i : Nat) : Bool :=
  if 13 ≤ i && i ≤ 16 then d.pwr.lock.getLsbD i && (vget d.quads (i - 13) QuadSt.reset).locked
  else if i = 20 then d.met.powered && d.pwr.lock.getLsbD i
  else d.pwr.lock.getLsbD i

/-- Engine clock after throttle, and a quarter in BROWN_HOLD (Tables 13-2 and 13-3). -/
def engineKhz (d : Dev) (khz : Nat) (quarter : Bool) : Nat :=
  khz * (16 - min 8 d.pwr.clockLevel.toNat) / 16 / (if quarter && d.pwr.hold then 4 else 1)

/-- Frequency of domain `i + 1` in kHz (Table 13-2); that of CLK_JTAG, up to 50 MHz, is the board's (log 8). -/
def clockKhz (d : Dev) (i : Nat) : Nat :=
  match i with
  | 0 => 1600000
  | 1 => engineKhz d 1600000 true
  | 2 => engineKhz d 1400000 true
  | 3 => engineKhz d 1500000 false
  | 4 => 1200000
  | 5 => 400000
  | 12 => 1250000
  | 17 => 1000000
  | 18 => 1000000
  | 19 => 800000
  | 20 => 100000
  | 21 => 25000
  | 22 => 100000
  | 23 => min 50000 (vget d.pwr.freq 23 0).toNat
  | 24 => 200000
  | i => if i ≤ 11 then 2343750 else 53125000 / 2 ^ (vget d.quads (i - 13) QuadSt.reset).rateActive.toNat

/-- CLK_FREQ: the domain's frequency while it is locked, else what was counted (log 8). -/
def clockShown (d : Dev) (i : Nat) : Nat := if clockLocked d i then clockKhz d i else (vget d.pwr.freq i 0).toNat

/-- The current value of a register, as a number (Tables of the register sections). -/
def regValue (d : Dev) (r : Reg) : Nat :=
  match r with
  | .glbId => 0x0E21_B100 + d.fuses.variant.toNat
  | .glbVersion =>
    (if d.met.ready then 0x0102 * 2 ^ 16 else 0) + d.glb.uahias.toNat
  | .glbSerialLo => d.fuses.serial.toNat % 2 ^ 32
  | .glbSerialHi => d.fuses.serial.toNat / 2 ^ 32
  | .glbStatus => activeCount d * 2 ^ 8 + bitAt d.dbg.halted 5 + bitAt d.pwr.hold 4 + bitAt d.rpr.failed 3
      + bitAt d.rpr.degraded 2 + bitAt d.glb.initialised 1 + bitAt d.glb.ready 0
  | .glbFault => faultBits d
  | .glbIntStatus => intStatus d
  | .glbIntEnable => d.glb.intEnable.toNat
  | .glbIntAck => 0
  | .glbIntVec k => d.glb.intVec[k].toNat
  | .pwrStatus => d.pwr.tj.toNat * 2 ^ 24 + d.pwr.level.toNat * 2 ^ 16 + bitAt d.pwr.hold 1 + bitAt d.pwr.warn 0
  | .pwrCause => bitAt d.pwr.sequenceErr 16 + d.pwr.resetCount.toNat * 2 ^ 8 + d.pwr.kind.toNat
  | .pwrEvent => d.pwr.event.toNat
  | .pwrBrown => d.pwr.vwarn.toNat
  | .pwrBrownCount => d.pwr.brownCount.toNat
  | .pwrVcore => d.pwr.request.toNat * 2 ^ 16 + d.pwr.sensed.toNat
  | .pwrThermal => d.pwr.floor.toNat
  | .pwrReset => 0
  | .pwrBoot => d.pwr.bootCode.toNat * 2 ^ 24 + d.pwr.stage.toNat
  | .pwrRecover => d.pwr.recoverResult.toNat * 2 ^ 29 + d.pwr.recoverLength.toNat
  | .clkLock => (List.range 25).foldl (fun acc i => acc + bitAt (clockLocked d i) i) 0
  | .clkEvent => d.pwr.clkEvent.toNat
  | .clkFreq i => clockShown d i.val
  | .tikStatus =>
    (if d.tik.eraValid then d.tik.holidayForce.toNat else 0) * 2 ^ 22
      + (if d.tik.eraValid then d.tik.period.toNat else 0) * 2 ^ 12 + d.tik.leap.toNat * 2 ^ 8
      + bitAt d.tik.almanacLost 6 + bitAt d.tik.eraValid 5 + d.tik.source.toNat * 2 ^ 3
      + bitAt d.tik.isMaster 2 + bitAt d.tik.holdover 1 + bitAt d.tik.locked 0
  | .tikCtrl => d.tik.holiday.toNat * 2 ^ 28 + d.tik.leapMax.toNat * 2 ^ 24 + d.tik.slipLimit.toNat * 2 ^ 16
      + d.tik.guard.toNat * 2 ^ 8
  | .tikSnapEra => d.tik.snapPeriod.toNat * 2 ^ 20 + d.tik.snapLeap.toNat * 2 ^ 16 + d.tik.snapEra.toNat
  | .tikSnapNs => d.tik.snapNs.toNat
  | .tikSnapTickLo => d.tik.snapTick.toNat % 2 ^ 32
  | .tikSnapTickHi => d.tik.snapTick.toNat / 2 ^ 32
  | .tikHoldover => d.tik.holdoverLimit.toNat
  | .tikCableDly => d.tik.cableDly.toNat
  | .tikPlanBaseLo => d.tik.planBase.value.toNat % 2 ^ 32
  | .tikPlanBaseHi => d.tik.planBase.value.toNat / 2 ^ 32
  | .tikEvent => d.tik.event.toNat
  | .tikLate => d.tik.late.toNat
  | .tikSlips => d.tik.slips.toNat
  | .tikStalled => (d.groups.filter fun e => e.2.stalled).length
  | .tikMember => bitAt d.join.duplicate 31 + d.join.masterPri.toNat * 2 ^ 24 + d.join.tray.toNat * 2 ^ 15
      + d.join.position.toNat * 2 ^ 12 + d.join.member.toNat
  | .tikDesignate => bitAt d.join.designate 0
  | .tikTopo => d.join.edges.length % 2 ^ 16 * 2 ^ 16 + bitAt d.join.topoValid 15 + d.join.members.length % 2 ^ 13
  | .mbx n r => readMbx d n r
  | .fplMode => d.fpl.mode.toNat
  | .fplActive => d.fpl.active.toNat
  | .fplPending => (d.fpl.mode ^^^ d.fpl.active).toNat
  | .fplEvent => d.fpl.event.toNat
  | .fplPlanMiss => d.fpl.planMiss.toNat
  | .rprStatus => bitAt d.rpr.failed 31 + bitAt d.rpr.degraded 30 + bitAt d.rpr.mapValid 29
      + bitAt d.rpr.mapForeign 28 + (d.rpr.posted.toList.filter (·.isSome)).length * 2 ^ 23
      + sparesFree d % 8 * 2 ^ 12 + activeCount d
  | .rprEvent => d.rpr.event.toNat
  | .rprCeLimit => d.rpr.limitRow.toNat * 2 ^ 16 + d.rpr.limitBank.toNat
  | .rprMap => (if d.rpr.mapValid then (mapCopyInUse d).entries.length % 2 ^ 16 * 2 ^ 16
      + (mapCopyInUse d).generation.toNat % 256 * 2 ^ 8 else 0) + bitAt d.rpr.mapCopyB 0
  | .rprOverdue k => d.rpr.overdue[k].toNat
  | .rprReqId i => match d.rpr.posted[i] with
    | some q => q.id.toNat
    | none => 0
  | .rprReqInfo i => match d.rpr.posted[i] with
    | some q => q.kind.toNat * 2 ^ 24 + q.unit.toNat
    | none => 0
  | .rprReqDetail i => match d.rpr.posted[i] with
    | some q => q.detail.toNat
    | none => 0
  | .rprPhys p =>
    let ph := d.phys[p]
    ph.state.toNat * 2 ^ 29 + (if ph.state == 0 || ph.state == 2 then ph.logical.toNat else 0) * 2 ^ 23
      + bitAt ph.sliceLost 22 + bitAt ph.bank1.isSome 21 + bitAt ph.bank0.isSome 20
      + (ph.bank1.getD 0).toNat * 2 ^ 14 + (ph.bank0.getD 0).toNat * 2 ^ 8
  | .rprHbm s => satShow 13 d.hbm[s].retired.length * 2 ^ 16 + satShow 8 d.hbm[s].soft.length * 2 ^ 8
      + d.hbm[s].hard.toNat
  | .hifStatus => bitAt d.hif.flit 16 + d.hif.width.toNat * 2 ^ 8 + d.hif.speed.toNat * 2 ^ 4 + bitAt d.hif.hdm 2
      + bitAt d.hif.cxl 1 + bitAt d.hif.linkUp 0
  | .hifEvent => d.hif.event.toNat
  | .hifWinLo w => d.hif.win[w].value.toNat % 2 ^ 32
  | .hifWinHi w => d.hif.win[w].value.toNat / 2 ^ 32
  | .msixTable i => d.glb.msixTable[i].toNat
  | .msixPba i => d.glb.msixPending.toNat / 2 ^ (32 * i.val) % 2 ^ 32
  | .lys p r => readLys d p r
  | .lysQrate q => d.quads[q].rateActive.toNat * 2 ^ 4 + d.quads[q].rateRequest.toNat
  | .lysQstatus q => satShow 16 (ceilDiv d.quads[q].remaining 1000) * 2 ^ 16 + bitAt d.quads[q].recalibrating 2
      + bitAt d.quads[q].settling 1 + bitAt d.quads[q].locked 0
  | .hbmStatus s => d.hbm[s].temp.toNat * 2 ^ 8 + bitAt d.hbm[s].selfRefresh 1 + bitAt d.hbm[s].trained 0
  | .hbmCe s => d.hbm[s].ce.toNat
  | .hbmUe s => d.hbm[s].ue.toNat
  | .tile p r => readTile d p r
  | .clvStatus => d.groups.length * 2 ^ 16 + d.buckets.length
  | .clvTree => (d.trees.map fun e => e.2.length).foldl (· + ·) 0
  | .clvGrpState h => grpState d h.val
  | .clvGrpSeq h => grpSeq d h.val
  | .clvBucket b => match assoc b.val d.buckets with
    | some k => 2 ^ 31 + bitAt k.sealing 30 + k.group.toNat
    | none => 0
  | .kvsStatus => (2048 - stagedCount d) * 2 ^ 16 + d.streams.length
  | .kvsWac => d.kvs.wac.toNat
  | .kvsUnbacked => d.kvs.unbacked.toNat
  | .kvsStageWr => d.kvs.stageWr.toNat
  | .kvsEvent => d.kvs.event.toNat
  | .dbgCtrl => d.dbg.itrace.toNat * 2 ^ 4 + bitAt d.dbg.openSet 0
  | .dbgStatus => d.dbg.id.toNat * 2 ^ 8 + d.dbg.core.toNat * 2 ^ 4 + d.dbg.cause.toNat * 2 ^ 2
      + bitAt d.dbg.halted 1 + bitAt d.dbg.openSet 0
  | .dbgHalt => 0
  | .dbgEvent => d.dbg.event.toNat
  | .dbgWatch => (List.range 16).foldl (fun acc i => acc + bitAt (vget d.dbg.watches i none).isSome i) 0
  | .dbgWatchCancel => 0
  | .dbgTcmAddr => d.dbg.tcmCore.toNat * 2 ^ 30 + d.dbg.tcmOffset.toNat * 2 ^ 2
  | .dbgTcmData =>
    if d.dbg.halted then (Config.freeWord (d.freeCount + 4 * d.dbg.tcmOffset.toNat + d.dbg.tcmCore.toNat)).toNat else 0
  | .dbgPc c => if d.dbg.halted then d.dbg.pc[c].toNat else 0
  | .trcCtrl => bitAt d.trc.mode 0
  | .trcStatus => bitAt d.trc.stopped 2 + bitAt d.trc.full 1 + bitAt d.trc.session.isSome 0
  | .trcBaseLo => d.trc.base.toNat % 2 ^ 32
  | .trcBaseHi => d.trc.base.toNat / 2 ^ 32
  | .trcWrittenLo => d.trc.written.toNat % 2 ^ 32
  | .trcWrittenHi => d.trc.written.toNat / 2 ^ 32
  | .trcDropped => d.trc.dropped.toNat
  | .trcMask => match d.trc.session with
    | some s => s.mask.toNat
    | none => 0
  | .trcFilter => match d.trc.session with
    | some s => bitAt s.all 8 + s.label.toNat
    | none => 0
  | r => readMet d r

/-- The NAME_HI of a NAME_LO, and the sequence that a group state read latches (R18, R672). -/
def latchOf : Reg → Option Reg
  | .glbSerialLo => some .glbSerialHi
  | .tikSnapTickLo => some .tikSnapTickHi
  | .tikPlanBaseLo => some .tikPlanBaseHi
  | .mbx n .sqBaseLo => some (.mbx n .sqBaseHi)
  | .mbx n .cqBaseLo => some (.mbx n .cqBaseHi)
  | .hifWinLo w => some (.hifWinHi w)
  | .lys p .macLo => some (.lys p .macHi)
  | .lys p .peerMacLo => some (.lys p .peerMacHi)
  | .clvGrpState h => some (.clvGrpSeq h)
  | .trcBaseLo => some .trcBaseHi
  | .trcWrittenLo => some .trcWrittenHi
  | .metSerialLo => some .metSerialHi
  | .metTimeLo => some .metTimeHi
  | .metLive l r false => some (.metLive l r true)
  | _ => none

/-- What a read of a register returns: the latched half where one is held (log 7). -/
def readReg (d : Dev) (r : Reg) : Word :=
  match assoc r.offset d.latches with
  | some w => w
  | none => BitVec.ofNat 32 (regValue d r)

/-- Is the register a read-to-clear count (RC of the register tables), other than MET_COLLECT? -/
def isRc : Reg → Bool
  | .pwrBrownCount | .tikLate | .tikSlips | .mbx _ .eventLost | .fplPlanMiss | .rprOverdue _
  | .hbmCe _ | .hbmUe _ | .kvsWac | .kvsUnbacked | .kvsStageWr | .trcDropped => true
  | .lys _ (.counter _) => true
  | .tile _ r => match r with
    | .tilSpCe | .tilSpUe | .sevRows | .sevPasses | .qpkBlocks | .qpkSpills | .prjRows | .cdcEnc
    | .cdcFallback | .cdcStored | .cdcDec | .cdcFormat => true
    | _ => false
  | _ => false

def withPort (d : Dev) (p : Port) (f : PortSt → PortSt) : Dev := { d with ports := vmod d.ports p f }
def withQuad (d : Dev) (q : Quad) (f : QuadSt → QuadSt) : Dev := { d with quads := vmod d.quads q f }
def withTile (d : Dev) (p : Tile) (f : TileRegs → TileRegs) : Dev := { d with tiles := vmod d.tiles p f }
def withPhys (d : Dev) (p : Tile) (f : Phys → Phys) : Dev := { d with phys := vmod d.phys p f }
def withStack (d : Dev) (s : Stack) (f : HbmSt → HbmSt) : Dev := { d with hbm := vmod d.hbm s f }
def withTik (d : Dev) (f : Tik → Tik) : Dev := { d with tik := f d.tik }
def withJoin (d : Dev) (f : Join → Join) : Dev := { d with join := f d.join }
def withPwr (d : Dev) (f : Pwr → Pwr) : Dev := { d with pwr := f d.pwr }
def withGlb (d : Dev) (f : Glb → Glb) : Dev := { d with glb := f d.glb }
def withHif (d : Dev) (f : Hif → Hif) : Dev := { d with hif := f d.hif }
def withFpl (d : Dev) (f : Fpl → Fpl) : Dev := { d with fpl := f d.fpl }
def withRpr (d : Dev) (f : Rpr → Rpr) : Dev := { d with rpr := f d.rpr }
def withDbg (d : Dev) (f : Dbg → Dbg) : Dev := { d with dbg := f d.dbg }
def withTrc (d : Dev) (f : Trc → Trc) : Dev := { d with trc := f d.trc }
def withKvs (d : Dev) (f : Kvs → Kvs) : Dev := { d with kvs := f d.kvs }
def withMet (d : Dev) (f : Met → Met) : Dev := { d with met := f d.met }
def withPlan (d : Dev) (f : Plan → Plan) : Dev := { d with plan := f d.plan }
def withFlash (d : Dev) (f : Flash → Flash) : Dev := { d with flash := f d.flash }

def clearTileCount : TileReg → TileRegs → TileRegs
  | .tilSpCe, t => { t with spCe := 0 }
  | .tilSpUe, t => { t with spUe := 0 }
  | .sevRows, t => { t with sevRows := 0 }
  | .sevPasses, t => { t with sevPasses := 0 }
  | .qpkBlocks, t => { t with qpkBlocks := 0 }
  | .qpkSpills, t => { t with qpkSpills := 0 }
  | .prjRows, t => { t with prjRows := 0 }
  | .cdcEnc, t => { t with cdcEnc := 0 }
  | .cdcFallback, t => { t with cdcFallback := 0 }
  | .cdcStored, t => { t with cdcStored := 0 }
  | .cdcDec, t => { t with cdcDec := 0 }
  | .cdcFormat, t => { t with cdcFormat := 0 }
  | _, t => t

/-- A read of an RC field clears it (R15, R20). -/
def clearRc (d : Dev) (r : Reg) : Dev :=
  match r with
  | .pwrBrownCount => withPwr d fun x => { x with brownCount := 0 }
  | .tikLate => withTik d fun x => { x with late := 0 }
  | .tikSlips => withTik d fun x => { x with slips := 0 }
  | .mbx n .eventLost => withMbx d n fun x => { x with eventLost := 0 }
  | .fplPlanMiss => withFpl d fun x => { x with planMiss := 0 }
  | .rprOverdue k => withRpr d fun x => { x with overdue := x.overdue.set k 0 }
  | .hbmCe s => withStack d s fun x => { x with ce := 0 }
  | .hbmUe s => withStack d s fun x => { x with ue := 0 }
  | .kvsWac => withKvs d fun x => { x with wac := 0 }
  | .kvsUnbacked => withKvs d fun x => { x with unbacked := 0 }
  | .kvsStageWr => withKvs d fun x => { x with stageWr := 0 }
  | .trcDropped => withTrc d fun x => { x with dropped := 0 }
  | .lys p (.counter i) => withPort d p fun x => { x with counters := x.counters.set i 0 }
  | .tile p t => withTile d p (clearTileCount t)
  | _ => d

/-- A read of NAME_LO, or of CLV_GRP_STATE, latches its upper half (R18, R21, R672). -/
def latchHalf (d : Dev) (r : Reg) : Dev :=
  match latchOf r with
  | some hi => { d with latches := assocSet hi.offset (BitVec.ofNat 32 (regValue d hi)) d.latches }
  | none => d

def putRead (d : Dev) (bs : List Byte) (poison : Bool) : Dev :=
  withBus d fun b => { b with readData := bs, readPoison := poison, readHeld := false }

/-- BAR0 answers from the end of step 5 of start-up (R568, R677). -/
def bar0Answers (d : Dev) : Bool := !d.pwr.inReset && (d.glb.ready || 6 ≤ d.pwr.stage.toNat || d.pwr.bootCode != 0)

/-! ### Writes that set a field and do nothing else -/

/-- A pair's LO half is held, its HI half takes effect with it (R18, R22). -/
def pairLo (p : Pair) (w : Word) : Pair := { p with lo := w }
def pairHi (p : Pair) (w : Word) (hiBits : Nat) : Pair :=
  { p with value := BitVec.ofNat 64 (w.toNat % 2 ^ hiBits * 2 ^ 32 + p.lo.toNat) }

/-- LYS_TIMERS: a half of 0 is a reserved encoding and leaves its field (R17). -/
def mergeTimers (old w : Word) : Word :=
  let hi := if w.toNat / 2 ^ 16 = 0 then old.toNat / 2 ^ 16 else w.toNat / 2 ^ 16
  let lo := if w.toNat % 2 ^ 16 = 0 then old.toNat % 2 ^ 16 else w.toNat % 2 ^ 16
  BitVec.ofNat 32 (hi * 2 ^ 16 + lo)

def writeLys (d : Dev) (p : Port) (r : LysReg) (w : Word) : Dev :=
  match r with
  | .ctrl => withPort d p fun x => { x with ctrl := w &&& 0x01FF_FFFD }
  | .event => withPort d p fun x => { x with event := x.event &&& ~~~ w.truncate 8 }
  | .timers => withPort d p fun x => { x with timers := mergeTimers x.timers w }
  | .peerMacLo => withPort d p fun x => { x with peerMac := pairLo x.peerMac w }
  | .peerMacHi => withPort d p fun x => { x with peerMac := pairHi x.peerMac w 16 }
  | .ip => withPort d p fun x => { x with ip := w }
  | .peerIp => withPort d p fun x => { x with peerIp := w }
  | .udp => withPort d p fun x => { x with udp := w }
  | .ethertype => withPort d p fun x => { x with ethertype := w.truncate 16 }
  | .laneLimit => withPort d p fun x => { x with laneLimit := w }
  | _ => d

def writeTile (d : Dev) (p : Tile) (r : TileReg) (w : Word) : Dev :=
  match r with
  | .tilEvent => withTile d p fun x => { x with tilEvent := x.tilEvent &&& ~~~ w.truncate 3 }
  | .sevErr => if w.getLsbD 0 then withTile d p fun x => { x with error := x.error &&& 0xE } else d
  | .qpkErr => if w.getLsbD 0 then withTile d p fun x => { x with error := x.error &&& 0xD } else d
  | .prjErr => if w.getLsbD 0 then withTile d p fun x => { x with error := x.error &&& 0xB } else d
  | .cdcErr => if w.getLsbD 0 then withTile d p fun x => { x with error := x.error &&& 0x7 } else d
  | _ => d

/-- TIK_CTRL's RW fields; a reserved encoding leaves its field (R17, R103, Table 2-8). -/
def writeTikCtrl (d : Dev) (w : Word) : Dev :=
  let v := w.toNat
  withTik d fun x => { x with
    holiday := if v / 2 ^ 28 % 8 = 7 then x.holiday else BitVec.ofNat 3 (v / 2 ^ 28)
    leapMax := if v / 2 ^ 24 % 16 > 8 then x.leapMax else BitVec.ofNat 4 (v / 2 ^ 24)
    slipLimit := if v / 2 ^ 16 % 256 = 0 then x.slipLimit else BitVec.ofNat 8 (v / 2 ^ 16)
    guard := if v / 2 ^ 8 % 256 < 10 || 250 < v / 2 ^ 8 % 256 then x.guard else BitVec.ofNat 8 (v / 2 ^ 8) }

/-- The plan area's eight buffers lie outside every reserved range (R67). -/
def planAreaOk (base : Nat) : Bool :=
  let z := base + 0x8_0000
  z ≤ scratchTop || (hbmBase ≤ base && z ≤ hbmTop) || (hostBase ≤ base && z ≤ deviceTop)

/-- TIK_PLAN_BASE takes effect at the write of its upper half (R18, R67). -/
def writePlanBaseHi (d : Dev) (w : Word) : Dev :=
  let v := pairHi d.tik.planBase w 16
  if planAreaOk v.value.toNat then withTik d fun x => { x with planBase := v } else d

/-- Configuration fields of a mailbox that is not enabled (R259). -/
def writeMbxBase (d : Dev) (n : Mbx) (r : MbxReg) (w : Word) : Dev :=
  if (mailbox d n).enabled then d else
  match r with
  | .sqBaseLo => withMbx d n fun m => { m with sqBase := pairLo m.sqBase (w &&& 0xFFFF_F000) }
  | .sqBaseHi => withMbx d n fun m => { m with sqBase := pairHi m.sqBase w 32 }
  | .cqBaseLo => withMbx d n fun m => { m with cqBase := pairLo m.cqBase (w &&& 0xFFFF_F000) }
  | .cqBaseHi => withMbx d n fun m => { m with cqBase := pairHi m.cqBase w 32 }
  | _ => d

/-- MBX_STATUS W1C bits 5:2 (Table 5-16). -/
def writeMbxStatus (d : Dev) (n : Mbx) (w : Word) : Dev :=
  withMbx d n fun m => { m with
    configError := m.configError && !w.getLsbD 5
    postError := m.postError && !w.getLsbD 4
    fetchError := m.fetchError && !w.getLsbD 3
    doorbellError := m.doorbellError && !w.getLsbD 2 }

/-- GLB_INT_ACK: the message again for each acknowledged source whose level is 1 (R668). -/
def ackInts (d : Dev) (mask : BitVec 11) : Dev :=
  ((List.range 11).filter fun k => mask.getLsbD k && sourceLevel d k).foldl
    (fun d k => sendMsi d (vget d.glb.intVec k 0)) d

/-- A word of the MSI-X table; clearing a vector's mask sends its pending message (log 9). -/
def writeMsix (d : Dev) (i : Fin 1024) (w : Word) : Dev :=
  let w := if i.val % 4 = 3 then w &&& 1 else w
  let d := withGlb d fun g => { g with msixTable := g.msixTable.set i w }
  let v := i.val / 4
  if i.val % 4 = 3 && w = 0 && d.glb.msixPending.getLsbD v then
    sendMsi (withGlb d fun g => { g with msixPending := g.msixPending &&& ~~~ BitVec.ofNat 256 (2 ^ v) })
      (BitVec.ofNat 8 v)
  else d

/-- A register write whose whole effect is on the register's own fields (R15–R19). Registers whose
write does more are written in `Machine/HostIf.lean`. -/
def writePlain (d : Dev) (r : Reg) (w : Word) : Dev :=
  match r with
  | .glbFault => withGlb d fun g => { g with
      memoryFault := g.memoryFault && !w.getLsbD 5
      firmwareFault := g.firmwareFault && !w.getLsbD 4
      hostLink := g.hostLink && !w.getLsbD 2
      tickFault := g.tickFault && !w.getLsbD 1
      accessError := g.accessError && !w.getLsbD 0 }
  | .glbIntEnable => withGlb d fun g => { g with intEnable := w.truncate 11 }
  | .glbIntVec k => withGlb d fun g => { g with intVec := g.intVec.set k (w.truncate 8) }
  | .pwrEvent => withPwr d fun x => { x with event := x.event &&& ~~~ w.truncate 8 }
  | .pwrBrown => withPwr d fun x => { x with vwarn := if 6 ≤ w.toNat % 8 then x.vwarn else w.truncate 3 }
  | .pwrThermal => withPwr d fun x => { x with floor := if 9 ≤ w.toNat % 16 then x.floor else w.truncate 4 }
  | .clkEvent => withPwr d fun x => { x with clkEvent := x.clkEvent &&& ~~~ w.truncate 25 }
  | .tikHoldover => withTik d fun x => { x with
      holdoverLimit := if w.toNat % 2 ^ 16 = 0 then x.holdoverLimit else w.truncate 16 }
  | .tikPlanBaseLo => withTik d fun x => { x with planBase := pairLo x.planBase (w &&& 0xFFFF_0000) }
  | .tikPlanBaseHi => writePlanBaseHi d w
  | .tikEvent => withTik d fun x => { x with event := x.event &&& ~~~ w.truncate 7 }
  | .mbx n .status => writeMbxStatus d n w
  | .mbx n r => writeMbxBase d n r w
  | .fplEvent => withFpl d fun x => { x with event := x.event &&& ~~~ w.truncate 10 }
  | .rprEvent => withRpr d fun x => { x with event := x.event &&& ~~~ w.truncate 10 }
  | .rprCeLimit => withRpr d fun x => { x with
      limitRow := if w.toNat / 2 ^ 16 = 0 then x.limitRow else BitVec.ofNat 16 (w.toNat / 2 ^ 16)
      limitBank := if w.toNat % 2 ^ 16 = 0 then x.limitBank else w.truncate 16 }
  | .hifEvent => withHif d fun x => { x with event := x.event &&& ~~~ w.truncate 4 }
  | .hifWinLo i => withHif d fun x => { x with win := vmod x.win i (pairLo · (w &&& 0xF000_0000)) }
  | .hifWinHi i => withHif d fun x => { x with win := vmod x.win i (pairHi · w 16) }
  | .msixTable i => writeMsix d i w
  | .lys p r => writeLys d p r w
  | .lysQrate q => withQuad d q fun x => { x with
      rateRequest := if w.toNat % 4 = 3 then x.rateRequest else w.truncate 2 }
  | .tile p r => writeTile d p r w
  | .kvsEvent => withKvs d fun x => { x with event := x.event &&& ~~~ w.truncate 3 }
  | .dbgEvent => withDbg d fun x => { x with event := x.event &&& ~~~ w.truncate 3 }
  | .dbgTcmAddr => withDbg d fun x => { x with
      tcmCore := BitVec.ofNat 2 (w.toNat / 2 ^ 30), tcmOffset := BitVec.ofNat 17 (w.toNat / 4) }
  | .trcCtrl => withTrc d fun x => { x with mode := w.getLsbD 0 }
  | _ => d

end Sys2Proof.Machine
end

