-- ==== Sys2Proof/Machine/Layout.lean ====
section
/-!
DEFINITION. Tensor descriptors (chapter 4): the image of Table 4-1, the native layout, the address of
every element, the byte image of R703, out-of-bounds reads and writes.
-/
namespace Sys2Proof.Machine

/-! ### Formats (Table 4-2) -/

def fmtDefined (f : Nat) : Bool := f ≤ 8

/-- Bytes of one group of 64 elements, per plane. -/
def groupBytes (f : Nat) : Nat :=
  if f = fBF16 || f = fS16 || f = fFP32 then 128
  else if f = fINT4 then 32 else if f = fL48 then 384 else if f = fL24 then 192 else 64

/-- Alignment unit A. -/
def alignUnit (f : Nat) : Nat :=
  if f = fBF16 || f = fS16 || f = fFP32 || f = fL48 then 128 else if f = fINT4 then 32 else 64

def mayTranspose (f : Nat) : Bool := !(f = fINT4 || f = fS16 || f = fL48 || f = fL24)

def twoPlanes (f : Nat) : Bool := f = fFP32 || f = fS16

/-! ### Sizes -/

def Desc.rk (k : Desc) : Nat := k.rank.toNat
def Desc.fmt (k : Desc) : Nat := k.format.toNat

/-- Size of stored dimension `i`, 1 beyond the rank. -/
def Desc.size (k : Desc) (i : Nat) : Nat := if i < k.rk then (vget k.sizeM1 i 0).toNat + 1 else 1

/-- Byte stride of stored dimension `i ≥ 1`. -/
def Desc.strideOf (k : Desc) (i : Nat) : Nat := if 1 ≤ i && i < k.rk then (vget k.stride (i - 1) 0).toNat else 0

def Desc.sizes (k : Desc) : List Nat := (List.range k.rk).map k.size

/-- Sizes of the logical dimensions (R187). -/
def Desc.logical (k : Desc) : List Nat :=
  match k.transpose, k.sizes with
  | true, a :: b :: t => b :: a :: t
  | _, l => l

def product (l : List Nat) : Nat := l.foldl (· * ·) 1

def Desc.count (k : Desc) : Nat := product k.sizes
def Desc.rowLen (k : Desc) : Nat := k.logical.headD 1
def Desc.rows (k : Desc) : Nat := k.count / k.rowLen

/-- Numeric format of an access: a HIGH view is BF16 (R177). -/
def Desc.accessFmt (k : Desc) : Nat := if k.fmt = fFP32 && k.view != 0 then fBF16 else k.fmt

def Desc.lowView (k : Desc) : Bool := k.fmt = fFP32 && k.view = 2

/-- Bytes of one element in the image of R703; 0 for INT4, whose elements are nibbles. -/
def Desc.elemSize (k : Desc) : Nat :=
  let f := k.accessFmt
  if f = fBF16 || f = fS16 then 2 else if f = fINT4 then 0 else if f = fL48 then 6 else if f = fL24 then 3
  else if f = fFP32 then 4 else 1

/-- Groups of stored dimension 0. -/
def Desc.groups0 (k : Desc) : Nat := ceilDiv (k.size 0) 64

/-- Footprint of R170 with the outermost size replaced (R192). -/
def footprint (k : Desc) (outer : Nat) : Nat :=
  let sz := fun i => if i + 1 = k.rk then outer else k.size i
  if outer = 0 then 0
  else (List.range k.rk).foldl (fun acc i => if i = 0 then acc else acc + (sz i - 1) * k.strideOf i) 0
    + ceilDiv (sz 0) 64 * groupBytes k.fmt

/-- F of a descriptor (R170, R192). -/
def Desc.foot (k : Desc) : Nat :=
  footprint k (if k.packed then k.ownBlocks.length * k.blockSize else k.size (k.rk - 1))

/-- Bytes of the scale plane (R172). -/
def Desc.scaleBytes (k : Desc) : Nat := k.groups0 * (k.count / k.size 0)

/-- End of everything the descriptor reaches, from its base (check 10 of Table 4-3). -/
def Desc.reach (k : Desc) : Nat :=
  if k.fmt = fFP32 then k.plane.toNat * 256 + k.foot
  else if k.fmt = fS16 then max k.foot (k.plane.toNat * 256 + k.scaleBytes)
  else k.foot

/-! ### Where an element lies -/

/-- Coordinates of flat index `j`, innermost first. -/
def coordsOf : List Nat → Nat → List Nat
  | [], _ => []
  | s :: t, j => j % s :: coordsOf t (j / s)

/-- Stored coordinates of the element at flat logical index `j` (R187). -/
def Desc.storedAt (k : Desc) (j : Nat) : List Nat :=
  match k.transpose, coordsOf k.logical j with
  | true, a :: b :: t => b :: a :: t
  | _, l => l

/-- Place of block `b` in a list of owned blocks (R192). -/
def placeIn (b : Nat) : List Nat → Nat → Option Nat
  | [], _ => none
  | x :: t, i => if x = b then some i else placeIn b t (i + 1)

/-- The outermost coordinate as it is held: unchanged, or the packed position (R192). -/
def Desc.heldAt (k : Desc) (c : Nat) : Option Nat :=
  if k.packed then (placeIn (c / k.blockSize) k.ownBlocks 0).map fun j => j * k.blockSize + c % k.blockSize
  else some c

/-- Byte offset within a group of element `j` of it (R167). -/
def inGroup (f j : Nat) : Nat :=
  if f = fBF16 || f = fS16 || f = fFP32 then 2 * j
  else if f = fL48 then 6 * j else if f = fL24 then 3 * j else if f = fINT4 then j / 2 else j

def dotStrides (k : Desc) : Nat → List Nat → Nat
  | _, [] => 0
  | i, c :: t => (if i = 0 then 0 else c * k.strideOf i) + dotStrides k (i + 1) t

/-- Replace the last coordinate. -/
def replaceLast (l : List Nat) (x : Nat) : List Nat := l.dropLast ++ [x]

/-- Device address of an element in the first plane (R167); none when it is out of bounds. -/
def Desc.addr (k : Desc) (j : Nat) : Option Nat :=
  if k.count ≤ j then none
  else
    let cs := k.storedAt j
    (k.heldAt (cs.getLastD 0)).map fun h =>
      let cs := replaceLast cs h
      let c0 := cs.headD 0
      k.start + k.base.toNat + dotStrides k 0 cs + c0 / 64 * groupBytes k.fmt + inGroup k.fmt (c0 % 64)

def Desc.planeBytes (k : Desc) : Nat := k.plane.toNat * 256

/-- Addresses of the element's image bytes, lowest byte first; INT4 elements have their byte. -/
def Desc.addrs (k : Desc) (j : Nat) : Option (List Nat) :=
  (k.addr j).map fun a =>
    if k.fmt = fFP32 then
      if k.view = 1 then [a, a + 1]
      else if k.view = 2 then [a + k.planeBytes, a + k.planeBytes + 1]
      else [a + k.planeBytes, a + k.planeBytes + 1, a, a + 1]
    else if k.fmt = fINT4 then [a]
    else (List.range k.elemSize).map (a + ·)

/-- An INT4 element in the high half of its byte (R167). -/
def Desc.highNibble (k : Desc) (j : Nat) : Bool := (k.storedAt j).headD 0 % 64 % 2 = 1

/-- Flat index of a group in the scale plane (R172); of a packed tensor the outermost coordinate is counted at
its packed position (log 35). -/
def scaleIndex (k : Desc) : Nat → List Nat → Nat
  | _, [] => 0
  | i, c :: t => (if i = 0 then c / 64 else c) + (if i = 0 then k.groups0 else k.size i) * scaleIndex k (i + 1) t

/-- Address of the block scale of an S16 element. -/
def Desc.scaleAddr (k : Desc) (j : Nat) : Option Nat :=
  if k.count ≤ j then none
  else
    let cs := k.storedAt j
    (k.heldAt (cs.getLastD 0)).map fun h =>
      k.start + k.base.toNat + k.planeBytes + scaleIndex k 0 (replaceLast cs h)

/-- The fill pattern as an element's raw value (Table 4-4). -/
def Desc.fillRaw (k : Desc) : Nat :=
  let f := k.accessFmt
  let p := k.fill.toNat
  if f = fINT4 then p % 16
  else if f = fE4M3 || f = fE5M2 || f = fINT8 then p % 256
  else if f = fL48 then unsigned 48 (signed 16 p)
  else if f = fL24 then unsigned 24 (signed 16 p)
  else if f = fFP32 then p * 65536
  else p

/-! ### Reading and writing elements -/

/-- Raw value of the element at flat index `j`, the fill value out of bounds (R183). -/
def readElem (d : Dev) (k : Desc) (j : Nat) : Nat :=
  match k.addrs j with
  | none => k.fillRaw
  | some as =>
    let v := fromLe (as.map (byteAt d))
    if k.fmt = fINT4 then (if k.highNibble j then v / 16 else v % 16) else v

/-- S16 scale of the element's group; 0 for filled reads and other formats (Table 4-4). -/
def readScale (d : Dev) (k : Desc) (j : Nat) : Int :=
  if k.fmt = fS16 then match k.scaleAddr j with
    | some a => signed 8 (byteAt d a).toNat
    | none => 0
  else 0

/-- Is the element out of bounds? (R180) -/
def Desc.oob (k : Desc) (j : Nat) : Bool := (k.addr j).isNone

/-- Out-of-bounds elements among `n` from `first` on. -/
def oobCount (k : Desc) (first n : Nat) : Nat := ((List.range n).filter fun i => k.oob (first + i)).length

/-- Bytes of a list to a list of addresses. -/
def pokes : Dev → List Nat → List Byte → Dev
  | d, a :: as, b :: bs => pokes (store d a [b]) as bs
  | d, _, _ => d

/-- A raw value to the element at flat index `j`; nothing out of bounds (R183). -/
def writeElem (d : Dev) (k : Desc) (j raw : Nat) : Dev :=
  match k.addrs j with
  | none => d
  | some as =>
    if k.fmt = fINT4 then
      match as with
      | a :: _ =>
        let old := (byteAt d a).toNat
        store d a [BitVec.ofNat 8 (if k.highNibble j then old % 16 + 16 * (raw % 16) else old / 16 * 16 + raw % 16)]
      | [] => d
    else pokes d as (leBytes as.length raw)

/-- Values to consecutive elements from `first` on. -/
def writeElems : Dev → Desc → Nat → List Nat → Dev
  | d, _, _, [] => d
  | d, k, j, v :: t => writeElems (writeElem d k j v) k (j + 1) t

/-- Address of an element's group in the first plane, if pad closes that group (R168). -/
def Desc.padGroup (k : Desc) (j : Nat) : Option Nat :=
  let c := (k.storedAt j).headD 0
  if k.size 0 % 64 = 0 || c / 64 != k.size 0 / 64 then none else (k.addr j).map (· - inGroup k.fmt (c % 64))

/-- 0 into the pad of the group at `g`: its elements from number `size 0 mod 64` on. -/
def clearPad (k : Desc) (d : Dev) (g : Nat) : Dev :=
  let used := k.size 0 % 64
  let full := inGroup k.fmt used
  let whole := full + (if k.fmt = fINT4 then used % 2 else 0)
  let d := if k.fmt = fINT4 && used % 2 = 1 then store d (g + full) [BitVec.ofNat 8 ((byteAt d (g + full)).toNat % 16)] else d
  let clear := fun (d : Dev) (a : Nat) => store d (a + whole) (List.replicate (groupBytes k.fmt - whole) 0)
  if k.fmt != fFP32 || k.view = 1 then clear d g
  else if k.view = 2 then clear d (g + k.planeBytes)
  else clear (clear d g) (g + k.planeBytes)

/-- Groups closed by pad that these elements touch. -/
def padGroups (k : Desc) (js : List Nat) : List Nat := (js.filterMap k.padGroup).eraseDups

/-- Addresses that `clearPad` gives a value in the group at `g`. -/
def padAddrs (k : Desc) (g : Nat) : List Nat :=
  let from_ := inGroup k.fmt (k.size 0 % 64)
  let span := fun (a : Nat) => (List.range (groupBytes k.fmt - from_)).map (a + from_ + ·)
  if k.fmt != fFP32 || k.view = 1 then span g
  else if k.view = 2 then span (g + k.planeBytes)
  else span g ++ span (g + k.planeBytes)

/-- Lines of which every byte has just been written lose their poison (R594). -/
def coverLines (d : Dev) (as : List Nat) : Dev :=
  { d with poison := d.poison.filter fun l => !((List.range (lineSize l)).all fun i => as.contains (l + i)) }

/-- These elements, at these addresses, have been written: 0 into the pad of every group that they touch
(R168), and lines written whole are whole again (R594). -/
def padElems (d : Dev) (k : Desc) (js as : List Nat) : Dev :=
  let d := (padGroups k js).foldl (clearPad k) d
  if d.poison.isEmpty then d else coverLines d (as ++ (padGroups k js).flatMap (padAddrs k))

/-- The addresses of an element that is written with its neighbours: an INT4 byte with its second nibble,
an S16 element with its group's scale. -/
def Desc.writtenAt (k : Desc) (first j : Nat) : List Nat :=
  if k.fmt = fINT4 && (!k.highNibble j || j = first) then []
  else (k.addrs j).getD [] ++ (if k.fmt = fS16 then (k.scaleAddr j).toList else [])

/-- The same for `n` elements from `first` on. -/
def padRun (d : Dev) (k : Desc) (first n : Nat) : Dev :=
  let js := (List.range n).map (first + ·)
  padElems d k js (if d.poison.isEmpty then [] else js.flatMap (k.writtenAt first))

/-- There is no poisoned line and no lost slice (R594, R601). -/
def memoryWhole (d : Dev) : Bool := d.poison.isEmpty && d.rpr.missing.isEmpty

/-- Does reading these elements meet a poisoned line? (R594) -/
def elemsPoisoned (d : Dev) (k : Desc) (first n : Nat) : Bool :=
  !memoryWhole d && (List.range n).any fun i =>
    (match k.addrs (first + i) with
      | some as => as.any fun a => poisoned d a 1
      | none => false)
    || (k.fmt = fS16 && match k.scaleAddr (first + i) with
      | some a => poisoned d a 1
      | none => false)

/-! ### The byte image of R703 -/

/-- Image bytes of one row of an S16 tensor: elements, then scales. -/
def s16RowBytes (k : Desc) : Nat := 2 * k.rowLen + k.groups0

/-- Length of the image. -/
def Desc.imageLen (k : Desc) : Nat :=
  if k.fmt = fINT4 then ceilDiv k.count 2
  else if k.fmt = fS16 then k.rows * s16RowBytes k
  else k.count * k.elemSize

/-- What byte `i` of the image is: a byte of an element, a pair of INT4 elements, or a block scale. -/
inductive ImagePart where
  | elem (j b : Nat)
  | pair (j : Nat)
  | scale (j : Nat)

def Desc.part (k : Desc) (i : Nat) : ImagePart :=
  if k.fmt = fINT4 then .pair (2 * i)
  else if k.fmt = fS16 then
    let row := i / s16RowBytes k
    let o := i % s16RowBytes k
    if o < 2 * k.rowLen then .elem (row * k.rowLen + o / 2) (o % 2)
    else .scale (row * k.rowLen + 64 * (o - 2 * k.rowLen))
  else .elem (i / k.elemSize) (i % k.elemSize)

/-- Byte `i` of the image. -/
def imageByte (d : Dev) (k : Desc) (i : Nat) : Byte :=
  match k.part i with
  | .elem j b => BitVec.ofNat 8 (readElem d k j / 256 ^ b)
  | .pair j => BitVec.ofNat 8 (readElem d k j + (if j + 1 < k.count then 16 * readElem d k (j + 1) else 0))
  | .scale j => BitVec.ofInt 8 (readScale d k j)

def imageSlice (d : Dev) (k : Desc) (i n : Nat) : List Byte := (List.range n).map fun x => imageByte d k (i + x)

/-- Write byte `i` of the image. -/
def writeImageByte (d : Dev) (k : Desc) (i : Nat) (x : Byte) : Dev :=
  match k.part i with
  | .elem j b => match k.addrs j with
    | some as => match as[b]? with
      | some a => store d a [x]
      | none => d
    | none => d
  | .pair j =>
    let d := writeElem d k j (x.toNat % 16)
    if j + 1 < k.count then writeElem d k (j + 1) (x.toNat / 16) else d
  | .scale j => match k.scaleAddr j with
    | some a => store d a [x]
    | none => d

def writeImage : Dev → Desc → Nat → List Byte → Dev
  | d, _, _, [] => d
  | d, k, i, b :: t => writeImage (writeImageByte d k i b) k (i + 1) t

/-- Elements that a slice of the image touches. -/
def imageElems (k : Desc) (i n : Nat) : List Nat :=
  (List.range n).flatMap fun x => match k.part (i + x) with
    | .elem j _ | .scale j => [j]
    | .pair j => [j, j + 1]

/-- The address of byte `i` of the image. -/
def imageAddr (k : Desc) (i : Nat) : Option Nat :=
  match k.part i with
  | .elem j b => (k.addrs j).bind fun as => as[b]?
  | .pair j => k.addr j
  | .scale j => k.scaleAddr j

/-- A slice of the image, and 0 in the pad of the groups it writes (R168, R703). -/
def putImage (d : Dev) (k : Desc) (i : Nat) (bs : List Byte) : Dev :=
  padElems (writeImage d k i bs) k (imageElems k i bs.length)
    (if d.poison.isEmpty then [] else (List.range bs.length).filterMap fun x => imageAddr k (i + x))

/-- Elements whose first image byte lies in the slice and that are out of bounds. -/
def imageOob (k : Desc) (i n : Nat) : Nat :=
  (List.range n).foldl (fun acc x => match k.part (i + x) with
    | .elem j 0 => if k.oob j then acc + 1 else acc
    | .pair j => acc + (if k.oob j then 1 else 0) + (if j + 1 < k.count && k.oob (j + 1) then 1 else 0)
    | _ => acc) 0

/-- Does reading this slice of the image meet a poisoned line? -/
def imagePoisoned (d : Dev) (k : Desc) (i n : Nat) : Bool :=
  !memoryWhole d && (List.range n).any fun x => match k.part (i + x) with
    | .elem j _ => elemsPoisoned d k j 1
    | .pair j => elemsPoisoned d k j (if j + 1 < k.count then 2 else 1)
    | .scale j => match k.scaleAddr j with
      | some a => poisoned d a 1
      | none => false

/-! ### Counts of filled reads and dropped writes (R186) -/

def descOf (d : Dev) (h : BitVec 16) : Option Desc := assoc h.toNat d.descs

def withDesc (d : Dev) (h : BitVec 16) (f : Desc → Desc) : Dev := { d with descs := assocMod h.toNat f d.descs }

/-- Filled reads and dropped writes of one access: descriptor counts and label totals (R186, set 1). -/
def noteOob (d : Dev) (h : BitVec 16) (filled dropped : Nat) : Dev :=
  if filled = 0 && dropped = 0 then d
  else match descOf d h with
    | none => d
    | some k =>
      let d := withDesc d h fun k => { k with filled := satAdd k.filled filled, dropped := satAdd k.dropped dropped }
      bump (bump d 1 k.label.toNat 1 filled) 1 k.label.toNat 2 dropped

/-- Has a tensor an access out of bounds at all? Only a packed tensor has, over its whole extent. -/
def Desc.anyOob (k : Desc) : Bool :=
  k.packed && k.ownBlocks.length != ceilDiv (k.size (k.rk - 1)) k.blockSize

/-- R182: in ERROR mode a command that would reach out of bounds is refused. -/
def errorOob (k : Desc) : Bool := k.errorMode && k.anyOob

end Sys2Proof.Machine
end

