-- ==== Sys2Proof/Machine/Operands.lean ====
section
/-!
DEFINITION. The 64-byte command entry (Table 5-3 and the operand tables of sections 5.5 to 5.8): its
encoder and decoder, the reserved bits, and what the checks of R242 and the holds of R36 need to know
of a command.
-/
namespace Sys2Proof.Machine

def zeros (n : Nat) : List Byte := List.replicate n 0

/-- Bytes 16–45 of Table 5-8. -/
def compressBytes (o : CompressOps) : List Byte :=
  leBytes 1 o.bucket.toNat ++ leBytes 1 o.compressor.toNat ++ leBytes 2 o.input.toNat ++ leBytes 2 o.output.toNat
    ++ leBytes 2 o.residual.toNat ++ leBytes 2 o.residualOut.toNat ++ leBytes 2 o.auxA.toNat
    ++ leBytes 2 o.auxB.toNat ++ leBytes 1 o.exponent.toNat ++ leBytes 1 o.coding.toNat ++ leBytes 4 o.step.toNat
    ++ leBytes 4 o.parameter.toNat ++ leBytes 6 o.table.toNat

/-- The operand bytes of a command, from byte 16 on; bytes after them are 0. -/
def operandBytes : Cmd → List Byte
  | .init a => leBytes 4 a.toNat
  | .setPlacement m v => leBytes 2 m.toNat ++ leBytes 2 v.toNat
  | .setSeed s => leBytes 16 s.toNat
  | .loadTree s c => leBytes 6 s.toNat ++ leBytes 2 c.toNat
  | .openGroup m s c => leBytes 2 m.toNat ++ leBytes 1 s.toNat ++ leBytes 1 c.toNat
  | .closeGroup => []
  | .setTick p f h => leBytes 2 p.toNat ++ leBytes 1 f.toNat ++ leBytes 1 h.toNat
  | .repairApprove r dd => leBytes 4 r.toNat ++ leBytes 1 dd.toNat
  | .bindTenant m l u => leBytes 1 m.toNat ++ leBytes 1 l.toNat ++ leBytes 1 u.toNat
  | .alloc l m s => leBytes 1 l.toNat ++ leBytes 1 m.toNat ++ zeros 2 ++ leBytes 8 s.toNat
  | .free a => leBytes 4 a.toNat
  | .fwUpdate a l => leBytes 6 a.toNat ++ zeros 2 ++ leBytes 4 l.toNat
  | .createDesc a => leBytes 6 a.toNat
  | .destroyDesc k => leBytes 2 k.toNat
  | .loadOwners t s => leBytes 2 t.toNat ++ zeros 6 ++ leBytes 6 s.toNat
  | .topk o => compressBytes o
  | .quant o => compressBytes o
  | .lowrank o => compressBytes o
  | .residualFlush b f s t => leBytes 1 b.toNat ++ leBytes 1 f.toNat ++ leBytes 2 s.toNat ++ leBytes 2 t.toNat
  | .maskGen o t s r => leBytes 2 o.toNat ++ zeros 2 ++ leBytes 2 t.toNat ++ zeros 2 ++ leBytes 4 s.toNat ++ leBytes 2 r.toNat
  | .bcast s t f => leBytes 2 s.toNat ++ leBytes 2 t.toNat ++ leBytes 1 f.toNat
  | .reduceToOne o => compressBytes o
  | .bucketOpen o => compressBytes o
  | .bucketAdd b k => leBytes 1 b.toNat ++ zeros 1 ++ leBytes 2 k.toNat
  | .bucketSeal b => leBytes 1 b.toNat
  | .streamOpen o => leBytes 2 o.layers.toNat ++ leBytes 1 o.role.toNat ++ leBytes 1 o.format.toNat
      ++ leBytes 4 o.maxPositions.toNat ++ leBytes 4 o.bpp.toNat ++ leBytes 6 o.pageList.toNat ++ leBytes 1 o.coding.toNat
  | .streamClose => []
  | .kvPut l f p s => leBytes 2 l.toNat ++ zeros 2 ++ leBytes 4 f.toNat ++ leBytes 4 p.toNat ++ leBytes 2 s.toNat
  | .kvHandoff o => leBytes 2 o.destMember.toNat ++ leBytes 2 o.destStream.toNat ++ leBytes 4 o.first.toNat
      ++ leBytes 4 o.positions.toNat ++ leBytes 2 o.firstLayer.toNat ++ leBytes 2 o.layerCount.toNat
  | .kvStage l f p => leBytes 2 l.toNat ++ zeros 2 ++ leBytes 4 f.toNat ++ leBytes 4 p.toNat
  | .kvCommit p => zeros 4 ++ leBytes 4 p.toNat
  | .kvEvict f c => leBytes 2 f.toNat ++ leBytes 2 c.toNat
  | .traceStart m l a => leBytes 4 m.toNat ++ leBytes 1 l.toNat ++ leBytes 1 a.toNat
  | .traceStop => []
  | .watchTensor k l o s a => leBytes 2 k.toNat ++ leBytes 2 l.toNat ++ leBytes 2 o.toNat ++ zeros 2 ++ leBytes 4 s.toNat ++ leBytes 1 a.toNat
  | .breakSet c k a h => leBytes 1 c.toNat ++ leBytes 1 k.toNat ++ zeros 2 ++ leBytes 4 a.toNat ++ leBytes 2 h.toNat
  | .countersSnapshot s a => leBytes 1 s.toNat ++ zeros 3 ++ leBytes 6 a.toNat
  | .unknown _ => []

/-- The entry of a command (Table 5-3). -/
def encodeEntry (h : Hdr) (c : Cmd) : List Byte :=
  leBytes 2 (cmdOpcode c).toNat ++ leBytes 2 h.flags.toNat ++ leBytes 2 h.tag.toNat ++ leBytes 2 h.layer.toNat
    ++ leBytes 2 h.operator.toNat ++ leBytes 2 h.handle.toNat ++ leBytes 4 h.tickHint.toNat ++ fit 48 (operandBytes c)

def fieldBv (w : Nat) (bs : List Byte) (i : Nat) : BitVec w := BitVec.ofNat w (field bs i (ceilDiv w 8))

def decodeHdr (bs : List Byte) : Hdr where
  flags := fieldBv 16 bs 2
  tag := fieldBv 16 bs 4
  layer := fieldBv 16 bs 6
  operator := fieldBv 16 bs 8
  handle := fieldBv 16 bs 10
  tickHint := fieldBv 32 bs 12

def decodeCompress (bs : List Byte) : CompressOps where
  bucket := fieldBv 8 bs 16
  compressor := fieldBv 8 bs 17
  input := fieldBv 16 bs 18
  output := fieldBv 16 bs 20
  residual := fieldBv 16 bs 22
  residualOut := fieldBv 16 bs 24
  auxA := fieldBv 16 bs 26
  auxB := fieldBv 16 bs 28
  exponent := fieldBv 8 bs 30
  coding := fieldBv 8 bs 31
  step := fieldBv 32 bs 32
  parameter := fieldBv 32 bs 36
  table := fieldBv 48 bs 40

def decodeStream (bs : List Byte) : StreamOps where
  layers := fieldBv 16 bs 16
  role := fieldBv 8 bs 18
  format := fieldBv 8 bs 19
  maxPositions := fieldBv 32 bs 20
  bpp := fieldBv 32 bs 24
  pageList := fieldBv 48 bs 28
  coding := fieldBv 8 bs 34

def decodeHandoff (bs : List Byte) : HandoffOps where
  destMember := fieldBv 16 bs 16
  destStream := fieldBv 16 bs 18
  first := fieldBv 32 bs 20
  positions := fieldBv 32 bs 24
  firstLayer := fieldBv 16 bs 28
  layerCount := fieldBv 16 bs 30

def bitOf (bs : List Byte) (i : Nat) : Bool := field bs i 1 % 2 = 1

/-- The command of an entry by its opcode (Tables 5-6, 5-7, 5-9 to 5-12). -/
def decodeCmd (bs : List Byte) : Cmd :=
  match field bs 0 2 with
  | 0x0101 => .init (fieldBv 32 bs 16)
  | 0x0102 => .setPlacement (fieldBv 10 bs 16) (fieldBv 10 bs 18)
  | 0x0103 => .setSeed (fieldBv 128 bs 16)
  | 0x0104 => .loadTree (fieldBv 48 bs 16) (fieldBv 16 bs 22)
  | 0x0105 => .openGroup (fieldBv 16 bs 16) (fieldBv 8 bs 18) (fieldBv 8 bs 19)
  | 0x0106 => .closeGroup
  | 0x0107 => .setTick (fieldBv 16 bs 16) (fieldBv 8 bs 18) (fieldBv 8 bs 19)
  | 0x0108 => .repairApprove (fieldBv 32 bs 16) (fieldBv 8 bs 20)
  | 0x0109 => .bindTenant (fieldBv 8 bs 16) (fieldBv 8 bs 17) (bitOf bs 18)
  | 0x010A => .alloc (fieldBv 8 bs 16) (fieldBv 8 bs 17) (fieldBv 64 bs 20)
  | 0x010B => .free (fieldBv 32 bs 16)
  | 0x010C => .fwUpdate (fieldBv 48 bs 16) (fieldBv 32 bs 24)
  | 0x0201 => .createDesc (fieldBv 48 bs 16)
  | 0x0202 => .destroyDesc (fieldBv 16 bs 16)
  | 0x0203 => .loadOwners (fieldBv 16 bs 16) (fieldBv 48 bs 24)
  | 0x0301 => .topk (decodeCompress bs)
  | 0x0302 => .quant (decodeCompress bs)
  | 0x0303 => .lowrank (decodeCompress bs)
  | 0x0304 => .residualFlush (fieldBv 8 bs 16) (bitOf bs 17) (fieldBv 16 bs 18) (fieldBv 16 bs 20)
  | 0x0305 => .maskGen (fieldBv 16 bs 16) (fieldBv 16 bs 20) (fieldBv 32 bs 24) (fieldBv 16 bs 28)
  | 0x0401 => .bcast (fieldBv 16 bs 16) (fieldBv 16 bs 18) (bitOf bs 20)
  | 0x0402 => .reduceToOne (decodeCompress bs)
  | 0x0403 => .bucketOpen (decodeCompress bs)
  | 0x0404 => .bucketAdd (fieldBv 8 bs 16) (fieldBv 16 bs 18)
  | 0x0405 => .bucketSeal (fieldBv 8 bs 16)
  | 0x0501 => .streamOpen (decodeStream bs)
  | 0x0502 => .streamClose
  | 0x0503 => .kvPut (fieldBv 16 bs 16) (fieldBv 32 bs 20) (fieldBv 32 bs 24) (fieldBv 16 bs 28)
  | 0x0504 => .kvHandoff (decodeHandoff bs)
  | 0x0505 => .kvStage (fieldBv 16 bs 16) (fieldBv 32 bs 20) (fieldBv 32 bs 24)
  | 0x0506 => .kvCommit (fieldBv 32 bs 20)
  | 0x0507 => .kvEvict (fieldBv 16 bs 16) (fieldBv 16 bs 18)
  | 0x0601 => .traceStart (fieldBv 32 bs 16) (fieldBv 8 bs 20) (bitOf bs 21)
  | 0x0602 => .traceStop
  | 0x0603 => .watchTensor (fieldBv 16 bs 16) (fieldBv 16 bs 18) (fieldBv 16 bs 20) (fieldBv 32 bs 24) (fieldBv 8 bs 28)
  | 0x0604 => .breakSet (fieldBv 8 bs 16) (fieldBv 8 bs 17) (fieldBv 32 bs 20) (fieldBv 16 bs 24)
  | 0x0605 => .countersSnapshot (fieldBv 8 bs 16) (fieldBv 48 bs 20)
  | op => .unknown (BitVec.ofNat 16 op)

/-! ### Reserved bits (0x0102) -/

def unused : BitVec 16 := 0xFFFF

/-- The command uses the header handle (Tables 5-6, 5-10, 5-11). -/
def usesHandle : Cmd → Bool
  | .loadTree .. | .openGroup .. | .closeGroup | .bcast .. | .reduceToOne _ | .bucketOpen _ | .streamClose
  | .kvPut .. | .kvHandoff _ | .kvStage .. | .kvCommit _ | .kvEvict .. => true
  | _ => false

/-- Fields of Table 5-8 that must hold a fixed value for this command (R222, R704, R267–R275). -/
def compressReserved (comp : Nat) (bucket : Bool) (o : CompressOps) : Bool :=
  (!bucket && o.bucket != 0) || (bucket && o.input != unused) || 64 ≤ o.coding.toNat
    || paramReserved comp o.parameter
    || (comp = cNone && (o.auxA != unused || o.auxB != unused))
    || (comp = cQuant && o.auxB != unused)

/-- A reserved flag or operand bit of the decoded command is set (R242, R222). -/
def cmdReserved (h : Hdr) (c : Cmd) : Bool :=
  8 ≤ h.flags.toNat || (!usesHandle c && h.handle != 0) ||
  match c with
  | .topk o => compressReserved cTopk false o
  | .quant o => compressReserved cQuant false o
  | .lowrank o => compressReserved cLowrank false o
  | .reduceToOne o => compressReserved o.compressor.toNat false o
  | .bucketOpen o => compressReserved o.compressor.toNat true o
  | .residualFlush b f s _ => (f && s != unused) || (!f && b != 0)
  | .streamOpen o => 64 ≤ o.coding.toNat
  | .traceStart m _ _ => (m &&& 0xFFFF_F001) != 0
  | _ => false

/-- A fetched entry: its header, its command, and whether a bit that no field covers is set. -/
def decodeEntry (bs : List Byte) : Fetched :=
  let h := decodeHdr bs
  let c := decodeCmd bs
  ⟨h, c, encodeEntry h c != fit 64 bs, none⟩

/-! ### What the checks need to know of a command -/

/-- Marked "Admin" in Table 5-6 (R231). -/
def adminOnly : Cmd → Bool
  | .init _ | .setPlacement .. | .setSeed _ | .setTick .. | .repairApprove .. | .bindTenant .. | .alloc .. | .free _
  | .fwUpdate .. => true
  | _ => false

/-- Closed to user mailboxes unless the open setting is in force (R240). -/
def observing : Cmd → Bool
  | .traceStart .. | .traceStop | .watchTensor .. | .breakSet .. => true
  | .countersSnapshot s _ => s = 2
  | _ => false

/-- Exempt from the limit of 4,096 on the admin mailbox (R249, R254). -/
def limitExempt (c : Cmd) : Bool :=
  match c with
  | .topk _ | .quant _ | .lowrank _ | .residualFlush .. | .maskGen .. | .bcast .. | .reduceToOne _ | .bucketOpen _
  | .bucketAdd .. | .bucketSeal _ | .streamOpen _ | .streamClose | .kvPut .. | .kvHandoff _ | .kvStage ..
  | .kvCommit _ | .kvEvict .. => false
  | _ => true

/-- A compress operand set draws random bits (R271, R276). -/
def stochasticOps (comp : Nat) (o : CompressOps) : Bool := (comp = cQuant || comp = cLowrank) && o.coding.getLsbD 1

/-- The compressor of a command that compresses. -/
def compressorOf : Cmd → Option (Nat × CompressOps)
  | .topk o => some (cTopk, o)
  | .quant o => some (cQuant, o)
  | .lowrank o => some (cLowrank, o)
  | .reduceToOne o => some (o.compressor.toNat, o)
  | .bucketOpen o => some (o.compressor.toNat, o)
  | _ => none

/-- Functions whose pending change holds the command (Table 1-5, R36). -/
def heldBy (c : Cmd) : List Nat :=
  let codes := match compressorOf c with
    | some (_, o) => o.coding.getLsbD 0
    | none => match c with
      | .kvPut .. | .kvHandoff _ | .kvCommit _ => true
      | _ => false
  let draws := match c with
    | .maskGen .. => true
    | .topk _ => false
    | _ => match compressorOf c with
      | some (comp, o) => stochasticOps comp o
      | none => false
  (match c with
    | .bucketOpen _ | .topk _ | .quant _ | .lowrank _ => [0]
    | _ => [])
  ++ (match c with
    | .topk _ => [1]
    | _ => [])
  ++ (if codes then [2] else [])
  ++ (match c with
    | .openGroup .. => [3]
    | _ => [])
  ++ (match c with
    | .quant _ | .lowrank _ | .maskGen .. => if draws then [6] else []
    | _ => [])
  ++ (match c with
    | .streamOpen _ => [8]
    | _ => [])
  ++ (match c with
    | .bucketOpen _ => [9]
    | _ => [])

/-- The descriptors a command names (R195); 0xFFFF stands for none where the table allows it. -/
def namedDescs : Cmd → List (BitVec 16)
  | .topk o | .quant o | .lowrank o => [o.input, o.output, o.residual] ++ [o.residualOut, o.auxA, o.auxB].filter (· != unused)
  | .reduceToOne o => [o.input, o.residual] ++ [o.output, o.residualOut, o.auxA, o.auxB].filter (· != unused)
  | .bucketOpen o => [o.residual] ++ [o.output, o.residualOut, o.auxA, o.auxB].filter (· != unused)
  | .residualFlush _ f s t => (if f then [] else [s]) ++ [t]
  | .maskGen o _ _ r => [o] ++ [r].filter (· != unused)
  | .bcast s t _ => [s, t].filter (· != unused)
  | .bucketAdd _ k => [k]
  | .destroyDesc k => [k]
  | .kvPut _ _ _ s => [s]
  | .watchTensor k _ _ _ _ => [k]
  | _ => []

/-- The step operand (R646: 0 where there is none). -/
def stepOf (c : Cmd) : Word :=
  match c with
  | .maskGen _ _ s _ => s
  | _ => match compressorOf c with
    | some (_, o) => o.step
    | none => 0

/-- The group a command names by its header handle. -/
def namesGroup : Cmd → Bool
  | .closeGroup | .bcast .. | .reduceToOne _ | .bucketOpen _ => true
  | _ => false

/-- The stream a command names by its header handle. -/
def namesStream : Cmd → Bool
  | .streamClose | .kvPut .. | .kvHandoff _ | .kvStage .. | .kvCommit _ | .kvEvict .. => true
  | _ => false

/-- The open bucket a command names. -/
def namesBucket : Cmd → Option (BitVec 8)
  | .bucketAdd b _ => some b
  | .bucketSeal b => some b
  | .residualFlush b true _ _ => some b
  | _ => none

end Sys2Proof.Machine
end

