-- ==== Sys2Proof/Machine/Links.lean ====
section
/-!
DEFINITION. The frames of a Lysesh port (chapter 8): credits, sending and queueing, the checks every
received frame passes, and the bodies of the control frames (Table 8-7).
-/
namespace Sys2Proof.Machine

/-! ### Ports -/

def portAt (d : Dev) (p : Port) : PortSt := d.ports[p]
def quadOf (p : Port) : Quad := ⟨p.val / 4, by omega⟩
def portUpNow (d : Dev) (p : Port) : Bool := (portAt d p).state = 2

def allPorts : List Port := [0, 1, 2, 3, 4, 5, 6, 7, 8, 9, 10, 11, 12, 13, 14, 15]

/-- A port state that receives, and that a port-down ends: training or trained, up, settling. -/
def portAlive (s : PortSt) : Bool := s.state = 1 || s.state = 2 || s.state = 3

/-- The lowest-numbered up port whose peer is the member (R390). -/
def portTo (d : Dev) (m : BitVec 12) : Option Port :=
  allPorts.find? fun p => portUpNow d p && (portAt d p).peerValid && (portAt d p).peer = m

def bumpPort (d : Dev) (p : Port) (i : Fin 10) (n : Nat) : Dev :=
  withPort d p fun s => { s with counters := s.counters.set i (satAdd s.counters[i] n) }

def portEvent (d : Dev) (p : Port) (b : Nat) : Dev :=
  withPort d p fun s => { s with event := s.event ||| BitVec.ofNat 8 (2 ^ b) }

/-- Wire bytes besides body and Lysesh header (Table 8-2). -/
def frameOverhead (s : PortSt) : Nat :=
  (if s.routedForce then 98 else 70) + (if s.ctrl.getLsbD 3 then 4 else 0)

/-- Port rate in Gb/s (Table 8-1). -/
def rateGb (r : BitVec 2) : Nat := if r = 0 then 800 else if r = 1 then 400 else 200

/-! ### Credits (R347–R349) -/

/-- Receive buffer units C of a channel. -/
def channelUnits (v : Fin 4) : Nat := if v = 2 then 2048 else 64

def frameUnits (len : Nat) : Nat := ceilDiv (32 + len) 256

/-- Types that consume credit (Table 8-5). -/
def takesCredit (type : Byte) : Bool := type != 0x30 && type != 0x31

/-- `a` has not passed `b`, modulo 2^30. -/
def notPast (a b : BitVec 30) : Bool := (b - a).toNat < 2 ^ 29

/-- The limit a receiver advertises: R − H + C, with H = 0 (log 11). -/
def advertise (s : PortSt) (v : Fin 4) : BitVec 30 := s.received[v] + BitVec.ofNat 30 (channelUnits v)

def vcFin (v : BitVec 2) : Fin 4 := ⟨v.toNat, v.isLt⟩

/-- The quad's lanes carry frames: it is neither settling nor recalibrating (R365). -/
def quadCarries (d : Dev) (p : Port) : Bool := !d.quads[quadOf p].settling && !d.quads[quadOf p].recalibrating

/-- Credit for a frame of `len` body bytes (R348). -/
def hasCredit (s : PortSt) (v : Fin 4) (len : Nat) : Bool :=
  notPast (s.sent[v] + BitVec.ofNat 30 (frameUnits len)) s.limit[v]

/-! ### Sending -/

/-- The device is a member of an era: it holds one and is not only attached to it (R523). -/
def isMember (d : Dev) : Bool := d.tik.eraValid && !d.join.attached

/-- Member numbers go into the frames of a member whose peer is known (R340, R510). -/
def numbersKnown (d : Dev) (p : Port) : Bool := isMember d && (portAt d p).peerValid

/-- Port p's MAC address (R380). -/
def ownMac (d : Dev) (p : Port) : BitVec 48 := BitVec.ofNat 48 (d.fuses.macBase.toNat + p.val)

/-- The fields of a frame that its sender chooses; the rest of the header is filled in at departure. -/
def blankHdr (d : Dev) (p : Port) : LysHdr where
  era := d.tik.era
  tick := d.tik.tick.truncate 16
  source := if numbersKnown d p then d.join.member else 0
  dest := if numbersKnown d p then (portAt d p).peer else 0
  first := false
  last := false
  credit := false
  isLocal := !numbersKnown d p
  attempt := 0
  stream := false
  handle := 0
  seq := 0
  offset := 0
  length := 0
  creditVc := 0
  creditLimit := 0
  chunkLength := 0
  malformed := false
  mac := ownMac d p

/-! ### The bytes of a frame (Tables 8-2 and 8-3) -/

def macBytes (a : BitVec 48) : List Byte := beBytes 6 a.toNat

/-- Big-endian 16-bit words added with end-around carry: the checksum of an IPv4 header. -/
def onesSum (bs : List Byte) : Nat :=
  let words := (List.range (bs.length / 2)).map fun i => (bs[2 * i]?.getD 0).toNat * 256 + (bs[2 * i + 1]?.getD 0).toNat
  let s := words.foldl (· + ·) 0
  let t := s % 65536 + s / 65536
  t % 65536 + t / 65536

/-- IPv4 without options and UDP before `n` bytes of Lysesh header and body (R336). What the identification of
a packet that is not to be fragmented holds is left open (log 8). -/
def ipUdpBytes (s : PortSt) (ident n : Nat) : List Byte :=
  let head := [0x45, BitVec.ofNat 8 (s.ctrl.toNat / 2 ^ 19 % 64 * 4)] ++ beBytes 2 (28 + n) ++ beBytes 2 ident ++ beBytes 2 0x4000 ++ [64, 17]
  let addrs := beBytes 4 s.ip.toNat ++ beBytes 4 s.peerIp.toNat
  let sum := 0xFFFF - onesSum (head ++ [0, 0] ++ addrs)
  head ++ beBytes 2 sum ++ addrs ++ beBytes 4 s.udp.toNat ++ beBytes 2 (8 + n) ++ [0, 0]

/-- All that precedes the Lysesh header: addresses, the tag, the EtherType or the headers of routed mode. -/
def linkBytes (d : Dev) (p : Port) (ident n : Nat) : List Byte :=
  let s := portAt d p
  let tag := if s.ctrl.getLsbD 3 then
      beBytes 2 0x8100 ++ beBytes 2 (s.ctrl.toNat / 2 ^ 16 % 8 * 2 ^ 13 + s.ctrl.toNat / 16 % 4096)
    else []
  macBytes (s.peerMac.value.truncate 48) ++ macBytes (ownMac d p) ++ tag
    ++ (if s.routedForce then beBytes 2 0x0800 ++ ipUdpBytes s ident n else beBytes 2 s.ethertype.toNat)

/-- The Lysesh header (Table 8-3). -/
def lysHdrBytes (vc : BitVec 2) (type : Byte) (h : LysHdr) : List Byte :=
  [BitVec.ofNat 8 (16 + 4 * vc.toNat), type] ++ beBytes 2 h.era.toNat ++ beBytes 2 h.tick.toNat
    ++ beBytes 3 (h.source.toNat * 4096 + h.dest.toNat)
    ++ [BitVec.ofNat 8 (bitAt h.first 0 + bitAt h.last 1 + bitAt h.credit 2 + bitAt h.isLocal 3 + h.attempt.toNat * 16 + bitAt h.stream 6)]
    ++ beBytes 2 h.handle.toNat ++ beBytes 4 h.seq.toNat ++ beBytes 3 h.offset.toNat ++ [0] ++ beBytes 2 h.length.toNat
    ++ beBytes 4 (h.creditVc.toNat * 2 ^ 30 + h.creditLimit.toNat) ++ beBytes 3 h.chunkLength.toNat ++ zeros 3

/-- A number of `n` bytes from byte `i` on, big-endian. -/
def beField (bs : List Byte) (i n : Nat) : Nat := ((bs.drop i).take n).foldl (fun a b => a * 256 + b.toNat) 0

/-- Channel, type and fields of a received Lysesh header; a reserved version or a reserved field that is not 0
makes it malformed (R340, R378). -/
def readLysHdr (mac : BitVec 48) (bs : List Byte) : BitVec 2 × Byte × LysHdr :=
  let at_ := fun (w i n lo : Nat) => BitVec.ofNat w (beField bs i n / 2 ^ lo)
  let flag := fun (k : Nat) => bit (beField bs 9 1) k
  (at_ 2 0 1 2, at_ 8 1 1 0, {
    era := at_ 16 2 2 0
    tick := at_ 16 4 2 0
    source := at_ 12 6 3 12
    dest := at_ 12 6 3 0
    first := flag 0
    last := flag 1
    credit := flag 2
    isLocal := flag 3
    attempt := at_ 2 9 1 4
    stream := flag 6
    handle := at_ 16 10 2 0
    seq := at_ 32 12 4 0
    offset := at_ 24 16 3 0
    length := at_ 14 20 2 0
    creditVc := at_ 2 22 4 30
    creditLimit := at_ 30 22 4 0
    chunkLength := at_ 24 26 3 0
    malformed := beField bs 0 1 / 16 != 1 || beField bs 0 1 % 4 != 0 || flag 7 || beField bs 19 1 != 0
      || beField bs 20 1 / 64 != 0 || beField bs 29 3 != 0
    mac := mac })

/-- A frame from its destination address to its FCS (R335, R336). A payload below 46 bytes is padded (R339): with
the 28 bytes of IPv4 and UDP, which no headers but those of routed mode exceed 18 bytes for, none is. The FCS leaves
lowest byte first (PRESUMED, log 39). -/
def frameBytes (f : Frame) : List Byte :=
  let routed := 18 < f.link.length
  let bs := f.link ++ lysHdrBytes f.vc f.type f.hdr ++ f.body ++ if routed then [] else zeros (14 - f.body.length)
  bs ++ leBytes 4 (frameCheck bs).toNat

/-! ### Departure -/

/-- The limits of all four channels. -/
def advertiseAll (s : PortSt) : Vector (BitVec 30) 4 := #v[advertise s 0, advertise s 1, advertise s 2, advertise s 3]

def limitBytes (l : Vector (BitVec 30) 4) : List Byte := l.toList.flatMap fun x => beBytes 4 x.toNat

def timeBytes (t : BitVec 48) (ns : BitVec 20) : List Byte := beBytes 6 t.toNat ++ beBytes 4 ns.toNat

/-- The body as the frame starts: credit and credit-sync frames carry the limits and counts of that moment
(R349, R350), the master's tick frame its departure as the origin timestamp (R360), a peer-delay response the time t3
(R361). -/
def departBody (d : Dev) (p : Port) (f : Frame) : List Byte :=
  let leaves := timeBytes d.tik.tick d.tik.offset
  if f.type = 0x30 then limitBytes (advertiseAll (portAt d p))
  else if f.type = 0x31 then limitBytes (portAt d p).sent
  else if f.type = 0x01 && d.tik.isMaster then f.body.take 20 ++ leaves ++ f.body.drop 30
  else if f.type = 0x06 then f.body.take 12 ++ leaves
  else f.body

/-- The header as the frame starts: the sender's era, numbers and tick of that moment (R340, R510), the credit return
and the length. A slip notice keeps the era of the tick that it names (log 36). -/
def departHdr (d : Dev) (p : Port) (f : Frame) (bytes : Nat) : LysHdr :=
  let s := portAt d p
  let here := blankHdr d p
  { f.hdr with
    era := if f.type = 0x12 then f.hdr.era else here.era
    tick := here.tick, source := here.source, dest := here.dest, isLocal := here.isLocal, mac := here.mac
    credit := true, creditVc := s.rotate, creditLimit := advertise s (vcFin s.rotate), length := BitVec.ofNat 14 bytes }

/-- A frame leaves the port: its header and the headers before it are filled in, sent count and counters
advanced; a peer-delay request leaves at its time t1 (R361). -/
def depart (d : Dev) (p : Port) (f : Frame) : Dev :=
  let s := portAt d p
  let v := vcFin f.vc
  let r := vcFin s.rotate
  let adv := advertise s r
  let body := departBody d p f
  let hdr := departHdr d p f body.length
  let t1 := if f.type = 0x05 then some ⟨d.tik.tick, d.tik.offset⟩ else s.delaySent
  let (k, d) := if s.routedForce then draw d else (0, d)
  let link := linkBytes d p (Config.choice k % 65536) (32 + body.length)
  let d := withPort d p fun s => { s with
    sent := if takesCredit f.type then s.sent.set v (s.sent[v] + BitVec.ofNat 30 (frameUnits body.length)) else s.sent
    advertised := if f.type = 0x30 then advertiseAll s else s.advertised.set r adv
    rotate := s.rotate + 1
    delaySent := t1
    wire := s.wire ++ [{ f with hdr := hdr, body := body, link := link }] }
  bump (bumpPort d p 0 1) 2 0 (256 + p.val) (body.length + frameOverhead s)

/-- Whether a frame may leave now. -/
def mayDepart (d : Dev) (p : Port) (f : Frame) : Bool :=
  quadCarries d p && (!takesCredit f.type || hasCredit (portAt d p) (vcFin f.vc) f.body.length)

/-- Queued frames of one channel, oldest first, while they may leave, and the frames that stay. A frame that lacks
credit blocks those behind it that take credit too, and no credit or credit-sync frame (R348–R350). -/
def flushChannel (p : Port) (v : BitVec 2) : Bool → Dev → List Frame → Dev × List Frame
  | _, d, [] => (d, [])
  | blocked, d, f :: t =>
    if f.vc = v && mayDepart d p f && !(blocked && takesCredit f.type) then flushChannel p v blocked (depart d p f) t
    else
      let (d, rest) := flushChannel p v (blocked || f.vc = v) d t
      (d, f :: rest)

/-- Queued frames leave in the order VC0, VC1, VC3, VC2 (R345). -/
def flushPort (d : Dev) (p : Port) : Dev :=
  ([0, 1, 3, 2] : List (BitVec 2)).foldl (fun d v =>
    let (d, rest) := flushChannel p v false d (portAt d p).queue
    withPort d p fun s => { s with queue := rest }) d

/-- The port's link stands: it is up, or it settles, which is no loss of it (R365). -/
def linkStands (d : Dev) (p : Port) : Bool := portUpNow d p || (portAt d p).state = 3

/-- The port takes frames to send: its link stands, or it has trained and sends the credit frame that its peer awaits
(R376, R379). -/
def takesFrame (d : Dev) (p : Port) (type : Byte) : Bool :=
  linkStands d p || ((portAt d p).state = 1 && type = 0x30)

/-- Send a frame: at once when it may leave and none of its channel waits, which a frame that takes no credit need not
heed, else queued (R348, R350, R365). A port that is down carries nothing. -/
def sendFrame (d : Dev) (p : Port) (f : Frame) : Dev :=
  if !takesFrame d p f.type then d
  else if mayDepart d p f && !(takesCredit f.type && (portAt d p).queue.any fun g => g.vc = f.vc) then depart d p f
  else withPort d p fun s => { s with queue := s.queue ++ [f] }

/-- A control frame with a body. -/
def sendCtl (d : Dev) (p : Port) (vc : BitVec 2) (type : Byte) (body : List Byte) : Dev :=
  sendFrame d p ⟨vc, type, blankHdr d p, body, []⟩

/-- A VC1 frame that names a chunk or a group (ACK, RE_ASK, requests, notices). -/
def sendVc1 (d : Dev) (p : Port) (type : Byte) (stream : Bool) (handle : BitVec 16) (seq : BitVec 32)
    (attempt : BitVec 2) (body : List Byte) : Dev :=
  sendFrame d p ⟨1, type, { blankHdr d p with stream := stream, handle := handle, seq := seq, attempt := attempt }, body, []⟩

/-- A request frame (type 0x14): code and operand bytes 2–15. -/
def sendRequest (d : Dev) (p : Port) (stream : Bool) (handle : BitVec 16) (code : Nat) (ops : List Byte) : Dev :=
  sendVc1 d p 0x14 stream handle 0 0 (fit 16 (beBytes 2 code ++ ops))

/-- Operand bytes of a request, byte 2 on: (byte, length, value) fields. -/
def requestOps (l : List (Nat × Nat × Nat)) : List Byte :=
  l.foldl (fun acc e => acc ++ zeros (e.1 - 2 - acc.length) ++ beBytes e.2.1 e.2.2) []

/-! ### Control frame bodies (Table 8-7) -/

def tickFrameBytes (b : TickBody) : List Byte :=
  beBytes 6 b.tick.toNat ++ beBytes 2 b.era.toNat ++ beBytes 2 b.period.toNat
    ++ [b.leap ++ b.announced] ++ [b.holiday] ++ beBytes 6 b.announcedAt.toNat ++ beBytes 2 b.master.toNat
    ++ timeBytes b.origin.tick b.origin.ns ++ beBytes 8 b.correction.toNat
    ++ [BitVec.ofNat 8 (bitAt b.eraChange 0)] ++ [b.newLeapFloor ++ b.leapFloor] ++ beBytes 6 b.lastTick.toNat
    ++ beBytes 2 (b.newHoliday.toNat * 2 ^ 10 + b.newPeriod.toNat)

def proclamationBytes (b : ProcBody) : List Byte :=
  [BitVec.ofNat 8 b.priority.toNat] ++ [b.hops] ++ beBytes 2 b.era.toNat ++ beBytes 8 b.serial.toNat ++ zeros 4

def eraFrameBytes (b : ProcBody) : List Byte :=
  beBytes 2 b.era.toNat ++ [BitVec.ofNat 8 b.priority.toNat] ++ [b.hops] ++ beBytes 8 b.serial.toNat
    ++ beBytes 2 b.master.toNat ++ zeros 2

/-! ### Receiving -/

/-- R61. -/
def eraNewer (a b : BitVec 16) : Bool := 1 ≤ (a - b).toNat && (a - b).toNat ≤ 32767

/-- The higher of two eras: the newer one, any era above era 0. -/
def maxEra (a b : BitVec 16) : BitVec 16 := if a = 0 then b else if b = 0 then a else if eraNewer b a then b else a

/-- Era numbers seen in a VC0 frame, in its header or as the era of its body, raise H (chapter 12, log 26). -/
def seeEra (d : Dev) (e : BitVec 16) : Dev := withJoin d fun j => { j with highEra := maxEra j.highEra e }

/-- Frames of eras a receiver accepts on VC1 and VC2 (R362). -/
def eraAccepted (d : Dev) (era : BitVec 16) : Bool :=
  era = d.tik.era || (d.tik.lastEra != 0 && era = d.tik.lastEra && d.tik.sinceEra < 64)

/-- A frame that is discarded and counted in LYS_DROPPED. -/
def dropFrame (d : Dev) (p : Port) : Dev := bumpPort d p 8 1

/-- The full tick of a header, within half the range of the low bits (R97). Of two that are equally far the later one
holds (DESIGN CHOICE, log 39). -/
def fullTick (d : Dev) (low : BitVec 16) : BitVec 48 :=
  let t := d.tik.tick.toNat
  let base := t / 65536 * 65536 + low.toNat
  let x := if base + 32768 ≤ t then base + 65536 else if t + 32768 < base && 65536 ≤ base then base - 65536 else base
  BitVec.ofNat 48 x

/-- The port learns the peer's address from its first valid frame, in EtherType mode (R380). -/
def learnMac (a : BitVec 48) (s : PortSt) : PortSt :=
  if s.macLearned || s.routedForce then s else { s with macLearned := true, peerMac := ⟨a.zeroExtend 64, s.peerMac.lo⟩ }

/-- What every valid frame does on arrival: counters, received units, its credit return, the sender's tick in
full (R97), the peer's MAC address when the port has yet to learn it (R380), and, on VC0, the era number
(log 26). -/
def arrive (d : Dev) (p : Port) (vc : BitVec 2) (type : Byte) (h : LysHdr) : Dev :=
  let v := vcFin vc
  let d := bump (bumpPort d p 1 1) 2 0 (272 + p.val) (h.length.toNat + frameOverhead (portAt d p))
  let d := if vc = 0 then seeEra d h.era else d
  let d := withPort d p fun s => { s with
    received := if takesCredit type then s.received.set v (s.received[v] + BitVec.ofNat 30 (frameUnits h.length.toNat))
      else s.received
    limit := if h.credit then s.limit.set (vcFin h.creditVc) h.creditLimit else s.limit
    heard := fullTick d h.tick }
  let d := withPort d p (learnMac h.mac)
  if h.credit then flushPort d p else d

/-- The common course of a received frame: none when it is discarded (R334, R346, R350, R351, R362,
R378), with the device as it then is. -/
def receive (d : Dev) (p : Port) (vc : BitVec 2) (type : Byte) (h : LysHdr) : Bool × Dev :=
  let s := portAt d p
  let v := vcFin vc
  if s.state != 2 && s.state != 3 && !(s.state = 1 && !takesCredit type) then (false, d)
  else if h.malformed || 8192 < h.length.toNat then (false, dropFrame d p)
  else if takesCredit type && !notPast (s.received[v] + BitVec.ofNat 30 (frameUnits h.length.toNat)) s.advertised[v] then
    (false, portEvent d p 5)
  else
    let d := arrive d p vc type h
    if (vc = 1 || vc = 2) && !eraAccepted d h.era then (false, dropFrame d p) else (true, d)

/-! ### Chunks (section 8.4) -/

/-- The crc of a chunk: over all bytes with the crc field zero (R343). -/
def chunkCrc (bs : List Byte) : BitVec 32 := crc32c (bs.take 36 ++ zeros 4 ++ bs.drop 40)

def withCrc (bs : List Byte) : List Byte := bs.take 36 ++ leBytes 4 (chunkCrc bs).toNat ++ bs.drop 40

/-- The chunk header of Table 8-4 with its payload, crc filled in. -/
def chunkBytes (balance : List Byte) (exponent : Byte) (bmax kind form : Nat) (bucket : Nat) (records : Nat)
    (detail payload : List Byte) : List Byte :=
  withCrc (fit 24 balance ++ [exponent, BitVec.ofNat 8 bmax, BitVec.ofNat 8 kind, BitVec.ofNat 8 form,
    BitVec.ofNat 8 bucket, 0, 0, 0] ++ leBytes 4 records ++ zeros 4 ++ fit 24 detail ++ payload)

def balanceBytes (b : BitVec 64 × BitVec 64 × BitVec 64) : List Byte :=
  leBytes 8 b.1.toNat ++ leBytes 8 b.2.1.toNat ++ leBytes 8 b.2.2.toNat

def segmentCount (len : Nat) : Nat := ceilDiv len 8192

/-- Segment k of a chunk (R344). -/
def segmentOf (d : Dev) (p : Port) (c : SentChunk) (k : Nat) : Frame :=
  let body := (c.bytes.drop (8192 * k)).take 8192
  ⟨2, 0x20, { blankHdr d p with
    first := k = 0
    last := 8192 * k + body.length = c.bytes.length
    attempt := c.attempt
    stream := c.stream
    handle := c.dest
    seq := c.seq
    offset := BitVec.ofNat 24 (8192 * k)
    chunkLength := BitVec.ofNat 24 c.bytes.length }, body, []⟩

/-- Units that the waiting segments of a chunk take. -/
def segmentUnits (c : SentChunk) : Nat :=
  (c.segments.map fun k => frameUnits ((c.bytes.drop (8192 * k)).take 8192).length).foldl (· + ·) 0

def sameChunk (stream : Bool) (handle : BitVec 16) (seq : BitVec 32) (c : SentChunk) : Bool :=
  c.stream = stream && c.handle = handle && c.seq = seq

/-- The chunk that an answer on this port names (R352). -/
def wireChunk (d : Dev) (p : Port) (stream : Bool) (dest : BitVec 16) (seq : BitVec 32) : Option SentChunk :=
  (portAt d p).held.find? fun c => c.stream = stream && c.dest = dest && c.seq = seq

def sentChunk (d : Dev) (p : Port) (stream : Bool) (handle : BitVec 16) (seq : BitVec 32) : Option SentChunk :=
  (portAt d p).held.find? (sameChunk stream handle seq)

/-- The chunk's remaining segments can all leave now: credit and a settled quad. -/
def canLaunch (d : Dev) (p : Port) (c : SentChunk) : Bool :=
  portUpNow d p && quadCarries d p
    && notPast ((portAt d p).sent[(2 : Fin 4)] + BitVec.ofNat 30 (segmentUnits c)) (portAt d p).limit[(2 : Fin 4)]

/-- One held chunk of a port changed. -/
def withSent (d : Dev) (p : Port) (c : SentChunk) (f : SentChunk → SentChunk) : Dev :=
  let upd := fun x => if sameChunk c.stream c.handle c.seq x then f x else x
  withPort d p fun s => { s with held := s.held.map upd }

/-- All waiting segments of a held chunk leave in ascending offset (R344). -/
def launchSegments (d : Dev) (p : Port) (c : SentChunk) : Dev :=
  let d := c.segments.foldl (fun d k => depart d p (segmentOf d p c k)) d
  withSent d p c fun x => { x with segments := [], left := true }

/-- The time that `n` segments of `len` bytes in all take: 9 ns and the wire time (R363). -/
def segmentsCost (s : PortSt) (len n : Nat) : Nat := 9 + ceilDiv ((len + n * frameOverhead s) * 8) (rateGb s.rate)

/-- Planned time of a transmit entry (R363). -/
def transmitCost (s : PortSt) (len : Nat) : Nat := segmentsCost s len (segmentCount len)

end Sys2Proof.Machine
end

