-- ==== Sys2Proof/Machine/Tensor.lean ====
section
/-!
DEFINITION. Tensor commands (sections 4.3, 4.7, 4.8; Table 5-7): CREATE_DESC, DESTROY_DESC, LOAD_OWNERS.
-/
namespace Sys2Proof.Machine

/-! ### Reading sources -/

/-- R662, R173: the status of reading `n` bytes at a device address, if reading them fails. -/
def sourceFault (d : Dev) (a n : Nat) : Option Status :=
  if !rangeOk d a n then some 0x0104 else if poisoned d a n then some 0x0505 else none

/-! ### The descriptor image (Table 4-1) -/

/-- The descriptor that an image spells, before an allocation gives it its start. -/
def imageDesc (bs : List Byte) (label : Byte) (member : BitVec 12) (ownBlocks : List Nat) (block : Nat) : Desc where
  format := fieldBv 8 bs 0
  rank := fieldBv 3 bs 1
  errorMode := bit (field bs 2 1) 0
  view := BitVec.ofNat 2 (field bs 2 1 / 2)
  transpose := bit (field bs 2 1) 3
  ownerValid := bit (field bs 2 1) 4
  packed := bit (field bs 2 1) 5
  allocation := fieldBv 32 bs 4
  base := fieldBv 40 bs 8
  sizeM1 := #v[fieldBv 24 bs 13, fieldBv 24 bs 16, fieldBv 24 bs 19, fieldBv 24 bs 22, fieldBv 24 bs 25, fieldBv 24 bs 28]
  stride := #v[fieldBv 40 bs 31, fieldBv 40 bs 36, fieldBv 40 bs 41, fieldBv 40 bs 46, fieldBv 40 bs 51]
  owner := BitVec.ofNat 10 (field bs 56 2)
  fill := fieldBv 16 bs 58
  plane := fieldBv 32 bs 60
  label := label
  start := 0
  ownBlocks := ownBlocks
  blockSize := block
  member := member
  filled := 0
  dropped := 0
  destroying := false
  poisoned := false

/-- Check 3 of Table 4-3. -/
def encodingOk (bs : List Byte) (k : Desc) : Bool :=
  field bs 1 1 < 8 && field bs 2 1 < 64 && field bs 3 1 = 0 && field bs 56 2 < 1024
    && k.view != 3 && (k.view = 0 || k.fmt = fFP32) && (!k.packed || k.ownerValid)
    && ((List.range 6).all fun i => i < k.rk || vget k.sizeM1 i 0 = 0)
    && ((List.range 5).all fun i => i + 1 < k.rk || vget k.stride i 0 = 0)
    && (k.plane = 0 || twoPlanes k.fmt)

/-- Check 5 of Table 4-3 (R169, R171, R172). -/
def stridesOk (k : Desc) : Bool :=
  let a := alignUnit k.fmt
  k.base.toNat % a = 0
    && ((List.range k.rk).all fun i => i = 0 || (k.strideOf i != 0 && k.strideOf i % a = 0
        && (if i = 1 then k.groups0 * groupBytes k.fmt ≤ k.strideOf 1 else k.size (i - 1) * k.strideOf (i - 1) ≤ k.strideOf i)))
    && (!twoPlanes k.fmt || ceilDiv k.foot 256 ≤ k.plane.toNat)

/-- R191: the table fits the descriptor. -/
def tableFits (k : Desc) (t : OwnerTable) : Bool :=
  t.owners.length = ceilDiv (k.size (k.rk - 1)) t.block && (k.rk != 1 || t.block % 64 = 0)

/-- Blocks a member owns, ascending. -/
def blocksOf (t : OwnerTable) (m : BitVec 12) : List Nat :=
  (List.range t.owners.length).filter fun i => t.owners.getD i 0 = m

/-- CREATE_DESC (R165–R176): the checks of R173 and Table 4-3 in order, then the new descriptor. The label of the
owner table (0x0611) and its loss (0x0504) are judged with check 7 (log 45). -/
def startCreateDesc (d : Dev) (c : Caller) (address : BitVec 48) : Begin :=
  match sourceFault d address.toNat 64 with
  | some st => .fail st
  | none =>
    let bs := load d address.toNat 64
    match lowestFree d.descs 0 65536 with
    | none => .fail 0x0210
    | some h =>
      let table := assoc (field bs 56 2 % 1024) d.owners
      let (own, block) := match table with
        | some t => (blocksOf t d.join.member, t.block)
        | none => ([], 1)
      let k := imageDesc bs c.label d.join.member own block
      if !fmtDefined k.fmt || k.rk = 0 || 6 < k.rk then .fail 0x0110
      else if !encodingOk bs k then .fail 0x0111
      else if 2 ^ 40 < k.count then .fail 0x0112
      else if !stridesOk k then .fail 0x0113
      else if k.transpose && (k.rk < 2 || !mayTranspose k.fmt) then .fail 0x0116
      else
        let ownerFault : Option Status :=
          if !k.ownerValid then none
          else match table with
            | none => some 0x0117
            | some t => if !c.may t.label then some 0x0611 else if t.poisoned then some 0x0504
              else if tableFits k t then none else some 0x0117
        match ownerFault with
        | some st => .fail st
        | none =>
          match assoc k.allocation.toNat d.allocs with
          | none => .fail 0x0114
          | some a =>
            if !c.may a.label then .fail 0x0610
            else if a.size < k.base.toNat + k.reach then .fail 0x0115
            else .done { d with descs := assocSet h { k with start := a.addr } d.descs } (result [(20, 2, h)])

/-! ### Uses of a descriptor (R195, R196) -/

def isDestroy : Cmd → Bool
  | .destroyDesc _ => true
  | _ => false

/-- An open bucket holds the descriptor: added to it, or named when it was opened (R196, R198). -/
def bucketHolds (d : Dev) (h : BitVec 16) : Bool :=
  d.buckets.any fun e => e.2.added.any (fun x => x.1 = h) || (namedDescs (.bucketOpen e.2.ops)).contains h

/-- The descriptors a command uses: those it names, and the store that RESIDUAL_FLUSH reaches through a bucket. -/
def usedDescs (d : Dev) (c : Cmd) : List (BitVec 16) :=
  match c with
  | .residualFlush b true _ t => (assoc b.toNat d.bucketStores).toList ++ [t]
  | c => namedDescs c

/-- A started command that is not a destroy uses the descriptor and has not completed. -/
def descInUse (d : Dev) (h : BitVec 16) : Bool :=
  d.running.any fun r => !isDestroy r.cmd && (usedDescs d r.cmd).contains h

def freeWatch (h : BitVec 16) (w : Option Watch) : Option Watch :=
  match w with
  | some w => if w.descriptor = h then none else some w
  | none => none

/-- The handle is free, its watches are freed (R197, R649). -/
def dropDesc (d : Dev) (h : BitVec 16) : Dev :=
  let d := { d with descs := assocDel h.toNat d.descs }
  withDbg d fun x => { x with watches := vmap (freeWatch h) x.watches }

/-- DESTROY_DESC (R197, R198): marks the handle, ends with its last earlier use. -/
def startDestroyDesc (d : Dev) (c : Caller) (h : BitVec 16) : Begin :=
  if bucketHolds d h then .fail 0x0119
  else
    let (filled, dropped) := match descOf d h with
      | some k => (k.filled, k.dropped)
      | none => (0, 0)
    if descInUse d h then
      .go (withDesc d h fun k => { k with destroying := true }) (newRunning d c (.destroyDesc h) (.descUses h))
    else .done (dropDesc d h) (result [(20, 4, filled.toNat), (24, 4, dropped.toNat)])

/-! ### Owner tables -/

def ownerEntries (d : Dev) (except : Nat) : Nat :=
  ((d.owners.filter fun e => e.1 != except).map fun e => e.2.owners.length).foldl (· + ·) 0

/-- LOAD_OWNERS (R190–R194); a poisoned table can only be unloaded (R207). Unloading a handle that holds no table
changes nothing and succeeds, a block size above 2^24 is an encoding fault, a source whose count is above 65,536 is read
for its header only, and 0x011D comes before 0x0211 and that before 0x011C (DESIGN CHOICE, log 45). -/
def startLoadOwners (d : Dev) (c : Caller) (table : BitVec 16) (source : BitVec 48) : Begin :=
  let h := table.toNat
  if 1024 ≤ h then .fail 0x0103
  else
    let foreign := match assoc h d.owners with
      | some t => !c.may t.label
      | none => false
    let lost := match assoc h d.owners with
      | some t => t.poisoned
      | none => false
    let hd := load d source.toNat 16
    let count := field hd 0 4
    if foreign then .fail 0x0611
    else if lost && ((sourceFault d source.toNat 16).isSome || count != 0) then .fail 0x0504
    else match sourceFault d source.toNat 16 with
      | some st => .fail st
      | none =>
        let block := field hd 4 4
        let tooMany := decide (65536 < count)
        match (if count = 0 || tooMany then none else sourceFault d (source.toNat + 16) (2 * count)) with
          | some st => .fail st
          | none =>
            let es := if tooMany then [] else (List.range count).map fun i => field (load d (source.toNat + 16 + 2 * i) 2) 0 2
            if tooMany || block = 0 || 2 ^ 24 < block || field hd 8 8 != 0 || es.any (4096 ≤ ·) then .fail 0x011D
            else if 0x10_0000 < ownerEntries d h + count then .fail 0x0211
            else if d.descs.any fun e => e.2.ownerValid && e.2.owner.toNat = h then .fail 0x011C
            else if count = 0 then .done { d with owners := assocDel h d.owners } 0
            else .done { d with owners := assocSet h ⟨c.label, block, es.map (BitVec.ofNat 12 ·), false⟩ d.owners } 0

end Sys2Proof.Machine
end

