-- ==== Sys2Proof/Machine/Chunks.lean ====
section
/-!
DEFINITION. The data work of one compress, hop or root entry (sections 3.3 to 3.6, chapter 6, section
9.4): rows, selection, records, residuals, results and the balance word of a chunk; the packing of
records into chunks (R278, R386).
-/
namespace Sys2Proof.Machine

/-! ### Whose work it is -/

/-- Owner number of the chunks of bucket `b`; a command's chunks carry its own number. -/
def bucketOwner (b : Nat) : Nat := 2 ^ 40 + b

/-- What the entries of a command or of a bucket need to know of it. -/
structure Ctx where
  comp : Nat
  ops : CompressOps
  hdr : Hdr
  exponent : Byte
  modes : BitVec 10
  seed : Option (BitVec 128)
  table : Option (List Byte)
  bucket : Option Nat
  added : List (BitVec 16 × Nat)
  chosen : List (Nat × List Nat)

def Ctx.hostMode (c : Ctx) (n : Nat) : Bool := c.modes.getLsbD n

def bucketCtx (b : Nat) (k : Bucket) : Ctx where
  comp := k.ops.compressor.toNat
  ops := k.ops
  hdr := k.hdr
  exponent := k.exponent
  modes := k.modes
  seed := k.seed
  table := k.table
  bucket := some b
  added := k.added
  chosen := k.chosen

def runningCtx (r : Running) (comp : Nat) (o : CompressOps) : Ctx where
  comp := comp
  ops := o
  hdr := r.hdr
  exponent := o.exponent
  modes := r.modes
  seed := r.seed
  table := r.table
  bucket := none
  added := []
  chosen := r.chosen

def ctxOf (d : Dev) (owner : Nat) : Option Ctx :=
  if bucketOwner 0 ≤ owner then (assoc (owner - bucketOwner 0) d.buckets).map (bucketCtx (owner - bucketOwner 0))
  else (runningOf d owner).bind fun r => (compressorOf r.cmd).map fun e => runningCtx r e.1 e.2

/-! ### Rows of a command or bucket (R407) -/

/-- A row: the descriptor it lies in, its row there, the index of its first element in the residual
store, the result and the generator's counting, and its length with the pad a bucket gives it. -/
structure RowSrc where
  handle : BitVec 16
  desc : Desc
  row : Nat
  base : Nat
  len : Nat

def bucketRow (d : Dev) : List (BitVec 16 × Nat) → Nat → Option RowSrc
  | [], _ => none
  | (h, base) :: t, row =>
    match descOf d h with
    | none => none
    | some k =>
      if row < k.rows then some ⟨h, k, row, base + row * roundUp k.rowLen 64, roundUp k.rowLen 64⟩
      else bucketRow d t (row - k.rows)

def rowSrc (d : Dev) (c : Ctx) (row : Nat) : Option RowSrc :=
  if c.bucket.isSome then bucketRow d c.added row
  else (descOf d c.ops.input).map fun k => ⟨c.ops.input, k, row, row * k.rowLen, k.rowLen⟩

/-! ### Conversion (R125, R126) -/

/-- Ledger values of elements `first` to `first + count − 1` of a row; the pad of a bucket row is 0. -/
def convertRow (d : Dev) (e : Int) (s : RowSrc) (first count : Nat) : List (Option Converted) :=
  (List.range count).map fun i =>
    let j := first + i
    if s.desc.rowLen ≤ j then some ⟨0, false, 0⟩
    else
      let n := s.row * s.desc.rowLen + j
      toLedger s.desc.accessFmt (readElem d s.desc n) (readScale d s.desc n) e

/-- Real elements of the piece. -/
def realCount (s : RowSrc) (first count : Nat) : Nat := min count (s.desc.rowLen - first)

/-! ### Residual stores (R130) -/

def resBits (k : Desc) : Nat := if k.fmt = fL24 then 24 else 48

def readRes (d : Dev) (k : Desc) (j : Nat) : Int := signed (resBits k) (readElem d k j)

def writeRes (d : Dev) (k : Desc) (j : Nat) (vs : List Int) : Dev :=
  writeElems d k j (vs.map fun v => unsigned (resBits k) v)

/-- The device address of a residual store's first byte. -/
def resKey (k : Desc) : Nat := k.start + k.base.toNat

/-- Two residual stores share memory. -/
def storesMeet (a b : Desc) : Bool := resKey a < resKey b + b.foot && resKey b < resKey a + a.foot

/-- Two descriptors name the same residual store: where it begins and how far it reaches. -/
def sameStore (a b : Desc) : Bool := resKey a = resKey b && a.foot = b.foot

/-- They place its elements alike too (R167–R174, R192). -/
def sameLayout (a b : Desc) : Bool :=
  sameStore a b && a.format = b.format && a.rank = b.rank && a.sizeM1 = b.sizeM1 && a.stride = b.stride && a.plane = b.plane
    && a.transpose = b.transpose && a.packed = b.packed && a.ownBlocks = b.ownBlocks && a.blockSize = b.blockSize

/-- A store whose residuals the device writes is one that it keeps, in every layout in which it has written it (R39,
R163). -/
def keepStore (d : Dev) (k : Desc) : Dev :=
  { d with resStores := (d.resStores.filter fun e => !sameLayout e.desc k) ++ [⟨k, true⟩] }

/-- All elements zero (R39). -/
def resEmpty (d : Dev) (k : Desc) : Bool := (List.range k.count).all fun j => readElem d k j = 0

/-- The poisoned lines that a run of a store's elements meets are lost: every element of the store that lies in one
of them is set to 0, and a line wholly inside the store is whole again (R161). -/
def scrubRes (d : Dev) (k : Desc) (first count : Nat) : Dev :=
  let linesOf := fun (j : Nat) => ((k.addrs j).getD []).map lineOf
  let hit := (((List.range count).flatMap fun i => linesOf (first + i)).eraseDups).filter d.poison.contains
  let inside := fun l => decide (resKey k ≤ l) && decide (l + lineSize l ≤ resKey k + k.foot)
  let bad := (List.range k.count).filter fun j => elemsPoisoned d k j 1
    && ((first ≤ j && j < first + count) || (linesOf j).any hit.contains)
  let d := bad.foldl (fun d j => writeElem d k j 0) d
  { d with poison := d.poison.filter fun l => !(inside l && hit.contains l) }

/-! ### Random bits (R148, R151, R271, R276) -/

def purposeOf (comp : Nat) : Nat := if comp = cQuant then 1 else 2

/-- The host's random-bit descriptor of a compressor. -/
def Ctx.bitsDesc (c : Ctx) : BitVec 16 := if c.comp = cQuant then c.ops.auxA else c.ops.auxB

def drawList (d : Dev) (c : Ctx) (first count : Nat) : List (Option Nat) :=
  if !stochasticOps c.comp c.ops then List.replicate count none
  else if c.hostMode 6 then
    (List.range count).map fun i => (descOf d c.bitsDesc).map fun k => readElem d k (first + i)
  else
    (List.range count).map fun i => c.seed.map fun s =>
      drawU s c.hdr.layer.toNat c.hdr.operator.toNat c.ops.step.toNat (purposeOf c.comp) (first + i)

/-! ### Auxiliary operands -/

/-- Bytes of one row of a descriptor, bit for bit (R266). -/
def rowBytes (d : Dev) (k : Desc) (row : Nat) : List Byte :=
  let n := k.rowLen
  let elems := (List.range n).map fun i => readElem d k (row * n + i)
  if k.accessFmt = fINT4 then
    (List.range (ceilDiv n 2)).map fun i => BitVec.ofNat 8 (elems.getD (2 * i) 0 + 16 * elems.getD (2 * i + 1) 0)
  else if k.fmt = fS16 then
    elems.flatMap (leBytes 2) ++ (List.range k.groups0).map fun g => BitVec.ofInt 8 (readScale d k (row * n + 64 * g))
  else elems.flatMap (leBytes k.elemSize)

/-- Bytes of a payload row. -/
def rowByteCount (k : Desc) : Nat :=
  if k.accessFmt = fINT4 then ceilDiv k.rowLen 2
  else if k.fmt = fS16 then s16RowBytes k else k.rowLen * k.elemSize

def gathers (c : Ctx) : Bool := c.comp = cTopk && c.ops.auxB != unused

def payloadRowOf (d : Dev) (c : Ctx) : Nat :=
  if gathers c then match descOf d c.ops.auxB with
    | some k => rowByteCount k
    | none => 0
  else 0

/-- The factor of LOWRANK: Q[j] for every j, and the CRC-32C of its bytes (R274, R277). -/
def factorOf (d : Dev) (c : Ctx) : List (List Int) × Nat :=
  if c.comp != cLowrank then ([], 0)
  else match descOf d c.ops.auxA with
    | none => ([], 0)
    | some k =>
      let r := k.rowLen
      let w := if paramInt4 c.ops.parameter then 4 else 8
      ((List.range k.rows).map fun j => (List.range r).map fun col => signed w (readElem d k (j * r + col)),
        (crc32c (imageSlice d k 0 k.imageLen)).toNat)

/-- Indices that the host supplies for a row (R268). -/
def hostIndices (d : Dev) (k : Desc) (row : Nat) : List Int :=
  (List.range k.rowLen).map fun i => signed 48 (readElem d k (row * k.rowLen + i))

/-- R269 for one row of `n` elements. -/
def indicesOk (l : List Int) (n : Nat) : Bool :=
  l.all (fun x => decide (0 ≤ x) && decide (x < (n : Int)))
    && (l.zip (l.drop 1)).all fun e => decide (e.1 < e.2)

/-! ### Packing records into chunks (R278, R386) -/

/-- P bytes of records fit a chunk. -/
def chunkFits (p size : Nat) (coded : Bool) : Bool :=
  64 + p + (if coded then 16 * ceilDiv p 65536 else 0) ≤ size

/-- The longest multiple of 64 elements, `units` at most, whose record fits. -/
def longestRange (fits : Nat → Bool) : Nat → Nat
  | 0 => 0
  | u + 1 => if fits (64 * (u + 1)) then u + 1 else longestRange fits u

/-- The ranges of a row of `n` elements from `first` on (each as long as fits: DEDUCED, log 15); none
when even 64 elements do not fit. -/
def rowRanges (fits : Nat → Bool) (unit n : Nat) : Nat → Nat → Option (List (Nat × Nat))
  | 0, _ => some []
  | fuel + 1, first =>
    if n ≤ first then some []
    else (rowRanges fits unit n fuel (first + unit)).map ((first, min unit (n - first)) :: ·)

/-- Ranges of one row (R278): whole when its record fits. LOWRANK records are never split. -/
def splitRow (comp : Nat) (p : Word) (payloadRow : Nat) (gather coded : Bool) (size n : Nat) :
    Option (List (Nat × Nat)) :=
  let fits := fun m => chunkFits (recordSize comp p m payloadRow gather) size coded
  if fits n then some [(0, n)]
  else if comp = cLowrank then none
  else
    let u := 64 * longestRange fits (ceilDiv n 64 - 1)
    if u = 0 then none else rowRanges fits u n (n + 1) 0

def packRecs (sizeOf : Rec → Nat) (size : Nat) (coded : Bool) : List Rec → Nat → List Rec → List (List Rec)
  | cur, _, [] => if cur.isEmpty then [] else [cur.reverse]
  | cur, p, r :: t =>
    if !cur.isEmpty && !chunkFits (p + sizeOf r) size coded then
      cur.reverse :: packRecs sizeOf size coded [r] (sizeOf r) t
    else packRecs sizeOf size coded (r :: cur) (p + sizeOf r) t

/-- The chunks of `rows` rows of `n` elements each, the first row numbered `row0`. -/
def packRows (comp : Nat) (p : Word) (payloadRow : Nat) (gather coded : Bool) (size row0 rows n : Nat) :
    Option (List (List Rec)) :=
  (splitRow comp p payloadRow gather coded size n).map fun rs =>
    packRecs (fun r => recordSize comp p r.count payloadRow gather) size coded [] 0
      ((List.range rows).flatMap fun i => rs.map fun e => ⟨row0 + i, e.1, e.2⟩)

/-! ### One entry -/

/-- What an entry has come to so far. -/
structure Formed where
  dev : Dev
  bytes : List Byte
  input : Int
  transmitted : Int
  change : Int
  lost : Int
  dust : Int
  dustCount : Nat
  spills : Nat
  outSpills : Nat
  filled : Nat
  dropped : Nat
  bmax : Nat
  blocks : Nat
  /-- rows or ranges selected on the entry's own tile, and the passes of those and of merges (R265) -/
  rows : Nat
  passes : Nat
  /-- passes of each range that ran on a tile of firmware's choice (R265) -/
  ranges : List Nat
  chosen : List (Nat × List Nat)

def Formed.start (d : Dev) (c : Ctx) : Formed := ⟨d, [], 0, 0, 0, 0, 0, 0, 0, 0, 0, 0, 0, 0, 0, 0, [], c.chosen⟩

/-- Why an entry ends without effect: the status, the device as it is then left, and whether an uncorrectable
error in the residual store is the cause (R161). -/
structure ChunkFault where
  status : Status
  dev : Dev
  residual : Bool

/-- What a selection over a row or range comes to (R263–R265): its indices, and what it adds to the counts of
the sieves. -/
structure Picked where
  indices : List Nat
  rows : Nat
  passes : Nat
  ranges : List Nat
  chosen : List (Nat × List Nat)

def sumInt (l : List Int) : Int := l.foldl (· + ·) 0

/-- Passes over each range of a row of more than 65,536 elements (R265); none of a shorter row. -/
def rangePasses (k n : Nat) : List Nat :=
  if n ≤ 65536 then []
  else List.replicate (n / 65536) (ceilDiv (min k 65536) 256)
    ++ (if n % 65536 = 0 then [] else [ceilDiv (min k (n % 65536)) 256])

/-- Passes over a row, or of the merge of its ranges (R264, R265). -/
def lastPasses (k n : Nat) : Nat := if n ≤ 65536 then ceilDiv (min k n) 256 else ceilDiv k 256

/-- Σ over the children of their values for this record (R135). -/
def childSums (children : List (List ReadRec)) (r : Rec) : List Int :=
  let found := children.filterMap fun l => l.find? fun x => x.row = r.row && x.first = r.first
  (List.range r.count).map fun i => sumInt (found.map fun x => x.ts.getD i 0)

/-- x of a piece: contributions, old residuals, children (R135). -/
def formX (ms rs cs : List Int) : List Int := (ms.zip (rs.zip cs)).map fun e => e.1 + (e.2.1 + e.2.2)

/-- What the children add to element `i` of a row, over records of any of the row's chunks (R135). -/
def childAt (children : List (List ReadRec)) (row i : Nat) : Int :=
  sumInt (children.map fun l => match l.find? fun x => x.row = row && x.first ≤ i && i < x.first + x.ts.length with
    | some x => x.ts.getD (i - x.first) 0
    | none => 0)

/-- How the records of an entry are formed: at the root nothing is compressed (R136); a row in several
records is selected over the whole row, with every child's records of it (R263), or over the range where
a member cannot hold the row's chunks at once (DEDUCED, log 15). -/
structure Hop where
  root : Bool
  whole : Nat → Bool
  kids : List (List ReadRec)
  rowKids : List (List ReadRec)

/-- A member without children. -/
def Hop.leaf : Hop := ⟨false, fun _ => true, [], []⟩

/-- The record is part of a row over which the sieve selects as a whole and has not yet selected (R263). -/
def selectsRow (c : Ctx) (hop : Hop) (s : RowSrc) (r : Rec) (chosen : List (Nat × List Nat)) : Bool :=
  c.comp = cTopk && c.ops.auxA = unused && !hop.root && r.count < s.len && hop.whole r.row && (assoc r.row chosen).isNone

/-- x of a whole row: contributions, old residuals and what the children add (R135). -/
def wholeRow (d : Dev) (e : Byte) (kids : List (List ReadRec)) (s : RowSrc) (resd : Desc) (row : Nat) : List Int :=
  let ms := convertRow d e.toInt s 0 s.len
  (List.range s.len).map fun i => (match ms.getD i none with
    | some m => m.m
    | none => 0) + readRes d resd (s.base + i) + childAt kids row i

/-- The indices selected in a record's range: from the host (R268), over the whole row (R263) or over the
range. -/
def selection (d : Dev) (c : Ctx) (hop : Hop) (s : RowSrc) (resd : Desc) (r : Rec) (xs : List Int)
    (chosen : List (Nat × List Nat)) : Option Picked :=
  let k := paramK c.ops.parameter
  if c.comp != cTopk || hop.root then some ⟨[], 0, 0, [], chosen⟩
  else if c.ops.auxA != unused then
    match descOf d c.ops.auxA with
    | none => none
    | some a =>
      let l := hostIndices d a r.row
      if r.row < a.rows && indicesOk l s.desc.rowLen then some ⟨l.map (·.toNat), bitAt (r.first = 0) 0, 0, [], chosen⟩ else none
  else if selectsRow c hop s r chosen then
    let l := selectTop k 0 (wholeRow d c.exponent hop.rowKids s resd r.row)
    let ranges := rangePasses k s.len
    some ⟨l, bitAt ranges.isEmpty 0, lastPasses k s.len, ranges, assocSet r.row l chosen⟩
  else if r.count < s.len && hop.whole r.row then some ⟨(assoc r.row chosen).getD [], 0, 0, [], chosen⟩
  else
    let ranges := rangePasses k r.count
    some ⟨selectTop k r.first xs, bitAt ranges.isEmpty 0, lastPasses k r.count, ranges, chosen⟩

def payloadFn (d : Dev) (c : Ctx) : Option (Nat → List Byte) :=
  if gathers c then (descOf d c.ops.auxB).map fun k => fun j => rowBytes d k j else none

/-- Results of the root in the format of the output (R143): the device and the output spills (R144). An element
that saturates counts as a spill also where its write is dropped (log 35). -/
def writeResult (d : Dev) (k : Desc) (j : Nat) (e : Int) (vs : List Int) : Dev × Nat :=
  if k.fmt = fS16 then
    (pieces 64 (ceilDiv vs.length 64) ((List.range vs.length).zip vs)).foldl (fun acc g =>
      let (c, ns) := narrowS16 (g.map (·.2)) e
      let first := j + (g.map (·.1)).headD 0
      let d := writeElems acc.1 k first (ns.map (·.raw))
      let d := match k.scaleAddr first with
        | some a => store d a [BitVec.ofInt 8 c]
        | none => d
      (d, acc.2 + (ns.filter (·.sat)).length)) (d, 0)
  else
    let ns := vs.map fun v => narrow k.accessFmt v e
    (writeElems d k j (ns.map (·.raw)), (ns.filter (·.sat)).length)

/-- What leaves a piece: t as stored, the new residual before its store, the record bytes. -/
def compressPiece (c : Ctx) (root : Bool) (r : Rec) (xs : List Int) (aux : RecAux) : List Int × List Int × List Byte :=
  if root then (xs, xs.map fun _ => 0, [])
  else
    let f := formRecord c.comp c.ops.parameter r.row r.first xs aux
    (f.splits.map (·.t), f.splits.map (·.r), f.bytes)

def sat48 (x : Int) : Int := saturate x (ledgerLo fL48) (ledgerHi fL48)

/-- The entry reads a payload row out of the bounds of an ERROR-mode descriptor (R182, R266). -/
def payloadOutside (d : Dev) (c : Ctx) (picked : List Nat) : Bool :=
  gathers c && match descOf d c.ops.auxB with
    | some k => k.errorMode && picked.any fun j => 0 < oobCount k (j * k.rowLen) k.rowLen
    | none => false

/-- A poisoned line in what only the compressor reads: host indices, payload rows, factor, host random
bits (R594). -/
def auxPoisoned (d : Dev) (c : Ctx) (r : Rec) (first : Nat) (picked : List Nat) : Bool :=
  let hit := fun (h : BitVec 16) (at_ n : Desc → Nat) => match descOf d h with
    | some k => h != unused && elemsPoisoned d k (at_ k) (n k)
    | none => false
  (c.comp = cTopk && hit c.ops.auxA (fun k => r.row * k.rowLen) (·.rowLen))
    || (gathers c && picked.any fun j => hit c.ops.auxB (fun k => j * k.rowLen) (·.rowLen))
    || (c.comp = cLowrank && hit c.ops.auxA (fun _ => 0) (·.count))
    || (stochasticOps c.comp c.ops && c.hostMode 6 && hit c.bitsDesc (fun _ => first) (fun _ => r.count))

/-- What an access of `n` elements of a descriptor from `first` on counts (R183, R186): filled reads. -/
def noteReads (h : BitVec 16) (first n : Nat) (acc : Dev × Nat) : Dev × Nat :=
  match descOf acc.1 h with
  | some k => let m := oobCount k first n; (noteOob acc.1 h m 0, acc.2 + m)
  | none => acc

/-- The same for writes: dropped writes. -/
def noteWrites (h : BitVec 16) (first n : Nat) (acc : Dev × Nat) : Dev × Nat :=
  match descOf acc.1 h with
  | some k => let m := oobCount k first n; (noteOob acc.1 h 0 m, acc.2 + m)
  | none => acc

/-- Filled reads of one record: its input, its old residuals and what its compressor, which the root has none of,
reads (R136, R183, R228). A row of host indices is read with the first record of its row (log 35). -/
def recordReads (d : Dev) (c : Ctx) (root : Bool) (s : RowSrc) (r : Rec) (picked : List Nat) : Dev × Nat :=
  let acc := noteReads s.handle (s.row * s.desc.rowLen + r.first) (realCount s r.first r.count) (d, 0)
  let acc := noteReads c.ops.residual (s.base + r.first) r.count acc
  if root then acc else
  let rowLen := fun (h : BitVec 16) => match descOf d h with
    | some k => k.rowLen
    | none => 0
  let acc := if c.comp = cTopk && c.ops.auxA != unused && r.first = 0 then
    noteReads c.ops.auxA (r.row * rowLen c.ops.auxA) (rowLen c.ops.auxA) acc else acc
  let acc := if gathers c then
    picked.foldl (fun acc j => noteReads c.ops.auxB (j * rowLen c.ops.auxB) (rowLen c.ops.auxB) acc) acc else acc
  if stochasticOps c.comp c.ops && c.hostMode 6 then noteReads c.bitsDesc (s.base + r.first) r.count acc else acc

/-- The residual store that takes a command's new residuals (R130). -/
def Ctx.target (c : Ctx) : BitVec 16 := if c.hostMode 0 then c.ops.residualOut else c.ops.residual

/-- The new residuals of a record become the store's; in hardware mode the device keeps the store (R163). -/
def putResiduals (d : Dev) (c : Ctx) (first : Nat) (vs : List Int) : Dev :=
  match descOf d c.target with
  | none => d
  | some k =>
    let d := padRun (writeRes d k first vs) k first vs.length
    if c.hostMode 0 then d else keepStore d k

/-- One record of an entry (sections 3.4, 3.5): the entry so far with it, or why it ends without effect. -/
def formPiece (c : Ctx) (hop : Hop) (factor : List (List Int) × Nat)
    (start : Dev) (f : Formed) (r : Rec) : Except ChunkFault Formed :=
  match rowSrc f.dev c r.row, descOf f.dev c.ops.residual with
  | some s, some resd =>
    let d := f.dev
    let n := realCount s r.first r.count
    let at0 := s.row * s.desc.rowLen + r.first
    let row := selectsRow c hop s r f.chosen
    let (from_, span) := if row then (s.base, s.len) else (s.base + r.first, r.count)
    if elemsPoisoned d s.desc (if row then s.row * s.desc.rowLen else at0) (if row then s.desc.rowLen else n) then
      .error ⟨0x0505, start, false⟩
    else if elemsPoisoned d resd from_ span then
      -- the residuals that the host supplies are no store of the device
      .error ⟨0x0505, if c.hostMode 0 then start else scrubRes start resd from_ span, true⟩
    else
      let conv := convertRow d c.exponent.toInt s r.first r.count
      if conv.any (·.isNone) then .error ⟨0x0304, start, false⟩
      else
        let cs := conv.filterMap id
        let old := (List.range r.count).map fun i => readRes d resd (s.base + r.first + i)
        let xs := formX (cs.map (·.m)) old (childSums hop.kids r)
        match selection d c hop s resd r xs f.chosen with
        | none => .error ⟨0x010A, start, false⟩
        | some sel =>
          let picked := sel.indices.filter fun j => decide (r.first ≤ j) && decide (j < r.first + r.count)
          if payloadOutside d c picked then .error ⟨0x0118, start, false⟩
          else if !hop.root && auxPoisoned d c r (s.base + r.first) picked then .error ⟨0x0505, start, false⟩
          else
            let aux : RecAux := ⟨sel.indices, payloadFn d c, drawList d c (s.base + r.first) r.count, factor.1, factor.2⟩
            let (ts, rs, bytes) := compressPiece c hop.root r xs aux
            let lo := ledgerLo resd.fmt
            let hi := ledgerHi resd.fmt
            let tOut := ts.map sat48
            let rNew := rs.map fun v => saturate v lo hi
            let spill := ((ts.zip tOut).filter fun e => e.1 != e.2).length
              + ((rs.zip rNew).filter fun e => e.1 != e.2).length
            let lost := sumInt ts - sumInt tOut + (sumInt rs - sumInt rNew)
            let (d, filled) := recordReads d c hop.root s r picked
            let (d, droppedRes) := noteWrites c.target (s.base + r.first) r.count (putResiduals d c (s.base + r.first) rNew, 0)
            let (d, outSpills, dropped) := if hop.root then match descOf d c.ops.output with
                | some k =>
                  let m := if c.bucket.isSome then r.count else n
                  let (d, sp) := writeResult d k (s.base + r.first) c.exponent.toInt (tOut.take m)
                  let (d, dr) := noteWrites c.ops.output (s.base + r.first) m (padRun d k (s.base + r.first) m, droppedRes)
                  (d, sp, dr)
                | none => (d, 0, droppedRes)
              else (d, 0, droppedRes)
            .ok {
              dev := d
              bytes := f.bytes ++ bytes
              input := f.input + sumInt (cs.map (·.m))
              transmitted := f.transmitted + sumInt tOut
              change := f.change + sumInt rNew - sumInt old
              lost := f.lost + lost
              dust := f.dust + sumInt (cs.map (·.dust))
              dustCount := f.dustCount + (cs.filter (·.inexact)).length
              spills := f.spills + spill
              outSpills := f.outSpills + outSpills
              filled := f.filled + filled
              dropped := f.dropped + dropped
              bmax := max f.bmax ((xs.map bitLength).foldl max 0)
              blocks := f.blocks + ceilDiv r.count 64
              rows := f.rows + sel.rows
              passes := f.passes + sel.passes
              ranges := f.ranges ++ sel.ranges
              chosen := sel.chosen }
  | _, _ => .error ⟨0x0508, start, false⟩

def formPieces (c : Ctx) (hop : Hop) (factor : List (List Int) × Nat)
    (start : Dev) : Formed → List Rec → Except ChunkFault Formed
  | f, [] => .ok f
  | f, r :: t =>
    match formPiece c hop factor start f r with
    | .error e => .error e
    | .ok g => formPieces c hop factor start g t

/-- One entry over its records (R131: all of it, or nothing but the status). -/
def formChunk (d : Dev) (c : Ctx) (hop : Hop) (recs : List Rec) :
    Except ChunkFault Formed :=
  match formPieces c hop (factorOf d c) d (Formed.start d c) recs with
  | .error e => .error e
  | .ok f =>
    if c.comp != cLowrank then .ok f
    else
      let whole := match descOf f.dev c.ops.auxA with
        | some k => k.count
        | none => 0
      let (e, n) := noteReads c.ops.auxA 0 whole (f.dev, f.filled)
      .ok { f with dev := e, filled := n }

/-! ### Chunk headers (Table 8-4, Table 9-5) -/

def formOf (c : Ctx) : Nat := c.comp + bitAt (c.ops.coding.getLsbD 0) 2

def bucketByte (c : Ctx) : Nat := c.bucket.getD 255

def reduceDetail (index : Nat) (step : Word) (covered : Nat) (h : Hdr) : List Byte :=
  leBytes 4 index ++ leBytes 4 step.toNat ++ leBytes 2 covered ++ zeros 6 ++ leBytes 2 h.layer.toNat
    ++ leBytes 2 h.operator.toNat ++ zeros 4

def bcastDetail (index : Nat) (origin : BitVec 12) (offset : Nat) (h : Hdr) : List Byte :=
  leBytes 4 index ++ zeros 4 ++ leBytes 2 origin.toNat ++ leBytes 6 offset ++ leBytes 2 h.layer.toNat
    ++ leBytes 2 h.operator.toNat ++ zeros 4

/-- How the blocks of a command or bucket take their table, by the TABLES placement in force when their encode
entry starts (Table 7-3, R307). One that started under the other mode and so has no table of the host builds
one (DEDUCED, log 18). -/
def tableChoice (d : Dev) (c : Ctx) : TableChoice :=
  if !hostMode d 2 then .built
  else if c.ops.coding.getLsbD 2 then .fixedNo (c.ops.coding.toNat / 8 % 8)
  else match c.table with
    | some t => .host t
    | none => .built

/-- The balance word in a chunk's first bytes. -/
def balanceOf (bs : List Byte) : BitVec 64 × BitVec 64 × BitVec 64 :=
  (fieldBv 64 bs 0, fieldBv 64 bs 8, fieldBv 64 bs 16)

/-- R134: the decoded records sum to what the chunk says it transmits. -/
def sumsTo (recs : List ReadRec) (t : BitVec 64) : Bool :=
  BitVec.ofInt 64 (sumInt (recs.map fun r => sumInt r.ts)) = t

end Sys2Proof.Machine
end

