-- ==== Sys2Proof/Machine/Work.lean ====
section
/-!
DEFINITION. Chunks of work on this device: their stages, slots and grants (section 9.3), slip and resume
(section 2.3), the failure of a command's work, and a group's fault (section 9.11).
-/
namespace Sys2Proof.Machine

/-! ### Groups -/

def groupOf (d : Dev) (h : Nat) : Option Group := assoc h d.groups

def withGroup (d : Dev) (h : Nat) (f : Group → Group) : Dev := { d with groups := assocMod h f d.groups }

def neighbours (g : Group) : List Nbr := g.parent.toList ++ g.children

def nbrOn (g : Group) (p : Port) : Option Nbr := (neighbours g).find? fun n => n.port = p

def groupClass : BitVec 8 := 0
def streamClass : BitVec 8 := 1
def mailboxClass : BitVec 8 := 2

/-! ### Works -/

/-- Handoff chunks are numbered apart from pages (R69, R436). -/
def isHandoff (w : Work) : Bool :=
  match w.job with
  | .handoff _ => true
  | _ => false

def sameWork (a b : Work) : Bool :=
  a.owner = b.owner && a.cls = b.cls && a.handle = b.handle && a.seq = b.seq && isHandoff a = isHandoff b

/-- The chunk or page of a plan entry (Table 2-1): on a transmit resource a stream's handoff chunk, on
an engine its page. -/
def findWork (d : Dev) (cls : BitVec 8) (handle : BitVec 16) (seq : BitVec 32) : Option Work :=
  d.work.find? fun w => w.cls = cls && w.handle = handle && w.seq = seq && !isHandoff w

def findHandoff (d : Dev) (handle : BitVec 16) (seq : BitVec 32) : Option Work :=
  d.work.find? fun w => w.cls = streamClass && w.handle = handle && w.seq = seq && isHandoff w

def putWork (d : Dev) (w : Work) : Dev :=
  { d with work := d.work.map fun x => if sameWork x w then w else x }

def dropWorks (d : Dev) (p : Work → Bool) : Dev := { d with work := d.work.filter fun w => !p w }

def worksOf (d : Dev) (owner : Nat) : List Work := d.work.filter fun w => w.owner = owner

/-- A chunk's work on this device is complete (R73). -/
def stageComplete : Stage → Bool
  | .held _ | .done => true
  | _ => false

def isDone (w : Work) : Bool := w.stage = .done

/-- The tick in force, in its guard (R64, R71). -/
def inGuard (d : Dev) : Option Stamp := if budget d ≤ d.tik.offset.toNat then some (now d) else none

/-- The chunks of `e` that were not there before belong to a command whose doorbell came in the guard of this
tick (R71). -/
def stampNew (d e : Dev) (rung : Option Stamp) : Dev :=
  if rung.isNone then e
  else { e with work := e.work.map fun w => if d.work.any (sameWork w) then w else { w with guarded := rung } }

/-- A chunk or page of work just formed; its command's doorbell says in which guard it came (R71). -/
def newWork (d : Dev) (owner : Nat) (cls : BitVec 8) (handle : BitVec 16) (seq : BitVec 32) (job : Job) (stage : Stage) : Work where
  owner := owner
  cls := cls
  handle := handle
  seq := seq
  job := job
  stage := stage
  unacked := []
  planned := none
  deadline := none
  late := false
  started := false
  guarded := (runningOf d owner).bind (·.rung)
  notIn := none
  parcel := []
  chunk := []
  blocksDone := 0
  balance := (0, 0, 0)
  bmax := 0
  covered := 1

/-- The element of a list of sequences furthest behind `next`; `next` of an empty list. -/
def oldestOf (next : BitVec 32) (l : List (BitVec 32)) : BitVec 32 :=
  l.foldl (fun o s => if (next - o).toNat < (next - s).toNat then s else o) next

/-- The group's chunks that are not done. -/
def openWorks (d : Dev) (h : Nat) : List Work :=
  d.work.filter fun w => w.cls = groupClass && w.handle.toNat = h && w.stage != .done

/-- The oldest sequence not done on this member, or the next sequence (R394; DEDUCED, log 16). -/
def groupFloor (d : Dev) (h : Nat) (g : Group) : BitVec 32 := oldestOf g.nextSeq ((openWorks d h).map (·.seq))

/-- The group's oldest incomplete chunk (R75). -/
def oldestIncomplete (d : Dev) (h : Nat) : Option Work :=
  match groupOf d h with
  | none => none
  | some g =>
    let ws := (openWorks d h).filter fun w => !stageComplete w.stage
    let o := oldestOf g.nextSeq (ws.map (·.seq))
    ws.find? fun w => w.seq = o

/-! ### Slots and grants (R392, R394) -/

def slotOf (g : Group) (seq : BitVec 32) : SlotState :=
  match g.slots.find? fun s => s.seq = seq with
  | some s => s.state
  | none => .free

def setSlot (d : Dev) (h : Nat) (seq : BitVec 32) (st : SlotState) : Dev :=
  withGroup d h fun g =>
    let rest := g.slots.filter fun s => s.seq != seq
    { g with slots := if st = .free then rest else rest ++ [⟨st, seq⟩] }

/-- `a` lies before `b`, modulo 2^32. -/
def seqBefore (a b : BitVec 32) : Bool := a != b && (b - a).toNat < 2 ^ 31

/-- The slot of this sequence is its own or free: no older chunk holds it (R392). -/
def slotReady (d : Dev) (h : Nat) (g : Group) (seq : BitVec 32) : Bool :=
  seqBefore seq (groupFloor d h g + BitVec.ofNat 32 g.slotsS.toNat)

/-- A new GRANT to every neighbour whenever the limit advances (R394). -/
def sendGrants (d : Dev) (h : Nat) : Dev :=
  match groupOf d h with
  | none => d
  | some g =>
    let limit := groupFloor d h g + BitVec.ofNat 32 g.slotsS.toNat
    if g.faulted.isSome || !seqBefore g.granted limit then d
    else
      let d := withGroup d h fun g => { g with granted := limit }
      (neighbours g).foldl (fun d n =>
        sendRequest d n.port false (BitVec.ofNat 16 h) 1 (requestOps [(4, 4, limit.toNat)])) d

def grantAll (d : Dev) : Dev := (d.groups.map (·.1)).foldl sendGrants d

/-- The neighbour at this port has granted the sequence. -/
def grantedTo (g : Group) (p : Port) (seq : BitVec 32) : Bool :=
  match nbrOn g p with
  | some n => seqBefore seq n.grant
  | none => false

/-- The parent on this port is lost and its alternate has not answered yet: the port carries none of this group's
chunks, should it come up again (R377, R415). -/
def lostParent (g : Group) (p : Port) : Bool := g.adopting.isSome && g.parent.any fun n => n.port = p

/-! ### Completion of a chunk, resume (R73, R77, R78) -/

def setTikEvent (d : Dev) (b : Nat) : Dev := withTik d fun t => { t with event := t.event ||| BitVec.ofNat 7 (2 ^ b) }

/-- The group's oldest incomplete chunk has completed: its slip count returns to 0, and a stalled group
resumes with an event completion. -/
def resumeGroup (d : Dev) (h : Nat) : Dev :=
  match groupOf d h with
  | none => d
  | some g =>
    let d := withGroup d h fun g => { g with slip := 0, stalled := false }
    if g.stalled then eventTo d g.opener 0 [(20, 1, 1), (22, 2, h), (24, 4, g.slip)] else d

/-- A chunk moves to a stage. -/
def toStage (d : Dev) (w : Work) (st : Stage) : Dev :=
  let first := w.cls = groupClass && stageComplete st && !stageComplete w.stage
    && (oldestIncomplete d w.handle.toNat).any (sameWork w)
  let d := putWork d { w with stage := st }
  let d := if w.cls = groupClass && st = .done then setSlot d w.handle.toNat w.seq .free else d
  if first then resumeGroup d w.handle.toNat else d

/-! ### The failure of a command's or bucket's own work -/

def failBucket (b : Nat) (st : Status) (d : Dev) : Dev :=
  { d with buckets := assocMod b (fun k => { k with failed := some (k.failed.getD st) }) d.buckets }

/-- What happens to the chunks of work that ends in failure: those of a group stay unfinished, so that
the group waits (DEDUCED, log 17); others go. -/
def abandonWorks (d : Dev) (owner : Nat) : Dev :=
  let d := dropWorks d fun w => w.owner = owner && w.cls != groupClass
  let stuck := fun (w : Work) => if w.owner = owner && !stageComplete w.stage then { w with stage := Stage.gather } else w
  { d with work := d.work.map stuck }

/-- The owner is at work: its command runs, or its bucket is open and has not failed. -/
def ownerLive (d : Dev) (owner : Nat) : Bool :=
  if bucketOwner 0 ≤ owner then
    match assoc (owner - bucketOwner 0) d.buckets with
    | some k => k.failed.isNone
    | none => false
  else (runningOf d owner).isSome

/-- The owner's work ends with a status: a command completes, a bucket waits for its BUCKET_SEAL. -/
def failOwner (d : Dev) (owner : Nat) (st : Status) : Dev :=
  if bucketOwner 0 ≤ owner then abandonWorks (failBucket (owner - bucketOwner 0) st d) owner
  else match runningOf d owner with
    | some r => finishRunning (abandonWorks d owner) r st 0
    | none => d

/-! ### Group fault (R420, R421) -/

/-- The group of a bucket that a running command adds to or seals: that of the open bucket, or of the BUCKET_OPEN
before the command that still waits for its turn. -/
def bucketGroup (d : Dev) (id : Nat) (b : BitVec 8) : Option Nat :=
  let opening := fun (x : Running) => x.id < id && match x.cmd with
    | .bucketOpen o => o.bucket = b
    | _ => false
  match assoc b.toNat d.buckets, (d.running.filter opening).getLast? with
  | some k, none => some k.group.toNat
  | _, some x => some x.hdr.handle.toNat
  | none, none => none

/-- Does the command belong to the group? (R387, R420) -/
def cmdOfGroup (d : Dev) (h : Nat) (r : Running) : Bool :=
  match r.cmd with
  | .bcast .. | .reduceToOne _ | .bucketOpen _ => r.hdr.handle.toNat = h
  | .bucketSeal b | .bucketAdd b _ => bucketGroup d r.id b = some h
  | _ => false

def dropBucket (d : Dev) (b : Nat) : Dev :=
  dropWorks { d with buckets := assocDel b d.buckets } fun w => w.owner = bucketOwner b

/-- A command of the faulted group completes; a bucket being sealed ends with it. -/
def endGroupCmd (st : Status) (d : Dev) (r : Running) : Dev :=
  let d := finishRunning d { r with late := false } st 0
  match r.cmd with
  | .bucketSeal b => match assoc b.toNat d.buckets with
    | some k => if k.failed.isSome then dropBucket d b.toNat else d
    | none => d
  | _ => d

/-- A port forgets the chunks of a handle. -/
def forgetChunks (stream : Bool) (h : BitVec 16) (s : PortSt) : PortSt :=
  { s with
    held := s.held.filter fun c => !(c.stream = stream && c.handle = h)
    partials := s.partials.filter fun c => !(c.stream = stream && c.handle = h)
    acked := s.acked.filter fun c => !(c.stream = stream && c.handle = h) }

def forgetOnPorts (d : Dev) (stream : Bool) (h : BitVec 16) : Dev := { d with ports := vmap (forgetChunks stream h) d.ports }

/-- The group faults with status `st`: its commands complete, its chunks go, the opener hears of it when
no command ran (R420, R421). -/
def endGroup (d : Dev) (h : Nat) (g : Group) (st : Status) : Dev :=
  let d := withGroup d h fun g => { g with faulted := some st, received := [], slots := [] }
  let cmds := d.running.filter (cmdOfGroup d h)
  let d := { d with buckets := d.buckets.map fun e =>
    if e.2.group.toNat = h then (e.1, { e.2 with failed := some (e.2.failed.getD st) }) else e }
  let d := cmds.foldl (endGroupCmd st) d
  let d := dropWorks d fun w => w.cls = groupClass && w.handle.toNat = h
  let d := forgetOnPorts d false (BitVec.ofNat 16 h)
  if cmds.isEmpty then eventTo d g.opener 0x0503 [(20, 1, 3), (22, 2, h)] else d

/-- ABORT to the neighbours, but for the one that told of the fault. -/
def sendAborts (d : Dev) (h : Nat) (g : Group) (status : Status) (origin : Option Port) : Dev :=
  ((neighbours g).filter fun n => origin != some n.port).foldl (fun d n =>
    sendRequest d n.port false (BitVec.ofNat 16 h) 4 (requestOps [(4, 2, status.toNat)])) d

/-- R420: the group faults with a status that this member found, or that an ABORT from `origin` told. -/
def faultGroup (d : Dev) (h : Nat) (status : Status) (origin : Option Port) : Dev :=
  match groupOf d h with
  | none => d
  | some g =>
    if g.faulted.isSome then d
    else endGroup (sendAborts d h g status origin) h g (if origin.isSome then 0x0503 else status)

/-- A group ends with its era, without ABORT (R113, R529; DEDUCED, log 25). -/
def endGroupOfEra (d : Dev) (h : Nat) : Dev :=
  match groupOf d h with
  | none => d
  | some g => if g.faulted.isSome then d else endGroup d h g 0x0503

/-! ### Tiles and counters -/

def physFin (n : Nat) : Option Tile := if h : n < 68 then some ⟨n, h⟩ else none

/-- The physical tile of an engine resource. -/
def resourceTile (d : Dev) (resource : BitVec 16) : Option Tile :=
  (physOf d (resource.toNat / 4)).bind physFin

def onTile (d : Dev) (resource : BitVec 16) (f : TileRegs → TileRegs) : Dev :=
  match resourceTile d resource with
  | some p => withTile d p f
  | none => d

/-- Tiles that carry work of their own. -/
def activeTiles (d : Dev) : List Tile := (List.finRange 68).filter fun p => (vget d.phys p.val Phys.reset).state = 0

/-- A range of a long row is selected on a tile of firmware's choice (R265; free, log 8). -/
def noteRange (d : Dev) (passes : Nat) : Dev :=
  match choose d (activeTiles d) with
  | (some p, d) => withTile d p fun t => { t with sevRows := satAdd t.sevRows 1, sevPasses := satAdd t.sevPasses passes }
  | (none, d) => d

/-- Engine counters of Table 6-8 (R265, R268). -/
def noteFormed (d : Dev) (resource : BitVec 16) (engine : Nat) (recs : Nat) (f : Formed) : Dev :=
  onTile (f.ranges.foldl noteRange d) resource fun t => { t with
    sevRows := if engine = 0 then satAdd t.sevRows f.rows else t.sevRows
    sevPasses := if engine = 0 then satAdd t.sevPasses f.passes else t.sevPasses
    qpkBlocks := satAdd t.qpkBlocks f.blocks
    qpkSpills := satAdd t.qpkSpills f.spills
    prjRows := if engine = 2 then satAdd t.prjRows recs else t.prjRows }

def noteEncoded (d : Dev) (resource : BitVec 16) (bs : List EncodedBlock) : Dev :=
  onTile d resource fun t => { t with
    cdcEnc := satAdd t.cdcEnc bs.length
    cdcFallback := satAdd t.cdcFallback (bs.filter (·.fallback)).length
    cdcStored := satAdd t.cdcStored ((bs.map (·.storedSubs)).foldl (· + ·) 0) }

def noteDecoded (d : Dev) (resource : BitVec 16) (n : Nat) : Dev :=
  onTile d resource fun t => { t with cdcDec := satAdd t.cdcDec n }

def noteFormat (d : Dev) (resource : BitVec 16) : Dev :=
  onTile d resource fun t => { t with cdcFormat := satAdd t.cdcFormat 1 }

end Sys2Proof.Machine
end

