-- ==== Sys2Proof/Machine/CompressCmd.lean ====
section
/-!
DEFINITION. Starting the compress commands TOPK, QUANT, LOWRANK, RESIDUAL_FLUSH and MASK_GEN (chapter
6; Tables 5-8, 5-9): their own checks, the chunks they are cut into, and what their entries do.
-/
namespace Sys2Proof.Machine

/-! ### Placement fields (R37, R236) -/

/-- coding bit 2 and the table belong to TABLES: in host-assisted mode exactly one is given. -/
def tablesMatch (d : Dev) (o : CompressOps) : Bool :=
  if hostMode d 2 then o.coding.getLsbD 2 != (o.table != 0) else !o.coding.getLsbD 2 && o.table = 0

/-- The placement fields of a compress operand set match the modes in force (R236). -/
def compressPlaced (d : Dev) (comp : Nat) (o : CompressOps) : Bool :=
  let bits := stochasticOps comp o && hostMode d 6
  (o.residualOut != unused) = hostMode d 0
    && (if comp = cTopk then (o.auxA != unused) = hostMode d 1
        else if comp = cQuant then (o.auxA != unused) = bits
        else if comp = cLowrank then (o.auxB != unused) = bits else true)
    && tablesMatch d o

/-! ### Checks of the chapter -/

/-- The first of a list of checks that fails. -/
def firstFault : List (Bool × Status) → Option Status
  | [] => none
  | (bad, st) :: t => if bad then some st else firstFault t

/-- One after another. -/
def orElse (a : Option Status) (b : Unit → Option Status) : Option Status :=
  match a with
  | some st => some st
  | none => b ()

/-- A named optional descriptor. -/
def optDesc (d : Dev) (h : BitVec 16) : Option Desc := if h = unused then none else descOf d h

def optAny (k : Option Desc) (p : Desc → Bool) : Bool :=
  match k with
  | some k => p k
  | none => false

def resFormat (k : Desc) : Bool := k.fmt = fL48 || k.fmt = fL24

/-- Random bits of a RANDOM placement: format and count in host-assisted mode (R271), self-test and seed
in hardware mode (R162, R164). -/
def drawFault (d : Dev) (host : Option Desc) (count : Option Nat) : Option Status :=
  if hostMode d 6 then
    match host with
    | none => none
    | some k => if k.fmt != fBF16 || (match count with
        | some n => k.count != n
        | none => false) then some 0x010C else none
  else if d.aesFail then some 0x0506
  else if d.seed.isNone then some 0x0109 else none

/-- The host's code-length table (R309): its read, and R302. -/
def tableFault (d : Dev) (o : CompressOps) : Option Status :=
  if o.table = 0 then none
  else match sourceFault d o.table.toNat 128 with
    | some st => some st
    | none => if tableValid (tableLengths (load d o.table.toNat 128)) then none else some 0x010B

def tableCopy (d : Dev) (o : CompressOps) : Option (List Byte) :=
  if o.table = 0 then none else some (load d o.table.toNat 128)

/-- Parameter, rounding and LOWRANK factor (R267, R272, R274, R275, R282, R704) for rows of `n`. -/
def paramFault (d : Dev) (comp : Nat) (o : CompressOps) (n : Nat) : Option Status :=
  firstFault [
    (3 < comp, 0x0104),
    ((comp = cTopk || comp = cNone) && o.coding.getLsbD 1, 0x0104),
    (!paramOk comp o.parameter n, 0x0104),
    (comp = cLowrank && !optAny (optDesc d o.auxA) fun k =>
      k.rk = 2 && k.fmt = (if paramInt4 o.parameter then fINT4 else fINT8)
        && k.rowLen = paramR o.parameter && k.rows = n, 0x0104),
    (comp = cTopk && optAny (optDesc d o.auxB) fun k => k.rk != 2 || 4096 < rowByteCount k, 0x0104)]

/-- LOW views may not be named (R179). -/
def lowFault (d : Dev) (c : Cmd) : Option Status :=
  if (namedDescs c).any fun h => optAny (optDesc d h) (·.lowView) then some 0x011B else none

/-- The payload descriptor that a command gathers from. -/
def payloadOf (c : Cmd) : Option (BitVec 16) :=
  match compressorOf c with
  | some (comp, o) => if comp = cTopk && o.auxB != unused then some o.auxB else none
  | none => none

/-- Out of bounds in ERROR mode (R182); which rows of a payload are read, the indices decide (`payloadFault`). -/
def oobFault (d : Dev) (c : Cmd) : Option Status :=
  if (namedDescs c).any fun h => payloadOf c != some h && optAny (optDesc d h) errorOob then some 0x0118 else none

/-- The rows of a command's input, or that an add brings to a bucket from element `base` and row `row0` on, each
with its number. -/
def namedRows (h : BitVec 16) (x : Desc) (row0 base len : Nat) : List (Nat × RowSrc) :=
  (List.range x.rows).map fun i => (row0 + i, ⟨h, x, i, base + i * len, len⟩)

/-- What the sieve would choose of a row now, on a member without children. -/
def sieveChoice (d : Dev) (o : CompressOps) (e : Byte) (s : RowSrc) : List Nat :=
  match optDesc d o.residual with
  | some resd => selectTop (paramK o.parameter) 0 (wholeRow d e [] s resd 0)
  | none => []

/-- The payload rows of an ERROR-mode descriptor lie in bounds (R182, R266): those that the host's indices name, or
those that the sieve chooses; where children have a part in the choice, every row that it could choose (DEDUCED,
log 35). -/
def payloadFault (d : Dev) (comp : Nat) (o : CompressOps) (e : Byte) (leaf : Bool) (rows : List (Nat × RowSrc)) : Option Status :=
  if comp != cTopk then none
  else match optDesc d o.auxB with
    | none => none
    | some k =>
      let out := fun (j : Nat) => 0 < oobCount k (j * k.rowLen) k.rowLen
      let outside := match optDesc d o.auxA with
        | some a => rows.any fun x => (hostIndices d a x.1).any fun j => out j.toNat
        | none => (k.anyOob || rows.any fun x => decide (k.rows < x.2.len))
            && (!leaf || rows.any fun x => (sieveChoice d o e x.2).any out)
      if k.errorMode && outside then some 0x0118 else none

/-- A packed descriptor created under another member number (R203). -/
def staleFault (d : Dev) (c : Cmd) : Option Status :=
  if !isDestroy c && (usedDescs d c).any fun h => optAny (optDesc d h) fun k => k.packed && k.member != d.join.member then
    some 0x011E else none

/-- The host's index rows `row0` to `row0 + rows − 1` for rows of `n` elements (R181, R269). -/
def indexRowsFault (d : Dev) (comp : Nat) (o : CompressOps) (row0 rows n : Nat) : Option Status :=
  if comp != cTopk then none
  else match optDesc d o.auxA with
    | none => none
    | some k =>
      if elemsPoisoned d k (row0 * k.rowLen) (rows * k.rowLen) then some 0x0505
      else if k.rows < row0 + rows || (List.range rows).any fun i => !indicesOk (hostIndices d k (row0 + i)) n then some 0x010A
      else none

/-- The form of the host's indices (R268): L48, k to a row. -/
def indexFormFault (d : Dev) (comp : Nat) (o : CompressOps) : Option Status :=
  if comp = cTopk && optAny (optDesc d o.auxA) fun k => k.fmt != fL48 || k.rowLen != paramK o.parameter then some 0x010A else none

/-- Host indices of every row of a command's input (R268, R269). -/
def indexFault (d : Dev) (comp : Nat) (o : CompressOps) (rows n : Nat) : Option Status :=
  orElse (indexFormFault d comp o) fun _ =>
  orElse (if comp = cTopk && optAny (optDesc d o.auxA) fun k => k.rows != rows then some 0x010A else none) fun _ =>
  indexRowsFault d comp o 0 rows n

/-- Residual descriptors (R130, R132): formats, and as many elements as the input (DEDUCED, log 19). -/
def residualFault (d : Dev) (o : CompressOps) (count : Option Nat) : Option Status :=
  firstFault [
    (!optAny (optDesc d o.residual) resFormat, 0x0104),
    (match count with
      | some n => !optAny (optDesc d o.residual) fun k => k.count = n
      | none => false, 0x0104),
    (optAny (optDesc d o.residualOut) fun k => !optAny (optDesc d o.residual) fun r => r.fmt = k.fmt && r.count = k.count, 0x0104)]

/-- Bytes of the parcel at the sizes records are judged at, coded blocks at their worst (R317). -/
def parcelWorst (d : Dev) (comp : Nat) (o : CompressOps) (chunks : List (List Rec)) : Nat :=
  let pay := match optDesc d o.auxB with
    | some k => rowByteCount k
    | none => 0
  let gather := comp = cTopk && o.auxB != unused
  (chunks.map fun c =>
    let p := (c.map fun r => recordSize comp o.parameter r.count pay gather).foldl (· + ·) 0
    p + (if o.coding.getLsbD 0 then 16 * ceilDiv p 65536 else 0)).foldl (· + ·) 0

def gathersOps (comp : Nat) (o : CompressOps) : Bool := comp = cTopk && o.auxB != unused

def payloadLen (d : Dev) (comp : Nat) (o : CompressOps) : Nat :=
  if gathersOps comp o then match optDesc d o.auxB with
    | some k => rowByteCount k
    | none => 0
  else 0

/-- The chunks of a command over its input descriptor (R386). -/
def commandChunks (d : Dev) (comp : Nat) (o : CompressOps) (size : Nat) : Option (List (List Rec)) :=
  match descOf d o.input with
  | none => none
  | some k => packRows comp o.parameter (payloadLen d comp o) (gathersOps comp o) (o.coding.getLsbD 0) size 0 k.rows k.rowLen

/-- The member compresses alone, or has no children in the group of the command. -/
def compressesAlone (d : Dev) (c : Cmd) (h : Hdr) : Bool :=
  match c with
  | .reduceToOne _ => match groupOf d h.handle.toNat with
    | some g => g.children.isEmpty
    | none => true
  | _ => true

/-- Every check that the compress commands and REDUCE_TO_ONE share after those of R242. The spec gives their own checks
no order (DESIGN CHOICE, log 19). -/
def compressFault (d : Dev) (c : Cmd) (h : Hdr) (comp : Nat) (o : CompressOps) (size : Nat) : Option Status :=
  match descOf d o.input with
  | none => some 0x011A
  | some k =>
    orElse (lowFault d c) fun _ =>
    orElse (paramFault d comp o k.rowLen) fun _ =>
    orElse (residualFault d o (some k.count)) fun _ =>
    orElse (if (commandChunks d comp o size).isNone then some 0x0104 else none) fun _ =>
    orElse (oobFault d c) fun _ =>
    orElse (indexFault d comp o k.rows k.rowLen) fun _ =>
    orElse (payloadFault d comp o o.exponent (compressesAlone d c h) (namedRows o.input k 0 0 k.rowLen)) fun _ =>
    orElse (if stochasticOps comp o then drawFault d (optDesc d (if comp = cQuant then o.auxA else o.auxB)) (some k.count) else none) fun _ =>
    tableFault d o

/-! ### Residual stores (R39) -/

def zeroStore (d : Dev) (k : Desc) : Dev := padRun (writeRes d k 0 (List.replicate k.count 0)) k 0 k.count

/-- The first use of a store in hardware mode: it is kept, and starts at zero after a change of RESIDUAL
from host-assisted mode. -/
def freshStore (d : Dev) (h : BitVec 16) : Dev :=
  match descOf d h with
  | none => d
  | some k =>
    let known := d.resStores.filter fun e => sameStore e.desc k
    let zero := if known.isEmpty then d.resZero else known.all fun e => !e.fresh
    keepStore (if zero then zeroStore d k else d) k

/-- A command or bucket whose residuals the device keeps. -/
def touchStore (d : Dev) (modes : BitVec 10) (h : BitVec 16) : Dev := if modes.getLsbD 0 then d else freshStore d h

/-! ### Turns (R154, R246) -/

/-- The residual stores that compress operands name. -/
def opStores (d : Dev) (o : CompressOps) : List Desc := [o.residual, o.residualOut].filterMap (optDesc d)

/-- The residual stores a command names, by itself or through its bucket. -/
def storesOf (d : Dev) (c : Cmd) : List Desc :=
  match c with
  | .residualFlush b f s _ => (if f then (assoc b.toNat d.bucketStores).bind (descOf d) else optDesc d s).toList
  | .bucketAdd b _ | .bucketSeal b => match assoc b.toNat d.buckets with
    | some k => opStores d k.ops
    | none => []
  | c => match compressorOf c with
    | some (_, o) => opStores d o
    | none => []

def anyMeet (a b : List Desc) : Bool := a.any fun x => b.any (storesMeet x)

/-- The chunk has not yet made its residuals current (R131). -/
def beforeProof (w : Work) : Bool :=
  match w.stage with
  | .gather | .engine => true
  | _ => false

/-- An open bucket, other than the one the command adds to or seals, whose chunks have still to use one of
these stores (R154). -/
def bucketBusy (d : Dev) (c : Cmd) (ks : List Desc) : Bool :=
  let own := match c with
    | .bucketAdd b _ | .bucketSeal b => some b.toNat
    | _ => none
  d.buckets.any fun e => own != some e.1 && e.2.failed.isNone && anyMeet ks (opStores d e.2.ops)
    && (worksOf d (bucketOwner e.1)).any beforeProof

/-- An earlier command that has not completed names the same stream or the same residual store, or chunks of
a bucket have still to use that store. -/
def mustWait (d : Dev) (id : Nat) (h : Hdr) (c : Cmd) : Bool :=
  let ks := storesOf d c
  (d.running.any fun r => r.id < id &&
    ((namesStream c && namesStream r.cmd && r.hdr.handle = h.handle) || anyMeet ks (storesOf d r.cmd)))
    || bucketBusy d c ks

/-- The bucket a command opens or names, by itself or as the way to its residual store. -/
def bucketNamed (c : Cmd) : Option (BitVec 8) :=
  match c with
  | .bucketOpen o => some o.bucket
  | .residualFlush b true _ _ => some b
  | c => namesBucket c

def isFlush : Cmd → Bool
  | .residualFlush .. => true
  | _ => false

/-- An earlier command on the same bucket still waits for its own turn, or flushes the bucket's store (R246). -/
def bucketWait (d : Dev) (id : Nat) (c : Cmd) : Bool :=
  match bucketNamed c with
  | none => false
  | some b => d.running.any fun r => r.id < id && (r.wait = .turn || isFlush r.cmd) && bucketNamed r.cmd = some b

/-- A command starts with its chunks, or waits for its turn first. -/
def turnOr (d : Dev) (c : Caller) (cmd : Cmd) : Wait := if mustWait d d.nextId c.hdr cmd then .turn else .work

/-! ### Starting (R69: standalone chunks of 64 KiB, DEDUCED, log 15) -/

def standaloneSize : Nat := 65536

/-- Standalone chunks take a run of the mailbox's sequence. -/
def standaloneWorks (d : Dev) (n : Mbx) (owner : Nat) (jobs : List Job) : Dev :=
  let base := (mailbox d n).chunkSeq
  let ws := (List.range jobs.length).zip jobs |>.map fun e =>
    newWork d owner mailboxClass (BitVec.ofNat 16 n.val) (base + BitVec.ofNat 32 e.1) e.2 .engine
  withMbx { d with work := d.work ++ ws } n fun m => { m with chunkSeq := m.chunkSeq + BitVec.ofNat 32 jobs.length }

/-- TOPK, QUANT and LOWRANK. An ERROR-mode output is judged at the largest parcel the command can form
(log 35). -/
def startCompress (d : Dev) (c : Caller) (cmd : Cmd) (comp : Nat) (o : CompressOps) : Begin :=
  if o.compressor.toNat != comp then .fail 0x0104
  else match compressFault d cmd c.hdr comp o standaloneSize with
    | some st => .fail st
    | none =>
      let chunks := (commandChunks d comp o standaloneSize).getD []
      if optAny (optDesc d o.output) fun k => k.errorMode && k.imageLen < parcelWorst d comp o chunks then .fail 0x0118
      else
        let r := newRunning d c cmd (turnOr d c cmd)
        let d := touchStore d d.fpl.active o.residual
        .go (standaloneWorks d c.mbx r.id (chunks.map .compress))
          { r with table := tableCopy d o, chunks := chunks.length }

/-- RESIDUAL_FLUSH (R237, Table 5-9), once no earlier command on its bucket has still to run: the bucket's store is the
one its latest BUCKET_OPEN named. -/
def startResidualFlush (d : Dev) (c : Caller) (b : BitVec 8) (fromBucket : Bool) (source destination : BitVec 16) : Begin :=
  let src := if fromBucket then assoc b.toNat d.bucketStores else some source
  match src with
  | none => .fail 0x0103
  | some h =>
    match descOf d h, descOf d destination with
    | some s, some t =>
      if s.lowView || t.lowView then .fail 0x011B
      else if !resFormat s || t.fmt != s.fmt || t.count != s.count then .fail 0x0104
      else if errorOob s || errorOob t then .fail 0x0118
      else
        let cmd := Cmd.residualFlush b fromBucket source destination
        let r := newRunning d c cmd (turnOr d c cmd)
        .go (standaloneWorks d c.mbx r.id [.flush]) { r with chunks := 1 }
    | _, _ => .fail 0x011A

/-- MASK_GEN (R150): the output is INT8, one byte for 8 elements. -/
def startMaskGen (d : Dev) (c : Caller) (output threshold : BitVec 16) (step : Word) (random : BitVec 16) : Begin :=
  match descOf d output with
  | none => .fail 0x011A
  | some k =>
    if (lowFault d (.maskGen output threshold step random)).isSome then .fail 0x011B
    else if k.fmt != fINT8 then .fail 0x0104
    else
      let cmd := Cmd.maskGen output threshold step random
      match orElse (oobFault d cmd) fun _ => drawFault d (optDesc d random) (some (8 * k.count)) with
      | some st => .fail st
      | none =>
        let r := newRunning d c cmd .work
        let n := ceilDiv k.count standaloneSize
        let jobs := (List.range n).map fun i => Job.mask (standaloneSize * i) (min standaloneSize (k.count - standaloneSize * i))
        .go (standaloneWorks d c.mbx r.id jobs) { r with chunks := n }

/-! ### What their entries do -/

/-- Bit i of the mask (R150, R151). -/
def maskBit (d : Dev) (r : Running) (threshold : BitVec 16) (step : Word) (random : BitVec 16) (i : Nat) : Bool :=
  let u := if r.modes.getLsbD 6 then match descOf d random with
      | some k => readElem d k i
      | none => 0
    else match r.seed with
      | some s => drawU s r.hdr.layer.toNat r.hdr.operator.toNat step.toNat 0x10 i
      | none => 0
  u < threshold.toNat

def maskByte (d : Dev) (r : Running) (threshold : BitVec 16) (step : Word) (random : BitVec 16) (j : Nat) : Nat :=
  (List.range 8).foldl (fun a b => a + bitAt (maskBit d r threshold step random (8 * j + b)) b) 0

/-- Filled reads and dropped writes that a command has come to (R228). -/
def addOob (d : Dev) (owner filled dropped : Nat) : Dev :=
  updRunning d owner fun r => { r with filled := satAdd r.filled filled, dropped := satAdd r.dropped dropped }

/-- A MASK_GEN entry: mask bytes first … first + count − 1. -/
def runMask (d : Dev) (r : Running) (output threshold : BitVec 16) (step : Word) (random : BitVec 16)
    (first count : Nat) : Dev :=
  match descOf d output with
  | none => d
  | some k =>
    let vs := (List.range count).map fun i => maskByte d r threshold step random (first + i)
    let d := padRun (writeElems d k first vs) k first count
    let (d, filled) := if r.modes.getLsbD 6 then noteReads random (8 * first) (8 * count) (d, 0) else (d, 0)
    let (d, dropped) := noteWrites output first count (d, 0)
    addOob d r.id filled dropped

/-- RESIDUAL_FLUSH in one step (R237): copy, zero, and the store is empty. The zeroing counts no dropped
writes of its own (log 35). -/
def runFlush (d : Dev) (r : Running) (source destination : BitVec 16) : Dev :=
  match descOf d source, descOf d destination with
  | some s, some t =>
    let vs := (List.range s.count).map fun j => readElem d s j
    let d := padRun (writeElems d t 0 vs) t 0 s.count
    let d := zeroStore d s
    let (d, filled) := noteReads source 0 s.count ({ d with resStores := d.resStores.filter fun e => !sameStore e.desc s }, 0)
    let (d, dropped) := noteWrites destination 0 s.count (d, 0)
    addOob d r.id filled dropped
  | _, _ => d

/-- The parcel into the output descriptor: bytes beyond it are 0 (DEDUCED, log 15), bytes that it cannot
hold are dropped writes. -/
def writeParcel (d : Dev) (h : BitVec 16) (bs : List Byte) : Dev × Nat :=
  match descOf d h with
  | none => (d, 0)
  | some k =>
    let n := k.imageLen
    let excess := ceilDiv ((bs.length - n) * (if k.accessFmt = fINT4 then 2 else 1)) (max k.elemSize 1)
    let dropped := excess + imageOob k 0 n
    (noteOob (putImage d k 0 (fit n bs)) h 0 dropped, dropped)

end Sys2Proof.Machine
end

