-- ==== Sys2Proof/Machine/Alloc.lean ====
section
/-!
DEFINITION. Device memory in use and free: the runs ALLOC grants (R701) and the ranges the device takes
for itself (R393, R427, R438, R445), whose places the spec leaves open (log 21).
-/
namespace Sys2Proof.Machine

/-! ### Ranges in use -/

/-- Pool bytes of a tail page (R427). -/
def tailBytes (s : Stream) : Nat := roundUp (16 * s.bpp) 4096

/-- Pool bytes of a stored page (R427). -/
def pageBytes (p : Page) : Nat := roundUp p.len 256

/-- Pool pages of a stream in PAGES hardware mode. -/
def poolRanges (s : Stream) : List (Nat × Nat) :=
  if s.pageList.isEmpty then
    s.layers.flatMap fun l => (l.tail, tailBytes s) :: l.pages.map fun p => (p.addr, pageBytes p)
  else []

/-- (address, size) of everything a free run must avoid (R701). -/
def busyRanges (d : Dev) (hbm : Bool) : List (Nat × Nat) :=
  ((d.allocs.filter fun e => e.2.hbm = hbm).map fun e => (e.2.addr, e.2.size))
    ++ ((d.holds.filter fun h => isHbm h.2.1 = hbm).map fun h => (h.2.1, h.2.2))
    ++ (if hbm then
        (storeBase d, hbmTop - storeBase d) :: ((d.streams.flatMap fun e => poolRanges e.2)
          ++ d.incoming.flatMap fun i => i.stored.map fun e => (e.2.addr, pageBytes e.2))
      else ((List.range 64).filter (sliceUnbacked d)).map fun l => (l * sliceSize, sliceSize))

def regionBase (hbm : Bool) : Nat := if hbm then hbmBase else 0
def regionTop (hbm : Bool) : Nat := if hbm then hbmTop else scratchTop

def freeAt (busy : List (Nat × Nat)) (hbm : Bool) (a n : Nat) : Bool :=
  regionBase hbm ≤ a && a + n ≤ regionTop hbm && busy.all fun r => a + n ≤ r.1 || r.1 + r.2 ≤ a

/-- The lowest aligned free run of `n` bytes. -/
def lowestRun (busy : List (Nat × Nat)) (hbm : Bool) (n align : Nat) : Option Nat :=
  let cands := (regionBase hbm :: busy.map fun r => roundUp (r.1 + r.2) align).filter fun a => freeAt busy hbm a n
  cands.foldl (fun best a => match best with
    | some b => some (min a b)
    | none => some a) none

/-- A free run that the device takes for itself: which one is left open (log 21). -/
def takeRun (d : Dev) (hbm : Bool) (n align : Nat) : Option Nat × Dev :=
  let busy := busyRanges d hbm
  match lowestRun busy hbm n align with
  | none => (none, d)
  | some low =>
    let (k, d) := draw d
    let a := regionBase hbm + Config.choice k % ((regionTop hbm - regionBase hbm) / align) * align
    (some (if freeAt busy hbm a n then a else low), d)

/-- Tags of the ranges held: groups by handle, then bucket records, staged sets and handoffs. -/
def bucketTag (b : Nat) : Nat := 0x1000 + b
def stageTag (slot : Nat) : Nat := 0x1_0000 + slot
def handoffTag (stream : Nat) : Nat := 0x2_0000 + stream
def replaceTag (page : Nat) : Nat := 0x10_0000_0000 + page
/-- Pool space set aside for page `k` of a layer while a command fills it, and while an incoming handoff does. -/
def pageTag (stream layer k : Nat) : Nat := 0x100_0000_0000 + stream * 2 ^ 25 + layer * 2 ^ 17 + k
def incomingTag (stream layer k : Nat) : Nat := 0x4_0000_0000_0000 + pageTag stream layer k

/-- Hold `n` bytes of memory under a tag. -/
def holdRun (d : Dev) (tag : Nat) (hbm : Bool) (n align : Nat) : Option (Nat × Dev) :=
  match takeRun d hbm n align with
  | (some a, d) => some (a, { d with holds := d.holds ++ [(tag, a, n)] })
  | (none, _) => none

def heldRun (d : Dev) (tag : Nat) : Option (Nat × Nat) := (d.holds.find? fun h => h.1 = tag).map (·.2)

def releaseRun (d : Dev) (tag : Nat) : Dev := { d with holds := d.holds.filter fun h => h.1 != tag }

/-- A run of `n` bytes for every tag of the list, or none at all. -/
def holdRuns (hbm : Bool) (n align : Nat) : Dev → List Nat → Option Dev
  | d, [] => some d
  | d, t :: ts =>
    match holdRun d t hbm n align with
    | some (_, d) => holdRuns hbm n align d ts
    | none => none

def releaseRuns (d : Dev) (tags : List Nat) : Dev := { d with holds := d.holds.filter fun h => !tags.contains h.1 }

end Sys2Proof.Machine
end

