-- ==== Sys2Proof/Machine/Exchange.lean ====
section
/-!
DEFINITION. Groups, trees, REDUCE_TO_ONE, BCAST and buckets (chapter 9; sections 3.5 and 3.6): starting
their commands, what a neighbour's chunk must be, and how chunks advance.
-/
namespace Sys2Proof.Machine

/-! ### Trees (section 9.2) -/

def treeStoreSize : Nat := 262144

def loadedTree (d : Dev) (h : Nat) : Option (List TreeEntry) := assoc h d.trees

def treeFind (t : List TreeEntry) (m : BitVec 12) : Option TreeEntry := t.find? fun e => e.member = m

/-- Edges from a member up to the root, `fuel` at most. -/
def levelIn (t : List TreeEntry) : Nat → BitVec 12 → Option Nat
  | fuel, m =>
    match treeFind t m with
    | none => none
    | some e =>
      if e.root then some 0
      else match fuel with
        | 0 => none
        | fuel + 1 => (levelIn t fuel e.parent).map (· + 1)

/-- Does `a` lie at or below `m`? -/
def below (t : List TreeEntry) (m : BitVec 12) : Nat → BitVec 12 → Bool
  | fuel, a =>
    if a = m then true
    else match treeFind t a with
      | none => false
      | some e => if e.root then false else match fuel with
        | 0 => false
        | fuel + 1 => below t m fuel e.parent

def childrenOf (t : List TreeEntry) (m : BitVec 12) : List (BitVec 12) :=
  (t.filter fun e => !e.root && e.parent = m).map (·.member)

def hasDup : List (BitVec 12) → Bool
  | [] => false
  | a :: t => t.contains a || hasDup t

/-- R389 for entries whose reserved bits are 0. -/
def treeOk (t : List TreeEntry) : Bool :=
  !hasDup (t.map (·.member))
    && (t.filter (·.root)).length = 1
    && t.all (fun e => (e.root || (treeFind t e.parent).isSome)
        && (!e.altValid || ((treeFind t e.alternate).isSome && (e.root || e.alternate != e.parent)
            && !below t e.member 12 e.alternate)))
    && t.all (fun e => (levelIn t 12 e.member).isSome)
    && t.all fun e => (childrenOf t e.member).length ≤ (if e.root then 16 else 15)

def treeEntryOf (bs : List Byte) : TreeEntry where
  member := fieldBv 12 bs 0
  parent := fieldBv 12 bs 2
  root := bit (field bs 2 2) 15
  alternate := fieldBv 12 bs 4
  altValid := bit (field bs 4 2) 15

def treeReserved (bs : List Byte) : Bool :=
  field bs 0 2 / 4096 != 0 || field bs 2 2 / 4096 % 8 != 0 || field bs 4 2 / 4096 % 8 != 0 || field bs 6 2 != 0

/-- LOAD_TREE (R388, R389). -/
def startLoadTree (d : Dev) (c : Caller) (source : BitVec 48) (count : BitVec 16) : Begin :=
  let h := c.hdr.handle.toNat
  let n := count.toNat
  if 256 ≤ h then .fail 0x0103
  else if n < 2 || 4096 < n then .fail 0x0104
  else if (groupOf d h).isSome then .fail 0x0120
  else match sourceFault d source.toNat (8 * n) with
    | some st => .fail st
    | none =>
      let raw := (List.range n).map fun i => load d (source.toNat + 8 * i) 8
      let t := raw.map treeEntryOf
      if raw.any treeReserved || !treeOk t then .fail 0x0104
      else
        let others := ((d.trees.filter fun e => e.1 != h).map fun e => e.2.length).foldl (· + ·) 0
        if treeStoreSize < others + n then .fail 0x0207
        else .done { d with trees := assocSet h t d.trees } 0

/-! ### The derived tree (R391) -/

def linked (edges : List (BitVec 12 × BitVec 12)) (a b : BitVec 12) : Bool :=
  edges.any fun e => (e.1 = a && e.2 = b) || (e.1 = b && e.2 = a)

def insertAsc (a : BitVec 12) : List (BitVec 12) → List (BitVec 12)
  | [] => [a]
  | b :: t => if a.toNat < b.toNat then a :: b :: t else b :: insertAsc a t

def sortAsc : List (BitVec 12) → List (BitVec 12)
  | [] => []
  | a :: t => insertAsc a (sortAsc t)

/-- Members in breadth-first order, each with its level. -/
def bfs (edges : List (BitVec 12 × BitVec 12)) (ms : List (BitVec 12)) :
    Nat → List (BitVec 12 × Nat) → List (BitVec 12 × Nat) → List (BitVec 12 × Nat)
  | 0, seen, _ => seen
  | _, seen, [] => seen
  | fuel + 1, seen, (m, l) :: queue =>
    let new := (ms.filter fun x => linked edges m x && !(seen.any fun e => e.1 = x)).map fun x => (x, l + 1)
    bfs edges ms fuel (seen ++ new) (queue ++ new)

/-- Parents in visiting order; none when a member finds no parent with room. -/
def assignParents (edges : List (BitVec 12 × BitVec 12)) (order : List (BitVec 12 × Nat)) (root : BitVec 12) :
    List (BitVec 12 × Nat) → List TreeEntry → Option (List TreeEntry)
  | [], t => some t
  | (m, l) :: rest, t =>
    if m = root then assignParents edges order root rest (t ++ [⟨m, 0, true, 0, false⟩])
    else
      let room := (order.filter fun e => e.2 + 1 = l && linked edges m e.1).filter fun e =>
        (childrenOf t e.1).length < (if e.1 = root then 16 else 15)
      match room with
      | [] => none
      | p :: more => assignParents edges order root rest
          (t ++ [⟨m, p.1, false, (more.headD p).1, !more.isEmpty⟩])

/-- The tree that every member derives for these members from the era's topology. -/
def deriveTree (edges : List (BitVec 12 × BitVec 12)) (members : List (BitVec 12)) : Option (List TreeEntry) :=
  match sortAsc members with
  | [] => none
  | root :: rest =>
    let ms := root :: rest
    let order := bfs edges ms (ms.length + 1) [(root, 0)] [(root, 0)]
    if order.length != ms.length || order.any fun e => 12 < e.2 then none
    else assignParents edges order root order []

/-! ### OPEN_GROUP and CLOSE_GROUP -/

def chunkSizeOf (g : Group) : Nat := 4096 * 2 ^ g.sizeCode.toNat

/-- The tree in place for a handle (R391). -/
def treeFor (d : Dev) (h n : Nat) : Option (List TreeEntry) :=
  if hostMode d 3 then loadedTree d h
  else deriveTree d.join.edges (match loadedTree d h with
    | some t => t.map (·.member)
    | none => (List.range n).map (BitVec.ofNat 12 ·))

def hasDupPort : List Port → Bool
  | [] => false
  | a :: t => t.contains a || hasDupPort t

/-- Neighbours with their ports; none when one has no up port or two share one (R384, R390). -/
def nbrsOf (d : Dev) (ms : List (BitVec 12)) : Option (List Nbr) :=
  let ps := ms.map fun m => (m, portTo d m)
  if ps.any (·.2.isNone) || hasDupPort (ps.filterMap (·.2)) then none
  else some (ps.filterMap fun e => e.2.map fun p => ⟨e.1, p, 0, none⟩)

/-- The limit that a neighbour has granted already (R394). -/
def earlyGrant (d : Dev) (h : Nat) (n : Nbr) : Nbr := { n with grant := (assoc h (portAt d n.port).grants).getD 0 }

def forgetGrants (d : Dev) (h : Nat) : Dev :=
  { d with ports := vmap (fun x => { x with grants := assocDel h x.grants }) d.ports }

/-- OPEN_GROUP (R383–R393, R520). Operand ranges are checked first (DEDUCED, log 22). -/
def startOpenGroup (d : Dev) (c : Caller) (members : BitVec 16) (slots sizeCode : Byte) : Begin :=
  let h := c.hdr.handle.toNat
  let n := members.toNat
  if 256 ≤ h then .fail 0x0103
  else if n < 2 || 4096 < n || slots.toNat < 2 || 16 < slots.toNat || 6 < sizeCode.toNat then .fail 0x0104
  else if (groupOf d h).isSome then .fail 0x0120
  else if 256 ≤ d.groups.length then .fail 0x0201
  else match treeFor d h n with
    | none => .fail 0x0104
    | some t =>
      match treeFind t d.join.member with
      | none => .fail 0x0104
      | some me =>
        if t.length != n || t.any fun e => !d.join.members.contains e.member then .fail 0x0104
        else
          let up := if me.root then [] else [me.parent]
          let down := childrenOf t d.join.member
          match nbrsOf d (up ++ down) with
          | none => .fail 0x0507
          | some ns =>
            match holdRun d h false (slots.toNat * (down.length + 1) * (4096 * 2 ^ sizeCode.toNat)) 64 with
            | none => .fail 0x0205
            | some (_, d) =>
              let ns := ns.map (earlyGrant d h)
              let g : Group := {
                label := c.label
                opener := c.mbx
                slotsS := slots
                sizeCode := sizeCode
                tree := t
                derived := !hostMode d 3
                level := (levelIn t 12 d.join.member).getD 0
                parent := if me.root then none else ns.head?
                children := if me.root then ns else ns.tail
                nextSeq := 0
                slots := []
                slip := 0
                stalled := false
                faulted := none
                received := []
                slipSeen := []
                adopting := none
                granted := 0 }
              .done (forgetOnPorts (forgetGrants { d with groups := assocSet h g d.groups } h) false (BitVec.ofNat 16 h)) 0

/-- The group closes: slots, staging and chunks go (R387). The exponents last used in its buckets stay: only a reset
discards them (R163; log 36). -/
def closeGroup (d : Dev) (h : Nat) : Dev :=
  let d := dropWorks { d with groups := assocDel h d.groups } fun w => w.cls = groupClass && w.handle.toNat = h
  releaseRun (forgetOnPorts d false (BitVec.ofNat 16 h)) h

/-- Commands of the group that have not completed. -/
def groupBusy (d : Dev) (h : Nat) : Bool := d.running.any (cmdOfGroup d h)

/-- A bucket is open on the group. -/
def bucketOn (d : Dev) (h : Nat) : Bool := d.buckets.any fun e => e.2.group.toNat = h

/-- CLOSE_GROUP (R387). -/
def startCloseGroup (d : Dev) (c : Caller) : Begin :=
  let h := c.hdr.handle.toNat
  if bucketOn d h then .fail 0x0120
  else if groupBusy d h then .go d (newRunning d c .closeGroup .groupIdle)
  else .done (closeGroup d h) 0

/-! ### REDUCE_TO_ONE -/

def groupFaulted (d : Dev) (h : Nat) : Bool :=
  match groupOf d h with
  | some g => g.faulted.isSome
  | none => true

/-- The stage in which a chunk of the group begins on this member. -/
def reduceStage (g : Group) : Stage := if g.children.isEmpty then .engine else .gather

/-- Collective chunks take a run of the group's sequence (R385). -/
def groupWorks (d : Dev) (h owner : Nat) (jobs : List (Job × Stage)) : Dev :=
  match groupOf d h with
  | none => d
  | some g =>
    let ws := (List.range jobs.length).zip jobs |>.map fun e =>
      newWork d owner groupClass (BitVec.ofNat 16 h) (g.nextSeq + BitVec.ofNat 32 e.1) e.2.1 e.2.2
    withGroup { d with work := d.work ++ ws } h fun g => { g with nextSeq := g.nextSeq + BitVec.ofNat 32 jobs.length }

/-- A root names a result and no other member does (DEDUCED, log 22). -/
def outputMatches (g : Group) (o : CompressOps) : Bool := (o.output != unused) = g.parent.isNone

/-- REDUCE_TO_ONE (R397–R399). The draws of a stochastic compressor are checked on the root too, which compresses
nothing (R164; log 36). -/
def startReduce (d : Dev) (c : Caller) (o : CompressOps) : Begin :=
  let h := c.hdr.handle.toNat
  match groupOf d h with
  | none => .fail 0x0103
  | some g =>
    if g.faulted.isSome then .fail 0x0120
    else if !outputMatches g o then .fail 0x0104
    else
      let cmd := Cmd.reduceToOne o
      match compressFault d cmd c.hdr o.compressor.toNat o (chunkSizeOf g) with
      | some st => .fail st
      | none =>
        let shape := match descOf d o.input, optDesc d o.output with
          | some i, some k => k.count = i.count && k.rowLen = i.rowLen
          | _, none => true
          | none, _ => false
        if !shape then .fail 0x0104
        else
          let chunks := (commandChunks d o.compressor.toNat o (chunkSizeOf g)).getD []
          let r := newRunning d c cmd (turnOr d c cmd)
          let jobs := (List.range chunks.length).zip chunks |>.map fun e => (Job.reduce e.2 e.1, reduceStage g)
          let d := touchStore d d.fpl.active o.residual
          .go (groupWorks d h r.id jobs) { r with table := tableCopy d o, chunks := chunks.length, firstSeq := g.nextSeq }

/-! ### BCAST (section 9.5) -/

/-- R403: the same elements of the same width. -/
def bcastShapes (s t : Desc) : Bool :=
  s.count = t.count && s.imageLen = t.imageLen && s.elemSize = t.elemSize
    && ((s.fmt = fS16) = (t.fmt = fS16)) && (s.fmt != fS16 || s.rowLen = t.rowLen)

/-- (offset, length) of the chunks of image bytes `a` to `a + n − 1`. -/
def cutBytes (size : Nat) : Nat → Nat → Nat → List (Nat × Nat)
  | 0, _, _ => []
  | fuel + 1, a, n => if n = 0 then [] else (a, min size n) :: cutBytes size fuel (a + size) (n - size)

/-- Image bytes of elements `e` to `e + n − 1` as runs (offset, length): one, but for part of an S16 row, whose
elements and scales lie apart (R703). -/
def elemRuns (k : Desc) (e n : Nat) : List (Nat × Nat) :=
  if k.fmt = fINT4 then [(ceilDiv e 2, ceilDiv (e + n) 2 - ceilDiv e 2)]
  else if k.fmt != fS16 then [(e * k.elemSize, n * k.elemSize)]
  else
    let row := e / k.rowLen * s16RowBytes k
    if e % k.rowLen = 0 && n % k.rowLen = 0 then [(row, n / k.rowLen * s16RowBytes k)]
    else [(row + 2 * (e % k.rowLen), 2 * n), (row + 2 * k.rowLen + e % k.rowLen / 64, ceilDiv n 64)]

/-- The image bytes of owned block `i`, in contiguous runs (R191, R405). -/
def blockRuns (k : Desc) (block i : Nat) : List (Nat × Nat) :=
  let outer := k.size (k.rk - 1)
  let n := min block (outer - i * block)
  if k.transpose && k.rk = 2 then
    (List.range k.rows).flatMap fun r => elemRuns k (r * k.rowLen + i * block) n
  else
    let inner := k.count / outer
    elemRuns k (i * block * inner) (n * inner)

/-- Chunks of a broadcast from the owners: origin member, offset, length, in block order. -/
def ownerChunks (k : Desc) (t : OwnerTable) (size : Nat) : List (BitVec 12 × Nat × Nat) :=
  (List.range t.owners.length).flatMap fun i =>
    (blockRuns k t.block i).flatMap fun r =>
      (cutBytes size (r.2 + 1) r.1 r.2).map fun e => (t.owners.getD i 0, e.1, e.2)

def rootMember (g : Group) : BitVec 12 :=
  match g.tree.find? (·.root) with
  | some e => e.member
  | none => 0

/-- Write a chunk of the image into the destination: the device and the dropped writes. -/
def bcastWrite (d : Dev) (dst : BitVec 16) (offset : Nat) (bs : List Byte) : Dev :=
  match optDesc d dst with
  | none => d
  | some k =>
    let dropped := imageOob k offset bs.length
    noteOob (putImage d k offset bs) dst 0 dropped

/-- A broadcast chunk that starts here: its bytes, the write into the own destination (R404, R405). -/
def originate (d : Dev) (owner : Nat) (r : Running) (src dst : BitVec 16) (g : Group) (w : Work) : Dev :=
  match w.job, descOf d src with
  | .bcast index offset length origin, some k =>
    if imagePoisoned d k offset length then failOwner d owner 0x0505
    else
    let bs := imageSlice d k offset length
    let filled := imageOob k offset length
    let chunk := chunkBytes [] 0 0 1 0 255 0 (bcastDetail index origin offset r.hdr) bs
    let dropped := match optDesc d dst with
      | some t => imageOob t offset length
      | none => 0
    let d := bcastWrite (noteOob d src filled 0) dst offset bs
    let d := addOob d owner filled dropped
    let ports := (neighbours g).map (·.port)
    putWork d { w with chunk := chunk, stage := if ports.isEmpty then .done else .send ports, unacked := ports }
  | _, _ => d

/-- The owner table of a broadcast's source. -/
def bcastTable (d : Dev) (src : BitVec 16) : Option OwnerTable :=
  match optDesc d src with
  | some k => if k.ownerValid then assoc k.owner.toNat d.owners else none
  | none => none

/-- Bytes of the tensor that is broadcast. -/
def bcastImage (d : Dev) (src dst : BitVec 16) : Nat :=
  match optDesc d src, optDesc d dst with
  | some s, _ => s.imageLen
  | none, some t => t.imageLen
  | none, none => 0

/-- The chunks of a broadcast in sequence order: originating member, byte offset and length (R410–R412). -/
def bcastParts (d : Dev) (g : Group) (src dst : BitVec 16) (fromOwners : Bool) : List (BitVec 12 × Nat × Nat) :=
  let size := chunkSizeOf g - 64
  let image := bcastImage d src dst
  let whole := (cutBytes size (image + 1) 0 image).map fun e => (rootMember g, e.1, e.2)
  match bcastTable d src, optDesc d src with
  | some t, some k => if fromOwners then ownerChunks k t size else whole
  | _, _ => whole

/-- The member's own chunks read a poisoned line. -/
def bcastPoisoned (d : Dev) (src : BitVec 16) (parts : List (BitVec 12 × Nat × Nat)) : Bool :=
  match optDesc d src with
  | some k => (parts.filter fun (e : BitVec 12 × Nat × Nat) => e.1 = d.join.member).any fun (e : BitVec 12 × Nat × Nat) => imagePoisoned d k e.2.1 e.2.2
  | none => false

/-- The work items of a broadcast's chunks. -/
def bcastJobs (parts : List (BitVec 12 × Nat × Nat)) : List (Job × Stage) :=
  ((List.range parts.length).zip parts).map fun (e : Nat × BitVec 12 × Nat × Nat) =>
    (Job.bcast e.1 e.2.2.1 e.2.2.2 e.2.1, Stage.gather)

/-- BCAST (R403–R405). -/
def startBcast (d : Dev) (c : Caller) (src dst : BitVec 16) (fromOwners : Bool) : Begin :=
  let h := c.hdr.handle.toNat
  match groupOf d h with
  | none => .fail 0x0103
  | some g =>
    let me := d.join.member
    let root := g.parent.isNone
    let table := bcastTable d src
    if g.faulted.isSome then .fail 0x0120
    else if fromOwners && table.isNone then .fail 0x0104
    else
      let mine := match table with
        | some t => fromOwners && t.owners.contains me
        | none => false
      let all := match table with
        | some t => t.owners.all (· = me)
        | none => false
      if (if fromOwners then dst = unused && !all else if root then src = unused else dst = unused) then .fail 0x0104
      else
        let shapes := match optDesc d src, optDesc d dst with
          | some s, some t => bcastShapes s t
          | _, _ => true
        let reads := if fromOwners then mine else root
        if !shapes then .fail 0x0104
        else if (reads && !fromOwners && optAny (optDesc d src) errorOob) || optAny (optDesc d dst) errorOob then .fail 0x0118
        else
          let parts := bcastParts d g src dst fromOwners
          let r := newRunning d c (.bcast src dst fromOwners) .work
          if bcastPoisoned d src parts then .fail 0x0505
          else .go (groupWorks d h r.id (bcastJobs parts)) { r with chunks := parts.length, firstSeq := g.nextSeq }

/-! ### Buckets (section 9.6) -/

def bucketBytes (k : Desc) (elements : Nat) : Nat :=
  if k.accessFmt = fINT4 then elements / 2 else elements * k.elemSize

def expGet (l : List (Nat × Nat × Byte)) (g b : Nat) : Option Byte := (l.find? fun e => e.1 = g && e.2.1 = b).map (·.2.2)
def expDel (l : List (Nat × Nat × Byte)) (g b : Nat) : List (Nat × Nat × Byte) := l.filter fun e => !(e.1 = g && e.2.1 = b)
def expSet (l : List (Nat × Nat × Byte)) (g b : Nat) (x : Byte) : List (Nat × Nat × Byte) := (g, b, x) :: expDel l g b

/-- The exponent of this step (R139, R141): none when no notice has come. -/
def stepExponent (d : Dev) (g b : Nat) (given : Byte) : Option Byte :=
  if hostMode d 9 then some given
  else match expGet d.lastExponents g b with
    | none => some given
    | some _ => expGet d.exponents g b

/-- One residual rescaled from exponent e to e′ (R142): new value, spilled, changed, dust. A difference that is no
multiple of the unit of dust_sum is rounded half to even (DESIGN CHOICE, log 14). -/
def rescaleOne (k : Desc) (e e' : Int) (r : Int) : Int × Bool × Bool × Int :=
  let s := e - e'
  let x := scaleRound r s
  let y := saturate x (ledgerLo k.fmt) (ledgerHi k.fmt)
  let inexact := decide (s < 0) && r % 2 ^ (-s).toNat != 0
  (y, decide (y ≠ x), inexact || decide (y ≠ x), scaleRound r (s + 16) - y * 2 ^ 16)

/-- All residuals of a store rescaled: dust sum, dust count and spills of the step that opens. -/
def rescaleStore (d : Dev) (k : Desc) (e e' : Int) : Dev × Int × Nat × Nat :=
  let rs := (List.range k.count).map fun j => rescaleOne k e e' (readRes d k j)
  (padRun (writeRes d k 0 (rs.map (·.1))) k 0 k.count, sumInt (rs.map fun x => x.2.2.2), (rs.filter fun x => x.2.2.1).length,
    (rs.filter fun x => x.2.1).length)

/-- The 64-byte area of a balance record (Table 3-4). -/
def recordBytes (r : BalRecord) : List Byte :=
  leBytes 8 r.input.toNat ++ leBytes 8 r.transmitted.toNat ++ leBytes 8 r.residualChange.toNat ++ leBytes 8 r.lost.toNat
    ++ leBytes 8 r.dustSum.toNat ++ leBytes 4 r.dustCount.toNat ++ leBytes 2 r.spills.toNat ++ [r.exponent, r.flags]

def writeRecord (d : Dev) (b : Nat) : Dev :=
  match assoc b d.buckets with
  | some k => store d k.recordAddr (recordBytes k.record)
  | none => d

def withBucket (d : Dev) (b : Nat) (f : Bucket → Bucket) : Dev := { d with buckets := assocMod b f d.buckets }

/-- The space of a bucket's record: kept from its first opening (R137; DEDUCED, log 21). -/
def recordRun (d : Dev) (b : Nat) : Option (Nat × Dev) :=
  match heldRun d (bucketTag b) with
  | some (a, _) => some (a, d)
  | none => holdRun d (bucketTag b) false 48 64

/-- The step's exponent is not the one at which the store's residuals were formed. -/
def mustRescale (d : Dev) (h b : Nat) (e : Byte) : Bool :=
  match expGet d.lastExponents h b with
  | some old => old != e && !hostMode d 0
  | none => false

/-- The host's random bits of a stochastic compressor. -/
def bitsOf (comp : Nat) (o : CompressOps) : BitVec 16 := if comp = cQuant then o.auxA else o.auxB

/-- Checks of BUCKET_OPEN after those of R242 and of its group and bucket, but for the host's table. The draws of
a stochastic compressor are checked on the root too (R164; log 36). What the bucket's descriptors hold out of bounds,
the adds that reach it are checked for (`bucketOob`). -/
def bucketFault (d : Dev) (o : CompressOps) (size : Nat) : Option Status :=
  let comp := o.compressor.toNat
  let n := match optDesc d o.auxA with
    | some k => if comp = cLowrank then k.rows else 64
    | none => 64
  orElse (lowFault d (.bucketOpen o)) fun _ =>
  orElse (paramFault d comp o n) fun _ =>
  orElse (residualFault d o none) fun _ =>
  orElse (firstFault [
    (optAny (optDesc d o.residual) (fun k => k.rk != 1), 0x0104),
    (optAny (optDesc d o.output) (fun k => k.rk != 1), 0x0104),
    ((splitRow comp o.parameter (payloadLen d comp o) (gathersOps comp o) (o.coding.getLsbD 0) size n).isNone, 0x0104)]) fun _ =>
  orElse (indexFormFault d comp o) fun _ =>
  if stochasticOps comp o then drawFault d (optDesc d (bitsOf comp o)) none else none

/-- What a rescale comes to: dust, changed elements and spills (R142), and the elements out of bounds (R183). -/
structure Rescaled where
  dust : Int
  changed : Nat
  spills : Nat
  outside : Nat

/-- The residuals of the bucket's store are brought to the exponent in force when it has changed (R41, R140), with
each filled read and dropped write counted (R183, R186). -/
def rescaleBucket (d : Dev) (h b : Nat) (o : CompressOps) (e : Byte) : Dev × Rescaled :=
  match expGet d.lastExponents h b, descOf d o.residual with
  | some old, some k =>
    if old != e && !hostMode d 0 then
      let (d, dust, changed, spills) := rescaleStore d k old.toInt e.toInt
      let n := oobCount k 0 k.count
      (noteOob d o.residual n n, ⟨dust, changed, spills, n⟩)
    else (d, ⟨0, 0, 0, 0⟩)
  | _, _ => (d, ⟨0, 0, 0, 0⟩)

/-- The device once the lost elements of a residual store are 0; none when none is lost (R161). -/
def lostStore (d : Dev) (h : BitVec 16) : Option Dev :=
  (descOf d h).bind fun k => if elemsPoisoned d k 0 k.count then some (scrubRes d k 0 k.count) else none

/-- A bucket just opened (R239, Table 3-4). Its chunks draw under the key in force now, whatever SET_SEED brings before
the seal (R155; DESIGN CHOICE, log 36). -/
def newBucket (d : Dev) (c : Caller) (o : CompressOps) (table : Option (List Byte)) (g : Group) (e : Byte) (addr : Nat)
    (dust : Int) (count spills : Nat) : Bucket where
  group := BitVec.ofNat 8 c.hdr.handle.toNat
  ops := o
  label := c.label
  hdr := c.hdr
  exponent := e
  added := []
  elements := 0
  rows := 0
  bytes := 0
  cutRows := 0
  chunks := 0
  sealing := false
  record := ⟨0, 0, 0, 0, BitVec.ofInt 64 dust, satAdd 0 count, satAdd 0 spills, e, if g.parent.isNone then 1 else 0⟩
  recordAddr := addr
  bmax := 0
  spillsOut := 0
  late := false
  waiting := []
  modes := d.fpl.active
  seed := d.seed
  table := table
  chosen := []
  failed := none

/-- A bucket opens on the record at `addr` with the exponent `e`. -/
def openBucket (d : Dev) (c : Caller) (o : CompressOps) (table : Option (List Byte)) (g : Group) (e : Byte) (addr : Nat) : Dev :=
  let h := c.hdr.handle.toNat
  let b := o.bucket.toNat
  let (d, x) := rescaleBucket (touchStore d d.fpl.active o.residual) h b o e
  writeRecord { d with
    buckets := assocSet b (newBucket d c o table g e addr x.dust x.changed x.spills) d.buckets
    bucketStores := assocSet b o.residual d.bucketStores
    lastExponents := expSet d.lastExponents h b e
    exponents := expDel d.exponents h b } b

/-- What BUCKET_OPEN reports (R183, R228): the store's elements out of bounds that the rescale has read and written. -/
def openResult (d : Dev) (c : Caller) (o : CompressOps) (e : Byte) : BitVec 96 :=
  let n := (rescaleBucket d c.hdr.handle.toNat o.bucket.toNat o e).2.outside
  result [(20, 4, n), (24, 4, n)]

/-- The code-length table of a BUCKET_OPEN: the copy taken when it started, or one taken and checked now (R309). -/
def openTable (d : Dev) (o : CompressOps) (held : Option Running) : Except Status (Option (List Byte)) :=
  match held, tableFault d o with
  | some r, _ => .ok r.table
  | none, some st => .error st
  | none, none => .ok (tableCopy d o)

/-- BUCKET_OPEN (R130, R139–R142, R406); `held` is the command itself when it has waited for its turn. -/
def startBucketOpen (d : Dev) (c : Caller) (o : CompressOps) (held : Option Running) : Begin :=
  let h := c.hdr.handle.toNat
  let b := o.bucket.toNat
  match groupOf d h with
  | none => .fail 0x0103
  | some g =>
    if 64 ≤ b then .fail 0x0103
    else if (assoc b d.buckets).isSome || g.faulted.isSome then .fail 0x0120
    else if 64 ≤ d.buckets.length then .fail 0x0202
    else if !outputMatches g o then .fail 0x0104
    else match bucketFault d o (chunkSizeOf g), openTable d o held with
      | some st, _ | none, .error st => .fail st
      | none, .ok table =>
        match stepExponent d h b o.exponent with
        | none => .fail 0x0305
        | some e =>
          if mustRescale d h b e && optAny (optDesc d o.residual) errorOob then .fail 0x0118
          else if mustWait d d.nextId c.hdr (.bucketOpen o) then .go d { newRunning d c (.bucketOpen o) .turn with table := table }
          else match (if mustRescale d h b e then lostStore d o.residual else none) with
            | some d => .ended d 0x0505 0
            | none => match recordRun d b with
              | none => .fail 0x0205
              | some (addr, d) => .done (openBucket d c o table g e addr) (openResult d c o e)

/-- The chunks that are full, and the records that wait for more (R408): the last chunk is partial while the
record of a row of 64 elements would still fit. -/
def fullChunks (sizeOf : Rec → Nat) (size : Nat) (coded : Bool) (l : List (List Rec)) : List (List Rec) × List Rec :=
  let last := l.getLastD []
  let used := (last.map sizeOf).foldl (· + ·) 0
  if last.isEmpty || chunkFits (used + sizeOf ⟨0, 0, 64⟩) size coded then (l.dropLast, last) else (l, [])

/-- Chunks of a bucket are planned as their rows are complete; all of them at the seal. -/
def cutBucket (d : Dev) (b : Nat) (more : List Rec) (all : Bool) : Dev :=
  match assoc b d.buckets with
  | none => d
  | some k =>
    match groupOf d k.group.toNat with
    | none => d
    | some g =>
      let comp := k.ops.compressor.toNat
      let pay := payloadLen d comp k.ops
      let sizeOf := fun (r : Rec) => recordSize comp k.ops.parameter r.count pay (gathersOps comp k.ops)
      let coded := k.ops.coding.getLsbD 0
      let packed := packRecs sizeOf (chunkSizeOf g) coded [] 0 (k.waiting ++ more)
      let (full, rest) := if all then (packed, []) else fullChunks sizeOf (chunkSizeOf g) coded packed
      let jobs := (List.range full.length).zip full |>.map fun e => (Job.reduce e.2 (k.chunks + e.1), reduceStage g)
      groupWorks (withBucket d b fun k => { k with waiting := rest, chunks := k.chunks + full.length })
        k.group.toNat (bucketOwner b) jobs

/-- The bucket of BUCKET_ADD and BUCKET_SEAL: open, of the caller's label, its group in order (R239,
R409, R421). -/
def bucketGate (d : Dev) (b : BitVec 8) : Option Status :=
  match assoc b.toNat d.buckets with
  | none => some 0x0120
  | some k => if k.sealing then some 0x0120 else none

/-- Records that a tensor of padded rows adds to a bucket (Table 6-2, R408). -/
def addedRecords (k : Bucket) (x : Desc) (rs : List (Nat × Nat)) : List Rec :=
  (List.range x.rows).flatMap fun i => rs.map fun e => ⟨k.rows + i, e.1, e.2⟩

/-- A descriptor joins a bucket: its rows follow those added before, and full chunks are cut (R407, R408). -/
def addToBucket (d : Dev) (b : Nat) (k : Bucket) (h : BitVec 16) (x : Desc) (rs : List (Nat × Nat)) : Dev :=
  let add := x.rows * roundUp x.rowLen 64
  let d := withBucket d b fun k => { k with
    added := k.added ++ [(h, k.elements)]
    elements := k.elements + add
    rows := k.rows + x.rows
    bytes := k.bytes + bucketBytes x add }
  cutBucket d b (addedRecords k x rs) false

/-- The elements of the bucket's ERROR-mode descriptors that the rows of an add reach (R182): residuals, result and
random bits where the rows lie, the rows of host indices, a factor as a whole. -/
def bucketOob (d : Dev) (k : Bucket) (x : Desc) : Bool :=
  let comp := k.ops.compressor.toNat
  let n := x.rows * roundUp x.rowLen 64
  let out := fun (h : BitVec 16) (at_ len : Desc → Nat) => optAny (optDesc d h) fun a => a.errorMode && 0 < oobCount a (at_ a) (len a)
  let flat := fun (h : BitVec 16) => out h (fun _ => k.elements) (fun _ => n)
  flat k.ops.residual || flat k.ops.residualOut || flat k.ops.output
    || (stochasticOps comp k.ops && k.modes.getLsbD 6 && flat (bitsOf comp k.ops))
    || (comp = cTopk && out k.ops.auxA (fun a => k.rows * a.rowLen) (fun a => x.rows * a.rowLen))
    || (comp = cLowrank && optAny (optDesc d k.ops.auxA) errorOob)

/-- What the host supplies for the rows that an add brings (R181, R269, R182, R266): index rows, and a payload that
holds what they, or the sieve, choose. -/
def addedFault (d : Dev) (k : Bucket) (h : BitVec 16) (x : Desc) : Option Status :=
  let comp := k.ops.compressor.toNat
  let leaf := (groupOf d k.group.toNat).any fun g => g.children.isEmpty
  orElse (indexRowsFault d comp k.ops k.rows x.rows x.rowLen) fun _ =>
  payloadFault d comp k.ops k.exponent leaf (namedRows h x k.rows k.elements (roundUp x.rowLen 64))

/-- BUCKET_ADD (R239, R407, R408). The bucket's bytes count the pad of its rows (log 36). -/
def startBucketAdd (d : Dev) (_c : Caller) (b : BitVec 8) (h : BitVec 16) : Begin :=
  match bucketGate d b, assoc b.toNat d.buckets, descOf d h with
  | some st, _, _ => .fail st
  | none, some k, some x =>
    if groupFaulted d k.group.toNat then .fail 0x0120
    else
      let comp := k.ops.compressor.toNat
      let npad := roundUp x.rowLen 64
      let add := x.rows * npad
      let size := match groupOf d k.group.toNat with
        | some g => chunkSizeOf g
        | none => 0
      let total := k.elements + add
      let fits := fun (h : BitVec 16) => match optDesc d h with
        | some r => decide (total ≤ r.count)
        | none => true
      let split := splitRow comp k.ops.parameter (payloadLen d comp k.ops) (gathersOps comp k.ops) (k.ops.coding.getLsbD 0) size npad
      let bits := stochasticOps comp k.ops && k.modes.getLsbD 6
      if x.lowView then .fail 0x011B
      else if errorOob x || bucketOob d k x then .fail 0x0118
      else if comp = cLowrank && optAny (optDesc d k.ops.auxA) (fun f => f.rows != npad) then .fail 0x0104
      else if 256 * mib < k.bytes + bucketBytes x add || !fits k.ops.residual || !fits k.ops.residualOut || !fits k.ops.output then
        .fail 0x0122
      else if bits && !fits (bitsOf comp k.ops) then .fail 0x010C
      else match split, addedFault d k h x with
        | none, _ => .fail 0x0104
        | some _, some st => .fail st
        | some rs, none => .done (addToBucket d b.toNat k h x rs) (result [(20, 4, k.bytes + bucketBytes x add)])
  | none, _, none => .fail 0x011A
  | none, none, some _ => .fail 0x0120

/-- BUCKET_SEAL begins (R409, R421): the last chunk is cut; completion waits for the chunks. -/
def startBucketSeal (d : Dev) (c : Caller) (b : BitVec 8) : Begin :=
  match bucketGate d b with
  | some st => .fail st
  | none =>
    let d := withBucket (cutBucket d b.toNat [] true) b.toNat fun k => { k with sealing := true }
    .go d (newRunning d c (.bucketSeal b) .bucketSeal)

/-- The next exponent of the root (R140). -/
def nextExponent (e : Byte) (bmax : Nat) : Byte :=
  if bmax = 0 then e
  else BitVec.ofInt 8 (saturate (saturate (e.toInt + bmax - 44) (e.toInt - 16) (e.toInt + 16)) (-128) 127)

/-- The root derives the next exponent and tells the members, neighbour by neighbour (R141, R339). -/
def sendExponent (d : Dev) (h b : Nat) (e : Byte) : Dev :=
  match groupOf d h with
  | none => d
  | some g => g.children.foldl (fun d n =>
      sendVc1 d n.port 0x13 false (BitVec.ofNat 16 h) 0 0 (beBytes 2 h ++ [BitVec.ofNat 8 b, e])) d

/-- A sealed bucket whose chunks are done closes (R409, R140, R141). -/
def sealEnd (d : Dev) (b : Nat) (r : Running) : Dev :=
  match assoc b d.buckets with
  | none => finishRunning d r 0x0120 0
  | some k =>
    match k.failed with
    | some st => finishRunning (dropBucket d b) { r with late := false } st 0
    | none =>
      let h := k.group.toNat
      let root := match groupOf d h with
        | some g => g.parent.isNone
        | none => false
      let next := nextExponent k.exponent k.bmax
      let d := writeRecord d b
      let d := if root then sendExponent { d with exponents := expSet d.exponents h b next } h b next else d
      finishRunning (dropBucket d b) { r with late := r.late || k.late } 0
        (result [(20, 6, k.recordAddr), (28, 4, k.spillsOut.toNat)])

/-! ### What a neighbour's chunk must be (R402, R134, R277) -/

def chunkKind (bs : List Byte) : Nat := field bs 26 1
def chunkForm (bs : List Byte) : Nat := field bs 27 1
def chunkIndex (bs : List Byte) : Nat := field bs 40 4

/-- A port leads to a child of the group. -/
def childPort (g : Group) (p : Port) : Bool := g.children.any fun n => n.port = p

/-- The own chunk of a sequence differs from what a neighbour sent, a child or not. -/
def chunkDiffers (d : Dev) (g : Group) (fromChild : Bool) (w : Work) (bs : List Byte) : Bool :=
  match w.job with
  | .reduce _ index =>
    match ctxOf d w.owner with
    | none => false
    | some c =>
      !fromChild || chunkKind bs != 0 || chunkForm bs % 4 != c.comp || field bs 28 1 != bucketByte c
        || chunkIndex bs != index || field bs 44 4 != c.ops.step.toNat
  | .bcast index offset length origin =>
    chunkKind bs != 1 || chunkForm bs % 4 != 0 || field bs 28 1 != 255 || chunkIndex bs != index
      || field bs 50 6 != offset || bs.length != 64 + length || field bs 48 2 != origin.toNat
      || (origin = rootMember g && fromChild)
  | _ => true

/-- Payload of a chunk as plain records; none on a codec format error. -/
def plainPayload (bs : List Byte) : Option (List Byte) :=
  if bit (chunkForm bs) 2 then decodeBlocks (bs.length + 1) (bs.drop 64) else some (bs.drop 64)

/-- The records of a chunk under a context, none when they cannot be read (R280). -/
def recordsOf (d : Dev) (c : Ctx) (parcel : List Byte) : Option (List ReadRec) :=
  let f := factorOf d c
  readRecords c.comp c.ops.parameter (payloadRowOf d c) (gathers c) f.1 f.2 (parcel.length + 1) parcel

/-- A context for records of which only the compressor is known. -/
def looseCtx (comp : Nat) : Ctx where
  comp := comp
  ops := ⟨0, 0, unused, unused, unused, unused, unused, unused, 0, 0, 0, 0, 0⟩
  hdr := ⟨0, 0, 0, 0, 0, 0⟩
  exponent := 0
  modes := 0
  seed := none
  table := none
  bucket := none
  added := []
  chosen := []

/-- The records of a parcel without payload rows, when as many as the chunk says make up all of it: those of a chunk
that gathers do not (R278, R279; DEDUCED, log 24). -/
def plainRecords (d : Dev) (c : Ctx) (bs parcel : List Byte) : Option (List ReadRec) :=
  match recordsOf d c parcel with
  | some l => if l.length = field bs 32 4 then some l else none
  | none => none

/-- Balance check of a received chunk (R134) with what this member knows: none when it must wait for the own
command (LOWRANK, or TOPK that gathers, before it starts). A chunk of another compressor than the own command's is
R402's. -/
def balanceCheck (d : Dev) (own : Option Ctx) (bs parcel : List Byte) : Option Bool :=
  let comp := chunkForm bs % 4
  let t := (balanceOf bs).1
  match own with
  | some c =>
    if comp != c.comp then some true
    else match recordsOf d c parcel with
      | some l => some (sumsTo l t)
      | none => some false
  | none =>
    if comp = cLowrank then none
    else if comp = cTopk then (plainRecords d (looseCtx comp) bs parcel).map fun l => sumsTo l t
    else
      let p : Word := if comp = cQuant then BitVec.ofNat 32 (field parcel 12 4) else 0
      match recordsOf d { looseCtx comp with ops := { (looseCtx comp).ops with parameter := p } } parcel with
      | some l => some (sumsTo l t)
      | none => some false

/-! ### Advancing gathered chunks -/

def rxOf (g : Group) (p : Port) (seq : BitVec 32) : Option RxChunk := g.received.find? fun x => x.port = p && x.seq = seq

/-- The child's chunks count from this sequence on. -/
def countsFrom (n : Nbr) (seq : BitVec 32) : Bool :=
  match n.since with
  | some f => !seqBefore seq f
  | none => true

/-- Every child's chunk is held, plain and checked. -/
def childrenReady (g : Group) (seq : BitVec 32) : Bool :=
  g.children.all fun n => !countsFrom n seq || match rxOf g n.port seq with
    | some x => x.plain && x.unchecked.isNone
    | none => false

/-- Every child's chunk is held and checked (Table 9-2). -/
def childrenHeld (g : Group) (seq : BitVec 32) : Bool :=
  g.children.all fun n => !countsFrom n seq || (rxOf g n.port seq).any fun x => x.unchecked.isNone

/-- Sequences of the owner's chunks that hold records of the row, and whether records of it still wait in
the bucket. -/
def rowSeqs (d : Dev) (owner row : Nat) : List (BitVec 32) × Bool :=
  ((worksOf d owner).filterMap fun w => match w.job with
    | .reduce recs _ => if recs.any fun r => r.row = row then some w.seq else none
    | _ => none,
   bucketOwner 0 ≤ owner && match assoc (owner - bucketOwner 0) d.buckets with
    | some k => k.waiting.any fun r => r.row = row
    | none => false)

/-- The number of records that a row of a command or bucket is cut into (R278). -/
def rowRecordCount (d : Dev) (g : Group) (c : Ctx) (row : Nat) : Nat :=
  match rowSrc d c row with
  | some s => ((splitRow c.comp c.ops.parameter (payloadRowOf d c) (gathers c) (c.ops.coding.getLsbD 0) (chunkSizeOf g) s.len).getD []).length
  | none => 0

/-- The member's S slots hold every chunk of the row at once, so that it selects over the whole row (R263, R392;
DEDUCED, log 15). -/
def holdsRow (d : Dev) (g : Group) (c : Ctx) (row : Nat) : Bool :=
  g.children.isEmpty || rowRecordCount d g c row ≤ g.slotsS.toNat

/-- Rows of the records whose selection must still be made over the whole row (R263). -/
def rowsToSelect (d : Dev) (g : Group) (c : Ctx) (owner : Nat) (recs : List Rec) : List Nat :=
  if c.comp != cTopk || c.ops.auxA != unused || g.parent.isNone || g.children.isEmpty then []
  else ((recs.map (·.row)).eraseDups).filter fun row =>
    let s := rowSeqs d owner row
    (s.2 || 1 < s.1.length) && holdsRow d g c row && (assoc row c.chosen).isNone

/-- The chunk of a member with children may run (R397), and so may the selection over its rows (R263). -/
def hopReady (d : Dev) (g : Group) (w : Work) (recs : List Rec) : Bool :=
  childrenReady g w.seq && match ctxOf d w.owner with
    | none => true
    | some c => (rowsToSelect d g c w.owner recs).all fun row =>
      let s := rowSeqs d w.owner row
      !s.2 && s.1.all fun q => childrenReady g q

/-- A gathered broadcast chunk is written and goes on to the other neighbours (R404, R405). -/
def forwardBcast (d : Dev) (w : Work) (x : RxChunk) (g : Group) (r : Running) (dst : BitVec 16) (fromOwners : Bool) : Dev :=
  match w.job with
  | .bcast _ offset length _ =>
    let dropped := match optDesc d dst with
      | some t => imageOob t offset length
      | none => 0
    let d := addOob (bcastWrite d dst offset (x.bytes.drop 64)) r.id 0 dropped
    let dests := if fromOwners then (neighbours g).filter fun n => n.port != x.port else g.children
    let ports := dests.map (·.port)
    let d := withGroup d w.handle.toNat fun g => { g with received := g.received.filter fun y => !(y.port = x.port && y.seq = x.seq) }
    let w := { w with chunk := x.bytes, unacked := ports }
    if ports.isEmpty then toStage (putWork d w) w .done
    else setSlot (putWork d { w with stage := .send ports }) w.handle.toNat w.seq .held
  | _ => d

/-- One gathering chunk moves on if it can (R392, R397, R402, R404). -/
def advanceWork (d : Dev) (w : Work) : Dev :=
  if w.stage != .gather || w.cls != groupClass || !ownerLive d w.owner then d
  else match groupOf d w.handle.toNat with
    | none => d
    | some g =>
      match w.job with
      | .reduce recs _ =>
        let d := if slotOf g w.seq = .gather && childrenHeld g w.seq then setSlot d w.handle.toNat w.seq .compute else d
        if hopReady d g w recs then putWork d { w with stage := .engine } else d
      | .bcast _ _ _ origin =>
        match runningOf d w.owner with
        | some r =>
          match r.cmd with
          | .bcast src dst own =>
            if origin = d.join.member then
              (if slotReady d w.handle.toNat g w.seq then originate d w.owner r src dst g w else d)
            else match g.received.find? fun x => x.seq = w.seq with
              | some x => forwardBcast d w x g r dst own
              | none => d
          | _ => d
        | none => d
      | _ => d

def advanceAll (d : Dev) : Dev := (d.work.filter fun w => w.stage = .gather).foldl advanceWork d

end Sys2Proof.Machine
end

