-- ==== Sys2Proof/Machine/Streams.lean ====
section
/-!
DEFINITION. KV streams (chapter 10): pages, tail pages, the host-held filter, the window, the stream
commands of Table 5-11 but KV_HANDOFF, and what their page entries do.
-/
namespace Sys2Proof.Machine

/-! ### Geometry (R425–R428) -/

def streamOf (d : Dev) (h : Nat) : Option Stream := assoc h d.streams
def withStream (d : Dev) (h : Nat) (f : Stream → Stream) : Dev := { d with streams := assocMod h f d.streams }

def Layer.empty : Layer := ⟨0, 0, false, 0, []⟩
def layerOf (s : Stream) (l : Nat) : Layer := s.layers.getD l .empty

def setLayer (l : Nat) (f : Layer → Layer) (s : Stream) : Stream :=
  { s with layers := s.layers.set l (f (layerOf s l)) }
def withLayer (d : Dev) (h l : Nat) (f : Layer → Layer) : Dev := withStream d h (setLayer l f)

def pageSize (s : Stream) : Nat := 16 * s.bpp
/-- Pages of one layer in the page list (R428). -/
def pagesPerLayer (s : Stream) : Nat := ceilDiv s.maxPositions 16
/-- The range a page may take at U + 16 bytes per block (R317, R428). -/
def pageWorst (s : Stream) : Nat := pageSize s + 16 * ceilDiv (pageSize s) 65536
def hostPages (s : Stream) : Bool := !s.pageList.isEmpty

def listedPage (s : Stream) (l k : Nat) : Option Nat :=
  if k < pagesPerLayer s then s.pageList[l * pagesPerLayer s + k]? else none

/-- Where the tail page of a layer is held; none past the end of a page list (DEDUCED, log 23). -/
def tailAddr (s : Stream) (l : Nat) : Option Nat :=
  if hostPages s then listedPage s l ((layerOf s l).g / 16) else some (layerOf s l).tail

def tailRead (d : Dev) (s : Stream) (l off n : Nat) : List Byte :=
  match tailAddr s l with
  | some a => load d (a + off) n
  | none => zeros n

def tailPoisoned (d : Dev) (s : Stream) (l off n : Nat) : Bool :=
  match tailAddr s l with
  | some a => poisoned d (a + off) n
  | none => false

/-- Bytes into the tail page of layer `l` of stream `h` as it now is. -/
def tailWrite (d : Dev) (h l off : Nat) (bs : List Byte) : Dev :=
  match streamOf d h with
  | none => d
  | some s => match tailAddr s l with
    | some a => store d (a + off) bs
    | none => d

def zeroTail (d : Dev) (h l : Nat) : Dev :=
  match streamOf d h with
  | none => d
  | some s => tailWrite d h l 0 (zeros (pageSize s))

def pageOf (s : Stream) (l k : Nat) : Option Page := (layerOf s l).pages.find? fun p => p.k = k

/-- A stored page: its blocks, at the run set aside for it or at its entry of the page list (R427, R428). -/
def storePage (d : Dev) (h l k : Nat) (bs : List Byte) : Dev :=
  match streamOf d h with
  | none => d
  | some s =>
    let place := if hostPages s then listedPage s l k else (heldRun d (pageTag h l k)).map (·.1)
    match place with
    | none => d
    | some a =>
      let d := releaseRun (store d a bs) (pageTag h l k)
      withLayer d h l fun y => { y with pages := y.pages.filter (fun p => p.k != k) ++ [⟨k, a, bs.length⟩] }

/-- Pool space for pages at U + 16 bytes per block (R317, R449); nothing in PAGES host-assisted mode. -/
def reservePages (d : Dev) (s : Stream) (tags : List Nat) : Option Dev :=
  if hostPages s then some d else holdRuns true (roundUp (pageWorst s) 256) 256 d tags

/-- The table of a page's blocks (Table 7-3, R308). -/
def pageTable (d : Dev) (s : Stream) : TableChoice :=
  if !s.coding.getLsbD 0 then .plain
  else if hostMode d 2 then .fixedNo (s.coding.toNat / 8 % 8) else .built

/-- KV pages of BF16 streams are split (R299). -/
def pageSplit (s : Stream) : Bool := s.format = 0

/-! ### The host-held filter (R444) -/

def appendBase : Nat := 0x40_0000_0000
def appendTop : Nat := 0x80_0000_0000
def stageTop : Nat := 0x800_0000
def slotSize : Nat := 0x1_0000
def winLine (o : Nat) : Nat := o / 64 * 64

def kvEvent (d : Dev) (b : Nat) : Dev := withKvs d fun k => { k with event := k.event ||| BitVec.ofNat 3 (2 ^ b) }

/-- Lines the filter records in a window range. -/
def recorded (d : Dev) (lo hi : Nat) : List Nat := d.kvs.filter.filter fun l => lo ≤ l && l < hi

/-- A BISnpInv for each recorded line that has none outstanding. -/
def snoop (d : Dev) (lines : List Nat) : Dev :=
  let fresh := lines.filter fun l => !d.kvs.snoops.contains l
  withKvs d fun k => { k with snoops := k.snoops ++ fresh }

def filterSize : Nat := 1048576

/-- A cached copy granted to the host is recorded; a line with its back-invalidate outstanding re-enters after the
response (R459). -/
def grantLine (d : Dev) (line : Nat) : Dev :=
  if d.kvs.snoops.contains line then
    withKvs d fun k => { k with reenter := if k.reenter.contains line then k.reenter else line :: k.reenter }
  else if d.kvs.filter.contains line then d
  else withKvs d fun k => { k with filter := k.filter ++ [line] }

/-- The filter has no place for the line (R444, R455). -/
def filterFull (d : Dev) (line : Nat) : Bool :=
  filterSize ≤ d.kvs.filter.length && !d.kvs.filter.contains line && !d.kvs.snoops.contains line

/-- The oldest recorded line is back-invalidated to make room, and the cached read is held until it has (R444; DEDUCED,
log 23). -/
def awaitRoom (d : Dev) (line : Nat) : Dev :=
  let d := match d.kvs.filter.find? fun l => !d.kvs.snoops.contains l with
    | some old => kvEvent (snoop d [old]) 2
    | none => d
  let d := withKvs d fun k => { k with roomReads := k.roomReads ++ [line] }
  withBus d fun b => { b with readData := [], readPoison := false, readHeld := true }

/-! ### Window decoding (Table 10-3) -/

inductive WinAt where
  | staging (slot off : Nat)
  | append (h : Nat) (s : Stream) (l b : Nat)
  | unbacked

def windowAt (d : Dev) (o : Nat) : WinAt :=
  if !d.glb.initialised then .unbacked
  else if o < stageTop then .staging (o / slotSize) (o % slotSize)
  else if appendBase ≤ o && o < appendTop then
    let a := o - appendBase
    let h := a / 2 ^ 26 % 4096
    let l := a / 2 ^ 18 % 256
    let b := a % 2 ^ 18
    match streamOf d h with
    | some s => if l < s.layers.length && b < pageSize s && (tailAddr s l).isSome then .append h s l b else .unbacked
    | none => .unbacked
  else .unbacked

/-- Window offset of byte `b` of a layer's tail page (Table 10-3). -/
def appendOffset (h l b : Nat) : Nat := appendBase + h * 2 ^ 26 + l * 2 ^ 18 + b

/-- The recorded append lines of a stream's layers. -/
def appendLines (d : Dev) (h : Nat) (s : Stream) : List Nat :=
  (List.range s.layers.length).flatMap fun l => recorded d (appendOffset h l 0) (appendOffset h l (pageSize s))

/-! ### Staged sets (R445–R447) -/

def setsOf (d : Dev) : List StagedSet := d.streams.flatMap fun e => e.2.staged

def setAt (d : Dev) (slot : Nat) : Option StagedSet :=
  (setsOf d).find? fun t => t.slot ≤ slot && slot < t.slot + t.count

def slotFreeAt (d : Dev) (slot : Nat) : Bool := (setAt d slot).isNone

/-- The lowest run of `n` free consecutive slots. -/
def lowestSlots (d : Dev) (n : Nat) : Option Nat :=
  (List.range (2048 + 1 - n)).find? fun i => (List.range n).all fun j => slotFreeAt d (i + j)

/-- Is the byte of the set written? -/
def setWritten (t : StagedSet) (off : Nat) : Bool := t.written.any fun r => r.1 ≤ off && off < r.1 + r.2

/-- A line of staging is readable, held, or of a free slot (Table 10-4). -/
inductive StageLine where
  | free | ready | filling

def stageLine (d : Dev) (o : Nat) : StageLine :=
  match setAt d (o / slotSize) with
  | none => .free
  | some t => if !t.filling || setWritten t (winLine o - t.slot * slotSize) then .ready else .filling

/-- Is the line not, or no longer, to be waited for? -/
def stageReady (d : Dev) (o : Nat) : Bool :=
  match stageLine d o with
  | .filling => false
  | _ => true

/-- A read of a staging line that is not held: its data goes to the host. -/
def serveStage (d : Dev) (o : Nat) (cached : Bool) : Dev :=
  let bs := match stageLine d o with
    | .ready => memGets d.kvs.staging o 64
    | _ => zeros 64
  if cached && filterFull d o then awaitRoom d o else putRead (if cached then grantLine d o else d) bs false

/-- Reads held for staging lines that are now written are served in order. -/
def serveHeld (d : Dev) : Dev :=
  let due := d.kvs.heldReads.filter fun x => stageReady d x.1
  let d := withKvs d fun k => { k with heldReads := k.heldReads.filter fun x => !stageReady d x.1 }
  due.foldl (fun d x => serveStage d x.1 x.2) d

/-- A set is released: its slots, scratchpad and recorded lines (R446). -/
def releaseSet (d : Dev) (h : Nat) (t : StagedSet) : Dev :=
  let lo := t.slot * slotSize
  let hi := (t.slot + t.count) * slotSize
  let d := withStream d h fun s => { s with staged := s.staged.filter fun x => x.slot != t.slot }
  let d := releaseRun d (stageTag t.slot)
  let d := snoop d (recorded d lo hi)
  serveHeld (withKvs d fun k => { k with staging := memErase k.staging lo hi })

def releaseSets (d : Dev) (h : Nat) (p : StagedSet → Bool) : Dev :=
  match streamOf d h with
  | none => d
  | some s => (s.staged.filter p).foldl (fun d t => releaseSet d h t) d

/-- Bytes of a set become readable. -/
def fillSet (d : Dev) (h slot off : Nat) (bs : List Byte) : Dev :=
  let upd := fun (t : StagedSet) => if t.slot = slot then { t with written := t.written ++ [(off, bs.length)] } else t
  let d := withStream d h fun s => { s with staged := s.staged.map upd }
  serveHeld (withKvs d fun k => { k with staging := memPuts k.staging (slot * slotSize + off) bs })

/-! ### STREAM_OPEN (R423, R424) -/

/-- R428: an entry of the page list. -/
def pageEntryOk (d : Dev) (label : Byte) (span e : Nat) : Bool :=
  e / 2 ^ 48 = 0 && e % 256 = 0 && match allocOf d e span with
    | some (_, a) => a.hbm && a.label = label
    | none => false

/-- Tail pages of every layer, from the pool (R427). -/
def takeTails (size : Nat) : Dev → Nat → List Nat → Option (Dev × List Nat)
  | d, 0, acc => some (d, acc)
  | d, n + 1, acc =>
    match holdRun d (0x800_0000_0000_0000 + n) true size 4096 with
    | some (a, d) => takeTails size d n (acc ++ [a])
    | none => none

def startStreamOpen (d : Dev) (c : Caller) (o : StreamOps) : Begin :=
  let n := o.layers.toNat
  let mx := o.maxPositions.toNat
  let bpp := o.bpp.toNat
  let host := hostMode d 8
  let per := ceilDiv mx 16
  match lowestFree d.streams 0 4096 with
  | none => .fail 0x0203
  | some h =>
    if n < 1 || 256 < n || 4 < o.format.toNat || mx < 1 || 1048576 < mx || bpp % 128 != 0 || bpp < 128 || 16256 < bpp
        || 1 < o.role.toNat then .fail 0x0104
    else if (o.pageList != 0) != host then .fail 0x0107
    else match (if host then sourceFault d o.pageList.toNat (8 * (n * per)) else none) with
      | some st => .fail st
      | none =>
        let entries := if host then (List.range (n * per)).map fun i => field (load d (o.pageList.toNat + 8 * i) 8) 0 8 else []
        let span := ceilDiv (16 * bpp) 65536 * 16 + 16 * bpp
        if !entries.all (pageEntryOk d c.label span) then .fail 0x010D
        else match (if host then some (d, List.replicate n 0) else takeTails (roundUp (16 * bpp) 4096) d n []) with
          | none => .fail 0x0205
          | some (d, tails) =>
            let gen := ((assoc h d.generations).getD 0) + 1
            let s : Stream := {
              label := c.label
              opener := c.mbx
              decode := o.role = 1
              format := o.format
              bpp := bpp
              maxPositions := mx
              coding := o.coding
              generation := gen
              layers := tails.map fun a => ⟨0, 0, false, a, []⟩
              pageList := entries
              nextPageSeq := 0
              nextChunkSeq := 0
              staged := [] }
            let d := releaseRuns { d with
              streams := assocSet h s d.streams
              generations := assocSet h gen d.generations } ((List.range n).map (0x800_0000_0000_0000 + ·))
            let d := (List.range n).foldl (fun d l => zeroTail d h l) d
            .done (forgetOnPorts d true (BitVec.ofNat 16 h)) (result [(20, 2, h)])

/-! ### Commands on a stream: they take their turn (R246, R460) -/

/-- Positions that KV_STAGE may ask for of a layer: the committed ones, and those of an incoming handoff (R445). -/
def stageReach (d : Dev) (h : Nat) (s : Stream) (layer : Nat) : Nat :=
  let brings := fun (i : Incoming) => i.stream.toNat = h && i.firstLayer ≤ layer && layer < i.firstLayer + i.layers
  (d.incoming.filter brings).foldl (fun c i => max c (i.first + i.positions)) (layerOf s layer).c

/-- A stream command starts by taking its place; its own checks are made at its turn, against the
committed lengths at its start (R460). -/
def startOnStream (d : Dev) (c : Caller) (cmd : Cmd) : Begin :=
  let h := c.hdr.handle.toNat
  let cs := match streamOf d h, cmd with
    | some s, .kvStage .. => (List.range s.layers.length).map (stageReach d h s)
    | some s, _ => s.layers.map (·.c)
    | none, _ => []
  .go d { newRunning d c cmd .turn with cs := cs }

/-- The command of the turn ends. -/
def turnEnd (d : Dev) (r : Running) (st : Status) (res : BitVec 96) : Dev := finishRunning d r st res

/-- A running command's record replaced. -/
def putRunning (d : Dev) (r : Running) : Dev := updRunning d r.id fun _ => r

/-- Pages take the next numbers of the stream's page sequence (R69). -/
def pageWorks (d : Dev) (h : Nat) (s : Stream) (owner : Nat) (jobs : List Job) : Dev :=
  let ws := (List.range jobs.length).zip jobs |>.map fun e =>
    newWork d owner streamClass (BitVec.ofNat 16 h) (s.nextPageSeq + BitVec.ofNat 32 e.1) e.2 .codec
  withStream { d with work := d.work ++ ws } h fun s => { s with nextPageSeq := s.nextPageSeq + BitVec.ofNat 32 jobs.length }

/-- KV_PUT at its turn (R430). -/
def turnPut (d : Dev) (r : Running) (h : Nat) (s : Stream) (layer first n : Nat) (src : BitVec 16) : Dev :=
  let y := layerOf s layer
  if s.decode then turnEnd d r 0x0120 0
  else if s.layers.length ≤ layer then turnEnd d r 0x0104 0
  else if y.evicted || first != y.g || y.g < y.c then turnEnd d r 0x0120 0
  else if n = 0 || n % 16 != 0 || s.maxPositions < first + n then turnEnd d r 0x0104 0
  else match descOf d src with
    | none => turnEnd d r 0x011A 0
    | some k =>
      if k.imageLen != n * s.bpp || errorOob k then turnEnd d r 0x0118 0
      else
        let ks := (List.range (n / 16)).map (first / 16 + ·)
        match reservePages d s (ks.map (pageTag h layer)) with
        | none => turnEnd d r 0x0205 0
        | some d =>
          let d := pageWorks d h s r.id (ks.map fun k => .encodePage layer k 16 false)
          putRunning d { r with wait := .work, chunks := ks.length }

/-- In PAGES host-assisted mode the first page of a KV_PUT goes to the place of the tail page, which it must not
change before the command succeeds (R428, R463). -/
def putOverTail (s : Stream) (layer k : Nat) : Bool := hostPages s && k = (layerOf s layer).g / 16

/-- The page of a KV_PUT that takes the place of the tail page. -/
def storeOverTail (d : Dev) (r : Running) (h layer : Nat) : Dev :=
  match streamOf d h with
  | none => d
  | some s =>
    let first := fun (w : Work) => w.owner = r.id && match w.job with
      | .encodePage l k _ _ => l = layer && putOverTail s l k
      | _ => false
    match d.work.find? first with
    | some w => storePage d h layer ((layerOf s layer).g / 16) w.parcel
    | none => d

/-- A KV_PUT whose pages are stored (R430, R431). -/
def endPut (d : Dev) (r : Running) (h layer n : Nat) : Dev :=
  let d := zeroTail (withLayer d h layer fun y => { y with g := y.g + n }) h layer
  turnEnd d r 0 (fillResult r.filled r.dropped r.spills)

/-- A KV_PUT that fails leaves no page and no room taken. -/
def failPut (d : Dev) (h layer first n : Nat) : Dev :=
  let ks := (List.range (n / 16)).map (first / 16 + ·)
  releaseRuns (withLayer d h layer fun y => { y with pages := y.pages.filter fun p => !ks.contains p.k })
    (ks.map (pageTag h layer))

/-! ### KV_COMMIT (R449, R450) -/

/-- The tap's free entries as KV_COMMIT sees them (R473, R501, R505). -/
def commitTapFree (d : Dev) : Nat := if d.met.ready then tapFree d else 0

/-- EZ1-N has no Reckoner: KV_COMMIT does not wait on it and its events are discarded (R5). -/
def noIsland (d : Dev) : Bool := d.fuses.variant = 2

/-- Layers whose tail page retires when positions up to `z` are frozen. -/
def retiring (s : Stream) (z : Nat) : List Nat :=
  (List.range s.layers.length).filter fun l => (layerOf s l).g + 16 = z

/-- KV_COMMIT at its turn, outside BROWN_HOLD: steps 1 and 2 of Table 10-6. -/
def turnCommit (d : Dev) (r : Running) (h : Nat) (s : Stream) (n : Nat) : Dev :=
  let c := (layerOf s 0).c
  if n = 0 then turnEnd d r 0x0104 0
  else if s.layers.any (fun y => y.c != c || y.evicted) then turnEnd d r 0x0120 0
  else if s.layers.any (fun y => y.g + 16 < c + n) then turnEnd d r 0x0104 0
  else match reservePages d s ((retiring s (c + n)).map fun l => pageTag h l ((layerOf s l).g / 16)) with
    | none => turnEnd d r 0x0205 0
    | some e =>
      if !noIsland d && commitTapFree d = 0 then turnEnd d r 0x0206 0
      else
        let e := if noIsland d then e else withMet e fun m => { m with reserved := m.reserved + 1 }
        let lines := appendLines e h s
        putRunning (snoop e lines) { r with wait := .birsp lines, lines := lines }

/-- A commit that stops before step 5: its reservations are given back. -/
def dropCommit (d : Dev) (r : Running) (st : Status) : Dev :=
  let h := r.hdr.handle.toNat
  let tags := match streamOf d h with
    | some s => (List.range s.layers.length).map fun l => pageTag h l ((layerOf s l).g / 16)
    | none => []
  let d := if noIsland d then d else withMet d fun m => { m with reserved := m.reserved - 1 }
  turnEnd (releaseRuns d tags) r st 0

/-- Bytes 0–27 of a tap entry (Table 11-1). -/
def tapBody (e : TapEntry) : List Byte :=
  leBytes 2 e.handle.toNat ++ leBytes 2 e.generation.toNat ++ [e.label, e.role] ++ leBytes 2 e.kind.toNat
    ++ leBytes 4 e.n.toNat ++ leBytes 2 e.stamp.era.toNat ++ leBytes 6 e.stamp.tick.toNat ++ leBytes 4 e.sequence.toNat
    ++ leBytes 4 e.spare.toNat

/-- The 32 bytes of a tap entry (R474). -/
def tapBytes (e : TapEntry) : List Byte := tapBody e ++ leBytes 4 e.crc.toNat

/-- The entry as the main die writes it: its own crc, its valid mark last (R474, R475). -/
def pushTap (e : TapEntry) (m : Met) : Met :=
  { m with
    nextSeq := m.nextSeq + 1
    tap := m.tap ++ [{ e with sequence := m.nextSeq, crc := crc32c (tapBody { e with sequence := m.nextSeq }) }] }

/-- The commit event of a commit (R451, R475). -/
def commitEvent (d : Dev) (h : Nat) (s : Stream) (n : Nat) : Dev :=
  if noIsland d then d
  else withMet d fun m => pushTap ⟨BitVec.ofNat 16 h, s.generation, s.label, if s.decode then 1 else 0, 1,
    BitVec.ofNat 32 n, now d, 0, 0, 0⟩ { m with reserved := m.reserved - 1 }

/-- Steps 5 to 7 of Table 10-6, once every BIRsp has arrived. -/
def commitStep5 (d : Dev) (r : Running) (n : Nat) : Dev :=
  let h := r.hdr.handle.toNat
  match streamOf d h with
  | none => turnEnd d r 0x0508 0
  | some s =>
    let z := (layerOf s 0).c + n
    let ls := retiring s z
    let d := withStream d h fun s => { s with layers := s.layers.map fun y => { y with c := z } }
    let d := bump (commitEvent d h s n) 1 s.label.toNat 8 n
    let r := { r with result := result [(20, 4, z)], chunks := ls.length, lines := [] }
    if ls.isEmpty then turnEnd d r 0 r.result
    else
      let d := pageWorks d h s r.id (ls.map fun l => .encodePage l ((layerOf s l).g / 16) 16 true)
      putRunning d { r with wait := .work }

/-! ### KV_STAGE (R445–R448) -/

/-- An incoming handoff that the range needs. -/
def incomingFor (d : Dev) (h layer first n : Nat) : Option Incoming :=
  d.incoming.find? fun i => i.stream.toNat = h && i.firstLayer ≤ layer && layer < i.firstLayer + i.layers
    && first + n ≤ i.first + i.positions

/-- Pages of the range that are stored, and the tail part: (first position, count). -/
def stagedPages (s : Stream) (layer first n : Nat) : List Nat :=
  ((List.range (ceilDiv (first + n) 16)).filter fun k => first / 16 ≤ k && 16 * k < (layerOf s layer).g)

/-- Steps 2 and 3 of Table 10-5. -/
def stageTake (d : Dev) (r : Running) (h : Nat) (s : Stream) (layer first n : Nat) : Dev :=
  let g := (layerOf s layer).g
  let e := match s.staged with
    | a :: _ :: _ => releaseSet d h a
    | _ => d
  let cnt := ceilDiv (n * s.bpp) slotSize
  match lowestSlots e cnt with
  | none => turnEnd d r 0x0204 0
  | some slot =>
    match holdRun e (stageTag slot) false (cnt * slotSize) 64 with
    | none => turnEnd d r 0x0204 0
    | some (_, e) =>
      let lo := slot * slotSize
      let e := snoop e (recorded e lo (lo + cnt * slotSize))
      let t : StagedSet := ⟨layer, first, n, slot, cnt, true, []⟩
      let e := withStream e h fun s => { s with staged := s.staged ++ [t] }
      let from0 := max first g
      let tailCount := first + n - from0
      let bad := tailPoisoned e s layer ((from0 - g) * s.bpp) (tailCount * s.bpp)
      if bad then turnEnd (releaseSet e h t) r 0x0505 0
      else
        let e := if tailCount = 0 then e
          else fillSet e h slot ((from0 - first) * s.bpp) (tailRead e s layer ((from0 - g) * s.bpp) (tailCount * s.bpp))
        let ks := stagedPages s layer first n
        let e := pageWorks e h s r.id (ks.map fun k => .decodePage layer k)
        putRunning e { r with wait := .work, slot := slot, chunks := ks.length }

/-- KV_STAGE at its turn: its range is checked against what was there at its start (R445, R460). Positions that an incoming
handoff was then to bring, and has failed to, are not there (0x0120; DEDUCED, log 23). -/
def turnStage (d : Dev) (r : Running) (h : Nat) (s : Stream) (layer first n : Nat) : Dev :=
  if n = 0 then turnEnd (releaseSets d h fun _ => true) r 0 0
  else if first % 16 != 0 || s.layers.length ≤ layer then turnEnd d r 0x0104 0
  else if (layerOf s layer).evicted then turnEnd d r 0x0120 0
  else if r.cs.getD layer 0 < first + n then turnEnd d r 0x0120 0
  else if first + n ≤ (layerOf s layer).c then stageTake d r h s layer first n
  else if (incomingFor d h layer first n).isSome then putRunning d { r with wait := .incoming }
  else turnEnd d r 0x0120 0

/-- Step 5 of Table 10-5. -/
def endStage (d : Dev) (r : Running) : Dev :=
  let h := r.hdr.handle.toNat
  match (streamOf d h).bind fun s => s.staged.find? fun t => t.slot = r.slot with
  | none => turnEnd d r 0x0508 0
  | some t =>
    let upd := fun (x : StagedSet) => if x.slot = t.slot then { x with filling := false } else x
    let d := serveHeld (withStream d h fun s => { s with staged := s.staged.map upd })
    turnEnd d r 0 (result [(20, 2, t.slot), (22, 2, t.count), (24, 5, t.slot * slotSize)])

def failStage (d : Dev) (r : Running) : Dev := releaseSets d r.hdr.handle.toNat fun t => t.slot = r.slot && t.filling

/-! ### KV_EVICT and STREAM_CLOSE (R453, R454) -/

def evictLayer (d : Dev) (h l : Nat) : Dev × Nat :=
  match streamOf d h with
  | none => (d, 0)
  | some s =>
    (withLayer (releaseSets d h fun t => t.layer = l) h l fun y => { y with pages := [], evicted := true },
      (layerOf s l).pages.length)

/-- The layers are evicted; when every layer has been, the stream is as after STREAM_OPEN again (R453), its
sequences included (R436). -/
def evictLayers (d : Dev) (h : Nat) (ls : List Nat) : Dev × Nat :=
  let (d, n) := ls.foldl (fun acc l => let (d, k) := evictLayer acc.1 h l; (d, acc.2 + k)) (d, 0)
  match streamOf d h with
  | none => (d, n)
  | some s =>
    if s.layers.all (·.evicted) then
      let clean := fun (y : Layer) => { y with c := 0, g := 0, evicted := false }
      let d := withStream d h fun s => { s with layers := s.layers.map clean, nextPageSeq := 0, nextChunkSeq := 0 }
      ((List.range s.layers.length).foldl (fun d l => zeroTail d h l) d, n)
    else (d, n)

def turnEvict (d : Dev) (r : Running) (h : Nat) (s : Stream) (first count : Nat) : Dev :=
  let total := s.layers.length
  if count != 0 && total < first + count then turnEnd d r 0x0104 0
  else
    let ls := if count = 0 then List.range total else (List.range count).map (first + ·)
    let (d, n) := evictLayers d h ls
    turnEnd d r 0 (result [(20, 4, n)])

/-- The receiver's side of a handoff ends: nothing is set aside for it any more. -/
def endIncoming (d : Dev) (i : Incoming) : Dev :=
  let h := i.stream.toNat
  let mine := fun tag => incomingTag h 0 0 ≤ tag && tag < incomingTag (h + 1) 0 0
  let d := { d with
    incoming := d.incoming.filter fun x => x.stream != i.stream
    holds := d.holds.filter fun x => !mine x.1 }
  releaseRun d (handoffTag h)

/-- It ends without its pages: what it has put into a tail page goes too, a partial page, or in PAGES host-assisted mode
the page whose place the tail page has (R428, R439, R440, R454). -/
def dropIncoming (d : Dev) (i : Incoming) : Dev :=
  let h := i.stream.toNat
  let inTail := fun (e : Nat × Page) => (streamOf d h).any fun s =>
    if hostPages s then e.2.k = (layerOf s e.1).g / 16 else e.2.len = 0
  endIncoming (i.stored.foldl (fun d e => if inTail e then zeroTail d h e.1 else d) d) i

/-- A stream request frame (Table 10-1). -/
def sendStream (d : Dev) (p : Port) (h : BitVec 16) (seq : BitVec 32) (code : Nat) (ops : List Byte) : Dev :=
  sendVc1 d p 0x14 true h seq 0 (fit 16 (beBytes 2 code ++ ops))

def sendDone (d : Dev) (p : Port) (h : BitVec 16) (st : Status) : Dev :=
  sendStream d p h 0 0x0104 (requestOps [(2, 2, st.toNat)])

def turnClose (d : Dev) (r : Running) (h : Nat) (s : Stream) : Dev :=
  let (d, _) := evictLayers d h (List.range s.layers.length)
  let d := snoop d (recorded d (appendOffset h 0 0) (appendOffset (h + 1) 0 0))
  let d := (d.incoming.filter fun i => i.stream.toNat = h).foldl
    (fun d i => dropIncoming (sendDone d i.port i.stream 0x0120) i) d
  let d := dropWorks { d with streams := assocDel h d.streams } fun w => w.cls = streamClass && w.handle.toNat = h
  turnEnd (forgetOnPorts d true (BitVec.ofNat 16 h)) r 0 0

/-! ### Page entries (R316, R430, R448, R450) -/

/-- The bytes a page entry encodes, or the status when a line of them is lost (0x0505) or a stored page that a
handoff shortens does not decode (0x0303, R325). -/
def encodeSource (d : Dev) (w : Work) (s : Stream) (r : Running) : Except Status (List Byte) :=
  match w.job, r.cmd with
  | .encodePage _ k n _, .kvPut _ first _ src =>
    match descOf d src with
    | none => .error 0x0508
    | some t =>
      let off := (16 * k - first.toNat) * s.bpp
      if imagePoisoned d t off (n * s.bpp) then .error 0x0505 else .ok (imageSlice d t off (n * s.bpp))
  | .encodePage l k n _, _ =>
    match pageOf s l k with
    | some p =>
      if poisoned d p.addr p.len then .error 0x0505
      else match decodeBlocks (p.len + 1) (load d p.addr p.len) with
        | some bs => .ok (bs.take (n * s.bpp))
        | none => .error 0x0303
    | none => if tailPoisoned d s l 0 (n * s.bpp) then .error 0x0505 else .ok (tailRead d s l 0 (n * s.bpp))
  | _, _ => .error 0x0508

/-- The filled reads of a page of KV_PUT (R183, R186). -/
def notePut (d : Dev) (w : Work) (s : Stream) (r : Running) : Dev :=
  match w.job, r.cmd with
  | .encodePage _ k n _, .kvPut _ first _ src => match descOf d src with
    | some t =>
      let filled := imageOob t ((16 * k - first.toNat) * s.bpp) (n * s.bpp)
      addOob (noteOob d src filled 0) r.id filled 0
    | none => d
  | _, _ => d

/-- An encoded page is complete: stored, and the tail page that it retires makes way (step 6). One that is to take the
place of a tail page waits for the end of its command. -/
def pageEncoded (d : Dev) (w : Work) (bs : List Byte) : Dev :=
  let h := w.handle.toNat
  match w.job, runningOf d w.owner with
  | .encodePage l k _ retire, some r =>
    match r.cmd with
    | .kvHandoff _ => d
    | _ =>
      let waits := !retire && (streamOf d h).any fun s => putOverTail s l k
      let d := if waits then d else storePage d h l k bs
      if retire then zeroTail (withLayer d h l fun y => { y with g := y.g + 16 }) h l else d
  | _, _ => d

/-- A decoded page's bytes go into the set that its KV_STAGE fills (R447). -/
def pageDecoded (d : Dev) (w : Work) (r : Running) (bs : List Byte) : Dev :=
  match w.job, r.cmd, streamOf d w.handle.toNat with
  | .decodePage _ k, .kvStage _ first positions, some s =>
    let lo := max first.toNat (16 * k)
    let hi := min (first.toNat + positions.toNat) (16 * k + 16)
    fillSet d w.handle.toNat r.slot ((lo - first.toNat) * s.bpp) ((bs.drop ((lo - 16 * k) * s.bpp)).take ((hi - lo) * s.bpp))
  | _, _, _ => d

end Sys2Proof.Machine
end

