-- ==== Sys2Proof/Machine/Handoff.lean ====
section
/-!
DEFINITION. KV_HANDOFF and the receiver's side of it (section 10.3): the request frames of Table 10-1,
the chunks of kind 2, and the storing of their pages.
-/
namespace Sys2Proof.Machine

/-! ### The sender -/

/-- Ports up to the destination member, ascending (R432). -/
def portsTo (d : Dev) (m : BitVec 12) : List Port :=
  allPorts.filter fun p => portUpNow d p && (portAt d p).peerValid && (portAt d p).peer = m

/-- Pages of the range in the order they travel: layer, page, positions of it that are sent (R436). -/
def handoffPages (o : HandoffOps) : List (Nat × Nat × Nat) :=
  let first := o.first.toNat
  let z := first + o.positions.toNat
  (List.range o.layerCount.toNat).flatMap fun i =>
    ((List.range (ceilDiv z 16)).filter (first / 16 ≤ ·)).map fun k => (o.firstLayer.toNat + i, k, min 16 (z - 16 * k))

/-- The page is sent as it is stored (R436). -/
def sentAsStored (s : Stream) (e : Nat × Nat × Nat) : Bool := e.2.2 = 16 && (pageOf s e.1 e.2.1).isSome

/-- KV_HANDOFF at its turn (R433; DEDUCED order and operand checks, log 24): HANDOFF_BEGIN goes out. -/
def turnHandoff (d : Dev) (r : Running) (h : Nat) (s : Stream) (o : HandoffOps) : Dev :=
  let c := r.cs.foldl min (r.cs.headD 0)
  let z := o.first.toNat + o.positions.toNat
  let l0 := o.firstLayer.toNat
  let ls := (List.range o.layerCount.toNat).map (l0 + ·)
  if s.decode then turnEnd d r 0x0120 0
  else if o.positions = 0 || o.layerCount = 0 || 4096 ≤ o.destMember.toNat || 4096 ≤ o.destStream.toNat
      || o.first.toNat % 16 != 0 || c < z || s.layers.length < l0 + o.layerCount.toNat then turnEnd d r 0x0104 0
  else if ls.any fun l => (layerOf s l).evicted then turnEnd d r 0x0120 0
  else match portTo d (o.destMember.truncate 12) with
    | none => turnEnd d r 0x0507 0
    | some p =>
      let ops := requestOps [(2, 4, o.first.toNat), (6, 4, o.positions.toNat), (10, 1, l0), (11, 1, o.layerCount.toNat - 1),
        (12, 1, s.bpp / 128), (13, 1, s.format.toNat)]
      let d := sendStream d p o.destStream s.nextChunkSeq 0x0101 ops
      putRunning d { r with wait := .handoffReply, firstSeq := s.nextChunkSeq, slot := h }

/-- The reply accepts: partial pages are encoded first, and the chunks are formed from what is stored. -/
def handoffAccepted (d : Dev) (r : Running) (s : Stream) (o : HandoffOps) (limit : BitVec 32) : Dev :=
  let h := r.hdr.handle.toNat
  let partials := (handoffPages o).filter fun e => !sentAsStored s e
  let d := pageWorks d h s r.id (partials.map fun e => .encodePage e.1 e.2.1 e.2.2 false)
  putRunning d { r with wait := .handoffDone, limit := limit }

/-- Stored bytes of each page of the handoff; none when a page is lost (0x0505) or not there (0x0508). -/
def pageBlocks (d : Dev) (r : Running) (s : Stream) (e : Nat × Nat × Nat) : Except Status (List Byte) :=
  if sentAsStored s e then
    match pageOf s e.1 e.2.1 with
    | some p => if poisoned d p.addr p.len then .error 0x0505 else .ok (load d p.addr p.len)
    | none => .error 0x0508
  else
    let mine := fun (w : Work) => w.owner = r.id && match w.job with
      | .encodePage l k _ _ => l = e.1 && k = e.2.1
      | _ => false
    match d.work.find? mine with
    | some w => .ok w.parcel
    | none => .error 0x0508

def collectPages (d : Dev) (r : Running) (s : Stream) : List (Nat × Nat × Nat) → Except Status (List ((Nat × Nat) × List Byte))
  | [] => .ok []
  | e :: t =>
    match pageBlocks d r s e, collectPages d r s t with
    | .ok bs, .ok l => .ok (((e.1, e.2.1), bs) :: l)
    | .error st, _ => .error st
    | _, .error st => .error st

/-- Whole pages while 64 + Σ stored bytes stays within 262,144 (R436). -/
def packPages : List ((Nat × Nat) × List Byte) → Nat → List ((Nat × Nat) × List Byte) → List (List ((Nat × Nat) × List Byte))
  | cur, _, [] => if cur.isEmpty then [] else [cur.reverse]
  | cur, n, p :: t =>
    if !cur.isEmpty && 262144 < 64 + n + p.2.length then cur.reverse :: packPages [p] p.2.length t
    else packPages (p :: cur) (n + p.2.length) t

/-- Detail bytes of kind 2 (Table 10-2). -/
def handoffDetail (s : Stream) (h : Nat) (hdr : Hdr) (first : Nat × Nat) : List Byte :=
  leBytes 1 first.1 ++ zeros 1 ++ leBytes 4 (16 * first.2) ++ leBytes 2 h ++ leBytes 1 (s.bpp / 128)
    ++ [s.format] ++ zeros 6 ++ leBytes 2 hdr.layer.toNat ++ leBytes 2 hdr.operator.toNat ++ zeros 4

def handoffChunk (s : Stream) (h : Nat) (hdr : Hdr) (ps : List ((Nat × Nat) × List Byte)) : List Byte :=
  chunkBytes [] 0 0 2 4 255 ps.length (handoffDetail s h hdr ((ps.map (·.1)).headD (0, 0))) (ps.flatMap (·.2))

/-- The command's own encode entries have all run. -/
def partialsDone (d : Dev) (r : Running) : Bool := (worksOf d r.id).all fun w => isHandoff w || w.stage = .done

/-- The handoff ends on the sender: its status to the receiver as well when it failed here (R440). -/
def handoffFail (d : Dev) (r : Running) (o : HandoffOps) (st : Status) : Dev :=
  let d := match portTo d (o.destMember.truncate 12) with
    | some p => sendDone d p o.destStream st
    | none => d
  let d := dropWorks d fun w => w.owner = r.id
  turnEnd d { r with late := false } st 0

/-- The failure of a stream command's pages. -/
def failPages (d : Dev) (r : Running) (st : Status) : Dev :=
  let h := r.hdr.handle.toNat
  let d := dropWorks d fun w => w.owner = r.id
  match r.cmd with
  | .kvPut layer first n _ => turnEnd (failPut d h layer.toNat first.toNat n.toNat) r st 0
  | .kvStage .. => turnEnd (failStage d r) r st 0
  | .kvHandoff o => handoffFail d r o st
  | .kvCommit _ =>
    -- the layers that have not retired keep their tail pages and give the reserved space back
    let tags := (streamOf d h).elim [] fun s => (List.range s.layers.length).map fun l => pageTag h l ((layerOf s l).g / 16)
    turnEnd (releaseRuns d tags) r st 0
  | _ => turnEnd d r st 0

/-- Firmware cannot finish a command because of its own inconsistency (R256). A KV_COMMIT that has frozen its positions
cannot end without effect any more, so it is finished (Tables 5-13 and 10-6). -/
def giveUp (d : Dev) (r : Running) : Dev :=
  match r.cmd, r.wait with
  | .kvCommit _, .work => d
  | .kvCommit _, .birsp _ => dropCommit d r 0x0508
  | .kvPut .., .work | .kvStage .., .work | .kvHandoff _, .handoffReply | .kvHandoff _, .handoffDone => failPages d r 0x0508
  | _, _ => failOwner d r.id 0x0508

/-- The chunks of an accepted handoff, once every page is there (R432, R436). -/
def formHandoff (d : Dev) (r : Running) (o : HandoffOps) : Dev :=
  match streamOf d r.hdr.handle.toNat with
  | none => d
  | some s =>
    match collectPages d r s (handoffPages o) with
    | .error st => handoffFail d r o st
    | .ok pages =>
      let h := r.hdr.handle.toNat
      let chunks := packPages [] 0 pages
      let ports := portsTo d (o.destMember.truncate 12)
      let ws := (List.range chunks.length).zip chunks |>.map fun e =>
        let q := r.firstSeq + BitVec.ofNat 32 e.1
        let port := (ports[q.toNat % max ports.length 1]?).toList
        let w := newWork d r.id streamClass (BitVec.ofNat 16 h) q (.handoff (e.2.map (·.1))) (.send port)
        { w with chunk := handoffChunk s h r.hdr e.2, unacked := port }
      let d := withStream { d with work := d.work ++ ws } h fun s =>
        { s with nextChunkSeq := s.nextChunkSeq + BitVec.ofNat 32 chunks.length }
      putRunning d { r with chunks := chunks.length }

/-! ### The receiver (R434, R438, R439) -/

def incomingOf (d : Dev) (h : BitVec 16) : Option Incoming := d.incoming.find? fun i => i.stream = h

def putIncoming (d : Dev) (i : Incoming) : Dev :=
  { d with incoming := d.incoming.map fun x => if x.stream = i.stream then i else x }

/-- Full pages of a handoff of `n` positions from `first` on, layer by layer. -/
def fullPages (first n l0 layers : Nat) : List (Nat × Nat) :=
  (List.range layers).flatMap fun i => (List.range (n / 16)).map fun j => (l0 + i, first / 16 + j)

/-- The checks of R434 in order: the status of the first that fails, or the room taken. -/
def handoffRoom (d : Dev) (h : BitVec 16) (first n l0 layers bppUnits format : Nat) : Except Status Dev :=
  match streamOf d h.toNat with
  | none => .error 0x0103
  | some s =>
    if !s.decode then .error 0x0103
    else if s.bpp != 128 * bppUnits || s.format.toNat != format || s.maxPositions < first + n
        || s.layers.length < l0 + layers then .error 0x0104
    else if (List.range layers).any (fun i => (layerOf s (l0 + i)).c != first || (layerOf s (l0 + i)).evicted)
        || (incomingOf d h).isSome then .error 0x0120
    else if 16 ≤ d.incoming.length then .error 0x0205
    else match reservePages d s ((fullPages first n l0 layers).map fun e => incomingTag h.toNat e.1 e.2) with
      | none => .error 0x0205
      | some d => match holdRun d (handoffTag h.toNat) false (8 * 262144) 64 with
        | some (_, d) => .ok d
        | none => .error 0x0205

/-- Bytes of the blocks at the head of `bs` that make up `u` uncompressed bytes; none when checks 1 to 5
of Table 7-7 fail on one of them. -/
def takeBlocks : Nat → Nat → List Byte → Option (List Byte × List Byte)
  | 0, u, bs => if u = 0 then some ([], bs) else none
  | fuel + 1, u, bs =>
    if u = 0 then some ([], bs)
    else if u < field bs 4 4 || !blockWellFormed bs then none
    else
      let n := blockStored bs
      (takeBlocks fuel (u - field bs 4 4) (bs.drop n)).map fun r => (bs.take n ++ r.1, r.2)

/-- The pages of a chunk payload: layer, page, positions, blocks (R436, R439). -/
def chunkPages (s : Stream) (i : Incoming) : Nat → Nat → Nat → List Byte → Option (List ((Nat × Nat × Nat) × List Byte))
  | 0, _, _, bs => if bs.isEmpty then some [] else none
  | count + 1, l, k, bs =>
    let z := i.first + i.positions
    if i.firstLayer + i.layers ≤ l || z ≤ 16 * k then none
    else
      let n := min 16 (z - 16 * k)
      match takeBlocks 5 (n * s.bpp) bs with
      | none => none
      | some (page, rest) =>
        let next := if 16 * (k + 1) < z then (l, k + 1) else (l + 1, i.first / 16)
        (chunkPages s i count next.1 next.2 rest).map (((l, k, n), page) :: ·)

/-- A page of a handoff is stored; a partial one is decoded into the tail page of its layer (R439). -/
def storeIncoming (d : Dev) (i : Incoming) (e : (Nat × Nat × Nat) × List Byte) : Option (Dev × Incoming) :=
  let h := i.stream.toNat
  match streamOf d h with
  | none => none
  | some s =>
    let (l, k, n) := e.1
    let place := if hostPages s then listedPage s l k
      else if n = 16 then (heldRun d (incomingTag h l k)).map (·.1) else some (layerOf s l).tail
    match place with
    | none => none
    | some a =>
      if n = 16 then
        some (store d a e.2, { i with stored := i.stored ++ [(l, ⟨k, a, e.2.length⟩)] })
      else (decodeBlocks (e.2.length + 1) e.2).map fun bs =>
        (store d a (fit (pageSize s) bs), { i with stored := i.stored ++ [(l, ⟨k, 0, 0⟩)] })

def storeAll : Dev → Incoming → List ((Nat × Nat × Nat) × List Byte) → Option (Dev × Incoming)
  | d, i, [] => some (d, i)
  | d, i, e :: t => match storeIncoming d i e with
    | some (d, i) => storeAll d i t
    | none => none

/-- Pages that the handoff brings. -/
def incomingPages (i : Incoming) : Nat := i.layers * (ceilDiv (i.first + i.positions) 16 - i.first / 16)

/-- The last chunk is stored: the pages are committed together (R439). -/
def commitIncoming (d : Dev) (i : Incoming) : Dev :=
  let h := i.stream.toNat
  let z := i.first + i.positions
  let upd := fun (d : Dev) (l : Nat) =>
    let ps := (i.stored.filter fun e => e.1 = l && e.2.len != 0).map (·.2)
    let d := withLayer d h l fun y => { y with c := z, g := z / 16 * 16, pages := y.pages ++ ps }
    if z % 16 = 0 then zeroTail d h l else d
  let d := ((List.range i.layers).map (i.firstLayer + ·)).foldl upd d
  sendDone (endIncoming d i) i.port i.stream 0

end Sys2Proof.Machine
end

