-- ==== Sys2Proof/Machine/Observe.lean ====
section
/-!
DEFINITION. Observation (chapter 15): the Annals writer and its ring, counter snapshots, sessions,
watches, breakpoints, halt and resume, and the open setting.
-/
namespace Sys2Proof.Machine

/-! ### The Annals ring (R630, R636–R638) -/

/-- R = S − 4 KiB. -/
def ringLen (d : Dev) : Nat := d.annalsMiB * mib - 4096

/-- The 32 bytes of a record head (Table 15-3). -/
def recordHead (d : Dev) (r : TraceRec) (flags : Nat) (seq : Word) : List Byte :=
  [r.kind, BitVec.ofNat 8 flags] ++ leBytes 2 r.stamp.era.toNat ++ leBytes 6 r.stamp.tick.toNat ++ leBytes 3 r.ns.toNat
    ++ [r.unit] ++ leBytes 2 d.join.member.toNat ++ leBytes 4 seq.toNat ++ leBytes 2 r.layer.toNat
    ++ leBytes 2 r.operator.toNat ++ leBytes 8 r.detail.toNat

/-- The control page (R636). -/
def controlPage (d : Dev) : List Byte :=
  [0x45, 0x5A, 0x41, 0x4E] ++ leBytes 4 1 ++ leBytes 8 d.fuses.serial.toNat ++ leBytes 4 d.annalsMiB ++ zeros 4
    ++ leBytes 8 d.trc.written.toNat ++ leBytes 8 d.trc.droppedTotal.toNat ++ leBytes 8 (ringLen d)

/-- Bytes 24–39 of the control page follow the counts. -/
def updateControl (d : Dev) : Dev :=
  store d (annalsBase d + 24) (leBytes 8 d.trc.written.toNat ++ leBytes 8 d.trc.droppedTotal.toNat)

/-- A record the writer cannot place is counted as dropped (R624, R638). -/
def dropRecord (d : Dev) (r : TraceRec) : Dev :=
  bump (withTrc d fun t => { t with
    dropped := satAdd t.dropped 1
    droppedTotal := t.droppedTotal + 1
    lossy := if t.lossy.contains r.unit then t.lossy else r.unit :: t.lossy }) 2 0 300 1

/-- Bytes at the written count; the count moves on. -/
def ringPut (d : Dev) (bs : List Byte) : Dev :=
  let a := annalsBase d + 4096 + d.trc.written.toNat % ringLen d
  bump (withTrc (store d a bs) fun t => { t with
    written := t.written + BitVec.ofNat 64 bs.length, sequence := t.sequence + 1 }) 2 0 299 1

/-- Bytes left to the end of the ring when a record of `len` bytes does not fit before it. -/
def ringPad (d : Dev) (len : Nat) : Nat :=
  let left := ringLen d - d.trc.written.toNat % ringLen d
  if left < len then left else 0

/-- The wrap marker (R637), and the count up to the end of the ring. Its unit is not stated (log 8). -/
def ringWrap (d : Dev) (r : TraceRec) (pad : Nat) : Dev :=
  let unit := BitVec.ofNat 8 (Config.unstated 1 d.trc.sequence.toNat)
  let mark : TraceRec := ⟨0, unit, r.stamp, r.ns, 0xFFFF, 0xFFFF, 0, []⟩
  let d := ringPut d (recordHead d mark 0 d.trc.sequence)
  withTrc d fun t => { t with written := t.written + BitVec.ofNat 64 (pad - 32) }

/-- TRACE_STOP waits for the records formed before it: one of them has left the buffers (R634). -/
def noteLeft (written : Bool) (d : Dev) : Dev :=
  let upd := fun (r : Running) =>
    match r.wait with
    | .traceDrain => if r.chunks = 0 then r
        else { r with chunks := r.chunks - 1, firstSeq := if written then r.firstSeq + 1 else r.firstSeq }
    | _ => r
  { d with running := d.running.map upd }

/-- One record into the ring (R637, R638). -/
def writeTrace (d : Dev) (r : TraceRec) : Dev :=
  let len := 32 + r.body.length
  let pad := ringPad d len
  let past := d.trc.mode && d.trc.resumeAt.toNat + ringLen d < d.trc.written.toNat + pad + len
  if d.trc.full || past then noteLeft false (withTrc (dropRecord d r) fun t => { t with full := true })
  else
    let d := if pad = 0 then d else ringWrap d r pad
    let flags := if d.trc.lossy.contains r.unit then 1 else 0
    let d := ringPut d (recordHead d r flags d.trc.sequence ++ r.body)
    let d := withTrc d fun t => { t with
      lossy := t.lossy.filter (· != r.unit)
      session := t.session.map fun s => { s with written := s.written + 1 } }
    noteLeft true (updateControl d)

/-- The writer drains the units' buffers while its share of bandwidth lasts (R622). -/
def drainTrace : Nat → Dev → Dev
  | 0, d => d
  | fuel + 1, d =>
    match d.trc.buffer with
    | [] => withTrc d fun t => { t with drain := 0 }
    | r :: rest =>
      let len := 32 + r.body.length
      if d.trc.drain < len then d
      else drainTrace fuel (writeTrace (withTrc d fun t => { t with drain := t.drain - len, buffer := rest }) r)

/-- The writer's share of `ns` nanoseconds: 24 bytes each (R622). -/
def runWriter (d : Dev) (ns : Nat) : Dev :=
  if d.trc.buffer.isEmpty then d
  else drainTrace (d.trc.buffer.length + 1) (withTrc d fun t => { t with drain := t.drain + 24 * ns })

/-! ### Sessions (R633, R634) -/

def startTraceStart (d : Dev) (c : Caller) (mask : Word) (label : Byte) (all : Bool) : Begin :=
  let s : Session := ⟨mask, label, all, match d.trc.session with
    | some s => s.written
    | none => 0, !c.admin⟩
  let resume := if d.trc.full then d.trc.written else d.trc.resumeAt
  if d.trc.stopped then .fail 0x0120
  else .done (withTrc d fun t => { t with session := some s, full := false, resumeAt := resume }) 0

def startTraceStop (d : Dev) (c : Caller) : Begin :=
  match d.trc.session with
  | none => .fail 0x0120
  | some s =>
    let d := withTrc d fun t => { t with session := none }
    if d.trc.buffer.isEmpty then .done d (result [(20, 4, s.written.toNat)])
    else .go d { newRunning d c .traceStop .traceDrain with chunks := d.trc.buffer.length, firstSeq := s.written }

/-! ### Counter snapshots (R625–R627) -/

def counterCount (set : Nat) : Nat := if set = 2 then 304 else 16

/-- A counter as a snapshot shows it. What HBM traffic a command causes is not given: counters 288–293 of
set 2 are free values (log 8). -/
def counterShown (d : Dev) (set scope i : Nat) : Nat :=
  if set = 2 && 288 ≤ i && i < 294 then (Config.freeWord (d.freeCount + i)).toNat else (counter d ⟨set, scope, i⟩).toNat

def snapshotBytes (d : Dev) (c : Caller) (set : Nat) : List Byte :=
  let scope := if set = 0 then c.mbx.val else if set = 1 then c.label.toNat else 0
  [0x45, 0x5A, 0x43, 0x53, BitVec.ofNat 8 set, BitVec.ofNat 8 scope] ++ leBytes 2 (counterCount set)
    ++ leBytes 2 d.tik.era.toNat ++ leBytes 6 d.tik.tick.toNat ++ leBytes 4 d.tik.offset.toNat
    ++ leBytes 2 d.join.member.toNat ++ leBytes 2 c.hdr.layer.toNat ++ leBytes 2 c.hdr.operator.toNat ++ zeros 38
    ++ (List.range (counterCount set)).flatMap fun i => leBytes 8 (counterShown d set scope i)

/-- A host address, or one within an allocation the caller may use (R627); no reserved or unbacked range (R587, R662). -/
def snapshotFault (d : Dev) (c : Caller) (a n : Nat) : Option Status :=
  if !rangeOk d a n then some 0x0104
  else if isHost a then none
  else match allocOf d a n with
    | some (_, al) => if c.may al.label then none else some 0x0610
    | none => some 0x0610

def startSnapshot (d : Dev) (c : Caller) (set : Byte) (dest : BitVec 48) : Begin :=
  if 2 < set.toNat then .fail 0x0104
  else if d.trc.stopped then .fail 0x0120
  else
    let bs := snapshotBytes d c set.toNat
    match snapshotFault d c dest.toNat bs.length with
    | some st => .fail st
    | none =>
      let (_, d) := drawN d 304
      .done (bump (store d dest.toNat bs) 0 c.mbx.val 9 bs.length) (result [(20, 4, bs.length)])

/-! ### Halt (R641–R645, R652) -/

/-- Program counters of the halted cores: what they are is not given (log 13). -/
def freePcs (d : Dev) : Dev :=
  ([0, 1, 2, 3] : List CtrlCore).foldl (fun d (c : CtrlCore) =>
    let (k, d) := draw d
    withDbg d fun x => { x with pc := x.pc.set c (Config.freeWord k) }) d

/-- The device halts, or, halted already, records one more cause; a breakpoint's cause stands (R652). -/
def haltDevice (d : Dev) (cause : BitVec 2) (id : Byte) (core : CtrlCore) (pc : Option Word) : Dev :=
  let first := !d.dbg.halted
  let d := if first then freePcs d else d
  let d := match pc with
    | some w => withDbg d fun x => { x with pc := x.pc.set core w }
    | none => d
  let at0 := d.dbg.pc[core]
  let d := traceDevice d 7 (90 + core.val) (cause.toNat + id.toNat * 2 ^ 8 + core.val * 2 ^ 16 + at0.toNat * 2 ^ 32)
  withDbg d fun x =>
    let take := first || (cause = 1 && x.cause != 1)
    { x with
      halted := true
      event := x.event ||| 1
      cause := if take then cause else x.cause
      id := if take then id else x.id
      core := if take then BitVec.ofNat 2 core.val else x.core }

/-- Event completions held by the halt are posted in order (R643). -/
def releaseEvents (d : Dev) : Dev :=
  d.dbg.heldEvents.foldl (fun d e => postEvent d e.1 e.2) (withDbg d fun x => { x with heldEvents := [] })

/-! ### Watches (R646–R649) -/

def startWatch (d : Dev) (c : Caller) (k layer operator : BitVec 16) (step : Word) (action : Byte) : Begin :=
  if 1 < action.toNat then .fail 0x0104
  else match (List.range 16).find? fun i => (vget d.dbg.watches i none).isNone with
    | none => .fail 0x0120
    | some i =>
      let w : Watch := ⟨k, layer, operator, step, action = 1, !c.admin, none⟩
      .done (withDbg d fun x => { x with watches := vset x.watches i (some w) }) (result [(20, 2, i)])

def matchesId (want have_ : BitVec 16) : Bool := want = 0xFFFF || want = have_

def watchMatches (w : Watch) (h : Hdr) (c : Cmd) : Bool :=
  (namedDescs c).contains w.descriptor && matchesId w.layer h.layer && matchesId w.operator h.operator
    && (w.step = 0xFFFF_FFFF || w.step = stepOf c)

/-- Whose entries a command's work is: its own, or its bucket's. -/
def workOwner (id : Nat) (c : Cmd) : Nat :=
  match c with
  | .bucketOpen o => bucketOwner o.bucket.toNat
  | .bucketAdd b _ => bucketOwner b.toNat
  | _ => id

/-- A command starts: the watches that match it fire (action 0) or wait for its first entry (action 1). -/
def matchWatches (d : Dev) (id : Nat) (h : Hdr) (c : Cmd) : Dev :=
  let owner := workOwner id c
  (List.range 16).foldl (fun d i => match vget d.dbg.watches i none with
    | none => d
    | some w =>
      let free := match w.matched with
        | none => true
        | some o => !ownerLive d o
      if !free || !watchMatches w h c then d
      else if w.halt then withDbg d fun x => { x with watches := vset x.watches i (some { w with matched := some owner }) }
      else withDbg d fun x => { x with
        watches := vset x.watches i none
        event := x.event ||| 2
        copying := x.copying ++ [(owner, w.descriptor, i)] }) d

/-- The watches with action 1 that this owner's first entry fires (R648). -/
def firedBy (d : Dev) (owner : Nat) : List Nat :=
  (List.range 16).filter fun i => match vget d.dbg.watches i none with
    | some w => w.halt && w.matched = some owner
    | none => false

/-- They fire: freed, and the device halts (R642, R648, R649). -/
def fireWatches (d : Dev) (owner : Nat) : Dev :=
  (firedBy d owner).foldl (fun d i =>
    let d := withDbg d fun x => { x with watches := vset x.watches i none, event := x.event ||| 2 }
    haltDevice d 2 (BitVec.ofNat 8 i) 0 none) d

/-! #### Watch data (R647) -/

/-- Runs of consecutive offsets, with their bytes. -/
def offsetRuns : List (Nat × Byte) → List (Nat × List Byte)
  | [] => []
  | (a, x) :: t =>
    match offsetRuns t with
    | (b, ys) :: rest => if a + 1 = b && ys.length < 1024 then (a, x :: ys) :: rest else (a, [x]) :: (b, ys) :: rest
    | [] => [(a, [x])]

/-- Bytes of one run in records of at most 1,024 bytes, bodies filled to 32-byte units. -/
def traceRun (unit : Nat) (label : Byte) (h : Hdr) (w : Nat) (d : Dev) (r : Nat × List Byte) : Dev :=
  let units := ceilDiv r.2.length 32
  trace d 8 unit (some label) h.layer h.operator (w + units * 2 ^ 8 + r.1 * 2 ^ 16) (fit (32 * units) r.2)

/-- Bytes of elements of a watched descriptor as offsets in one plane: `low` chooses the low plane. -/
def planeBytesOf (d : Dev) (k : Desc) (low : Bool) (j : Nat) : List (Nat × Byte) :=
  match k.addrs j with
  | none => []
  | some as =>
    let base := k.start + k.base.toNat
    let both := k.fmt = fFP32 && k.view = 0
    let mine := if both then (if low then as.take 2 else as.drop 2) else if low then [] else as
    let start := if both && low then base + k.planeBytes else if k.view = 2 then base + k.planeBytes else base
    mine.map fun a => (a - start, byteAt d a)

/-- The bytes of elements `j` to `j + n − 1` that an engine of this owner has moved. -/
def copyElems (d : Dev) (unit owner : Nat) (handle : BitVec 16) (label : Byte) (h : Hdr) (j n : Nat) : Dev :=
  match d.dbg.copying.find? fun e => e.1 = owner && e.2.1 = handle, descOf d handle with
  | some (_, _, w), some k =>
    let part := fun low => (offsetRuns ((List.range n).flatMap fun i => planeBytesOf d k low (j + i)))
    (part false ++ part true).foldl (traceRun unit label h w) d
  | _, _ => d

/-! ### Breakpoints (R641) -/

/-- No breakpoint is set under the number in address bits 7:0. -/
def breakMissing (d : Dev) (address : Word) : Bool := (vget d.dbg.breaks (address.toNat % 256) none).isNone

/-- BREAK_SET; that the breakpoint of kind 0 is set has been checked with the handles (R242). -/
def startBreak (d : Dev) (c : Caller) (core kind : Byte) (address : Word) (hits : BitVec 16) : Begin :=
  if 3 < core.toNat || 2 < kind.toNat then .fail 0x0104
  else if kind = 0 then
    let n := address.toNat % 256
    .done (withDbg d fun x => { x with breaks := vset x.breaks n none }) (result [(20, 1, n)])
  else match (List.range 4).find? fun i => (vget d.dbg.breaks (4 * core.toNat + i) none).isNone with
    | none => .fail 0x0120
    | some i =>
      let n := 4 * core.toNat + i
      let b : Break := ⟨kind = 2, address, if hits = 0 then 1 else hits, !c.admin⟩
      .done (withDbg d fun x => { x with breaks := vset x.breaks n (some b) }) (result [(20, 1, n)])

/-- One more match of a breakpoint: it fires on its hit count's last, and is then cleared (R641). -/
def hitBreak (d : Dev) (core : CtrlCore) (slot : Fin 4) (pc : Word) : Dev :=
  let n := 4 * core.val + slot.val
  match vget d.dbg.breaks n none with
  | none => d
  | some b =>
    if b.hits.toNat ≤ 1 then
      haltDevice (withDbg d fun x => { x with breaks := vset x.breaks n none }) 1 (BitVec.ofNat 8 n) core (some pc)
    else withDbg d fun x => { x with breaks := vset x.breaks n (some { b with hits := b.hits - 1 }) }

/-! ### The open setting (R628, R629) -/

/-- Bound user mailboxes are all of one label. -/
def oneLabel (d : Dev) : Bool :=
  let ls := ((List.range 64).filterMap fun n =>
    let m := vget d.mbx n Mailbox.reset
    if m.bound then some m.label else none)
  ls.all fun l => ls.all (· = l)

def clearUserDebug (x : Dbg) : Dbg :=
  let w := fun (o : Option Watch) => match o with
    | some v => if v.user then none else o
    | none => none
  let b := fun (o : Option Break) => match o with
    | some v => if v.user then none else o
    | none => none
  { x with watches := vmap w x.watches, breaks := vmap b x.breaks }

def writeOpen (d : Dev) (set : Bool) : Dev :=
  if set then
    if d.dbg.openSet || oneLabel d then withDbg d fun x => { x with openSet := true }
    else withDbg d fun x => { x with event := x.event ||| 4 }
  else if d.dbg.openSet then
    withTrc (withDbg d fun x => clearUserDebug { x with openSet := false }) fun t => { t with session := none }
  else d

end Sys2Proof.Machine
end

