-- ==== Sys2Proof/Machine/Eras.lean ====
section
/-!
DEFINITION. Eras and membership (chapters 2 and 12): era numbers, strength, the discovery frames, the
topology, era changes announced by the master, establishing an era and leaving one.
-/
namespace Sys2Proof.Machine

/-! ### Numbers and strength -/

/-- After 0xFFFF the era number continues at 1 (R60). -/
def nextEra (e : BitVec 16) : BitVec 16 := if e = 0xFFFF then 1 else e + 1

/-- Strength (chapter 12): higher priority, then lower serial. -/
def stronger (p1 : BitVec 4) (s1 : BitVec 64) (p2 : BitVec 4) (s2 : BitVec 64) : Bool :=
  p2.toNat < p1.toNat || (p1 = p2 && s1.toNat < s2.toNat)

def strongerP (a b : Procl) : Bool := stronger a.priority a.serial b.priority b.serial

/-- Ports whose link stands: a settling one queues what goes out on it (R365). -/
def upPorts (d : Dev) : List Port := allPorts.filter (linkStands d)

/-- ERA host-assisted mode in force. -/
def eraHost (d : Dev) : Bool := hostMode d 4

/-! ### Discovery frames (Table 12-1) -/

def sendDisc (d : Dev) (p : Port) (body : List Byte) : Dev := sendCtl d p 3 0x33 body

def helloBody (d : Dev) (p : Port) : List Byte :=
  [1, BitVec.ofNat 8 p.val] ++ beBytes 8 d.fuses.serial.toNat ++ beBytes 2 d.join.member.toNat
    ++ [BitVec.ofNat 8 d.join.masterPri.toNat, BitVec.ofNat 8 (bitAt (eraHost d) 0)]

def reportBody (kind : Byte) (b : ReportBody) : List Byte :=
  [kind, BitVec.ofNat 8 b.links.length] ++ beBytes 2 b.member.toNat ++ beBytes 8 b.serial.toNat
    ++ b.links.flatMap fun e => beBytes 2 (e.2.toNat * 4096 + e.1.toNat)

def segmentBody (b : TopoBody) : List Byte :=
  [3, 0] ++ beBytes 2 b.index.toNat ++ beBytes 2 b.count.toNat ++ beBytes 2 b.edges.length ++ beBytes 2 b.era.toNat
    ++ beBytes 6 b.firstTick.toNat ++ b.edges.flatMap fun e => beBytes 4 (e.2.toNat * 4096 + e.1.toNat)

def lostBody (m : BitVec 12) : List Byte := [5, 0] ++ beBytes 2 m.toNat
def attachBody : List Byte := [6]
def duplicateBody (s : BitVec 64) : List Byte := [7, 0] ++ beBytes 8 s.toNat

/-- Toward the master: on the distribution parent. -/
def sendUp (d : Dev) (body : List Byte) : Dev :=
  match d.join.parent with
  | some p => sendDisc d p body
  | none => d

/-- To the distribution children. -/
def sendDown (d : Dev) (body : List Byte) : Dev := d.join.children.foldl (fun d p => sendDisc d p body) d

/-- The peer on this port has accepted the era this device holds (R518; DEDUCED, log 26). -/
def peerInEra (d : Dev) (p : Port) : Bool :=
  (d.join.hopsAt[p]).isSome || d.join.children.contains p || d.join.parent = some p

/-- This device's link report, or its join request under the number its tray gives (R507, R518). -/
def ownReport (d : Dev) (joining : Bool) : ReportBody where
  member := if joining then d.join.tray ++ d.join.position else d.join.member
  serial := d.fuses.serial
  links := ((upPorts d).filter fun p => (portAt d p).peerValid && peerInEra d p).map fun p =>
    ((portAt d p).peer, BitVec.ofNat 4 p.val)

/-! ### Groups and members lost (R55, R113, R529) -/

/-- A member is lost: every group that contains it faults here. -/
def loseMember (d : Dev) (m : BitVec 12) : Dev :=
  ((d.groups.filter fun e => e.2.tree.any fun t => t.member = m).map (·.1)).foldl (fun d h => faultGroup d h 0x0503 none) d

def endAllGroups (d : Dev) : Dev := (d.groups.map (·.1)).foldl endGroupOfEra d

/-- Open handoffs end with 0x0503 on both sides (R529). -/
def endHandoffs (d : Dev) (st : Status) : Dev :=
  let mine := d.running.filter fun r => match r.cmd with
    | .kvHandoff _ => r.wait = .handoffReply || r.wait = .handoffDone
    | _ => false
  let d := mine.foldl (fun d r => turnEnd (dropWorks d fun w => w.owner = r.id) { r with late := false } st 0) d
  let waits := fun (d : Dev) (i : Incoming) => (d.running.filter fun r => r.wait = .incoming && r.hdr.handle = i.stream).foldl
    (fun d r => turnEnd d r st 0) d
  d.incoming.foldl (fun d i => waits (dropIncoming d i) i) d

/-! ### The topology (R518, R519) -/

def reported (rs : List ReportBody) (a b : BitVec 12) : Bool := rs.any fun r => r.member = a && r.links.any fun e => e.1 = b

def dedup {α : Type} [DecidableEq α] : List α → List α
  | [] => []
  | a :: t => if t.contains a then dedup t else a :: dedup t

/-- Every pair that both ends reported. -/
def formEdges (rs : List ReportBody) : List (BitVec 12 × BitVec 12) :=
  dedup (rs.flatMap fun r => (r.links.filter fun e => r.member.toNat < e.1.toNat && reported rs e.1 r.member).map
    fun e => (r.member, e.1))

/-- Topology segments of at most 2,040 edges. -/
def formSegments (edges : List (BitVec 12 × BitVec 12)) (era : BitVec 16) (firstTick : BitVec 48) : List TopoBody :=
  let n := ceilDiv edges.length 2040
  (List.range n).map fun i =>
    ⟨BitVec.ofNat 16 i, BitVec.ofNat 16 n, era, firstTick, (edges.drop (2040 * i)).take 2040⟩

def sendSegments (d : Dev) (ss : List TopoBody) : Dev := ss.foldl (fun d s => sendDown d (segmentBody s)) d

def endpoints (edges : List (BitVec 12 × BitVec 12)) : List (BitVec 12) := dedup (edges.flatMap fun e => [e.1, e.2])

/-- Edges and segments of a topology at most (Table 12-3). -/
def maxEdges : Nat := 32768
def maxSegments : Nat := 17

/-- The segments held give the whole topology of the era in force: it is held, and a device outside it is
attached only (R519, R520, R523), as one that has been excluded stays (R509). Segments carry edges only (Table 12-1),
so a device finds itself in a topology by an edge of its own (DEDUCED, log 40). -/
def applyTopology (d : Dev) : Dev :=
  let ss := d.join.segments.filter fun s => s.era = d.tik.era
  match ss with
  | [] => d
  | s :: _ =>
    let n := s.count.toNat
    let parts := (List.range n).map fun i => ss.find? fun x => x.index.toNat = i && x.count = s.count
    let edges := (parts.filterMap id).flatMap (·.edges)
    if !d.tik.eraValid || d.join.duplicate || parts.any (·.isNone) || maxEdges < edges.length then d
    else
      let ms := endpoints edges
      let mine := ms.contains d.join.member
      withJoin d fun j => { j with
        topoValid := mine
        topoEra := s.era
        edges := if mine then edges else []
        members := if mine then ms else []
        attached := !mine
        segments := j.segments.filter fun x => !(x.era = s.era && x.firstTick = s.firstTick) }

/-! ### Era changes announced by the master (R99) -/

def lastTickOf : Nat := 2 ^ 48 - 1

/-- The change is announced: its last tick lies at least 64 ticks after the frame that first carries the
announcement, how far is left open (log 8); the era's end bounds it (R62). -/
def announce (d : Dev) (c : EraChange) : Dev :=
  let (k, d) := draw d
  let last := min lastTickOf (d.tik.tick.toNat + 65 + Config.choice k)
  withTik d fun t => { t with change := some { c with lastTick := BitVec.ofNat 48 last } }

/-- A cause of an era change: announced, or deferred behind the one announced. Gives the place in the
line, 0 when announced. -/
def requestChange (d : Dev) (c : EraChange) : Dev × Nat :=
  match d.tik.change with
  | none => (announce d c, 0)
  | some _ => (withTik d fun t => { t with deferred := t.deferred ++ [c] }, d.tik.deferred.length + 1)

/-- The master's highest leap level (R81). -/
def leapCap (d : Dev) (period : Nat) : Nat := min d.tik.leapMax.toNat (min 8 (8 * 1048575 / (1000 * period) - 8))

def effectiveFloor (d : Dev) (period : Nat) (floor : BitVec 4) : BitVec 4 := BitVec.ofNat 4 (min floor.toNat (leapCap d period))

/-- SET_TICK commands that a lost mastership leaves behind (R101; DEDUCED, log 26). -/
def failSetTicks (d : Dev) : Dev := (d.running.filter fun r => r.wait = .eraChange).foldl (fun d r => finishRunning d r 0x0602 0) d

/-! ### Lock -/

def traceAlmanac (d : Dev) (event : Nat) : Dev :=
  traceDevice d 9 deviceUnit (event + d.tik.leap.toNat * 2 ^ 8 + d.tik.era.toNat * 2 ^ 16)

def setLocked (d : Dev) (b : Bool) : Dev :=
  if d.tik.locked = b then d
  else
    let d := setTikEvent (withTik d fun t => { t with locked := b }) 1
    if b then traceAlmanac d 3 else d

/-! ### Proclamations (R36, R43, R513) -/

/-- A Proclamation on every up port but one. -/
def sendProclamations (d : Dev) (b : ProcBody) (except : Option Port) : Dev :=
  ((upPorts d).filter fun q => except != some q).foldl (fun d q => sendCtl d q 0 0x02 (proclamationBytes b)) d

/-- The copies of a stronger Proclamation, on every other up port: in ERA hardware mode at once, and held while a
change of ERA is pending (R34, R36, R513). -/
def copyProclamation (d : Dev) (b : ProcBody) (p : Port) : Dev :=
  if eraHost d then d
  else if pendingFn d 4 then withJoin d fun j => { j with heldProcl := some (b, p) }
  else sendProclamations d b (some p)

/-- The change of ERA has been cancelled: the copies that it held go out under the unchanged mode (R43). -/
def releaseProclamation (d : Dev) : Dev :=
  match d.join.heldProcl with
  | none => d
  | some (b, p) =>
    if pendingFn d 4 then d
    else
      let d := withJoin d fun j => { j with heldProcl := none }
      if d.join.electing then copyProclamation d b p else d

/-! ### Taking and leaving an era -/

def noHops : Vector (Option (BitVec 8)) 16 := Vector.replicate 16 none

/-- Membership data of an era just taken. -/
def freshJoin (j : Join) : Join :=
  { j with
    topoValid := false
    edges := []
    members := []
    segments := []
    electing := false
    best := none
    hopsAt := noHops
    parent := none
    children := []
    attached := false
    merging := false
    heldProcl := none
    reports := []
    joins := []
    firstJoin := none
    admitting := []
    lost := []
    removing := []
    downReports := [] }

/-- Placement changes take effect: SET_PLACEMENT commands that wait for them have less to wait for. -/
def switchPlacement (d : Dev) (mask : BitVec 10) : Dev :=
  let upd := fun (r : Running) => match r.wait with
    | .placement m => { r with wait := .placement (m &&& ~~~mask) }
    | _ => r
  withFpl { d with running := d.running.map upd } fun f => { f with active := f.active ^^^ mask, event := f.event ||| mask }

/-- Pending changes of TREE and ERA take effect as a new era begins (Table 1-5, R52); in the hold the boundary is
kept for the resumption (R51). -/
def eraPlacement (d : Dev) : Dev :=
  if d.pwr.hold then withFpl d fun f => { f with eraPassed := true }
  else
    let take := fun (n : Nat) => d.fpl.mode.getLsbD n != d.fpl.active.getLsbD n
    let mask := BitVec.ofNat 10 (bitAt (take 3) 3 + bitAt (take 4) 4)
    switchPlacement d mask

/-- The plan of the tick that an era change without announcement cuts off: nothing of it runs, and its
chunks are planned again in the new era (R113, R115). -/
def dropPlan (d : Dev) : Dev :=
  let again := fun (w : Work) => { w with planned := none, deadline := none }
  withPlan { d with work := d.work.map again } fun p => { p with
    valid := false, entries := [], taken := 0, assigned := [], alone := [], displaced := [] }

/-- Period, holiday spacing and leap floor of R102. -/
def carriedSettings (d : Dev) : BitVec 10 × BitVec 3 × BitVec 4 := d.tik.carried.getD (10, d.tik.holiday, 0)

def eraFrame (p : Procl) (master : BitVec 12) (hops : BitVec 8) : List Byte :=
  eraFrameBytes ⟨p.priority, hops, p.era, p.serial, master.zeroExtend 16⟩

/-- An era frame on every up port but `from`. -/
def sendEraFrames (d : Dev) (p : Procl) (master : BitVec 12) (hops : BitVec 8) (except : Option Port) : Dev :=
  ((upPorts d).filter fun q => except != some q).foldl (fun d q => sendCtl d q 0 0x03 (eraFrame p master hops)) d

/-- The device becomes master and establishes an era (R514, R521, R102). Tick 0 begins two boundaries
later. -/
def establishEra (d : Dev) (e : BitVec 16) (priority : BitVec 4) : Dev :=
  let d := dropPlan (if d.tik.eraValid then failSetTicks (endAllGroups d) else d)
  let (p, h, f) := carriedSettings d
  let own : Procl := ⟨priority, d.fuses.serial, e, 0⟩
  let d := setLocked d false
  let d := withTik d fun t => { t with
    era := e
    tick := 0
    offset := 0
    starting := 2
    eraValid := true
    period := p
    leapNext := none
    leapOwed := 0
    windowSum := 0
    lateInWindow := false
    holidayForce := h
    leapFloor := f
    carried := some (p, h, f)
    isMaster := true
    silent := false
    source := 3
    holdover := false
    almanacLost := false
    sinceFrame := 0
    holdoverTicks := 0
    lockRun := 0
    childReports := 0
    zeroTicks := 0
    lastReport := 0
    change := none
    deferred := []
    lastEra := 0
    sinceEra := 0 }
  let d := withTik d fun t => { t with leap := effectiveFloor d p.toNat f }
  let d := withJoin d fun j => { freshJoin j with
    master := some (own, j.member)
    highEra := maxEra j.highEra e }
  let d := eraPlacement (traceAlmanac (setTikEvent d 0) 1)
  sendEraFrames d own d.join.member 0 none

/-- The device leaves its era: its groups and handoffs end, and it counts ticks of its own (R113, R529,
R705). -/
def leaveEra (d : Dev) : Dev :=
  let d := dropPlan (if d.tik.eraValid then failSetTicks (endHandoffs (endAllGroups d) 0x0503) else d)
  let d := setLocked d false
  let d := withTik d fun t => { t with
    era := 0
    tick := 0
    offset := 0
    starting := 0
    eraValid := false
    leap := 0
    leapNext := none
    leapOwed := 0
    windowSum := 0
    lateInWindow := false
    isMaster := false
    silent := false
    source := 0
    holdover := false
    almanacLost := false
    sinceFrame := 0
    holdoverTicks := 0
    lockRun := 0
    childReports := 0
    zeroTicks := 0
    lastReport := 0
    change := none
    deferred := []
    lastEra := 0
    sinceEra := 0 }
  withJoin d fun j => { freshJoin j with master := none }

/-! ### The parent of a member (R515, R527) -/

/-- The up port with the least hop count among those allowed, the lowest on a tie. -/
def bestParent (d : Dev) (allowed : Port → Bool) : Option Port :=
  let cands := ((upPorts d).filter allowed).filterMap fun p => (d.join.hopsAt[p]).map fun h => (p, h.toNat)
  (cands.foldl (fun best e => match best with
    | some b => if e.2 < b.2 then some e else some b
    | none => some e) none).map (·.1)

/-- The port becomes the distribution parent; the parent hears of it. -/
def attachTo (d : Dev) (p : Port) : Dev :=
  if d.join.parent = some p then d
  else sendDisc (withJoin d fun j => { j with parent := some p, children := j.children.filter (· != p) }) p attachBody

/-! ### What the master does with reports (R509, R519, R524, R525) -/

/-- A member number that two serials claim: the higher serial is excluded and told (R509). -/
def excludeDuplicate (d : Dev) (s : BitVec 64) : Dev :=
  if s = d.fuses.serial then withJoin d fun j => { j with duplicate := true, topoValid := false }
  else
    let keep := fun (r : ReportBody) => r.serial != s
    let d := withJoin d fun j => { j with
      reports := j.reports.filter keep, joins := j.joins.filter keep, admitting := j.admitting.filter keep }
    sendDown d (duplicateBody s)

/-- The serial that stands for a number at the master, if another claims it. -/
def rivalOf (d : Dev) (b : ReportBody) : Option (BitVec 64) :=
  if b.member = d.join.member && b.serial != d.fuses.serial then some d.fuses.serial
  else ((d.join.reports ++ d.join.joins ++ d.join.admitting).find? fun r => r.member = b.member && r.serial != b.serial).map (·.serial)

def putReport (b : ReportBody) (l : List ReportBody) : List ReportBody := l.filter (fun r => r.serial != b.serial) ++ [b]

/-- A join request is kept until the master acts on it; the later one of a device stands (R524, R536). -/
def recordJoin (d : Dev) (b : ReportBody) : Dev :=
  withJoin d fun j => { j with joins := putReport b j.joins, firstJoin := some (j.firstJoin.getD d.tik.tick) }

/-- Members all of whose topology edges the other ends report down (R525). -/
def newlyLost (d : Dev) : List (BitVec 12) :=
  d.join.members.filter fun m => m != d.join.member && !d.join.lost.contains m
    && (let es := d.join.edges.filter fun e => e.1 = m || e.2 = m
        !es.isEmpty && es.all fun e => d.join.downReports.contains (if e.1 = m then (e.2, m) else (e.1, m)))

/-- The master marks a member lost, tells the members, and plans its removal. -/
def markLost (d : Dev) (m : BitVec 12) : Dev :=
  let d := withJoin d fun j => { j with lost := j.lost ++ [m], firstJoin := some (j.firstJoin.getD d.tik.tick) }
  loseMember (sendDown d (lostBody m)) m

/-- A member's link report once the topology is formed: the ends of its edges that are up and down. -/
def linkChanges (d : Dev) (b : ReportBody) : Dev :=
  let mine := d.join.edges.filterMap fun e => if e.1 = b.member then some e.2 else if e.2 = b.member then some e.1 else none
  let down := (mine.filter fun x => !b.links.any fun l => l.1 = x).map fun x => (b.member, x)
  let d := withJoin d fun j => { j with
    reports := putReport b j.reports
    downReports := (j.downReports.filter fun e => e.1 != b.member) ++ down }
  (newlyLost d).foldl markLost d

/-- A report or join request whose number no other device claims. Once the topology is formed, the report of a device
that is no member of it counts as a join request (R519). -/
def keepReport (d : Dev) (b : ReportBody) (joining : Bool) : Dev :=
  let member := d.join.members.contains b.member && !d.join.lost.contains b.member
    && d.join.reports.any fun r => r.serial = b.serial && r.member = b.member
  if joining then recordJoin d b
  else if !d.join.topoValid then withJoin d fun j => { j with reports := putReport b j.reports }
  else if member then linkChanges d b
  else recordJoin d b

/-- A link report or join request reaches the master: of two devices of one number the lower serial stays (R509). -/
def masterReport (d : Dev) (b : ReportBody) (joining : Bool) : Dev :=
  match rivalOf d b with
  | some s =>
    if s.toNat < b.serial.toNat then excludeDuplicate d b.serial else keepReport (excludeDuplicate d s) b joining
  | none => keepReport d b joining

/-- Numbers that the join requests change: the old and the new one of a device that has reported before (R507). -/
def renumbered (reports joins : List ReportBody) : List (BitVec 12 × BitVec 12) :=
  joins.filterMap fun b => (reports.find? fun r => r.serial = b.serial && r.member != b.member).map fun r => (r.member, b.member)

/-- A report whose links name renumbered peers by their new numbers. -/
def renameLinks (new : List (BitVec 12 × BitVec 12)) (b : ReportBody) : ReportBody :=
  { b with links := b.links.map fun e => (((new.find? fun x => x.1 = e.1).map (·.2)).getD e.1, e.2) }

/-- This device's links have changed (R525): its report goes to the master. -/
def reportLinks (d : Dev) : Dev :=
  if d.tik.isMaster then (if d.join.topoValid then linkChanges d (ownReport d false) else d)
  else if isMember d then sendUp d (reportBody 2 (ownReport d false)) else d

end Sys2Proof.Machine
end

