-- ==== Sys2Proof/Machine/Ports.lean ====
section
/-!
DEFINITION. The loss of a port (R370, R371, R377), what it does to groups, handoffs and the distribution
tree (R415, R416, R440, R525, R527), and the failure of the device (R602).
-/
namespace Sys2Proof.Machine

def adminBox : Mbx := ⟨64, by decide⟩

/-- A fault record of no command (Table 15-4, kind 10). -/
def traceFault (d : Dev) (status : Status) (unit : Nat) : Dev := traceDevice d 10 unit (status.toNat + unit % 256 * 2 ^ 16)

/-- Credit state, queues and received parts of a link are discarded; the counters stay (R371). -/
def clearLink (s : PortSt) : PortSt :=
  { s with
    sent := Vector.replicate 4 0
    limit := Vector.replicate 4 0
    received := Vector.replicate 4 0
    advertised := Vector.replicate 4 0
    rotate := 0
    queue := []
    held := []
    partials := []
    acked := []
    grants := []
    helloSent := false
    helloHeard := false
    macLearned := false
    swap := none
    yielded := false
    delaySent := none }

/-! ### Chunks handed back (R370) -/

/-- The destinations of a chunk without port `p`. -/
def withoutPort (p : Port) (w : Work) : Work :=
  let un := w.unacked.filter (· != p)
  let after := fun (ps : List Port) => if !ps.isEmpty then Stage.send ps else if un.isEmpty then .done else .held un
  match w.stage with
  | .send ps => { w with unacked := un, stage := after (ps.filter (· != p)) }
  | .held _ => { w with unacked := un, stage := after [] }
  | _ => { w with unacked := un }

/-- One destination in place of another; the chunk is to be sent there (R370, R415). -/
def movePort (p q : Port) (w : Work) : Work :=
  if !w.unacked.contains p then w
  else
    let un := w.unacked.map fun x => if x = p then q else x
    let ps := match w.stage with
      | .send ps => (ps.filter (· != p)) ++ [q]
      | _ => [q]
    { w with unacked := un, stage := .send ps }

def groupWorksMap (d : Dev) (h : Nat) (f : Work → Work) : Dev :=
  ((d.work.filter fun w => w.cls = groupClass && w.handle.toNat = h).map f).foldl
    (fun d w => toStage (putWork d { w with stage := match findWork d w.cls w.handle w.seq with
      | some x => x.stage
      | none => w.stage }) w w.stage) d

/-- The oldest sequence that the parent on this port has not acknowledged (R415). -/
def oldestUnacked (d : Dev) (h : Nat) (g : Group) (p : Port) : BitVec 32 :=
  let mine := fun (w : Work) => w.unacked.contains p || match w.stage with
    | .gather | .engine | .codec => true
    | _ => false
  oldestOf g.nextSeq (((openWorks d h).filter mine).map (·.seq))

/-- The port to the parent is lost: the orphan asks its alternate (R415), or the group faults (R416). -/
def orphanGroup (d : Dev) (h : Nat) (g : Group) (p : Port) : Dev :=
  match treeFind g.tree d.join.member with
  | none => faultGroup d h 0x0507 none
  | some e =>
    if !g.derived || !e.altValid then faultGroup d h 0x0507 none
    else match portTo d e.alternate with
      | none => faultGroup d h 0x0507 none
      | some q =>
        let q0 := oldestUnacked d h g p
        let d := withGroup d h fun g => { g with adopting := some q0 }
        sendRequest d q false (BitVec.ofNat 16 h) 2 (requestOps [(4, 4, q0.toNat)])

/-- The first sequence that the member has not acknowledged to a child: neither is its chunk held and acknowledged, nor
has it been added. -/
def firstUnacked (d : Dev) (h : Nat) (g : Group) (n : Nbr) : BitVec 32 :=
  let floor := groupFloor d h g
  let taken := fun (q : BitVec 32) => ((rxOf g n.port q).any fun x => x.unchecked.isNone)
    || ((findWork d groupClass (BitVec.ofNat 16 h) q).any fun w => !beforeProof w)
  let qs := (List.range g.slotsS.toNat).map fun i => floor + BitVec.ofNat 32 i
  (qs.find? fun q => !taken q).getD (floor + BitVec.ofNat 32 g.slotsS.toNat)

/-- The port to a child is lost: the child leaves the fan-in from the first sequence not acknowledged to it, and what
it has sent of that and later chunks goes (R416). -/
def dropChild (d : Dev) (h : Nat) (g : Group) (n : Nbr) : Dev :=
  let alt := match treeFind g.tree n.member with
    | some e => e.altValid
    | none => false
  if !g.derived || !alt then faultGroup d h 0x0507 none
  else
    let q := firstUnacked d h g n
    let d := withGroup d h fun g => { g with
      children := g.children.filter fun c => c.port != n.port
      received := g.received.filter fun x => x.port != n.port || seqBefore x.seq q }
    groupWorksMap d h (withoutPort n.port)

def groupLosesPort (p : Port) (d : Dev) (h : Nat) : Dev :=
  match groupOf d h with
  | none => d
  | some g =>
    if g.faulted.isSome then d
    else match nbrOn g p with
      | none => d
      | some n => if g.parent.any fun x => x.port = p then orphanGroup d h g p else dropChild d h g n

/-- The chunks of a handoff that were on this port go out on another, or the handoff fails (R440). -/
def handoffLosesPort (p : Port) (d : Dev) (r : Running) : Dev :=
  match r.cmd with
  | .kvHandoff o =>
    if r.wait != .handoffReply && r.wait != .handoffDone then d
    else
      let ports := portsTo d (o.destMember.truncate 12)
      if ports.isEmpty then handoffFail d r o 0x0507
      else
        let move := fun (w : Work) =>
          if w.owner = r.id && isHandoff w && w.unacked.contains p then
            match ports[w.seq.toNat % ports.length]? with
            | some q => movePort p q w
            | none => w
          else w
        { d with work := d.work.map move }
  | _ => d

/-- KV_STAGE commands that wait for a handoff that fails (R466). -/
def failWaitingStages (d : Dev) (h : BitVec 16) (st : Status) : Dev :=
  (d.running.filter fun r => r.wait = .incoming && r.hdr.handle = h).foldl (fun d r => turnEnd d r st 0) d

/-- An incoming handoff whose port is lost comes on another, or ends (R440; DEDUCED, log 24). -/
def incomingLosesPort (p : Port) (d : Dev) (i : Incoming) : Dev :=
  if i.port != p then d
  else match portTo d i.fromMember with
    | some q => putIncoming d { i with port := q }
    | none => failWaitingStages (dropIncoming d i) i.stream 0x0507

/-- The distribution tree loses a link (R527). -/
def treeLosesPort (d : Dev) (p : Port) : Dev :=
  let lost := d.join.parent = some p
  let d := withJoin d fun j => { j with
    children := j.children.filter (· != p)
    hopsAt := j.hopsAt.set p none
    parent := if j.parent = some p then none else j.parent }
  if !lost then d
  else match bestParent d fun q => !d.join.children.contains q with
    | some q => attachTo d q
    | none => d

/-- PORT_DOWN of a port that trains or is up. `final` is its state afterwards: training again, or down
when the device has failed. -/
def losePort (d : Dev) (p : Port) (final : BitVec 3) : Dev :=
  let wasUp := linkStands d p
  let d := portEvent (withPort d p fun s => { clearLink s with state := final }) p 1
  let d := traceFault d 0x0507 (68 + p.val)
  let d := eventTo d adminBox 0x0507 [(20, 1, 5), (22, 1, p.val)]
  let d := (d.groups.map (·.1)).foldl (groupLosesPort p) d
  let d := d.running.foldl (handoffLosesPort p) d
  let d := d.incoming.foldl (incomingLosesPort p) d
  let d := treeLosesPort d p
  if wasUp then reportLinks d else d

/-- R602. -/
def failDevice (d : Dev) : Dev :=
  if d.rpr.failed then d
  else
    let d := withRpr d fun x => { x with failed := true, event := x.event ||| 0x200 }
    let d := traceFault d 0x0501 deviceUnit
    let d := (d.groups.map (·.1)).foldl (fun d h => faultGroup d h 0x0503 none) d
    let d := endHandoffs d 0x0503
    allPorts.foldl (fun d p => if portAlive (portAt d p) then losePort d p 4 else d) d

end Sys2Proof.Machine
end

