-- ==== Sys2Proof/Machine/Repairs.lean ====
section
/-!
DEFINITION. Repair requests, spares and copies (sections 14.2, 14.8), as the commands and the repair rows
share them.
-/
namespace Sys2Proof.Machine

def setRprEvent (d : Dev) (b : Nat) : Dev := withRpr d fun x => { x with event := x.event ||| BitVec.ofNat 10 (2 ^ b) }

def physAt (d : Dev) (p : Nat) : Phys := vget d.phys p Phys.reset
def setPhys (d : Dev) (p : Nat) (f : Phys → Phys) : Dev := { d with phys := vset d.phys p (f (physAt d p)) }

/-- The lowest-numbered spare (R590). -/
def freeSpare (d : Dev) : Option Nat := (List.range 68).find? fun p => (physAt d p).state = 1

/-- The failed physical tile that a logical tile ran on. -/
def copyOf (d : Dev) (logical : BitVec 6) : Option SliceCopy := d.rpr.copies.find? fun c => c.logical = logical

/-- A copy of a slice to the lowest spare begins, if there is one (R590). -/
def startCopy (d : Dev) (source : Nat) : Dev :=
  let l := (physAt d source).logical
  match freeSpare d with
  | none => d
  | some s =>
    if (copyOf d l).isSome then d
    else
      withRpr (setPhys d s fun x => { x with state := 4, logical := l }) fun x =>
        { x with copies := x.copies ++ [⟨l, source, s, false⟩] }

/-- A lane swap is proposed for the next holiday of the port at least 4 ticks ahead (R366). -/
def nextHoliday (d : Dev) (u t : Nat) : Nat :=
  let h := 2 ^ ((holidayNow d).toNat + 4)
  t + (u % h + h - t % h) % h

def swapBody (kind : Byte) (lane : BitVec 2) (tick : BitVec 48) : List Byte :=
  [kind, BitVec.ofNat 8 lane.toNat] ++ beBytes 6 tick.toNat

/-- The proposal goes out (R366); in REPAIR host-assisted mode the swap itself awaits its approval (R367). -/
def proposeSwap (d : Dev) (p : Port) (lane : BitVec 2) (approved : Bool) : Dev :=
  let t := BitVec.ofNat 48 (nextHoliday d (68 + p.val) (d.tik.tick.toNat + 4))
  sendCtl (withPort d p fun s => { s with swap := some ⟨lane, t, false, true, approved⟩ }) p 3 0x32 (swapBody 1 lane t)

/-- The swap may be made: the proposal that stands is approved while its tick lies ahead, and a new one goes out once
it does not, or none stands (R367; DEDUCED, log 42). One that has given way to the peer's waits for that (R374). -/
def approveSwap (d : Dev) (p : Port) (lane : BitVec 2) : Dev :=
  match (portAt d p).swap with
  | some w =>
    if !w.ours then d
    else if w.lane = lane && d.tik.tick.toNat < w.tick.toNat then
      withPort d p fun s => { s with swap := some { w with approved := true } }
    else proposeSwap d p lane true
  | none => proposeSwap d p lane true

def portOfNat (n : Nat) : Option Port := if h : n < 16 then some ⟨n, h⟩ else none

/-- A repair that may go ahead (hardware mode, or approved): a tile's copy begins and a lane's swap is
proposed at once, others wait for their holiday (R590, R593, R596, R598, R366). -/
def scheduleRepair (d : Dev) (q : RepairReq) : Dev :=
  if q.kind = 1 then startCopy d q.unit.toNat
  else if q.kind = 3 then
    match portOfNat (q.detail.toNat % 256) with
    | some p => approveSwap d p (BitVec.ofNat 2 (q.detail.toNat / 256))
    | none => d
  else withRpr d fun x => { x with approved := x.approved ++ [q] }

/-- A free place of RPR_REQ takes the next request, which is told to the admin mailbox (R608). -/
def postRequests : Nat → Dev → Dev
  | 0, d => d
  | fuel + 1, d =>
    match d.rpr.waiting, (List.range 16).find? fun i => (vget d.rpr.posted i none).isNone with
    | q :: rest, some i =>
      let d := setRprEvent (withRpr d fun x => { x with posted := vset x.posted i (some q), waiting := rest }) 7
      postRequests fuel (eventTo d adminBox 0 [(20, 1, 6), (24, 4, q.id.toNat)])
    | _, _ => d

/-- A REPAIR change is pending: no new remap is scheduled (Table 1-5). -/
def repairPending (d : Dev) : Bool := pendingFn d 7

/-- A repair falls due: it is scheduled in hardware mode, and becomes a request in host-assisted mode
(R608). While a change of REPAIR is pending it is held (R36), but for a failed tile's remap, which the mode in force
covers (R50). Requests found before INIT are posted by it (R618). -/
def requestRepair (d : Dev) (kind : Byte) (unit : Nat) (detail : Word) : Dev :=
  if repairPending d && kind != 1 then withRpr d fun x => { x with held := x.held ++ [⟨0, kind, BitVec.ofNat 16 unit, detail⟩] }
  else if !hostMode d 7 then scheduleRepair d ⟨0, kind, BitVec.ofNat 16 unit, detail⟩
  else
    let q : RepairReq := ⟨d.rpr.nextId, kind, BitVec.ofNat 16 unit, detail⟩
    -- the proposal of a lane swap goes to the peer meanwhile (R366, R367)
    let d := match (if kind = 3 then portOfNat (detail.toNat % 256) else none) with
      | some p => proposeSwap d p (BitVec.ofNat 2 (detail.toNat / 256)) false
      | none => d
    let d := withRpr d fun x => { x with nextId := x.nextId + 1, waiting := x.waiting ++ [q] }
    if d.glb.initialised then postRequests 16 d else d

/-- The same repair is already due. -/
def repairKnown (d : Dev) (kind : Byte) (unit : Nat) (detail : Word) : Bool :=
  (d.rpr.posted.toList.filterMap id ++ d.rpr.waiting ++ d.rpr.approved ++ d.rpr.declined ++ d.rpr.held).any fun q =>
    q.kind = kind && q.unit.toNat = unit && q.detail = detail

/-- A request for this tile waits for the host. -/
def tileRequested (d : Dev) (p : Nat) : Bool :=
  (d.rpr.posted.toList.filterMap id ++ d.rpr.waiting ++ d.rpr.held).any fun q => q.kind = 1 && q.unit.toNat = p

/-- REPAIR_APPROVE (R608–R610, Table 14-7). -/
def startRepairApprove (d : Dev) (request : Word) (decision : Byte) : Begin :=
  if !hostMode d 7 then .fail 0x0120
  else if 1 < decision.toNat then .fail 0x0104
  else match d.rpr.posted.toList.findSome? fun o => o.bind fun q => if q.id = request then some q else none with
    | none => .fail 0x0103
    | some q =>
      let clear := fun (o : Option RepairReq) => if o = some q then none else o
      let d := withRpr d fun x => { x with posted := vmap clear x.posted }
      let d := if decision = 0 then scheduleRepair d q else withRpr d fun x => { x with declined := x.declined ++ [q] }
      .done (postRequests 16 d) 0

/-- REPAIR changes to hardware mode: what was declined since reset is scheduled (R611). -/
def scheduleDeclined (d : Dev) : Dev :=
  d.rpr.declined.foldl scheduleRepair (withRpr d fun x => { x with declined := [] })

/-- The repairs that a change of REPAIR has held are scheduled under the new mode (R36). -/
def releaseRepairs (d : Dev) : Dev :=
  d.rpr.held.foldl (fun d q => requestRepair d q.kind q.unit.toNat q.detail) (withRpr d fun x => { x with held := [] })

/-- No remap is scheduled, running or awaiting approval, a lane swap among them (Table 1-5). -/
def repairIdle (d : Dev) : Bool :=
  d.rpr.copies.isEmpty && d.rpr.approved.isEmpty && d.rpr.waiting.isEmpty && d.rpr.posted.toList.all (·.isNone)
    && allPorts.all fun p => (portAt d p).swap.isNone

/-- An entry appended to the field map in use; a full copy gives way to the other (R585). -/
def putMapEntry (d : Dev) (kind : Byte) (unit : Nat) (detail : Word) : Dev :=
  let e : MapEntry := ⟨kind, BitVec.ofNat 16 unit, detail, now d, true⟩
  let m := mapCopyInUse d
  let setCopy := fun (b : Bool) (c : MapCopy) (d : Dev) =>
    withFlash d fun f => if b then { f with mapB := c } else { f with mapA := c }
  if !d.rpr.mapValid then
    -- neither copy qualified: a fresh copy A begins
    withRpr (setCopy false ⟨true, 0, d.fuses.serial, [e]⟩ d) fun x => { x with mapValid := true, mapCopyB := false }
  else if m.entries.length < 15358 then setCopy d.rpr.mapCopyB { m with entries := m.entries ++ [e] } d
  else
    let hard := fun (x : MapEntry) => x.kind = 4 && m.entries.any fun y => y.kind = 5 && y.unit = x.unit && y.detail = x.detail
    let kept := m.entries.filter fun x => x.crcOk && !hard x
    let d := setCopy (!d.rpr.mapCopyB) ⟨true, m.generation + 1, d.fuses.serial, kept ++ [e]⟩ d
    withRpr (setCopy d.rpr.mapCopyB .empty d) fun x => { x with mapCopyB := !x.mapCopyB }

/-- A repair takes effect: its entry goes into the field map. Whether the flash write fails is left open
(log 8); the repair stands all the same (R585). -/
def appendMap (d : Dev) (kind : Byte) (unit : Nat) (detail : Word) : Dev :=
  let (k, d) := draw d
  if Config.choice k % 2 = 1 then setRprEvent d 8 else putMapEntry d kind unit detail

end Sys2Proof.Machine
end

