-- ==== Sys2Proof/Machine/Admin.lean ====
section
/-!
DEFINITION. Starting the admin commands of Table 5-6 (LOAD_TREE, OPEN_GROUP and CLOSE_GROUP are in
`Exchange.lean`, REPAIR_APPROVE in `Repairs.lean`).
-/
namespace Sys2Proof.Machine

/-! ### INIT (R200, R231, R619, R654, R658, R665) -/

/-- The Annals size an operand gives, in MiB. -/
def annalsSize (a : Word) : Option Nat :=
  if a = 0 then some 1024
  else if a.toNat % 256 = 0 && a.toNat ≤ 8192 then some a.toNat else none

/-- The carve-out takes its size and a new control page, the ring is empty. -/
def placeAnnals (d : Dev) (s : Nat) : Dev :=
  let moved := s != d.annalsMiB
  let d := { d with annalsMiB := s }
  let base := annalsBase d
  let d := withTrc d fun t => { t with base := BitVec.ofNat 48 base, written := 0, resumeAt := 0, full := false }
  let d := { d with mem := memErase d.mem base (if moved then hbmTop else base + 4096) }
  store d base (controlPage d)

def startInit (d : Dev) (annals : Word) : Begin :=
  if d.glb.initialised then .fail 0x0120
  else match annalsSize annals with
    | none => .fail 0x0104
    | some s =>
      let d := placeAnnals d s
      if activeCount d < 32 then .ended (failDevice d) 0x0501 0
      else
        let d := postRequests 16 (withGlb d fun g => { g with initialised := true })
        .done d (result [(20, 2, d.join.member.toNat), (22, 1, d.join.position.toNat), (23, 1, activeCount d)])

/-! ### SET_PLACEMENT (R42, R47, R48) -/

/-- FPL_MODE takes a value; a SET_PLACEMENT one of whose awaited bits is back at its active value is
superseded, and what a cancelled change of ERA held goes out (R43). -/
def writeMode (d : Dev) (mode : BitVec 10) : Dev :=
  let d := withFpl d fun f => { f with mode := mode }
  let back := fun (r : Running) => match r.wait with
    | .placement m => (m &&& ~~~(d.fpl.mode ^^^ d.fpl.active)) != 0
    | _ => false
  releaseProclamation ((d.running.filter back).foldl (fun d r => finishRunning d r 0x0108 0) d)

def startSetPlacement (d : Dev) (c : Caller) (mask value : BitVec 10) : Begin :=
  let wait := mask &&& (value ^^^ d.fpl.active)
  let d := writeMode d ((d.fpl.mode &&& ~~~mask) ||| (value &&& mask))
  if wait = 0 then .done d 0 else .go d (newRunning d c (.setPlacement mask value) (.placement wait))

/-! ### SET_TICK (R99, R101, R103) -/

def changeResult (d : Dev) : BitVec 96 :=
  match d.tik.change with
  | some c => result [(20, 2, (nextEra d.tik.era).toNat), (24, 6, c.lastTick.toNat + 1)]
  | none => 0

def startSetTick (d : Dev) (c : Caller) (period : BitVec 16) (floor holiday : Byte) : Begin :=
  let p := period.toNat
  if p < 2 || 1000 < p || 8 < floor.toNat || 6 < holiday.toNat then .fail 0x0104
  else
    let (d, place) := requestChange d ⟨0, period.truncate 10, holiday.truncate 3, floor.truncate 4⟩
    .go d { newRunning d c (.setTick period floor holiday) .eraChange with chunks := place }

/-! ### BIND_TENANT (R212–R214, R629) -/

/-- Another label is bound while the open setting is in force. -/
def openRefuses (d : Dev) (label : Byte) : Bool :=
  d.dbg.openSet && (List.range 64).any fun n =>
    let m := vget d.mbx n Mailbox.reset
    m.bound && m.label != label

def mbxOfNat (n : Nat) : Option Mbx := if h : n < 65 then some ⟨n, h⟩ else none

def startBindTenant (d : Dev) (mailbox label : Byte) (unbind : Bool) : Begin :=
  match mbxOfNat mailbox.toNat with
  | none => .fail 0x0104
  | some n =>
    if n.val = 64 then
      (if unbind then .fail 0x0104 else .done (withMbx d n fun m => { m with label := label }) 0)
    else if d.mbx[n].enabled then .fail 0x0120
    else if unbind then .done (withMbx d n fun m => { m with bound := false, label := 0 }) 0
    else if openRefuses d label then .fail 0x0120
    else .done (withMbx d n fun m => { m with bound := true, label := label }) 0

/-! ### ALLOC and FREE (R234, R701) -/

def startAlloc (d : Dev) (label memory : Byte) (size : BitVec 64) : Begin :=
  let n := size.toNat
  if 1 < memory.toNat || n = 0 || n % 65536 != 0 then .fail 0x0104
  else
    let hbm := memory = 1
    match lowestRun (busyRanges d hbm) hbm n 65536, lowestFree d.allocs 0 (d.allocs.length + 1) with
    | some a, some h => .done { d with allocs := assocSet h ⟨label, hbm, a, n⟩ d.allocs } (result [(20, 4, h), (24, 6, a)])
    | _, _ => .fail 0x0205

/-- A live descriptor holds the allocation, or an open object keeps pages, residuals or staging in it. -/
def allocHeld (d : Dev) (h : Nat) (a : Alloc) : Bool :=
  let meets := fun (x n : Nat) => x < a.addr + a.size && a.addr < x + n
  (d.descs.any fun e => e.2.allocation.toNat = h)
    || (d.streams.any fun e => e.2.pageList.any fun p => meets p (pageWorst e.2))
    || (d.holds.any fun x => meets x.2.1 x.2.2)
    || (d.resStores.any fun e => meets (resKey e.desc) e.desc.foot &&
      d.buckets.any fun b => (descOf d b.2.ops.residual).any (sameStore e.desc))

def startFree (d : Dev) (allocation : Word) : Begin :=
  match assoc allocation.toNat d.allocs with
  | none => .fail 0x0114
  | some a =>
    if allocHeld d allocation.toNat a then .fail 0x0121
    else .done { d with
      allocs := assocDel allocation.toNat d.allocs
      resStores := d.resStores.filter fun e => !(a.addr ≤ resKey e.desc && resKey e.desc < a.addr + a.size) } 0

/-! ### FW_UPDATE (R233) -/

def startFwUpdate (d : Dev) (address : BitVec 48) (length : Word) : Begin :=
  let n := length.toNat
  if n = 0 || 15 * mib < n then .fail 0x0104
  else match sourceFault d address.toNat n with
    | some st => .fail st
    | none =>
      let bs := load d address.toNat n
      if Config.imageAuthentic bs then .done (withFlash d fun f => { f with image := bs }) 0 else .fail 0x0306

end Sys2Proof.Machine
end

