-- ==== Sys2Proof/Machine/Wake.lean ====
section
/-!
DEFINITION. What follows at once from an effect: chunks that can advance, commands whose turn or wait has
come, commands whose work is done. Every command but the plainest ends with `finish`.
-/
namespace Sys2Proof.Machine

def callerOf (r : Running) : Caller := ⟨r.mbx, r.hdr, r.label, r.mbx = adminBox⟩

/-! ### The end of a command's work -/

/-- Bytes that a command's chunks came to, in sequence order. -/
def parcelOf (ws : List Work) : List Byte := ws.flatMap (·.parcel)

/-- The chunks of a command that has ended are forgotten. -/
def clearWorks (d : Dev) (r : Running) : Dev := dropWorks d fun w => w.owner = r.id && w.stage = .done

/-- The output descriptor of TOPK, QUANT or LOWRANK takes the parcel (R228, R266). -/
def endCompress (d : Dev) (r : Running) (o : CompressOps) : Dev :=
  let (d, dropped) := writeParcel d o.output (parcelOf (worksOf d r.id))
  finishRunning (clearWorks d r) r 0 (fillResult r.filled (satAdd r.dropped dropped) r.spills)

/-- Every chunk or page of a command is done. -/
def finishOwner (d : Dev) (r : Running) : Dev :=
  match r.failed with
  | some st => finishRunning (clearWorks d r) r st 0
  | none =>
    match r.cmd with
    | .topk o | .quant o | .lowrank o => endCompress d r o
    | .kvPut layer _ positions _ => endPut (clearWorks (storeOverTail d r r.hdr.handle.toNat layer.toNat) r) r r.hdr.handle.toNat layer.toNat positions.toNat
    | .kvStage .. => endStage (clearWorks d r) r
    | .kvCommit _ => turnEnd (clearWorks d r) r 0 r.result
    | _ => finishRunning (clearWorks d r) r 0 (fillResult r.filled r.dropped r.spills)

/-! ### Turns (R154, R246) -/

/-- The start of a bucket command made at its turn, as it was when it took its place. -/
def bucketTurn (d : Dev) (r : Running) : Begin :=
  match r.cmd with
  | .bucketOpen o => startBucketOpen d (callerOf r) o (some r)
  | .bucketAdd b k => startBucketAdd d (callerOf r) b k
  | .bucketSeal b => startBucketSeal d (callerOf r) b
  | .residualFlush b f s t => startResidualFlush d (callerOf r) b f s t
  | _ => .fail 0x0508

/-- A bucket command, or a flush that has not formed its chunk, at its turn, under the placement and key in force when it started (R36, R155). -/
def rerunBucket (d : Dev) (r : Running) : Dev :=
  let next := d.nextId
  let seed := d.seed
  let active := d.fpl.active
  let back := fun (e : Dev) => withFpl { e with nextId := next, seed := seed } fun f => { f with active := active }
  let e := withFpl { d with running := d.running.filter (fun x => x.id != r.id), nextId := r.id, seed := r.seed }
    fun f => { f with active := r.modes }
  match bucketTurn e r with
  | .fail st => finishRunning d r st 0
  | .done e res => finishRunning (stampNew d (back e) r.rung) r 0 res
  | .ended e st res => finishRunning (stampNew d (back e) r.rung) r st res
  | .go e x => { stampNew d (back e) r.rung with running := e.running ++ [{ x with rung := r.rung }] }

def takeTurn (d : Dev) (r : Running) : Dev :=
  let h := r.hdr.handle.toNat
  match r.cmd with
  | .bucketOpen _ | .bucketAdd .. | .bucketSeal _ => rerunBucket d r
  | .topk o | .quant o | .lowrank o | .reduceToOne o => putRunning (touchStore d r.modes o.residual) { r with wait := .work }
  | .residualFlush .. => if r.chunks = 0 then rerunBucket d r else putRunning d { r with wait := .work }
  | c =>
    match streamOf d h with
    | none => turnEnd d r 0x0103 0
    | some s =>
      match c with
      | .kvPut layer first n src => turnPut d r h s layer.toNat first.toNat n.toNat src
      | .kvCommit n => turnCommit d r h s n.toNat
      | .kvStage layer first n => turnStage d r h s layer.toNat first.toNat n.toNat
      | .kvHandoff o => turnHandoff d r h s o
      | .kvEvict first n => turnEvict d r h s first.toNat n.toNat
      | .streamClose => turnClose d r h s
      | _ => turnEnd d r 0x0508 0

/-! ### Waits -/

/-- The chunks of a bucket are all done, or its work has failed (R409, R421). -/
def bucketReady (d : Dev) (b : Nat) : Bool :=
  match assoc b d.buckets with
  | none => true
  | some k => k.failed.isSome || (worksOf d (bucketOwner b)).all isDone

def sealIfReady (d : Dev) (r : Running) : Dev :=
  match r.cmd with
  | .bucketSeal b => if bucketReady d b.toNat then sealEnd d b.toNat r else d
  | _ => d

/-- An accepted handoff forms its chunks once its partial pages are encoded. -/
def formIfReady (d : Dev) (r : Running) : Dev :=
  match r.cmd with
  | .kvHandoff o => if r.chunks = 0 && partialsDone d r then formHandoff d r o else d
  | _ => d

def stageIfReady (d : Dev) (r : Running) : Dev :=
  match r.cmd, streamOf d r.hdr.handle.toNat with
  | .kvStage layer first n, some s =>
    if (incomingFor d r.hdr.handle.toNat layer.toNat first.toNat n.toNat).isSome then d
    else turnStage d r r.hdr.handle.toNat s layer.toNat first.toNat n.toNat
  | _, _ => turnEnd d r 0x0103 0

def commitIfReady (d : Dev) (r : Running) : Dev :=
  match r.cmd with
  | .kvCommit n => commitStep5 d r n.toNat
  | _ => d

/-- DESTROY_DESC whose descriptor is in use no more; in BROWN_HOLD it waits for the resumption (R197, R206). -/
def destroyIfReady (d : Dev) (r : Running) (k : BitVec 16) : Dev :=
  if d.pwr.hold || descInUse d k || bucketHolds d k then d
  else
    let counts := match descOf d k with
      | some x => (x.filled, x.dropped)
      | none => (0, 0)
    finishRunning (dropDesc d k) r 0 (result [(20, 4, counts.1.toNat), (24, 4, counts.2.toNat)])

/-- A command whose turn has not come in BROWN_HOLD: KV_COMMIT does not wait for it (R251, R462). -/
def turnIfReady (d : Dev) (r : Running) : Dev :=
  match r.cmd, d.pwr.hold with
  | .kvCommit _, true => turnEnd d r 0x0206 0
  | c, _ => if mustWait d r.id r.hdr c || bucketWait d r.id c then d else takeTurn d r

/-- A running command moves on if what it waits for has come. -/
def wakeOne (d : Dev) (id : Nat) : Dev :=
  match runningOf d id with
  | none => d
  | some r =>
    match r.wait with
    | .turn => turnIfReady d r
    | .work => if (worksOf d r.id).all isDone then finishOwner d r else d
    | .birsp [] => commitIfReady d r
    | .birsp _ => d
    | .handoffDone => formIfReady d r
    | .incoming => stageIfReady d r
    | .descUses k => destroyIfReady d r k
    | .groupIdle => if groupBusy d r.hdr.handle.toNat then d
        else if bucketOn d r.hdr.handle.toNat then finishRunning d r 0x0120 0
        else finishRunning (closeGroup d r.hdr.handle.toNat) r 0 0
    | .bucketSeal => sealIfReady d r
    | .traceDrain => if r.chunks = 0 then finishRunning d r 0 (result [(20, 4, r.firstSeq.toNat)]) else d
    | .placement m => if m = 0 then finishRunning d r 0 0 else d
    | .eraChange | .handoffReply => d

/-! ### Received chunks: ACK, RE_ASK and what waits for the own command (R352, R357, R402) -/

/-- The identifiers of the command or bucket whose chunk it is; 0xFFFF where it is no chunk of an own one (Table 15-3). -/
def chunkIds (d : Dev) (cls : BitVec 8) (handle : BitVec 16) (seq : BitVec 32) : BitVec 16 × BitVec 16 :=
  let w := if cls = streamClass then findHandoff d handle seq else findWork d cls handle seq
  let hdr := w.bind fun w =>
    if bucketOwner 0 ≤ w.owner then (assoc (w.owner - bucketOwner 0) d.buckets).map (·.hdr) else (runningOf d w.owner).map (·.hdr)
  (hdr.elim 0xFFFF (·.layer), hdr.elim 0xFFFF (·.operator))

/-- A chunk event record (Table 15-4, kind 5). -/
def traceChunk (d : Dev) (event : Nat) (cls : BitVec 8) (handle : BitVec 16) (seq : BitVec 32) (p : Nat) (label : Option Byte) : Dev :=
  let ids := chunkIds d cls handle seq
  trace d 5 (68 + p) label ids.1 ids.2
    (handle.toNat + seq.toNat * 2 ^ 16 + (event + cls.toNat % 4 * 64) * 2 ^ 48 + p * 2 ^ 56) []

/-- The class a chunk's records name. -/
def chunkClass (stream : Bool) : BitVec 8 := if stream then streamClass else groupClass

/-- The receiver's view: the label of its own group or stream. -/
def traceGot (d : Dev) (event : Nat) (stream : Bool) (h : BitVec 16) (seq : BitVec 32) (p : Port) : Dev :=
  let label := if stream then (streamOf d h.toNat).map (·.label) else (groupOf d h.toNat).map (·.label)
  traceChunk d event (chunkClass stream) h seq p.val label

/-- Work that finishes during BROWN_HOLD is held for re-verification (R557). -/
def holdItem (d : Dev) (i : HoldItem) : Dev := { d with holdWork := d.holdWork ++ [i] }

/-- ACK goes out, and the chunk is known as acknowledged (R352, R356). -/
def ackChunk (d : Dev) (p : Port) (stream : Bool) (h : BitVec 16) (seq : BitVec 32) (attempt : BitVec 2)
    (pages : List (Nat × Nat)) : Dev :=
  let d := withPort d p fun s => { s with acked := ⟨stream, h, seq, [attempt]⟩ :: s.acked }
  let d := sendVc1 d p 0x10 stream h seq attempt (zeros 4)
  if d.pwr.hold then holdItem d (.received p stream h seq attempt pages) else d

def sendReAsk (d : Dev) (p : Port) (stream : Bool) (h : BitVec 16) (seq : BitVec 32) (attempt : BitVec 2)
    (reason missing : Nat) : Dev :=
  let d := sendVc1 d p 0x11 stream h seq attempt ([BitVec.ofNat 8 reason, 0, 0, 0] ++ beBytes 4 missing)
  bumpPort (traceGot d 3 stream h seq p) p 4 1

/-- The status of a chunk given up for this reason (R357). -/
def exhaustStatus (reason : Nat) : Status := if reason = 2 then 0x0301 else 0x0302

/-- RE_ASK of a group's chunk; after attempt 3 the group faults (R357). -/
def askGroup (d : Dev) (p : Port) (h : BitVec 16) (seq : BitVec 32) (attempt : BitVec 2) (reason missing : Nat) : Dev :=
  let d := sendReAsk d p false h seq attempt reason missing
  if attempt = 3 then faultGroup (portEvent d p 4) h.toNat (exhaustStatus reason) none else d

/-- The balance check of a whole chunk whose crc passed; none while it cannot be answered: the own command
is needed (R277, R414), or its blocks do not decode, which its decode entry will report (R326). -/
def chunkCheck (d : Dev) (own : Option Ctx) (bs : List Byte) : Option Bool :=
  if chunkKind bs != 0 then some true
  else match plainPayload bs with
    | some q => balanceCheck d own bs q
    | none => none

/-- A received chunk that does not match the own command faults the group (R402); one whose check had to
wait is answered now (R277, R414). -/
def settleArrival (d : Dev) (h : Nat) (x : RxChunk) : Dev :=
  match groupOf d h, findWork d groupClass (BitVec.ofNat 16 h) x.seq with
  | some g, some w =>
    if g.faulted.isSome then d
    else if chunkDiffers d g x.child w x.bytes then faultGroup d h 0x0503 none
    else match x.unchecked with
      | none => d
      | some attempt =>
        let same := fun (y : RxChunk) => y.port = x.port && y.seq = x.seq
        match chunkCheck d (ctxOf d w.owner) x.bytes with
        | some true =>
          let upd := fun (y : RxChunk) => if same y then { y with unchecked := none } else y
          ackChunk (withGroup d h fun g => { g with received := g.received.map upd }) x.port false (BitVec.ofNat 16 h) x.seq attempt []
        | some false =>
          let d := withGroup d h fun g => { g with received := g.received.filter fun y => !same y }
          askGroup d x.port (BitVec.ofNat 16 h) x.seq attempt 2 0
        | none => d
  | _, _ => d

def settleArrivals (d : Dev) : Dev :=
  d.groups.foldl (fun d e => e.2.received.foldl (fun d x => settleArrival d e.1 x) d) d

def wakePass (d : Dev) : Dev :=
  let d := advanceAll (settleArrivals d)
  (d.running.map (·.id)).foldl wakeOne d

def wakeLoop : Nat → Dev → Dev
  | 0, d => d
  | n + 1, d => wakeLoop n (wakePass d)

/-! ### Readiness (R569, R519) -/

/-- Step 9 of start-up: the Almanac is locked and the topology holds this member. -/
def checkReady (d : Dev) : Dev :=
  if d.pwr.stage = 8 && !d.glb.ready && d.tik.locked && d.join.topoValid && !d.join.duplicate then
    withPwr (withGlb d fun g => { g with ready := true }) fun x => { x with stage := 9 }
  else d

/-- Watch copies of commands that have ended. -/
def dropCopying (d : Dev) : Dev :=
  if d.dbg.copying.isEmpty then d
  else withDbg d fun x => { x with copying := x.copying.filter fun e => ownerLive d e.1 }

/-- Repairs that a pending change of REPAIR has held are scheduled once none is pending (R36). -/
def scheduleHeld (d : Dev) : Dev := if d.rpr.held.isEmpty || repairPending d then d else releaseRepairs d

def wake (d : Dev) : Dev := checkReady (dropCopying (scheduleHeld (grantAll (wakeLoop (d.running.length + 1) d))))

/-- The next state of a command that makes the device `d`, once everything that follows has come about. -/
def finish (s : State) (d : Dev) : Host.Outcome State Fault Refusal := commit s (wake d)

end Sys2Proof.Machine
end

