-- ==== Sys2Proof/Machine/Mailbox.lean ====
section
/-!
DEFINITION. Mailboxes (chapter 5): the checks of R242, what holds a command back, its start, fetching
from the submission ring, and the commands of the opcode table: each is the fetch of that entry.
-/
namespace Sys2Proof.Machine

/-! ### The checks of R242 -/

/-- Permission (R231, R240, R101). -/
def permissionFault (d : Dev) (c : Caller) (cmd : Cmd) : Option Status :=
  let setTick := match cmd with
    | .setTick .. => true
    | _ => false
  firstFault [
    (adminOnly cmd && !c.admin, 0x0601),
    (setTick && !d.tik.isMaster, 0x0602),
    (observing cmd && !c.admin && !d.dbg.openSet, 0x0604)]

/-- INIT and FW_UPDATE may come before INIT (R258). -/
def beforeInit : Cmd → Bool
  | .init _ | .fwUpdate .. => true
  | _ => false

/-- A live descriptor (R195, R197). -/
def descLive (d : Dev) (h : BitVec 16) : Bool := optAny (descOf d h) fun k => !k.destroying

def bucketLabel (d : Dev) (cmd : Cmd) : Option Byte :=
  match namesBucket cmd with
  | none => none
  | some b => (assoc b.toNat d.buckets).map (·.label)

/-- The label of the store that RESIDUAL_FLUSH reaches through a bucket. -/
def storeLabel (d : Dev) (cmd : Cmd) : Option Byte :=
  match cmd with
  | .residualFlush b true _ _ => ((assoc b.toNat d.bucketStores).bind (descOf d)).map (·.label)
  | _ => none

/-- A label that is none, or one the caller may use. -/
def mayOpt (c : Caller) (l : Option Byte) : Bool :=
  match l with
  | some l => c.may l
  | none => true

/-- LOAD_TREE prepares a group, which must not be open; one of another label is refused first (R252). -/
def opensGroup : Cmd → Bool
  | .loadTree .. => true
  | _ => false

/-- BREAK_SET of kind 0 names a breakpoint, which must be set. -/
def breakUnset (d : Dev) (cmd : Cmd) : Bool :=
  match cmd with
  | .breakSet _ kind address _ => kind = 0 && breakMissing d address
  | _ => false

/-- Every handle the command names is live and of the caller's label. -/
def handleFault (d : Dev) (c : Caller) (cmd : Cmd) : Option Status :=
  let h := c.hdr.handle.toNat
  let group := if namesGroup cmd || opensGroup cmd then (groupOf d h).map (·.label) else none
  let stream := if namesStream cmd then (streamOf d h).map (·.label) else none
  let outside := match bucketNamed cmd with
    | some b => decide (64 ≤ b.toNat)
    | none => false
  let neverOpened := match cmd with
    | .residualFlush b true _ _ => (assoc b.toNat d.bucketStores).isNone && !bucketWait d d.nextId cmd
    | _ => false
  firstFault [
    (namesGroup cmd && group.isNone, 0x0103),
    (namesStream cmd && stream.isNone, 0x0103),
    (outside || neverOpened || breakUnset d cmd, 0x0103),
    ((usedDescs d cmd).any (fun k => !descLive d k), 0x011A),
    (!mayOpt c group || !mayOpt c stream || !mayOpt c (bucketLabel d cmd) || !mayOpt c (storeLabel d cmd), 0x0603),
    ((namedDescs cmd).any (fun k => !mayOpt c ((descOf d k).map (·.label))), 0x0611)]

/-- A descriptor whose words, or those of the owner table it names, are lost (R207). A command that names a descriptor
counts as naming its owner table, whether or not it uses the table, DESTROY_DESC apart (DESIGN CHOICE, log 45);
DESTROY_DESC is let through by its own chapter. -/
def poisonFault (d : Dev) (cmd : Cmd) : Option Status :=
  let bad := fun (h : BitVec 16) => optAny (descOf d h) fun k =>
    k.poisoned || (k.ownerValid && (match assoc k.owner.toNat d.owners with
      | some t => t.poisoned
      | none => false))
  if !isDestroy cmd && (usedDescs d cmd).any bad then some 0x0504 else none

/-- The fields that belong to one placement (R37, R236); the page list of STREAM_OPEN has its place among
that command's own checks (R424). -/
def placementFault (d : Dev) (cmd : Cmd) : Option Status :=
  let ok := match compressorOf cmd with
    | some (comp, o) => compressPlaced d comp o
    | none => match cmd with
      | .maskGen _ _ _ r => (r != unused) = hostMode d 6
      | _ => true
  if ok then none else some 0x0107

def isUnknown : Cmd → Bool
  | .unknown _ => true
  | _ => false

/-- The first check that fails (R242, R602, R203). -/
def startFault (d : Dev) (c : Caller) (cmd : Cmd) (reserved : Bool) : Option Status :=
  orElse (if d.rpr.failed && !c.admin then some 0x0501 else none) fun _ =>
  orElse (if isUnknown cmd then some 0x0101 else none) fun _ =>
  orElse (permissionFault d c cmd) fun _ =>
  orElse (if !d.glb.initialised && !beforeInit cmd then some 0x0105 else none) fun _ =>
  orElse (if reserved then some 0x0102 else none) fun _ =>
  orElse (handleFault d c cmd) fun _ =>
  orElse (poisonFault d cmd) fun _ =>
  orElse (placementFault d cmd) fun _ =>
  staleFault d cmd

/-! ### Starting a command -/

/-- BUCKET_OPEN behind another command on its bucket: the host's table is checked and copied now (R309). -/
def queueOpen (d : Dev) (c : Caller) (o : CompressOps) : Begin :=
  match tableFault d o with
  | some st => .fail st
  | none => .go d { newRunning d c (.bucketOpen o) .turn with table := tableCopy d o }

/-- A flush through a bucket behind another command on the bucket: what it flushes is known at its turn. -/
def queueFlush (d : Dev) (c : Caller) (cmd : Cmd) : Begin := .go d (newRunning d c cmd .turn)

/-- BUCKET_ADD and BUCKET_SEAL wait behind commands on their bucket or on its residual store (R154, R246), but
for those that the bucket refuses at once. -/
def bucketQueues (d : Dev) (c : Caller) (cmd : Cmd) (b : BitVec 8) : Bool :=
  bucketWait d d.nextId cmd || ((bucketGate d b).isNone && mustWait d d.nextId c.hdr cmd)

/-- Every command's own start. -/
def startCmd (d : Dev) (c : Caller) (cmd : Cmd) : Begin :=
  match cmd with
  | .init a => startInit d a
  | .setPlacement m v => startSetPlacement d c m v
  | .setSeed s => .done { d with seed := some s } 0
  | .loadTree s n => startLoadTree d c s n
  | .openGroup m s z => startOpenGroup d c m s z
  | .closeGroup => startCloseGroup d c
  | .setTick p f h => startSetTick d c p f h
  | .repairApprove r x => startRepairApprove d r x
  | .bindTenant m l u => startBindTenant d m l u
  | .alloc l m n => startAlloc d l m n
  | .free a => startFree d a
  | .fwUpdate a n => startFwUpdate d a n
  | .createDesc a => startCreateDesc d c a
  | .destroyDesc h => startDestroyDesc d c h
  | .loadOwners t s => startLoadOwners d c t s
  | .topk o => startCompress d c cmd cTopk o
  | .quant o => startCompress d c cmd cQuant o
  | .lowrank o => startCompress d c cmd cLowrank o
  | .residualFlush b f s t => if bucketWait d d.nextId cmd then queueFlush d c cmd else startResidualFlush d c b f s t
  | .maskGen o t s r => startMaskGen d c o t s r
  | .bcast s t f => startBcast d c s t f
  | .reduceToOne o => startReduce d c o
  | .bucketOpen o => if bucketWait d d.nextId cmd then queueOpen d c o else startBucketOpen d c o none
  | .bucketAdd b h => if bucketQueues d c cmd b then .go d (newRunning d c cmd .turn) else startBucketAdd d c b h
  | .bucketSeal b => if bucketQueues d c cmd b then .go d (newRunning d c cmd .turn) else startBucketSeal d c b
  | .streamOpen o => startStreamOpen d c o
  | .streamClose => startOnStream d c cmd
  | .kvPut .. => startOnStream d c cmd
  | .kvHandoff _ => startOnStream d c cmd
  | .kvStage .. => startOnStream d c cmd
  | .kvCommit _ => startOnStream d c cmd
  | .kvEvict .. => startOnStream d c cmd
  | .traceStart m l a => startTraceStart d c m l a
  | .traceStop => startTraceStop d c
  | .watchTensor k l o s a => startWatch d c k l o s a
  | .breakSet k t a h => startBreak d c k t a h
  | .countersSnapshot s a => startSnapshot d c s a
  | .unknown _ => .fail 0x0101

/-- The record of a command's beginning (Table 15-4, kind 1). -/
def traceBegin (d : Dev) (n : Mbx) (label : Byte) (h : Hdr) (cmd : Cmd) : Dev :=
  trace d 1 95 (some label) h.layer h.operator
    (n.val + (cmdOpcode cmd).toNat * 2 ^ 16 + h.tag.toNat * 2 ^ 32 + h.handle.toNat * 2 ^ 48) []

def mbxCaller (d : Dev) (n : Mbx) (h : Hdr) : Caller := ⟨n, h, (mailbox d n).label, n = adminBox⟩

/-- A fetched command whose turn has come: refused, ended, or running. -/
def startOne (d : Dev) (n : Mbx) (f : Fetched) : Dev :=
  let c := mbxCaller d n f.hdr
  match startFault d c f.cmd f.reserved with
  | some st => endCommand d n c.label f.hdr f.cmd st 0
  | none =>
    let e := matchWatches (traceBegin d n c.label f.hdr f.cmd) d.nextId f.hdr f.cmd
    match startCmd e c f.cmd with
    | .fail st => endCommand d n c.label f.hdr f.cmd st 0
    | .done e res => endCommand { stampNew d e f.rung with nextId := d.nextId + 1 } n c.label f.hdr f.cmd 0 res
    | .ended e st res => endCommand { stampNew d e f.rung with nextId := d.nextId + 1 } n c.label f.hdr f.cmd st res
    | .go e r => { stampNew d e f.rung with running := e.running ++ [{ r with rung := f.rung }], nextId := d.nextId + 1 }

/-! ### What holds a command back (R36, R244, R249, R254, R643) -/

def commandLimit : Nat := 4096

/-- Some command of the mailbox has not completed, or its completion waits. -/
def mbxBusy (d : Dev) (n : Mbx) : Bool := !(mailbox d n).ready.isEmpty || d.running.any fun r => r.mbx = n

def heldBack (d : Dev) (n : Mbx) (f : Fetched) : Bool :=
  d.dbg.halted
    || (heldBy f.cmd).any (pendingFn d)
    || (f.hdr.flags.getLsbD 0 && mbxBusy d n)
    || (commandLimit ≤ d.running.length && !(n = adminBox && limitExempt f.cmd))

/-- Fetched commands of one mailbox start in ring order until one is held back (R243). -/
def startReady (n : Mbx) : Nat → Dev → Dev
  | 0, d => d
  | fuel + 1, d =>
    match (mailbox d n).fetched with
    | [] => d
    | f :: rest =>
      if heldBack d n f then d
      else startReady n fuel (startOne (withMbx d n fun m => { m with fetched := rest }) n f)

def startHeld (d : Dev) (n : Mbx) : Dev := startReady n (mailbox d n).fetched.length d

/-! ### Fetching (R218, R221, R249, R255) -/

def Mailbox.next (m : Mailbox) (i : BitVec 12) : BitVec 12 := BitVec.ofNat 12 ((i.toNat + 1) % m.ringDepth)

/-- The device may fetch from this mailbox. -/
def mayFetch (d : Dev) (n : Mbx) : Bool :=
  let m := mailbox d n
  m.enable && m.enabled && !m.stopped && m.ready.isEmpty && m.slotFree && !d.dbg.halted
    && (n = adminBox || d.running.length < commandLimit)

/-- Where the entry at the submission head lies, in BAR2 or in host memory. -/
def ringAddr (m : Mailbox) : Nat := m.sqBase.value.toNat + 64 * m.sqHead.toNat

/-- The entry at the submission head. -/
def ringEntry (d : Dev) (n : Mbx) : List Byte :=
  let m := mailbox d n
  if m.sqDev then memGets d.bar2 (ringAddr m) 64 else memGets d.mem (hostBase + ringAddr m) 64

/-- A fetch of that entry ends in an error or poisoned data (R255). -/
def fetchFails (d : Dev) (n : Mbx) : Bool :=
  let m := mailbox d n
  ringFails d m.sqDev (ringAddr m) 64

/-- The tick in whose guard the doorbell of the entry at the submission head came: it is among the entries that the
doorbells since then have added (R71). -/
def rungOf (m : Mailbox) : Option Stamp :=
  let left := fun (i : BitVec 12) => (m.sqTail.toNat + m.ringDepth - i.toNat) % m.ringDepth
  match m.guardRung with
  | some (t, tail) => if left m.sqHead ≤ left tail then some t else none
  | none => none

/-- An entry is fetched: it takes its place behind those that wait. -/
def takeEntry (d : Dev) (n : Mbx) (f : Fetched) : Dev :=
  withMbx d n fun m => { m with sqHead := m.next m.sqHead, fetched := m.fetched ++ [f] }

/-- An entry waits in the ring and the device may fetch it. -/
def wantsFetch (d : Dev) (n : Mbx) : Bool := mayFetch d n && (mailbox d n).sqHead != (mailbox d n).sqTail

/-- One entry of a mailbox is fetched, and starts as it can; a mailbox with none to fetch is passed over. -/
def fetchOne (d : Dev) (n : Mbx) : Dev :=
  if !wantsFetch d n then d
  else if fetchFails d n then withMbx d n fun m => { m with fetchError := true, stopped := true, discard := true, ready := [] }
  else
    let f := decodeEntry (ringEntry d n)
    startHeld (takeEntry d n { f with
      reserved := f.reserved || cmdReserved f.hdr f.cmd, rung := rungOf (mailbox d n) }) n

/-- The user mailboxes from the one whose turn is next on, in ascending number and round again. -/
def userBoxes (d : Dev) : List Mbx :=
  let users := (List.finRange 65).filter (· != adminBox)
  users.drop d.nextMbx.toNat ++ users.take d.nextMbx.toNat

/-- One turn: the admin mailbox is served, then the next user mailbox with an entry to fetch (R245). -/
def fetchTurn (d : Dev) : Dev :=
  let d := fetchOne d adminBox
  match (userBoxes d).find? (wantsFetch d) with
  | some n => { fetchOne d n with nextMbx := BitVec.ofNat 6 (n.val + 1) }
  | none => d

/-- Turns until nothing is left to fetch: each of 65 rings holds fewer than 4,096 entries (R217). -/
def fetchMany : Nat → Dev → Dev
  | 0, d => d
  | fuel + 1, d => if (List.finRange 65).any (wantsFetch d) then fetchMany fuel (fetchTurn d) else d

/-- Fetching goes on wherever it may (R218, R245). -/
def fetchTurns (d : Dev) : Dev := fetchMany 266240 d

/-! ### The commands of the opcode tables -/

/-- A mailbox can take the one entry that a command of the opcode tables stands for. -/
def canIssue (d : Dev) (n : Mbx) : Bool := mayFetch d n && (mailbox d n).sqHead = (mailbox d n).sqTail

/-- The entry of the command is written behind the tail, covered by a doorbell and fetched. -/
def issue (n : Mbx) (h : Hdr) (cmd : Cmd) (s : State) : Host.Outcome State Fault Refusal :=
  if canIssue s.dev n then
    let d := withMbx s.dev n fun m => { m with sqTail := m.next m.sqTail }
    finish s (startHeld (takeEntry d n ⟨h, cmd, cmdReserved h cmd, inGuard s.dev⟩) n)
  else .next s

def execInit (n : Mbx) (h : Hdr) (annals : BitVec 32) (s : State) := issue n h (.init annals) s
def execSetPlacement (n : Mbx) (h : Hdr) (mask value : BitVec 10) (s : State) := issue n h (.setPlacement mask value) s
def execSetSeed (n : Mbx) (h : Hdr) (seed : BitVec 128) (s : State) := issue n h (.setSeed seed) s
def execLoadTree (n : Mbx) (h : Hdr) (source : BitVec 48) (count : BitVec 16) (s : State) := issue n h (.loadTree source count) s
def execOpenGroup (n : Mbx) (h : Hdr) (members : BitVec 16) (slots sizeCode : BitVec 8) (s : State) :=
  issue n h (.openGroup members slots sizeCode) s
def execCloseGroup (n : Mbx) (h : Hdr) (s : State) := issue n h .closeGroup s
def execSetTick (n : Mbx) (h : Hdr) (period : BitVec 16) (leapFloor holiday : BitVec 8) (s : State) :=
  issue n h (.setTick period leapFloor holiday) s
def execRepairApprove (n : Mbx) (h : Hdr) (request : BitVec 32) (decision : BitVec 8) (s : State) :=
  issue n h (.repairApprove request decision) s
def execBindTenant (n : Mbx) (h : Hdr) (mailbox label : BitVec 8) (unbind : Bool) (s : State) :=
  issue n h (.bindTenant mailbox label unbind) s
def execAlloc (n : Mbx) (h : Hdr) (label memory : BitVec 8) (size : BitVec 64) (s : State) := issue n h (.alloc label memory size) s
def execFree (n : Mbx) (h : Hdr) (allocation : BitVec 32) (s : State) := issue n h (.free allocation) s
def execFwUpdate (n : Mbx) (h : Hdr) (address : BitVec 48) (length : BitVec 32) (s : State) := issue n h (.fwUpdate address length) s
def execCreateDesc (n : Mbx) (h : Hdr) (address : BitVec 48) (s : State) := issue n h (.createDesc address) s
def execDestroyDesc (n : Mbx) (h : Hdr) (descriptor : BitVec 16) (s : State) := issue n h (.destroyDesc descriptor) s
def execLoadOwners (n : Mbx) (h : Hdr) (table : BitVec 16) (source : BitVec 48) (s : State) := issue n h (.loadOwners table source) s
def execTopk (n : Mbx) (h : Hdr) (o : CompressOps) (s : State) := issue n h (.topk o) s
def execQuant (n : Mbx) (h : Hdr) (o : CompressOps) (s : State) := issue n h (.quant o) s
def execLowrank (n : Mbx) (h : Hdr) (o : CompressOps) (s : State) := issue n h (.lowrank o) s
def execResidualFlush (n : Mbx) (h : Hdr) (bucket : BitVec 8) (fromBucket : Bool) (source destination : BitVec 16) (s : State) :=
  issue n h (.residualFlush bucket fromBucket source destination) s
def execMaskGen (n : Mbx) (h : Hdr) (output threshold : BitVec 16) (step : BitVec 32) (random : BitVec 16) (s : State) :=
  issue n h (.maskGen output threshold step random) s
def execBcast (n : Mbx) (h : Hdr) (source destination : BitVec 16) (fromOwners : Bool) (s : State) :=
  issue n h (.bcast source destination fromOwners) s
def execReduceToOne (n : Mbx) (h : Hdr) (o : CompressOps) (s : State) := issue n h (.reduceToOne o) s
def execBucketOpen (n : Mbx) (h : Hdr) (o : CompressOps) (s : State) := issue n h (.bucketOpen o) s
def execBucketAdd (n : Mbx) (h : Hdr) (bucket : BitVec 8) (descriptor : BitVec 16) (s : State) := issue n h (.bucketAdd bucket descriptor) s
def execBucketSeal (n : Mbx) (h : Hdr) (bucket : BitVec 8) (s : State) := issue n h (.bucketSeal bucket) s
def execStreamOpen (n : Mbx) (h : Hdr) (o : StreamOps) (s : State) := issue n h (.streamOpen o) s
def execStreamClose (n : Mbx) (h : Hdr) (s : State) := issue n h .streamClose s
def execKvPut (n : Mbx) (h : Hdr) (layer : BitVec 16) (first positions : BitVec 32) (source : BitVec 16) (s : State) :=
  issue n h (.kvPut layer first positions source) s
def execKvHandoff (n : Mbx) (h : Hdr) (o : HandoffOps) (s : State) := issue n h (.kvHandoff o) s
def execKvStage (n : Mbx) (h : Hdr) (layer : BitVec 16) (first positions : BitVec 32) (s : State) := issue n h (.kvStage layer first positions) s
def execKvCommit (n : Mbx) (h : Hdr) (positions : BitVec 32) (s : State) := issue n h (.kvCommit positions) s
def execKvEvict (n : Mbx) (h : Hdr) (firstLayer layerCount : BitVec 16) (s : State) := issue n h (.kvEvict firstLayer layerCount) s
def execTraceStart (n : Mbx) (h : Hdr) (kindMask : BitVec 32) (label : BitVec 8) (allLabels : Bool) (s : State) :=
  issue n h (.traceStart kindMask label allLabels) s
def execTraceStop (n : Mbx) (h : Hdr) (s : State) := issue n h .traceStop s
def execWatchTensor (n : Mbx) (h : Hdr) (descriptor layer operator : BitVec 16) (step : BitVec 32) (action : BitVec 8) (s : State) :=
  issue n h (.watchTensor descriptor layer operator step action) s
def execBreakSet (n : Mbx) (h : Hdr) (core kind : BitVec 8) (address : BitVec 32) (hits : BitVec 16) (s : State) :=
  issue n h (.breakSet core kind address hits) s
def execCountersSnapshot (n : Mbx) (h : Hdr) (set : BitVec 8) (destination : BitVec 48) (s : State) :=
  issue n h (.countersSnapshot set destination) s
def execUnknownOpcode (n : Mbx) (h : Hdr) (opcode : BitVec 16) (s : State) := issue n h (.unknown opcode) s

/-! ### Doorbells, enabling and disabling -/

/-- What an offset of BAR2 is (Table 5-1, R216). -/
inductive Bar2At where
  | submissionTail (n : Mbx)
  | completionHead (n : Mbx)
  | ringArea
  | reserved

/-- The offset decoded: doorbell pages of 4 KiB each, a reserved range, the ring area. -/
def bar2At (o : Nat) : Bar2At :=
  if 0x10_0000 ≤ o && o < 0x100_0000 then .ringArea
  else if h : o / 0x1000 < 65 then
    match o % 0x1000 with
    | 0 => .submissionTail ⟨o / 0x1000, h⟩
    | 4 => .completionHead ⟨o / 0x1000, h⟩
    | _ => .reserved
  else .reserved

/-- A byte that host software makes visible before its doorbell (R248), in the ring area of BAR2 or in host
memory; a doorbell is a command of its own, and a reserved offset takes nothing (R16). -/
def hostStore (d : Dev) (x : HostStore) : Dev :=
  if x.bar2 then
    match bar2At x.addr with
    | .ringArea =>
      let others := d.bar2Poison.filter (· != x.addr / 64 * 64)
      { d with bar2 := memPut d.bar2 x.addr x.byte, bar2Poison := if x.bad then x.addr / 64 * 64 :: others else others }
    | _ => d
  else if hostBase + x.addr < deviceTop then
    hostLine { d with mem := memPut d.mem (hostBase + x.addr) x.byte } (hostBase + x.addr) x.bad
  else d

/-- The doorbell value is outside the ring (R219). -/
def doorbellError (d : Dev) (n : Mbx) : Dev := withMbx d n fun m => { m with doorbellError := true, stopped := true }

/-- Doorbell pages answer with the rest of BAR2, once the host link is up. -/
def doorbellHeard (d : Dev) (n : Mbx) : Bool := d.hif.linkUp && (mailbox d n).enabled

/-- The tail moves; the first doorbell of a guard leaves a mark where its entries begin (R71). -/
def ringTail (t : Option Stamp) (tail : Word) (m : Mailbox) : Mailbox :=
  { m with
    sqTail := tail.truncate 12
    guardRung := match t with
      | some t => if m.guardRung.any (fun x => x.1 = t) then m.guardRung else some (t, m.sqTail)
      | none => m.guardRung }

/-- SUBMISSION_TAIL_DOORBELL (R218, R219, R248): the host's stores, then the tail. -/
def execSubmissionTailDoorbell (n : Mbx) (tail : Word) (stores : List HostStore) (s : State) : Host.Outcome State Fault Refusal :=
  let d := stores.foldl hostStore s.dev
  let m := mailbox d n
  if !doorbellHeard d n || !m.enable then finish s d
  else if m.ringDepth ≤ tail.toNat then finish s (doorbellError d n)
  else finish s (fetchTurns (withMbx d n (ringTail (inGuard d) tail)))

/-- COMPLETION_HEAD_DOORBELL (R219–R221). -/
def execCompletionHeadDoorbell (n : Mbx) (head : Word) (s : State) : Host.Outcome State Fault Refusal :=
  let d := s.dev
  let m := mailbox d n
  if !doorbellHeard d n then .next s
  else if m.ringDepth ≤ head.toNat then finish s (doorbellError d n)
  else
    let d := drainReady (withMbx d n fun m => { m with cqHead := head.truncate 12 }) n (m.ready.length + 1)
    finish s (fetchTurns (startHeld d n))

/-- The byte ranges of a mailbox's device-resident rings in BAR2. -/
def devRings (m : Mailbox) : List (Nat × Nat) :=
  (if m.sqDev then [(m.sqBase.value.toNat, 64 * m.ringDepth)] else [])
    ++ (if m.cqDev then [(m.cqBase.value.toNat, 32 * m.ringDepth)] else [])

def overlap (a b : Nat × Nat) : Bool := a.1 < b.1 + b.2 && b.1 < a.1 + a.2

def anyOverlap : List (Nat × Nat) → Bool
  | [] => false
  | a :: t => t.any (overlap a) || anyOverlap t

/-- A ring in host memory lies below the top of the device address space (R662). -/
def hostRingOk (base n : Nat) : Bool := hostBase + base + n ≤ deviceTop

/-- The conditions of R259 for enable = 1, of a mailbox with the fields it then has. -/
def enableOk (d : Dev) (n : Mbx) (m : Mailbox) : Bool :=
  let others := (List.range 65).flatMap fun i =>
    let x := vget d.mbx i Mailbox.reset
    if i != n.val && x.enabled then devRings x else []
  !m.enabled && (m.bound || n = adminBox) && (n != adminBox || d.glb.ready)
    && m.sqBase.value.toNat % 4096 = 0 && m.cqBase.value.toNat % 4096 = 0
    && (devRings m).all (fun r => 0x10_0000 ≤ r.1 && r.1 + r.2 ≤ 0x100_0000)
    && !anyOverlap (devRings m)
    && (devRings m).all (fun r => others.all fun x => !overlap r x)
    && (m.sqDev || hostRingOk m.sqBase.value.toNat (64 * m.ringDepth))
    && (m.cqDev || hostRingOk m.cqBase.value.toNat (32 * m.ringDepth))

/-- MBX_CTRL's fields; depth and ring places only while MBX_STATUS.enabled is 0 (R259). -/
def writeCtrlFields (m : Mailbox) (w : Word) : Mailbox :=
  let m := { m with vector := BitVec.ofNat 8 (w.toNat / 2 ^ 24) }
  if m.enabled then m
  else { m with
    depth := if 8 < w.toNat / 2 ^ 8 % 16 then m.depth else BitVec.ofNat 4 (w.toNat / 2 ^ 8)
    cqDev := w.getLsbD 2
    sqDev := w.getLsbD 1 }

/-- A mailbox as a successful enable leaves it. -/
def enabledMailbox (m : Mailbox) : Mailbox :=
  { m with
    enable := true
    enabled := true
    stopped := false
    discard := false
    sqHead := 0
    sqTail := 0
    cqHead := 0
    cqTail := 0
    phase := true
    guardRung := none
    chunkSeq := 0
    fetched := []
    ready := [] }

/-- Fetched commands that have not started complete with 0x010F (R250). -/
def cancelFetched (d : Dev) (n : Mbx) : Dev :=
  let m := mailbox d n
  withMbx (m.fetched.foldl (fun d f => endCommand d n m.label f.hdr f.cmd 0x010F 0) d) n fun m => { m with fetched := [] }

/-- A write of MBX_CTRL (R219, R250, R259). -/
def writeMbxCtrl (d : Dev) (n : Mbx) (w : Word) : Dev :=
  let d := withMbx d n fun m => writeCtrlFields m w
  let m := mailbox d n
  if w.getLsbD 0 then
    if m.enable then d
    else if enableOk d n m then withMbx d n enabledMailbox
    else withMbx d n fun m => { m with configError := true }
  else if m.enable then settle (cancelFetched (withMbx d n fun m => { m with enable := false }) n) n
  else d

/-- BAR0 answers: the link is up and start-up has passed step 5 (R568, R677). -/
def bar0Open (d : Dev) : Bool := d.hif.linkUp && bar0Answers d

/-- Until ready, only the admin mailbox's registers take writes (R677). -/
def mbxWritable (d : Dev) (n : Mbx) : Bool := bar0Open d && (d.glb.ready || n = adminBox)

def execMailboxEnable (n : Mbx) (value : Word) (s : State) : Host.Outcome State Fault Refusal :=
  if mbxWritable s.dev n then finish s (writeMbxCtrl s.dev n (value ||| 1)) else .next s

def execMailboxDisable (n : Mbx) (value : Word) (s : State) : Host.Outcome State Fault Refusal :=
  if mbxWritable s.dev n then finish s (writeMbxCtrl s.dev n (value &&& ~~~ 1)) else .next s

/-- Firmware cannot start the command that is next in the mailbox, because of its own inconsistency (R256). -/
def giveUpNext (d : Dev) (n : Mbx) : Dev :=
  match (mailbox d n).fetched with
  | [] => d
  | f :: rest =>
    endCommand (withMbx d n fun m => { m with fetched := rest }) n (mailbox d n).label f.hdr f.cmd 0x0508 0

/-- Firmware may find, by an inconsistency of its own, that it cannot finish a command of the mailbox, running or next
to start: which one, if any, is free (R256, log 8). -/
def firmwareGivesUp (d : Dev) (n : Mbx) : Dev :=
  match choose d (none :: some none :: (d.running.filter fun r => r.mbx = n).map (some ∘ some)) with
  | (some (some (some r)), d) => giveUp d r
  | (some (some none), d) => giveUpNext d n
  | (_, d) => d

/-- COMMAND_START: held commands whose wait is over start, in ring order, and fetching goes on where it may
(R221, R243, R245, R249). -/
def execCommandStart (n : Mbx) (s : State) : Host.Outcome State Fault Refusal :=
  finish s (fetchTurns (startHeld (firmwareGivesUp s.dev n) n))

end Sys2Proof.Machine
end

