-- ==== Sys2Proof/Machine/Cost.lean ====
section
/-!
DEFINITION. What an entry moves and what it costs (R189, R281, R316, R363, R400, R552): the operands of a
compress, hop or root entry, the port time of Table 6-5, and the time that firmware plans for an entry.
-/
namespace Sys2Proof.Machine

/-- Is this member the root of the work's group? -/
def atRoot (d : Dev) (w : Work) : Bool :=
  match groupOf d w.handle.toNat with
  | some g => g.parent.isNone
  | none => false

/-- A received chunk of this sequence waits for its decode entry. -/
def undecoded (d : Dev) (w : Work) : Option RxChunk :=
  (groupOf d w.handle.toNat).bind fun g => g.received.find? fun x => x.seq = w.seq && !x.plain

def toDecode (d : Dev) (w : Work) : Bool := (undecoded d w).isSome

/-! ### Bytes moved (Table 6-5) -/

/-- Bytes that an entry reads and writes; those of them in HBM; bytes at 128 a cycle; and, in units of
1/9,000 ns, the time of its transposed accesses. -/
structure Moved where
  read : Nat
  written : Nat
  hbm : Nat
  lines : Nat
  extra : Nat

def Moved.none_ : Moved := ⟨0, 0, 0, 0, 0⟩

def Moved.add (a b : Moved) : Moved :=
  ⟨a.read + b.read, a.written + b.written, a.hbm + b.hbm, a.lines + b.lines, a.extra + b.extra⟩

/-- Bytes of a whole group with its second plane or its scale (R168, R172, R188). -/
def groupMoves (k : Desc) : Nat :=
  groupBytes k.fmt * (if k.fmt = fFP32 && k.view = 0 then 2 else 1) + bitAt (k.fmt = fS16) 0

/-- Rows of one band pass the transpose buffer together (R188). -/
def bandOf (k : Desc) (row : Nat) : Nat × Nat :=
  let n := k.size 0
  (row / n, row % n / 64)

/-- An operand of which (row, elements) pieces are read or written, in whole groups. -/
def pieceMoves (k : Desc) (write : Bool) (parts : List (Nat × Nat)) : Moved :=
  let bytes := (parts.map fun e => ceilDiv e.2 64 * groupMoves k).foldl (· + ·) 0
  let hbm := if isHbm (k.start + k.base.toNat) then bytes else 0
  let r := if write then 0 else bytes
  let w := if write then bytes else 0
  if parts.isEmpty then .none_
  else if !k.transpose then ⟨r, w, hbm, bytes, 0⟩
  else
    let blocks := ((parts.map fun e => (bandOf k e.1, ceilDiv e.2 64)).eraseDups.map (·.2)).foldl (· + ·) 0
    ⟨r, w, hbm, 0, 360000 + blocks * 64 * groupMoves k * 5625 / 64⟩

/-- Plain bytes in the tile's scratchpad. -/
def byteMoves (write : Bool) (n : Nat) : Moved := ⟨if write then 0 else n, if write then n else 0, 0, n, 0⟩

def optMoves (k : Option Desc) (write : Bool) (parts : List (Nat × Nat)) : Moved :=
  match k with
  | some k => pieceMoves k write parts
  | none => .none_

/-- Rows of `len` elements, and elements of each, that the elements `lo` to `hi − 1` lie in. -/
def rowParts (len lo hi : Nat) : List (Nat × Nat) :=
  (List.range (ceilDiv hi len - lo / len)).map fun i =>
    let row := lo / len + i
    (row, min hi ((row + 1) * len) - max lo (row * len))

/-- Rows, and elements of each, that a slice of a descriptor's byte image touches (R703). -/
def imageParts (k : Desc) (off n : Nat) : List (Nat × Nat) :=
  let len := max 1 k.rowLen
  if k.fmt = fS16 then
    let per := s16RowBytes k
    (List.range (ceilDiv (off + n) per - off / per)).map fun i => (off / per + i, len)
  else
    let lo := if k.accessFmt = fINT4 then 2 * off else off / max 1 k.elemSize
    let hi := if k.accessFmt = fINT4 then 2 * (off + n) else ceilDiv (off + n) (max 1 k.elemSize)
    rowParts len lo hi

/-- A slice of an operand's image, in whole groups, transposed where the operand is (R188, R189). -/
def imageMoves (k : Option Desc) (write : Bool) (off n : Nat) : Moved :=
  match k with
  | some k => if n = 0 then .none_ else pieceMoves k write (imageParts k off n)
  | none => byteMoves write n

/-- A parcel in its output descriptor, at the bytes of its records (Table 6-5). -/
def parcelMoves (k : Option Desc) (n : Nat) : Moved :=
  match k with
  | some k => if k.transpose then imageMoves (some k) true 0 n else ⟨0, n, if isHbm (k.start + k.base.toNat) then n else 0, n, 0⟩
  | none => byteMoves true n

/-- Elements of the record that its compressor selects (R278): those that the host's indices or a selection already
made name in its range; k, or all of its elements, before that. -/
def selectedIn (d : Dev) (c : Ctx) (r : Rec) : Nat :=
  let inRange := fun (l : List Nat) => (l.filter fun j => decide (r.first ≤ j) && decide (j < r.first + r.count)).length
  match optDesc d c.ops.auxA, assoc r.row c.chosen with
  | some a, _ => inRange ((hostIndices d a r.row).map (·.toNat))
  | none, some l => inRange l
  | none, none => min (paramK c.ops.parameter) r.count

/-- The elements over which an entry selects for a record: its row, when this record's entry is the one that
selects over a row in several records (R263), else the record's own. The root selects nothing. -/
def selectsOver (d : Dev) (w : Work) (c : Ctx) (r : Rec) : Nat :=
  let whole := match w.job, groupOf d w.handle.toNat with
    | .reduce .., some g => g.parent.isSome && holdsRow d g c r.row
    | _, _ => true
  match rowSrc d c r.row with
  | some s => if c.comp = cTopk && c.ops.auxA = unused && r.count < s.len && whole && (assoc r.row c.chosen).isNone
      && r.first = 0 then s.len else r.count
  | none => r.count

/-- Inputs of the records, descriptor by descriptor: whole rows where the entry selects over them. -/
def inputMoves (d : Dev) (w : Work) (c : Ctx) (recs : List Rec) : Moved :=
  let srcs := recs.filterMap fun r => (rowSrc d c r.row).map fun s => (s, realCount s r.first (selectsOver d w c r))
  ((srcs.map (·.1.handle)).eraseDups).foldl (fun acc h =>
    let mine := srcs.filter fun e => e.1.handle = h
    acc.add (optMoves (mine.head?.map (·.1.desc)) false (mine.map fun e => (e.1.row, e.2)))) .none_

/-- Residual and result pieces: rows of the command's tensors, or runs of a bucket's rank-1 store. -/
def tensorParts (c : Ctx) (recs : List Rec) (span : Rec → Nat) : List (Nat × Nat) :=
  recs.map fun r => (if c.bucket.isSome then 0 else r.row, span r)

/-- The random bits of the records, by the rows of the descriptor that holds them. -/
def bitsMoves (d : Dev) (c : Ctx) (k : Desc) (recs : List Rec) : Moved :=
  pieceMoves k false (recs.flatMap fun r => match rowSrc d c r.row with
    | some s => rowParts (max 1 k.rowLen) (s.base + r.first) (s.base + r.first + r.count)
    | none => [])

/-- Gathered payload rows, each in whole groups and far from the others. -/
def payloadMoves (k : Option Desc) (rows : Nat) : Moved :=
  match k with
  | some k => pieceMoves k false ((List.range rows).map fun i => (64 * k.size 0 * i, k.rowLen))
  | none => .none_

/-- What only one compressor reads: payload, factor, host indices, host random bits. -/
def auxMoves (d : Dev) (c : Ctx) (recs : List Rec) : Moved :=
  let aux := if c.comp = cTopk then
      (if c.ops.auxA != unused then optMoves (optDesc d c.ops.auxA) false (recs.map fun r => (r.row, selectedIn d c r)) else .none_).add
        (if gathers c then payloadMoves (optDesc d c.ops.auxB) ((recs.map (selectedIn d c)).foldl (· + ·) 0) else .none_)
    else if c.comp = cLowrank then
      optMoves (optDesc d c.ops.auxA) false (match optDesc d c.ops.auxA with
        | some f => (List.range f.rows).map fun i => (i, f.rowLen)
        | none => [])
    else .none_
  let bits := if c.comp = cQuant then c.ops.auxA else if c.comp = cLowrank then c.ops.auxB else unused
  aux.add (match optDesc d bits with
    | some k => bitsMoves d c k recs
    | none => .none_)

/-- Bytes of one record as it is written: with the elements selected in it (R278, Table 6-5). -/
def recordBytesOf (d : Dev) (c : Ctx) (r : Rec) : Nat :=
  if c.comp = cTopk then
    let sel := selectedIn d c r
    16 + (if gathers c then 16 + pad8 (10 * sel) + sel * pad8 (payloadRowOf d c) else pad8 (16 + 10 * sel))
  else recordSize c.comp c.ops.parameter r.count (payloadRowOf d c) (gathers c)

/-- Bytes of the records that the entry writes. -/
def recordMoves (d : Dev) (c : Ctx) (recs : List Rec) : Nat := (recs.map (recordBytesOf d c)).foldl (· + ·) 0

/-- All that a compress, hop or root entry moves (Table 6-5, R400): the root, costed as compressor 0, reads for no
compressor; `parcel` is the parcel's bytes, `kids` those of the children's parcels. -/
def entryMoves (d : Dev) (w : Work) (c : Ctx) (root standalone : Bool) (kids : Nat) (recs : List Rec) (parcel : Nat) : Moved :=
  let parts := tensorParts c recs (·.count)
  let store := if c.hostMode 0 then c.ops.residualOut else c.ops.residual
  let out := if root then optMoves (optDesc d c.ops.output) true parts
    else if standalone then parcelMoves (optDesc d c.ops.output) parcel else byteMoves true parcel
  [inputMoves d w c recs, optMoves (descOf d c.ops.residual) false (tensorParts c recs (selectsOver d w c)),
    optMoves (descOf d store) true parts, if root then .none_ else auxMoves d c recs, byteMoves false kids, out].foldl Moved.add .none_

/-! ### Cost -/

/-- Cycles and engine times stretch by 16 / (16 − n) at throttle level n (R552). -/
def throttled (d : Dev) (time : Nat) : Nat := ceilDiv (time * 16) (16 - min 8 d.pwr.level.toNat)

/-- Engine time of the records, in ns × 5,600 (Table 6-5, R400): the root is costed as compressor 0. -/
def engineUnits (d : Dev) (w : Work) (c : Ctx) (root : Bool) (children : Nat) (recs : List Rec) : Nat :=
  let comp := if root then cNone else c.comp
  let one := fun (r : Rec) => engineTime comp c.ops.parameter (c.ops.auxA != unused) (selectsOver d w c r) children
  let t := (recs.map one).foldl (· + ·) 0
  if comp = cNone || comp = cQuant then t * (1 + children) else t

/-- R281: 40 ns and the longer of engine time and port time, rounded up to the ns (DEDUCED, log 15). -/
def engineCost (d : Dev) (engine : Nat) (m : Moved) : Nat :=
  40 + max (ceilDiv (throttled d engine) 5600) (ceilDiv (ceilDiv m.lines 128 * 5625 + m.hbm * 80 + m.extra) 9000)

def childCount (d : Dev) (w : Work) : Nat :=
  match groupOf d w.handle.toNat with
  | some g => g.children.length
  | none => 0

/-- Bytes of the records of a chunk at the sizes they are judged at (R278). -/
def recordsWorst (d : Dev) (c : Ctx) (recs : List Rec) : Nat :=
  (recs.map fun r => recordSize c.comp c.ops.parameter r.count (payloadRowOf d c) (gathers c)).foldl (· + ·) 0

/-- Bytes of the children's parcels: as they are held, or at most for one that has not come. -/
def kidParcels (d : Dev) (w : Work) (most : Nat) : Nat :=
  match groupOf d w.handle.toNat with
  | none => 0
  | some g => (g.children.map fun n => ((rxOf g n.port w.seq).map fun x => x.parcel.length).getD most).foldl (· + ·) 0

/-- Cost of a compress, hop or root entry. -/
def compressEntryCost (d : Dev) (w : Work) (c : Ctx) (standalone : Bool) (recs : List Rec) : Nat :=
  let root := !standalone && atRoot d w
  let kids := if standalone then 0 else childCount d w
  let read := if standalone then 0 else kidParcels d w (recordsWorst d c recs)
  engineCost d (engineUnits d w c root kids recs) (entryMoves d w c root standalone read recs (recordMoves d c recs))

/-- Cost of a MASK_GEN or RESIDUAL_FLUSH entry: no term of Table 6-5 gives it engine time (DEDUCED, log 15). -/
def otherCost (d : Dev) (w : Work) (r : Running) : Nat :=
  let whole := fun (k : Option Desc) (write : Bool) => optMoves k write (match k with
    | some k => (List.range k.rows).map fun i => (i, k.rowLen)
    | none => [])
  engineCost d 0 (match w.job, r.cmd with
    | .mask first count, .maskGen output _ _ random =>
      (imageMoves (optDesc d output) true first count).add
        (if random = unused then .none_ else imageMoves (optDesc d random) false (16 * first) (16 * count))
    | .flush, .residualFlush b f source destination =>
      let s := if f then (assoc b.toNat d.bucketStores).bind (descOf d) else optDesc d source
      [whole s false, whole s true, whole (optDesc d destination) true].foldl Moved.add .none_
    | _, _ => .none_)

/-! ### Codec entries (R315–R317) -/

/-- What the blocks of a codec entry come to: cycles and bytes moved. -/
structure CodecRun where
  cycles : Nat
  moved : Moved

def CodecRun.zero : CodecRun := ⟨0, .none_⟩

def CodecRun.add (a b : CodecRun) : CodecRun := ⟨a.cycles + b.cycles, a.moved.add b.moved⟩

/-- R316, rounded up to the ns (DEDUCED, log 15). -/
def codecCost (d : Dev) (u : CodecRun) : Nat :=
  40 + max (ceilDiv (throttled d u.cycles * 2) 3)
    (ceilDiv (ceilDiv u.moved.lines 128 * 5625 + u.moved.hbm * 80 + u.moved.extra) 9000)

/-- Lengths of the blocks of `n` bytes. -/
def blockLengths (n : Nat) : List Nat := (List.range (ceilDiv n 65536)).map fun i => min 65536 (n - 65536 * i)

/-- One block encoded, written at U + 16 at most (R317). -/
def encodeRun (choice : TableChoice) (u : Nat) (source : Moved) (toHbm : Bool) : CodecRun :=
  ⟨encodeCycles choice u, source.add ⟨0, u + 16, if toHbm then u + 16 else 0, u + 16, 0⟩⟩

/-- One block decoded, or rejected: no more of it is read than is there, and none of it written. -/
def decodeRun (good : Bool) (bs : List Byte) (fromHbm : Bool) : CodecRun :=
  let n := min (blockStored bs) bs.length
  let u := if good then blockLength bs else 0
  ⟨blockCycles good bs, ⟨n, u, if fromHbm then n else 0, n + u, 0⟩⟩

/-- The blocks of a payload, one after another, up to the first that is rejected. -/
def payloadRuns : Nat → List Byte → List CodecRun
  | 0, _ => []
  | fuel + 1, bs =>
    if bs.isEmpty then []
    else if (decodeBlock bs).isSome then decodeRun true bs false :: payloadRuns fuel (bs.drop (blockStored bs))
    else [decodeRun false bs false]

/-- The output of a standalone command's coded chunk lies in HBM. -/
def parcelInHbm (d : Dev) (w : Work) (c : Ctx) : Bool :=
  match w.job with
  | .compress _ => optAny (optDesc d c.ops.output) fun k => isHbm (k.start + k.base.toNat)
  | _ => false

/-- Encoding `n` bytes of records. -/
def parcelRun (d : Dev) (w : Work) (c : Ctx) (n : Nat) : CodecRun :=
  (blockLengths n).foldl (fun a u => a.add (encodeRun (tableChoice d c) u (byteMoves false u) (parcelInHbm d w c))) .zero

/-- Decoding a child's chunk of `n` bytes of records that has not come yet, at the bound of R315. -/
def expectedRun (n : Nat) : CodecRun :=
  (blockLengths n).foldl (fun a u => a.add ⟨2100, ⟨u + 16, u, 0, 2 * u + 16, 0⟩⟩) .zero

/-- The runs that decode a stored page's blocks from HBM. -/
def storedRuns (d : Dev) (p : Page) : List CodecRun :=
  (payloadRuns 6 (load d p.addr p.len)).map fun u => { u with moved := { u.moved with hbm := u.moved.read } }

/-- What it takes to have `n` bytes of a page from block `b` on: the command's source is read, or a tail page; of a
stored page that a handoff shortens the block is decoded (R316, R436). -/
def pageSource (d : Dev) (w : Work) (s : Stream) (b n : Nat) : CodecRun :=
  match w.job, (runningOf d w.owner).map (·.cmd) with
  | .encodePage _ k _ _, some (Cmd.kvPut _ first _ src) =>
    ⟨0, imageMoves (optDesc d src) false ((16 * k - first.toNat) * s.bpp + 65536 * b) n⟩
  | .encodePage l k _ _, _ => match pageOf s l k with
    | some p => ((storedRuns d p)[b]?).getD .zero
    | none => ⟨0, ⟨n, 0, n, n, 0⟩⟩
  | _, _ => .zero

/-- The block of a page that an entry encodes next, after `b` of them. -/
def pageEncodeRun (d : Dev) (w : Work) (s : Stream) (n b : Nat) : CodecRun :=
  let u := min 65536 (n - 65536 * b)
  (pageSource d w s b u).add (encodeRun (pageTable d s) u .none_ true)

/-- The runs of the blocks that a page still needs. -/
def pageRuns (d : Dev) (w : Work) (s : Stream) : List CodecRun :=
  match w.job with
  | .encodePage _ _ n _ =>
    let bytes := n * s.bpp
    ((List.range (ceilDiv bytes 65536)).filter (w.blocksDone ≤ ·)).map (pageEncodeRun d w s bytes)
  | .decodePage l k => match pageOf s l k with
    | some p => (storedRuns d p).drop w.blocksDone
    | none => []
  | _ => []

/-- The stream's pending pages from a sequence onward, in order (R69). -/
def pendingPages (d : Dev) (h : BitVec 16) (seq : BitVec 32) : List Work :=
  d.work.filter fun w => w.cls = streamClass && w.handle = h && !isHandoff w && w.stage = .codec && (w.seq = seq || seqBefore seq w.seq)

/-- The earliest of some pages of a stream. -/
def firstPage (ws : List Work) : Option Work := ws.find? fun w => ws.all fun v => v.seq = w.seq || seqBefore w.seq v.seq

/-- The pages of which an entry of this cost runs a block, when it begins with the first of them (R69). -/
def pagesReached (d : Dev) (s : Stream) (cost : Nat) : CodecRun → List Work → List Work
  | _, [] => []
  | u, w :: t =>
    let runs := pageRuns d w s
    let all := runs.foldl CodecRun.add u
    if cost < codecCost d (u.add (runs.headD .zero)) then []
    else w :: (if codecCost d all ≤ cost then pagesReached d s cost all t else [])

def costsUpTo (d : Dev) : CodecRun → List CodecRun → List Nat
  | _, [] => []
  | u, v :: t => codecCost d (u.add v) :: costsUpTo d (u.add v) t

/-- Every cost of a page entry that starts at a page: that of any number of whole blocks from there on (R69). -/
def pageCosts (d : Dev) (w : Work) : List Nat :=
  match streamOf d w.handle.toNat with
  | none => []
  | some s => costsUpTo d .zero ((pendingPages d w.handle w.seq).flatMap fun v => pageRuns d v s)

/-! ### The time firmware plans -/

/-- Bytes of the records of a chunk that is to come. -/
def recordsMost (d : Dev) (w : Work) : Nat :=
  match w.job, ctxOf d w.owner with
  | .compress recs, some c | .reduce recs _, some c => recordsWorst d c recs
  | _, _ => 0

/-- Length of the chunk to be sent: as formed, or at most (R317). -/
def chunkMost (d : Dev) (w : Work) : Nat :=
  if !w.chunk.isEmpty then w.chunk.length
  else match w.job with
    | .bcast _ _ n _ => 64 + n
    | _ =>
      let p := recordsMost d w
      64 + p + (match ctxOf d w.owner with
        | some c => if c.ops.coding.getLsbD 0 then 16 * ceilDiv p 65536 else 0
        | none => 0)

/-- The costs with which firmware may plan an entry of this work on an engine of this kind, 3 for the codec, or
on a port (R189, R281, R316, R363, R400). -/
def plannedCosts (d : Dev) (w : Work) (kind : Nat) (port : Option Port) : List Nat :=
  match port with
  | some p => [transmitCost (portAt d p) (chunkMost d w)]
  | none =>
    if kind = 3 then
      if w.cls = streamClass then pageCosts d w
      else match w.stage, undecoded d w, ctxOf d w.owner with
        | .gather, some x, _ => [codecCost d ((payloadRuns 6 (x.bytes.drop 64)).foldl CodecRun.add .zero)]
        | .gather, none, some _ => [codecCost d (expectedRun (recordsMost d w))]
        | .codec, _, some c => [codecCost d (parcelRun d w c w.parcel.length)]
        | _, _, some c => [codecCost d (parcelRun d w c (recordsMost d w))]
        | _, _, none => []
    else match w.job, ctxOf d w.owner with
      | .compress recs, some c => [compressEntryCost d w c true recs]
      | .reduce recs _, some c => [compressEntryCost d w c false recs]
      | _, _ => match runningOf d w.owner with
        | some r => [otherCost d w r]
        | none => []

end Sys2Proof.Machine
end

