-- ==== Sys2Proof/Machine/Planner.lean ====
section
/-!
DEFINITION. The tick plan (section 2.2): plan buffers, the checks of R68, the budget rule, starting an
entry, and what an entry does when it is done (chapters 3, 6, 7, 9 and 10).
-/
namespace Sys2Proof.Machine

/-! ### Resources (Table 2-1) -/

def txResource (p : Port) : BitVec 16 := BitVec.ofNat 16 (256 + p.val)

def resourcePort (r : BitVec 16) : Option Port := if 256 ≤ r.toNat then portOfNat (r.toNat - 256) else none

def isEngine (r : BitVec 16) : Bool := r.toNat < 256

def engineKind (r : BitVec 16) : Nat := r.toNat % 4

/-- The unit of a trace record of this resource: its physical tile, or its port. -/
def resourceUnit (d : Dev) (r : BitVec 16) : Nat :=
  match resourcePort r with
  | some p => 68 + p.val
  | none => (physOf d (r.toNat / 4)).getD 0

/-- The holiday unit of a resource. -/
def resourceHoliday (d : Dev) (r : BitVec 16) : Bool := onHoliday d (resourceUnit d r)

/-- Settle time that a port's budget of this tick loses (R365, R373). -/
def settleTime (d : Dev) (r : BitVec 16) : Nat :=
  match resourcePort r with
  | some p => d.quads[quadOf p].lost
  | none => 0

def resourceBudget (d : Dev) (r : BitVec 16) : Nat := budget d - settleTime d r

/-! ### Whose work it is -/

def ownerLabel (d : Dev) (owner : Nat) : Byte :=
  if bucketOwner 0 ≤ owner then ((assoc (owner - bucketOwner 0) d.buckets).map (·.label)).getD 0
  else ((runningOf d owner).map (·.label)).getD 0

/-- The header whose identifiers and tick hint a chunk goes by (R223, R224): the chunks of a bucket, which no
one command of it forms, go by that of its BUCKET_OPEN (DESIGN CHOICE, log 36). -/
def ownerHdr (d : Dev) (owner : Nat) : Hdr :=
  let none_ : Hdr := ⟨0, 0, 0xFFFF, 0xFFFF, 0, 0⟩
  if bucketOwner 0 ≤ owner then ((assoc (owner - bucketOwner 0) d.buckets).map (·.hdr)).getD none_
  else ((runningOf d owner).map (·.hdr)).getD none_

/-- The mailbox that a chunk counts for (set 0 of Table 15-1). -/
def ownerMbx (d : Dev) (owner : Nat) : Option Mbx :=
  if bucketOwner 0 ≤ owner then none else (runningOf d owner).map (·.mbx)

/-- A command that has its turn. -/
def ownerTurn (d : Dev) (owner : Nat) : Bool :=
  match runningOf d owner with
  | some r => r.wait != .turn
  | none => true

/-- The chunk of an entry on its resource, or the first of the stream's pending pages that it runs (R69). -/
def entryWork (d : Dev) (e : PlanEntry) : Option Work :=
  if e.cls != streamClass then findWork d e.cls e.handle e.sequence
  else if isEngine e.resource then firstPage (pendingPages d e.handle e.sequence)
  else findHandoff d e.handle e.sequence

/-- The chunk of an entry, or all the pages that its cost reaches (R69). -/
def entryWorks (d : Dev) (e : PlanEntry) : List Work :=
  if e.cls = streamClass && isEngine e.resource then
    match streamOf d e.handle.toNat with
    | some s => pagesReached d s e.cost.toNat .zero (pendingPages d e.handle e.sequence)
    | none => []
  else (entryWork d e).toList

/-! ### What the work's next step needs (R68, R261, R292) -/

def compressorEngine (comp : Nat) : Nat := if comp = cTopk then 0 else if comp = cLowrank then 2 else 1

/-- The engine kinds that run the work itself. MASK_GEN and RESIDUAL_FLUSH are given no engine of their own
(log 15). -/
def workEngines (d : Dev) (w : Work) : List Nat :=
  match w.job, ctxOf d w.owner with
  | .reduce .., some c => [if atRoot d w then 1 else compressorEngine c.comp]
  | .compress _, some c => [compressorEngine c.comp]
  | _, _ => [0, 1, 2]

/-- Children's chunks that come coded may still need the codec. -/
def awaitsDecode (d : Dev) (w : Work) : Bool :=
  match ctxOf d w.owner with
  | some c => c.ops.coding.getLsbD 0
  | none => false

/-- The engine kind is one that the work's next step can use. -/
def engineFits (d : Dev) (w : Work) (kind : Nat) : Bool :=
  match w.stage with
  | .codec => kind = 3
  | .gather => if kind = 3 then toDecode d w || awaitsDecode d w else (workEngines d w).contains kind
  | .engine => (workEngines d w).contains kind
  | _ => false

/-- The chunk lies beyond what its destination has granted: the parent of a hop, or the member at this port
(R394, R397, R432). Such a chunk is not planned. -/
def beyondGrant (d : Dev) (w : Work) (port : Option Port) : Bool :=
  if w.cls = groupClass then
    match groupOf d w.handle.toNat with
    | some g => match port, w.job, g.parent with
      | some p, _, _ => !grantedTo g p w.seq || lostParent g p
      | none, .reduce .., some n => !seqBefore w.seq n.grant
      | none, _, _ => false
    | none => true
  else match w.job, runningOf d w.owner with
    | .handoff _, some r => !seqBefore w.seq r.limit
    | _, _ => false

/-- The transmit resource reaches a destination of the chunk (R390, R432). -/
def transmitFits (w : Work) (p : Port) : Bool :=
  match w.stage with
  | .send ps => ps.contains p
  | _ => false

/-- The entry's resource can run the work's next step (R68). -/
def resourceFits (d : Dev) (e : PlanEntry) (w : Work) : Bool :=
  match resourcePort e.resource with
  | some p => transmitFits w p
  | none => isEngine e.resource && (match physOf d (e.resource.toNat / 4) with
      | some p => (physAt d p).state = 0
      | none => false) && engineFits d w (engineKind e.resource)

/-- The entry is not skipped (R68). -/
def entryOk (d : Dev) (e : PlanEntry) : Bool :=
  match entryWork d e with
  | none => false
  | some w =>
    ownerLive d w.owner && resourceFits d e w && !(w.cls = groupClass && (match groupOf d w.handle.toNat with
      | some g => g.faulted.isSome
      | none => true))

/-- The work waits: for its command's turn, for its slot, or, on an engine, for its children's chunks (R392,
R397). -/
def entryWaits (d : Dev) (e : PlanEntry) : Bool :=
  match entryWork d e with
  | none => false
  | some w => !ownerTurn d w.owner
    || (w.stage = .gather && isEngine e.resource && !(engineKind e.resource = 3 && toDecode d w))
    || (w.cls = groupClass && isEngine e.resource && !(match groupOf d w.handle.toNat with
      | some g => slotReady d w.handle.toNat g w.seq
      | none => true))

/-! ### Plan buffers (R66, R67, R70) -/

def planBuffer (d : Dev) : Nat := d.tik.planBase.value.toNat + d.tik.tick.toNat % 8 * 65536

def readEntry (bs : List Byte) : PlanEntry :=
  ⟨fieldBv 16 bs 0, fieldBv 16 bs 2, fieldBv 32 bs 4, fieldBv 24 bs 8, fieldBv 8 bs 11⟩

def entryBytes (e : PlanEntry) : List Byte :=
  leBytes 2 e.resource.toNat ++ leBytes 2 e.handle.toNat ++ leBytes 4 e.sequence.toNat ++ leBytes 3 e.cost.toNat
    ++ [e.cls] ++ zeros 4

def planHeader (d : Dev) (count : Nat) : List Byte :=
  leBytes 2 d.tik.era.toNat ++ leBytes 6 d.tik.tick.toNat ++ leBytes 2 count ++ leBytes 2 1 ++ zeros 52

/-- The buffer holds a plan for the tick in force: its count. -/
def bufferCount (d : Dev) : Option Nat :=
  let a := planBuffer d
  let bs := load d a 12
  let n := field bs 8 2
  if rangeOk d a 65536 && bit (field bs 10 2) 0 && field bs 0 2 = d.tik.era.toNat && field bs 2 6 = d.tik.tick.toNat
      && n ≤ 4092 then some n else none

def bufferEntries (d : Dev) (lo hi : Nat) : List PlanEntry :=
  (List.range (hi - lo)).map fun i => readEntry (load d (planBuffer d + 64 + 16 * (lo + i)) 16)

/-- Firmware's copy of its plan in the plan area (R67). -/
def writePlan (d : Dev) (lo : Nat) (es : List PlanEntry) : Dev :=
  let d := store d (planBuffer d) (planHeader d (lo + es.length))
  if es.isEmpty then d else store d (planBuffer d + 64 + 16 * lo) (es.flatMap entryBytes)

/-! ### Chunks that a plan names (R73, Table 9-2) -/

/-- The entry's chunk is first planned in the tick in force. -/
def markPlanned (d : Dev) (e : PlanEntry) : Dev :=
  match entryWork d e with
  | none => d
  | some w =>
    if w.planned.isSome || beyondGrant d w (resourcePort e.resource) then d
    else
      let d := putWork d { w with planned := some (now d), deadline := some (d.tik.tick.toNat + 1) }
      if w.cls != groupClass then d
      else match groupOf d w.handle.toNat with
        | some g => if slotOf g w.seq = .free && slotReady d w.handle.toNat g w.seq then
            setSlot d w.handle.toNat w.seq (if w.stage = .gather then .gather else .compute) else d
        | none => d

/-! ### What the work touches in HBM (R86, R606) -/

/-- Addresses of elements `first` to `first + n − 1`, with their scales. -/
def elemAddrs (k : Desc) (first n : Nat) : List Nat :=
  (List.range n).flatMap fun i => (k.addrs (first + i)).getD [] ++ (if k.fmt = fS16 then (k.scaleAddr (first + i)).toList else [])

/-- Addresses of a slice of a descriptor's byte image (R703). -/
def imageAddrs (k : Desc) (off n : Nat) : List Nat :=
  if k.fmt = fS16 then
    let per := s16RowBytes k
    elemAddrs k (off / per * k.rowLen) ((ceilDiv (off + n) per - off / per) * k.rowLen)
  else if k.fmt = fINT4 then elemAddrs k (2 * off) (2 * n)
  else elemAddrs k (off / k.elemSize) (ceilDiv (off + n) k.elemSize - off / k.elemSize)

def wholeAddrs (d : Dev) (h : BitVec 16) : List Nat :=
  match optDesc d h with
  | some k => elemAddrs k 0 k.count
  | none => []

/-- Addresses that the records of an entry read or write: elements, residuals, results, and all of the
operands of which the entry's part is not known before it runs. -/
def recordAddrs (d : Dev) (c : Ctx) (standalone : Bool) (recs : List Rec) : List Nat :=
  let piece := fun (h : BitVec 16) (s : RowSrc) (r : Rec) => match optDesc d h with
    | some k => elemAddrs k (s.base + r.first) r.count
    | none => []
  let store := if c.hostMode 0 then c.ops.residualOut else c.ops.residual
  let parcel := if standalone then wholeAddrs d c.ops.output else []
  parcel ++ wholeAddrs d c.ops.auxA ++ wholeAddrs d c.ops.auxB ++ recs.flatMap fun r => match rowSrc d c r.row with
    | some s => elemAddrs s.desc (s.row * s.desc.rowLen + r.first) (realCount s r.first r.count)
        ++ piece c.ops.residual s r ++ piece store s r ++ (if standalone then [] else piece c.ops.output s r)
    | none => []

def runAddrs (a n : Nat) : List Nat := (List.range (ceilDiv n 64)).map fun i => a + 64 * i

/-- Addresses of a page: as stored, or where it will lie. -/
def pageAddrs (d : Dev) (s : Stream) (h l k : Nat) : List Nat :=
  let new := if hostPages s then listedPage s l k else (heldRun d (pageTag h l k)).map (·.1)
  match pageOf s l k, new with
  | some p, _ => runAddrs p.addr p.len
  | none, some a => runAddrs a (pageSize s)
  | none, none => []

/-- Addresses of memory that the work reads or writes (R606). -/
def workAddrs (d : Dev) (w : Work) : List Nat :=
  let h := w.handle.toNat
  match w.job, ctxOf d w.owner, (runningOf d w.owner).map (·.cmd) with
  | .compress recs, some c, _ => recordAddrs d c true recs
  | .reduce recs _, some c, _ => recordAddrs d c false recs
  | .mask first n, _, some (Cmd.maskGen output _ _ random) =>
    (match optDesc d output, optDesc d random with
      | some k, some b => imageAddrs k first n ++ elemAddrs b (8 * first) (8 * n)
      | some k, none => imageAddrs k first n
      | none, _ => [])
  | .flush, _, some (Cmd.residualFlush b f source destination) =>
    wholeAddrs d (if f then (assoc b.toNat d.bucketStores).getD unused else source) ++ wholeAddrs d destination
  | .encodePage l k n _, _, (cmd : Option Cmd) => match streamOf d h, cmd with
    | some s, some (.kvPut _ first _ src) => pageAddrs d s h l k ++ (match descOf d src with
        | some t => imageAddrs t ((16 * k - first.toNat) * s.bpp) (n * s.bpp)
        | none => [])
    | some s, _ => pageAddrs d s h l k ++ (tailAddr s l).toList.flatMap fun a => runAddrs a (pageSize s)
    | none, _ => []
  | .decodePage l k, _, _ => match streamOf d h with
    | some s => pageAddrs d s h l k
    | none => []
  | _, _, _ => []

/-- The work uses this HBM stack. -/
def usesStack (d : Dev) (w : Work) (k : Nat) : Bool := (workAddrs d w).any fun a => isHbm a && stackOf a = k

/-- The work uses an HBM stack that is on holiday (R606). -/
def stackHoliday (d : Dev) (w : Work) : Bool := (List.range 6).any fun k => onHoliday d (84 + k) && usesStack d w k

/-- The entry needs a unit that an overdue task has taken for this tick (R87). -/
def entryDisplaced (d : Dev) (e : PlanEntry) : Bool :=
  d.plan.displaced.any fun u => if u < 84 then resourceUnit d e.resource = u
    else isEngine e.resource && (entryWorks d e).any fun w => usesStack d w (u - 84)

/-- No foreground work is planned or started (R107, R112, R114, R115, R514, R643). -/
def planStopped (d : Dev) : Bool :=
  d.pwr.inReset || !isMember d || d.tik.starting != 0 || d.tik.almanacLost || d.pwr.hold || d.dbg.halted

/-- No foreground work runs in this tick: in PLAN host-assisted mode no plan was found at its boundary (R53). -/
def planless (d : Dev) : Bool := hostMode d 5 && isMember d && d.tik.starting = 0 && !d.plan.valid && !planStopped d

/-- A running entry that pauses for this tick: no plan was found, or an overdue task has its unit (R53, R87). -/
def entryPaused (d : Dev) (e : PlanEntry) : Bool := planless d || entryDisplaced d e

/-! ### Firmware's plan (R69–R71, R75, R86, R88, R224, R365, R366, R394, R706) -/

/-- The tick that has the hint as its low 32 bits lies ahead (R224). -/
def hintAhead (d : Dev) (h : Hdr) : Bool :=
  h.flags.getLsbD 1 && (h.tickHint - d.tik.tick.truncate 32) != 0 && (h.tickHint - d.tik.tick.truncate 32).toNat < 2 ^ 31

/-- An entry that costs more than a whole budget still has the resource (R706). -/
def ranAlone (d : Dev) (r : BitVec 16) : Bool :=
  d.plan.alone.contains r.toNat || (d.plan.running ++ d.plan.carried).any fun x => x.alone && x.entry.resource = r

/-- A port that settles for longer than its budget, or that has accepted a lane swap for this tick, is left
out (R365, R366). -/
def portLeftOut (d : Dev) (r : BitVec 16) : Bool :=
  match resourcePort r with
  | some p => budget d < settleTime d r || (portAt d p).leftOut.any (· = d.tik.tick)
  | none => false

/-- A slip of its group has put the chunk one tick later (R75). -/
def putOff (d : Dev) (w : Work) : Bool := w.notIn.any fun x => x.era = d.tik.era && d.tik.tick.toNat ≤ x.tick.toNat

/-- Firmware may plan this entry in the tick in force, at its cost. -/
def firmwarePlans (d : Dev) (e : PlanEntry) : Bool :=
  !resourceHoliday d e.resource && !ranAlone d e.resource && !portLeftOut d e.resource && (match entryWork d e with
    | some w => !hintAhead d (ownerHdr d w.owner) && !(isEngine e.resource && (entryWorks d e).any (stackHoliday d))
        && !beyondGrant d w (resourcePort e.resource) && !putOff d w
        && (plannedCosts d w (engineKind e.resource) (resourcePort e.resource)).contains e.cost.toNat
    | none => false)

def assignedTo (d : Dev) (r : BitVec 16) : Nat := (assoc r.toNat d.plan.assigned).getD 0

def runningOn (d : Dev) (r : BitVec 16) : Option RunEntry := d.plan.running.find? fun x => x.entry.resource = r

def carriedOn (d : Dev) (r : BitVec 16) : Option RunEntry := d.plan.carried.find? fun x => x.entry.resource = r

/-- What the resource's budget is planned for so far: spent, and named by entries not yet started. -/
def plannedOn (d : Dev) (r : BitVec 16) : Nat :=
  ((d.plan.entries.filter fun e => e.resource = r).map fun e => e.cost.toNat).foldl (· + ·) (assignedTo d r)

def addPlanned (d : Dev) (e : PlanEntry) : Dev :=
  withPlan d fun p => { p with entries := p.entries ++ [e], taken := p.taken + 1 }

/-- A resource begins the tick with nothing carried over (R706). -/
def beginsClear (d : Dev) (r : BitVec 16) : Bool := (runningOn d r).isNone && (carriedOn d r).isNone

/-- An entry that costs more than a whole budget can start at this boundary, with the resource to itself (R706). -/
def startsAlone (d : Dev) (e : PlanEntry) : Bool :=
  resourceBudget d e.resource < e.cost.toNat && plannedOn d e.resource = 0 && beginsClear d e.resource
    && !entryWaits d e && !entryDisplaced d e

/-- One more entry of firmware's: it fits the budget that is left (R70), or costs more than a whole budget and
starts at the boundary (R706). At a boundary firmware plans no chunk whose command's doorbell came in the guard of the
tick that ended (R71). -/
def planOne (boundary : Bool) (d : Dev) (e : PlanEntry) : Dev :=
  if 4092 ≤ d.plan.taken || !firmwarePlans d e then d
  else if boundary && (entryWorks d e).any (fun w => w.guarded = some d.tik.ended) then d
  else if plannedOn d e.resource + e.cost.toNat ≤ resourceBudget d e.resource then addPlanned d e
  else if boundary && startsAlone d e then
    withPlan (addPlanned d e) fun p => { p with alone := e.resource.toNat :: p.alone }
  else d

/-- The resources that can run the work's next step. -/
def stepResources (d : Dev) (w : Work) : List (BitVec 16) :=
  let engines := fun (kinds : List Nat) => (List.range 64).flatMap fun l => kinds.map fun k => BitVec.ofNat 16 (4 * l + k)
  match w.stage with
  | .codec => engines [3]
  | .gather => engines (if toDecode d w then [3] else workEngines d w)
  | .engine => engines (workEngines d w)
  | .send ps => ps.map txResource
  | _ => []

/-- The entries with which firmware can plan the work's next step. -/
def stepEntries (d : Dev) (w : Work) : List PlanEntry :=
  (stepResources d w).flatMap fun r => (plannedCosts d w (engineKind r) (resourcePort r)).map fun n =>
    ⟨r, w.handle, w.seq, BitVec.ofNat 24 n, w.cls⟩

/-- The step is planned already: an entry of this kind names the chunk, or the stream's pages (R69). -/
def stepPlanned (d : Dev) (e : PlanEntry) : Bool :=
  (d.plan.entries ++ (d.plan.running ++ d.plan.carried).map (·.entry)).any fun x =>
    x.cls = e.cls && x.handle = e.handle && (if isEngine e.resource then
      isEngine x.resource && engineKind x.resource = engineKind e.resource && (e.cls = streamClass || x.sequence = e.sequence)
    else x.resource = e.resource && x.sequence = e.sequence)

/-- Firmware plans the next step of a chunk, where it fits: where, of what fits, is left open (log 8). -/
def planWork (boundary : Bool) (d : Dev) (w : Work) : Dev :=
  if !ownerTurn d w.owner || !ownerLive d w.owner then d
  else
    let fits := (stepEntries d w).filter fun e =>
      entryOk d e && !stepPlanned d e && (planOne boundary d e).plan.taken != d.plan.taken
    if fits.isEmpty then d
    else match choose d fits with
      | (some e, d) => planOne boundary d e
      | (none, d) => d

/-- The entries that firmware plans: those of the operand that it may, then every chunk that still fits. -/
def planFirmware (boundary : Bool) (d : Dev) (es : List PlanEntry) : Dev :=
  let d := es.foldl (planOne boundary) d
  d.work.foldl (fun d w => if stageComplete w.stage then d else planWork boundary d w) d

/-! ### Starting an entry -/

def dropEntry (e : PlanEntry) : List PlanEntry → List PlanEntry
  | [] => []
  | x :: t => if x = e then t else x :: dropEntry e t

def dropRun (e : RunEntry) : List RunEntry → List RunEntry
  | [] => []
  | x :: t => if x = e then t else x :: dropRun e t

/-- Detail of entry records (Table 15-4, kinds 3 and 4). -/
def entryDetail (x : RunEntry) (late : Bool) : Nat :=
  let e := x.entry
  let kind := if isEngine e.resource then engineKind e.resource else 4
  e.handle.toNat + e.sequence.toNat * 2 ^ 16 + kind * 2 ^ 48
    + (bitAt x.carried 0 + bitAt x.rerun 1 + bitAt x.reverify 2 + bitAt late 3 + e.cls.toNat % 4 * 16) * 2 ^ 56

def traceEntry (d : Dev) (kind : Nat) (x : RunEntry) (w : Option Work) : Dev :=
  let owner := (w.map (·.owner)).getD 0
  let h := ownerHdr d owner
  trace d kind (resourceUnit d x.entry.resource) (w.map fun w => ownerLabel d w.owner) h.layer h.operator
    (entryDetail x (kind = 4 && (w.any (·.late)))) []

/-- A chunk goes to its port: its bytes are kept there with the segments that have to leave (R354). -/
def queueChunk (d : Dev) (p : Port) (w : Work) : Dev :=
  let dest := match (runningOf d w.owner).map (·.cmd) with
    | some (.kvHandoff o) => o.destStream
    | _ => w.handle
  let c : SentChunk := ⟨w.cls = streamClass, w.handle, dest, w.seq, 0, w.chunk, List.range (segmentCount w.chunk.length), false⟩
  if (sentChunk d p c.stream c.handle c.seq).isSome then d
  else withPort d p fun s => { s with held := s.held ++ [c] }

/-- The entry runs. A chunk that has come to exist since the plan was taken is first planned now (R73). -/
def beginEntry (d : Dev) (x : RunEntry) : Dev :=
  let d := markPlanned d x.entry
  let w := entryWork d x.entry
  let d := withPlan d fun p => { p with running := p.running ++ [x] }
  let d := match w with
    | none => d
    | some w =>
      let d := putWork d { w with started := true }
      let d := if w.cls = groupClass && isEngine x.entry.resource && w.stage = .engine then
        setSlot d w.handle.toNat w.seq .compute else d
      match resourcePort x.entry.resource with
      | some p => queueChunk d p w
      | none => d
  traceEntry d 3 x w

/-- The budget rule (R65). -/
def budgetFits (d : Dev) (e : PlanEntry) : Bool := assignedTo d e.resource + e.cost.toNat ≤ resourceBudget d e.resource

/-- The entry is the one that its resource runs alone in this tick, and nothing of it is assigned yet (R706). -/
def mayBeginAlone (d : Dev) (e : PlanEntry) : Bool :=
  d.plan.alone.contains e.resource.toNat && resourceBudget d e.resource < e.cost.toNat && assignedTo d e.resource = 0

def assign (d : Dev) (r : BitVec 16) (n : Nat) : Dev :=
  withPlan d fun p => { p with assigned := assocSet r.toNat (assignedTo d r + n) p.assigned }

/-- The first plan entry of the resource starts, is skipped, or is left where it is. One beyond its chunk's
grant is passed over: it counts as not planned (R394). -/
def startPlanned (d : Dev) (e : PlanEntry) : Dev :=
  let off := fun (d : Dev) => withPlan d fun p => { p with entries := dropEntry e p.entries }
  match entryWork d e with
  | none => setTikEvent (off d) 6
  | some w =>
    if !entryOk d e then setTikEvent (off d) 6
    else if beyondGrant d w (resourcePort e.resource) then off d
    else if entryWaits d e || entryDisplaced d e then d
    else if !(firedBy d w.owner).isEmpty then fireWatches d w.owner
    else if budgetFits d e then beginEntry (off (assign d e.resource e.cost.toNat)) ⟨e, false, false, false, false, false⟩
    else if mayBeginAlone d e then
      beginEntry (off (assign d e.resource (resourceBudget d e.resource))) ⟨e, false, false, false, true, false⟩
    else off d

/-- Work carried over goes first (R68), and its time comes out of what is left of the budget (R355; log 15).
What a displaced unit takes the tick from waits for the next one (R87); a chunk that is gone is forgotten. -/
def startCarried (d : Dev) (x : RunEntry) : Dev :=
  let e := x.entry
  let off := withPlan d fun p => { p with carried := dropRun x p.carried }
  let charged := assign off e.resource (min e.cost.toNat (resourceBudget d e.resource - assignedTo d e.resource))
  let kept := match resourcePort e.resource with
    | some p => (sentChunk d p (e.cls = streamClass) e.handle e.sequence).isSome
    | none => false
  if entryDisplaced d e || entryWaits d e then d
  else if kept then
    let d := withPlan charged fun q => { q with running := q.running ++ [{ x with carried := true }] }
    traceEntry d 3 { x with carried := true } (entryWork d e)
  else match entryWork d e with
    | none => off
    | some w => if isEngine e.resource || (resourceFits d e w && !beyondGrant d w (resourcePort e.resource)) then
        beginEntry charged { x with carried := true } else off

/-! ### The plan of a tick (R53, R67, R70) -/

/-- The entries that the host's plan gives a resource to itself for this tick (R706). -/
def hostAlone (d : Dev) : List Nat :=
  let rs := d.plan.entries.map (·.resource)
  (d.plan.entries.filter fun e => resourceBudget d e.resource < e.cost.toNat && beginsClear d e.resource
    && !portLeftOut d e.resource && (rs.filter (· = e.resource)).length = 1).map fun e => e.resource.toNat

/-- The entries that run alone start at the boundary, or not in this tick (R706). -/
def startAlone (d : Dev) : Dev :=
  let d := (d.plan.entries.filter fun e => d.plan.alone.contains e.resource.toNat).foldl startPlanned d
  withPlan d fun p => { p with alone := p.alone.filter fun r => p.running.any fun x => x.entry.resource.toNat = r }

/-- The entries of the tick that ends that an overdue task has kept waiting go to the next (R87). -/
def keepDisplaced (d : Dev) : Dev :=
  let waiting := if d.plan.displaced.isEmpty then [] else d.plan.entries.filter fun e => entryOk d e && entryDisplaced d e
  withPlan d fun p => { p with
    carried := p.carried ++ waiting.map fun e => ⟨e, true, false, false, false, false⟩
    entries := []
    taken := 0
    assigned := []
    alone := []
    displaced := [] }

/-- The plan of the tick that starts (R53, R67); `again` says that a hold has ended at the boundary of a tick whose
plan was looked for already, so that a missing one counts once. Boundaries before the device is a member of an era, and
before its tick 0, count no plan as missed (DESIGN CHOICE, log 36). -/
def takePlan (d : Dev) (firmware : List PlanEntry) (again : Bool) : Dev :=
  let d := keepDisplaced d
  let valid := fun (b : Bool) (d : Dev) => withPlan d fun p => { p with valid := b }
  if !isMember d || d.tik.starting != 0 then valid false d
  else if hostMode d 5 then
    match bufferCount d with
    | some n =>
      let es := bufferEntries d 0 n
      let d := withPlan d fun p => { p with valid := !planStopped d, entries := es, taken := n }
      let d := es.foldl markPlanned d
      if planStopped d then d else startAlone (withPlan d fun p => { p with alone := hostAlone d })
    | none => valid false (if again then d else withFpl d fun f => { f with planMiss := satAdd f.planMiss 1 })
  else if planStopped d then valid false d
  else
    let d := planFirmware true (valid true d) firmware
    startAlone (d.plan.entries.foldl markPlanned (writePlan d 0 d.plan.entries))

/-- Entries appended during the tick: by firmware, or found in the buffer (R70, R71). -/
def appendPlan (d : Dev) (firmware : List PlanEntry) : Dev :=
  if !d.plan.valid || planStopped d then d
  else if hostMode d 5 then
    match bufferCount d with
    | some n =>
      let more := bufferEntries d d.plan.taken n
      more.foldl markPlanned (withPlan d fun p => { p with entries := p.entries ++ more, taken := p.taken + more.length })
    | none => d
  else
    let e := planFirmware false d firmware
    let more := e.plan.entries.drop d.plan.entries.length
    if more.isEmpty then d else more.foldl markPlanned (writePlan e d.plan.taken more)

/-- PLAN_ENTRY_START (R25, R53, R65, R68, R70). -/
def execPlanEntryStart (resource : BitVec 16) (appended : List PlanEntry) (s : State) : Host.Outcome State Fault Refusal :=
  if planStopped s.dev || !s.dev.plan.valid || (runningOn s.dev resource).isSome then .next s
  else
    let d := appendPlan s.dev appended
    match carriedOn d resource with
    | some x => finish s (startCarried d x)
    | none => match d.plan.entries.find? fun e => e.resource = resource with
      | some e => finish s (startPlanned d e)
      | none => finish s d

/-! ### The end of an entry -/

/-- Busy time of an engine (Table 15-1, set 2): at most the planned cost, how much is not stated (log 8). -/
def noteBusy (d : Dev) (x : RunEntry) : Dev :=
  if isEngine x.entry.resource then
    let (k, d) := draw d
    bump d 2 0 x.entry.resource.toNat (min (Config.choice k) x.entry.cost.toNat)
  else d

/-- A chunk that was rerun on its tile is through (R288). -/
def clearSuspect (d : Dev) (r : BitVec 16) : Dev :=
  if !isEngine r then d
  else match physOf d (r.toNat / 4) with
    | some p => setPhys d p fun x => { x with suspect := x.suspect &&& ~~~BitVec.ofNat 4 (2 ^ engineKind r) }
    | none => d

/-- The entry leaves its resource. -/
def endEntry (d : Dev) (x : RunEntry) : Dev :=
  let w := entryWork d x.entry
  let d := withPlan d fun p => { p with running := dropRun x p.running }
  bump (clearSuspect (noteBusy (traceEntry d 4 x w) x) x.entry.resource) 2 0 301 1

/-! ### Compress, hop and root entries (R131–R137, R397–R401) -/

/-- Bytes that the entry moved for its command (set 0, 8 and 9; DEDUCED, log 18). -/
def noteBytes (d : Dev) (w : Work) (read written : Nat) : Dev :=
  match ownerMbx d w.owner with
  | some n => bump (bump d 0 n.val 8 read) 0 n.val 9 written
  | none => d

/-- The sums of an entry go to its command, or to its bucket's balance record (R137, R186, R228). -/
def noteSums (d : Dev) (w : Work) (f : Formed) (change lost : BitVec 64) (bmax : Nat) : Dev :=
  let label := (ownerLabel d w.owner).toNat
  let d := bump (bump (bump d 1 label 3 f.outSpills) 1 label 4 f.spills) 1 label 5 f.dustCount
  if bucketOwner 0 ≤ w.owner then
    let b := w.owner - bucketOwner 0
    writeRecord (withBucket d b fun k => { k with
      bmax := max k.bmax bmax
      spillsOut := satAdd k.spillsOut f.outSpills
      chosen := f.chosen
      record := { k.record with
        input := k.record.input + BitVec.ofInt 64 f.input
        transmitted := k.record.transmitted + BitVec.ofInt 64 f.transmitted
        residualChange := k.record.residualChange + change
        lost := k.record.lost + lost
        dustSum := k.record.dustSum + BitVec.ofInt 64 f.dust
        dustCount := satAdd k.record.dustCount f.dustCount
        spills := satAdd k.record.spills f.spills } }) b
  else updRunning d w.owner fun r => { r with
    filled := satAdd r.filled f.filled
    dropped := satAdd r.dropped f.dropped
    spills := satAdd r.spills f.outSpills
    chosen := f.chosen }

/-- The bytes a watch with action 0 has its engines copy (R647): the records' elements of its tensor. -/
def copyRecords (d : Dev) (unit : Nat) (w : Work) (c : Ctx) (recs : List Rec) : Dev :=
  if d.dbg.copying.isEmpty then d
  else recs.foldl (fun d r => match rowSrc d c r.row with
    | some s =>
      let d := copyElems d unit w.owner s.handle (ownerLabel d w.owner) c.hdr (s.row * s.desc.rowLen + r.first) (realCount s r.first r.count)
      copyElems d unit w.owner c.ops.residual (ownerLabel d w.owner) c.hdr (s.base + r.first) r.count
    | none => d) d

/-- An uncorrectable error in a residual store: the record of every open bucket that uses it says so (R161). -/
def damageRecords (d : Dev) (k : Desc) : Dev :=
  let hit := d.buckets.filter fun e => anyMeet [k] (opStores d e.2.ops)
  hit.foldl (fun d e =>
    writeRecord (withBucket d e.1 fun k => { k with record := { k.record with flags := k.record.flags ||| 2 } }) e.1) d

/-- An entry that ends without effect: its command or bucket fails. -/
def failEntry (w : Work) (c : Ctx) (x : ChunkFault) : Dev :=
  let d := match descOf x.dev c.ops.residual with
    | some k => if x.residual then damageRecords x.dev k else x.dev
    | none => x.dev
  failOwner d w.owner x.status

/-- A proof fails over an entry that spilled: the spills are counted, and nothing else of it stands (R158). -/
def noteLostProof (d : Dev) (w : Work) (resource : BitVec 16) (c : Ctx) (hop : Hop) (recs : List Rec) : Dev :=
  match formChunk d c hop recs with
  | .error _ => d
  | .ok f =>
    let label := (ownerLabel d w.owner).toNat
    let d := noteFormed d resource (engineKind resource) recs.length f
    let d := bump (bump d 1 label 3 f.outSpills) 1 label 4 f.spills
    if bucketOwner 0 ≤ w.owner then
      let b := w.owner - bucketOwner 0
      writeRecord (withBucket d b fun k => { k with
        spillsOut := satAdd k.spillsOut f.outSpills
        record := { k.record with spills := satAdd k.record.spills f.spills } }) b
    else updRunning d w.owner fun r => { r with spills := satAdd r.spills f.outSpills }

/-- An uncorrectable error in the buffers of a group or handoff: whether it lies in the chunk that is read is left
open (R328, R594; log 8). -/
def bufferLost (d : Dev) (h : Nat) : Bool × Dev :=
  match heldRun d h with
  | some (a, n) => if poisoned d a n then
      let (k, d) := draw d
      (Config.choice k % 2 = 1, d)
    else (false, d)
  | none => (false, d)

/-- The chunks that children, those dropped since among them, have sent for this work (R416). -/
def childChunks (g : Group) (w : Work) : List RxChunk := g.received.filter fun y => y.seq = w.seq

/-- Records of the children's chunks of the rows to be selected; none when one cannot be read. -/
def rowRecords (d : Dev) (g : Group) (c : Ctx) (owner : Nat) (recs : List Rec) : Option (List (List ReadRec)) :=
  let seqs := (rowsToSelect d g c owner recs).flatMap fun row => (rowSeqs d owner row).1
  (g.received.filter fun y => seqs.contains y.seq).mapM fun y => recordsOf d c y.parcel

def coveredOf (bs : List Byte) : Nat := field bs 48 2

/-- Records of every child; none when one cannot be read or covers other elements than the own chunk. -/
def childRecords (d : Dev) (c : Ctx) (recs : List Rec) : List RxChunk → Option (List (List ReadRec))
  | [] => some []
  | x :: t =>
    match recordsOf d c x.parcel, childRecords d c recs t with
    | some l, some ls =>
      if l.length = recs.length && l.all (fun y => recs.any fun r => r.row = y.row && r.first = y.first && r.count = y.ts.length) then
        some (l :: ls) else none
    | _, _ => none

/-- The chunk of an upward hop, its records coded or not (R341). -/
def upwardChunk (c : Ctx) (w : Work) (index records : Nat) (payload : List Byte) : List Byte :=
  chunkBytes (balanceBytes w.balance) c.exponent w.bmax 0 (formOf c) (bucketByte c) records
    (reduceDetail index c.ops.step w.covered c.hdr) payload

/-- A chunk ready for the parent. -/
def sendToParent (d : Dev) (w : Work) (chunk : List Byte) : Dev :=
  match (groupOf d w.handle.toNat).bind (·.parent) with
  | some n => putWork d { w with chunk := chunk, stage := .send [n.port], unacked := [n.port] }
  | none => toStage d w .done

/-- A proof that fails: on a re-verification it is damage (R157, R159). -/
def proofStatus (x : RunEntry) : Status := if x.reverify then 0x0502 else 0x0301

/-- A hop or a root entry. -/
def runReduce (d : Dev) (x : RunEntry) (w : Work) (c : Ctx) (recs : List Rec) (index : Nat) (engineFault : Bool) : Dev :=
  let h := w.handle.toNat
  match groupOf d h with
  | none => d
  | some g =>
    let root := g.parent.isNone
    let kids := childChunks g w
    let covered := (kids.map fun k => coveredOf k.bytes).foldl (· + ·) 1
    let (lost, d) := if kids.isEmpty then (false, d) else bufferLost d h
    if lost then failOwner d w.owner 0x0505
    else if kids.any fun k => field k.bytes 24 1 != c.exponent.toNat then
      faultGroup d h 0x0305 none
    else match childRecords d c recs kids, rowRecords d g c w.owner recs with
      | none, _ | _, none => faultGroup d h 0x0503 none
      | some ls, some rs =>
        let hop : Hop := ⟨root, holdsRow d g c, ls, rs⟩
        if root && covered != g.tree.length then faultGroup d h 0x0301 none
        else if engineFault then failOwner (noteLostProof d w x.entry.resource c hop recs) w.owner (proofStatus x)
        else match formChunk d c hop recs with
          | .error e => failEntry w c e
          | .ok f =>
            let sums := kids.map fun k => balanceOf k.bytes
            let change := (sums.map (·.2.1)).foldl (· + ·) (BitVec.ofInt 64 f.change)
            let lost := (sums.map (·.2.2)).foldl (· + ·) (BitVec.ofInt 64 f.lost)
            let bmax := (kids.map fun k => field k.bytes 25 1).foldl max f.bmax
            let d := noteFormed f.dev x.entry.resource (engineKind x.entry.resource) recs.length f
            let d := copyRecords (noteSums d w f change lost bmax) (resourceUnit d x.entry.resource) w c recs
            let m := entryMoves d w c root false ((kids.map fun k => k.parcel.length).foldl (· + ·) 0) recs f.bytes.length
            let d := noteBytes d w m.read m.written
            let gone := fun (y : RxChunk) => y.seq = w.seq
            let d := withGroup d h fun g => { g with received := g.received.filter fun y => !gone y }
            let w := { w with parcel := f.bytes, balance := (BitVec.ofInt 64 f.transmitted, change, lost), bmax := bmax, covered := covered }
            if root then toStage (putWork d w) w .done
            else if c.ops.coding.getLsbD 0 then putWork d { w with stage := .codec }
            else sendToParent d w (upwardChunk c w index recs.length f.bytes)

/-- The spills of an entry whose proof fails, counted as the entry would have counted them (R158). -/
def noteFailedEntry (d : Dev) (x : RunEntry) (w : Work) : Dev :=
  match w.job, ctxOf d w.owner, groupOf d w.handle.toNat with
  | .compress recs, some c, _ => noteLostProof d w x.entry.resource c .leaf recs
  | .reduce recs _, some c, some g =>
    match childRecords d c recs (childChunks g w), rowRecords d g c w.owner recs with
    | some ls, some rs => noteLostProof d w x.entry.resource c ⟨g.parent.isNone, holdsRow d g c, ls, rs⟩ recs
    | _, _ => d
  | _, _, _ => d

/-- A standalone compress entry. -/
def runCompress (d : Dev) (x : RunEntry) (w : Work) (c : Ctx) (recs : List Rec) (engineFault : Bool) : Dev :=
  if engineFault then failOwner (noteLostProof d w x.entry.resource c .leaf recs) w.owner (proofStatus x)
  else match formChunk d c .leaf recs with
    | .error e => failEntry w c e
    | .ok f =>
      let d := noteFormed f.dev x.entry.resource (engineKind x.entry.resource) recs.length f
      let d := copyRecords (noteSums d w f 0 0 f.bmax) (resourceUnit d x.entry.resource) w c recs
      let m := entryMoves d w c false true 0 recs f.bytes.length
      let d := noteBytes d w m.read m.written
      let w := { w with parcel := f.bytes }
      if c.ops.coding.getLsbD 0 then putWork d { w with stage := .codec } else toStage (putWork d w) w .done

/-- Bytes of all the groups of a descriptor's rows. -/
def wholeMoves (k : Desc) : Nat := k.rows * ceilDiv k.rowLen 64 * groupMoves k

/-- A MASK_GEN or RESIDUAL_FLUSH entry. -/
def runOther (d : Dev) (w : Work) (r : Running) : Dev :=
  match w.job, r.cmd with
  | .mask first count, .maskGen output threshold step random =>
    if optAny (descOf d random) fun k => elemsPoisoned d k (8 * first) (8 * count) then failOwner d w.owner 0x0505
    else toStage (noteBytes (runMask d r output threshold step random first count) w 0 count) w .done
  | .flush, .residualFlush b fromBucket source destination =>
    let src := if fromBucket then (assoc b.toNat d.bucketStores).getD unused else source
    match descOf d src, descOf d destination with
    | some a, some t =>
      if elemsPoisoned d a 0 a.count then failOwner (damageRecords (scrubRes d a 0 a.count) a) w.owner 0x0505
      else toStage (noteBytes (runFlush d r src destination) w (wholeMoves a) (wholeMoves t)) w .done
    | _, _ => failOwner d w.owner 0x0508
  | _, _ => failOwner d w.owner 0x0508

/-- The data work of an engine entry, once it is done and not in the hold. -/
def runEngine (d : Dev) (x : RunEntry) (w : Work) (engineFault : Bool) : Dev :=
  match w.job, ctxOf d w.owner with
  | .reduce recs index, some c => runReduce d x w c recs index engineFault
  | .compress recs, some c => runCompress d x w c recs engineFault
  | _, _ => match runningOf d w.owner with
    | some r => if engineFault then failOwner d w.owner (proofStatus x) else runOther d w r
    | none => d

/-- COMPRESS_ENTRY_DONE (R131, R157, R159): `engineFault` says that an arithmetic fault makes the proof
fail (R289). -/
def execCompressEntryDone (resource : BitVec 16) (engineFault : Bool) (s : State) : Host.Outcome State Fault Refusal :=
  match runningOn s.dev resource with
  | none => .next s
  | some x =>
    if !isEngine resource || engineKind resource = 3 || entryPaused s.dev x.entry then .next s
    else
      let d := endEntry s.dev x
      match entryWork d x.entry with
      | none => finish s d
      | some w =>
        if w.stage != .engine then finish s d
        else if d.pwr.hold then finish s (holdItem d (.entry x))
        else finish s (runEngine d x w engineFault)

/-! ### Codec entries (R292–R328) -/

/-- Encode a chunk's records (R293): its blocks are its payload. -/
def encodeParcel (d : Dev) (x : RunEntry) (w : Work) (c : Ctx) : Dev :=
  let bs := encodeBlocks (tableChoice d c) false w.parcel
  let payload := bs.flatMap (·.bytes)
  let d := noteBytes (noteEncoded d x.entry.resource bs) w w.parcel.length payload.length
  match w.job with
  | .reduce recs index => sendToParent d w (upwardChunk c w index recs.length payload)
  | _ => toStage (putWork d { w with parcel := payload }) { w with parcel := payload } .done

/-- Blocks of a chunk's payload, `fuel` at most. -/
def countBlocks : Nat → List Byte → Nat
  | 0, _ => 0
  | fuel + 1, bs => if bs.isEmpty then 0 else 1 + countBlocks fuel (bs.drop (max 1 (blockStored bs)))

/-- Decode a received chunk (R292, R326, R328). -/
def decodeChunk (d : Dev) (x : RunEntry) (w : Work) : Dev :=
  let h := w.handle.toNat
  match groupOf d h with
  | none => d
  | some g => match g.received.find? fun y => y.seq = w.seq && !y.plain with
    | none => d
    | some y =>
      let (lost, d) := bufferLost d h
      if lost then failOwner d w.owner 0x0505
      else match plainPayload y.bytes with
      | none => faultGroup (noteFormat d x.entry.resource) h 0x0303 none
      | some parcel =>
        let upd := fun (z : RxChunk) => if z.port = y.port && z.seq = y.seq then { z with parcel := parcel, plain := true } else z
        noteDecoded (withGroup d h fun g => { g with received := g.received.map upd }) x.entry.resource
          (countBlocks 5 (y.bytes.drop 64))

/-- The next block of a page that is encoded. -/
def encodeStep (d : Dev) (x : RunEntry) (w : Work) (s : Stream) (bs : List Byte) : Dev × Work :=
  let block := encodeBlock (pageTable d s) (pageSplit s) ((bs.drop (65536 * w.blocksDone)).take 65536)
  let d := noteEncoded d x.entry.resource [block]
  let w := { w with parcel := w.parcel ++ block.bytes, blocksDone := w.blocksDone + 1 }
  (putWork d w, w)

/-- Blocks of one page while the entry's cost allows: the device, what is used, whether the page is done;
or the status that ends the command. -/
def encodePage (x : RunEntry) (s : Stream) (bs : List Byte) : Nat → Dev → Work → CodecRun → Dev × Work × CodecRun × Bool
  | 0, d, w, u => (d, w, u, ceilDiv bs.length 65536 ≤ w.blocksDone)
  | fuel + 1, d, w, u =>
    if ceilDiv bs.length 65536 ≤ w.blocksDone then (d, w, u, true)
    else
      let v := u.add (pageEncodeRun d w s bs.length w.blocksDone)
      if codecCost d v ≤ x.entry.cost.toNat then
        let (d, w) := encodeStep d x w s bs
        encodePage x s bs fuel d w v
      else (d, w, u, false)

/-- The stored bytes that follow `n` blocks. -/
def dropBlocks : Nat → List Byte → List Byte
  | 0, bs => bs
  | n + 1, bs => dropBlocks n (bs.drop (blockStored bs))

/-- Blocks of one page decoded while the cost allows; none on a format error. -/
def decodePage (x : RunEntry) : Nat → Dev → Work → List Byte → CodecRun → Option (Dev × Work × CodecRun × Bool)
  | 0, d, w, bs, u => some (d, w, u, bs.isEmpty)
  | fuel + 1, d, w, bs, u =>
    if bs.isEmpty then some (d, w, u, true)
    else
      let v := u.add (decodeRun (decodeBlock bs).isSome bs true)
      if x.entry.cost.toNat < codecCost d v then some (d, w, u, false)
      else match decodeBlock bs with
        | none => none
        | some out =>
          let w := { w with parcel := w.parcel ++ out, blocksDone := w.blocksDone + 1 }
          decodePage x fuel (noteDecoded (putWork d w) x.entry.resource 1) w (bs.drop (blockStored bs)) v

/-- One page of a stream: the device and what the entry has used when the page is done, none when the
entry's cost ends before it, or when its command has ended. -/
def runPage (d : Dev) (x : RunEntry) (w : Work) (r : Running) (s : Stream) (u : CodecRun) : Dev × Option CodecRun :=
  match w.job with
  | .encodePage .. =>
    match encodeSource d w s r with
    | .error st => (failPages (if st = 0x0303 then noteFormat d x.entry.resource else d) r st, none)
    | .ok bs =>
      let (d, w, u, finished) := encodePage x s bs (ceilDiv bs.length 65536 + 1) d w u
      if finished then (toStage (pageEncoded (notePut d w s r) w w.parcel) w .done, some u) else (d, none)
  | .decodePage l k =>
    match pageOf s l k with
    | none => (failPages d r 0x0508, none)
    | some p =>
      if poisoned d p.addr p.len then (failPages d r 0x0505, none)
      else
        let left := dropBlocks w.blocksDone (load d p.addr p.len)
        match decodePage x 6 d w left u with
        | none => (failPages (noteFormat d x.entry.resource) r 0x0303, none)
        | some (d, w, u, finished) =>
          if finished then (toStage (pageDecoded d w r w.parcel) w .done, some u) else (d, none)
  | _ => (d, none)

def runPages (x : RunEntry) : Nat → Dev → BitVec 32 → CodecRun → Dev
  | 0, d, _, _ => d
  | fuel + 1, d, seq, u =>
    match firstPage (pendingPages d x.entry.handle seq) with
    | none => d
    | some w =>
      match runningOf d w.owner, streamOf d w.handle.toNat with
      | some r, some s =>
        if r.wait = .turn then d
        else match runPage d x w r s u with
          | (d, some u) => runPages x fuel d (w.seq + 1) u
          | (d, none) => d
      | _, _ => d

/-- The data work of a codec entry. -/
def runCodec (d : Dev) (x : RunEntry) (w : Work) : Dev :=
  if w.cls = streamClass then runPages x (d.work.length + 1) d x.entry.sequence .zero
  else match w.stage, ctxOf d w.owner with
    | .codec, some c => encodeParcel d x w c
    | .gather, _ => decodeChunk d x w
    | _, _ => d

/-- CODEC_ENTRY_DONE (R316, R322). -/
def execCodecEntryDone (resource : BitVec 16) (s : State) : Host.Outcome State Fault Refusal :=
  match runningOn s.dev resource with
  | none => .next s
  | some x =>
    if !isEngine resource || engineKind resource != 3 || entryPaused s.dev x.entry then .next s
    else
      let d := endEntry s.dev x
      match entryWork d x.entry with
      | none => finish s d
      | some w =>
        if d.pwr.hold then finish s (holdItem d (.codec x))
        else finish s (runCodec d x w)

/-! ### Transmit entries (R344, R354, R363) -/

/-- The chunk has left on this port: its destinations still to be served, then its ACKs (Table 9-2). -/
def chunkLeft (d : Dev) (w : Work) (p : Port) : Dev :=
  match w.stage with
  | .send ps =>
    let rest := ps.filter (· != p)
    let d := if w.cls = groupClass then setSlot d w.handle.toNat w.seq .held else d
    if !rest.isEmpty then putWork d { w with stage := .send rest }
    else if w.unacked.isEmpty then toStage d w .done
    else toStage d w (.held w.unacked)
  | _ => d

/-- Counters of a launch (Table 15-1). -/
def noteLaunch (d : Dev) (w : Work) (bytes : Nat) : Dev :=
  let l := (ownerLabel d w.owner).toNat
  let d := bump (bump d 1 l 6 1) 1 l 7 bytes
  match ownerMbx d w.owner with
  | some n => bump d 0 n.val 10 1
  | none => d

/-- A chunk that its port held to send is gone. -/
def dropSent (d : Dev) (p : Port) (c : SentChunk) : Dev :=
  let other := fun (x : SentChunk) => !sameChunk c.stream c.handle c.seq x
  withPort d p fun s => { s with held := s.held.filter other }

/-- A group's chunk that is to leave lies in a poisoned buffer (R328, R594). -/
def sendLost (d : Dev) (w : Work) : Bool × Dev := if w.cls = groupClass then bufferLost d w.handle.toNat else (false, d)

/-- TRANSMIT_ENTRY_DONE: the chunk's segments leave, as credit and the quad allow (R344, R348, R365). -/
def execTransmitEntryDone (p : Port) (s : State) : Host.Outcome State Fault Refusal :=
  match runningOn s.dev (txResource p) with
  | none => .next s
  | some x =>
    match sentChunk s.dev p (x.entry.cls = streamClass) x.entry.handle x.entry.sequence with
    | none => finish s (endEntry s.dev x)
    | some c =>
      if !canLaunch s.dev p c || entryPaused s.dev x.entry then .next s
      else
        match entryWork s.dev x.entry with
        | none => finish s (launchSegments (endEntry s.dev x) p c)
        | some w =>
          let (lost, d) := sendLost (endEntry s.dev x) w
          if lost then finish s (failOwner (dropSent d p c) w.owner 0x0505)
          else
          let d := launchSegments d p c
          let d := traceChunk d 1 w.cls w.handle w.seq p.val (some (ownerLabel d w.owner))
          finish s (chunkLeft (if c.attempt = 0 then noteLaunch d w c.bytes.length else d) w p)

end Sys2Proof.Machine
end

