-- ==== Sys2Proof/Machine/Almanac.lean ====
section
/-!
DEFINITION. The Almanac (chapter 2): placement changes, tick boundaries, slips, leap levels, tick frames
and reports, the phase sources, holdover and planned era boundaries.
-/
namespace Sys2Proof.Machine

/-! ### Placement (Table 1-5) -/

/-- A compress command runs. -/
def compressRuns (d : Dev) : Bool := d.running.any fun r => (compressorOf r.cmd).isSome

/-- A command or open bucket that selects by TOPK. -/
def selectRuns (d : Dev) : Bool :=
  d.running.any fun r => match r.cmd with
    | .topk _ => true
    | _ => false

/-- A codec encode entry runs on some tile. -/
def encodeRuns (d : Dev) : Bool :=
  d.plan.running.any fun x => isEngine x.entry.resource && engineKind x.entry.resource = 3
    && match entryWork d x.entry with
      | none => false
      | some w => match w.job with
        | .decodePage .. => false
        | _ => w.stage = .codec

/-- A command that draws random bits runs: BUCKET_ADD and BUCKET_SEAL draw those of their bucket's chunks. An open
bucket without a running command is none (Table 1-5). -/
def randomRuns (d : Dev) : Bool :=
  let ofBucket := fun (b : Byte) => match assoc b.toNat d.buckets with
    | some k => stochasticOps k.ops.compressor.toNat k.ops
    | none => false
  d.running.any fun r => match r.cmd with
    | .maskGen .. => true
    | .bucketAdd b _ | .bucketSeal b => ofBucket b
    | c => match compressorOf c with
      | some e => stochasticOps e.1 e.2
      | none => false

/-- Every residual store the device keeps holds zeros only (R39). -/
def storesEmpty (d : Dev) : Bool := d.resStores.all fun e => resEmpty d e.desc

/-- The idle condition of function `n` (Table 1-5). PLAN changes only at a tick boundary. -/
def functionIdle (d : Dev) (n : Nat) : Bool :=
  match n with
  | 0 => d.buckets.isEmpty && !compressRuns d && storesEmpty d
  | 1 => !selectRuns d
  | 2 => !encodeRuns d
  | 3 => d.groups.isEmpty
  | 4 => d.tik.eraValid && !d.join.electing
  | 6 => !randomRuns d
  | 7 => repairIdle d
  | 8 => d.streams.isEmpty
  | 9 => d.buckets.isEmpty
  | _ => false

/-- What a change of a function brings with it: a residual store starts at zero (R39), declined repairs
are scheduled (R611). -/
def functionChanged (d : Dev) (n : Nat) : Dev :=
  if hostMode d n then d
  else if n = 0 then
    let stale := fun (s : ResStore) => { s with fresh := false }
    { d with resZero := true, resStores := d.resStores.map stale }
  else if n = 7 then scheduleDeclined d
  else d

def bitMask (n : Nat) : BitVec 10 := BitVec.ofNat 10 (2 ^ n)

def takeFunction (d : Dev) (n : Nat) : Dev := functionChanged (switchPlacement d (bitMask n)) n

/-- PLACEMENT_TAKES_EFFECT (R35, R38, R42, R51). -/
def execPlacementTakesEffect (fn : MovFn) (s : State) : Host.Outcome State Fault Refusal :=
  if pendingFn s.dev fn.val && functionIdle s.dev fn.val && !s.dev.pwr.hold then finish s (takeFunction s.dev fn.val)
  else .next s

/-- A change of PLAN at a tick boundary (R40). -/
def planPlacement (d : Dev) : Dev :=
  if d.pwr.hold || !pendingFn d 5 then d
  else if d.fpl.mode.getLsbD 5 && (bufferCount d).isNone then d
  else takeFunction d 5

/-! ### Time that passes -/

/-- `ns` nanoseconds pass: the Annals writer's share (R622) and Reckoner time (R490). -/
def passTime (d : Dev) (ns : Nat) : Dev :=
  let d := runWriter d ns
  if !d.met.powered then d
  else withMet d fun m => { m with time := m.time + BitVec.ofNat 64 ((m.timeNs + ns) / 10), timeNs := (m.timeNs + ns) % 10 }

/-! ### Late chunks (R73–R75, R79) -/

/-- Incomplete at the end of its last tick. -/
def workDue (t : BitVec 48) (w : Work) : Bool :=
  !stageComplete w.stage && (w.late || match w.deadline with
    | some x => x ≤ t.toNat
    | none => false)

/-- A command or bucket one of whose chunks is late. -/
def markOwner (d : Dev) (w : Work) : Dev :=
  if bucketOwner 0 ≤ w.owner then withBucket d (w.owner - bucketOwner 0) fun k => { k with late := true }
  else updRunning d w.owner fun r => { r with late := true }

/-- The chunks that the end of the tick in force finds late. -/
def markLate (d : Dev) : Dev :=
  let t := d.tik.tick
  let due := d.work.filter (workDue t)
  if due.isEmpty then d
  else
    let fresh := due.filter fun w => !w.late
    let d := fresh.foldl markOwner d
    let upd := fun (w : Work) => if workDue t w then { w with late := true } else w
    let d := withTik { d with work := d.work.map upd } fun x => { x with
      late := satAdd x.late fresh.length
      lateInWindow := true }
    bump d 2 0 302 fresh.length

/-! ### The boundary -/

/-- VWARN in mV (Table 13-12). -/
def vwarnMv (d : Dev) : Nat := 670 + 10 * d.pwr.vwarn.toNat

/-- VDD_CORE set point of a throttle level in mV (Table 13-3, R549). -/
def setPoint (d : Dev) (level : Nat) : Nat := max (d.fuses.v0.toNat - 10 * level) (max 700 (vwarnMv d + 30))

/-- R550: the level takes effect; clocks that are to rise follow once the supply has settled, and a rising level only
lowers them. -/
def throttleTick (d : Dev) (settled : Bool) : Dev :=
  if d.pwr.hold then d
  else if d.pwr.levelNext != d.pwr.level then
    let l := d.pwr.levelNext
    let up := d.pwr.level.toNat < l.toNat
    let d := withPwr d fun p => { p with
      level := l
      clockLevel := if up && p.clockLevel.toNat < l.toNat then l else p.clockLevel
      request := BitVec.ofNat 12 (setPoint d l.toNat)
      event := p.event ||| 8 }
    traceDevice d 11 deviceUnit (3 + l.toNat * 2 ^ 8)
  else if settled then withPwr d fun p => { p with clockLevel := p.level }
  else d

/-- A change of level is announced, to take effect at least 2 ticks after the first frame that carries
it; how many more is left open (log 8). -/
def announceLeap (d : Dev) (l : BitVec 4) : Dev :=
  let (k, d) := draw d
  let t := min lastTickOf (d.tik.tick.toNat + 3 + Config.choice k)
  setTikEvent (withTik d fun x => { x with leapNext := some (l, BitVec.ofNat 48 t) }) 3

/-- The level is raised by 1, no higher than the cap; a raise that falls due while a change is announced follows
it (R83, R84). -/
def raiseLeap (d : Dev) : Dev :=
  let cap := leapCap d d.tik.period.toNat
  match d.tik.leapNext with
  | some (l, _) => if l.toNat + d.tik.leapOwed < cap then withTik d fun x => { x with leapOwed := x.leapOwed + 1 } else d
  | none => if d.tik.leap.toNat < cap then announceLeap d (d.tik.leap + 1) else d

/-- An announced leap level reaches its tick (R84); on the master a raise that waited for it is announced. -/
def leapTick (d : Dev) : Dev :=
  match d.tik.leapNext with
  | some (l, t) =>
    if d.tik.eraValid && t.toNat ≤ d.tik.tick.toNat then
      let owed := d.tik.leapOwed
      let d := traceAlmanac (withTik d fun x => { x with leap := l, leapNext := none, leapOwed := owed - 1 }) 2
      if d.tik.isMaster && 0 < owed then raiseLeap d else d
    else d
  | none => d

/-- On the master, a level that a rise of the effective floor has left below it is announced at the floor (R83). -/
def floorTick (d : Dev) : Dev :=
  let floor := effectiveFloor d d.tik.period.toNat d.tik.leapFloor
  if d.tik.isMaster && d.tik.eraValid && d.tik.leapNext.isNone && d.tik.leap.toNat < floor.toNat then announceLeap d floor else d

/-- R113: frames are back and the device has locked. -/
def recoverAlmanac (d : Dev) : Dev :=
  if d.tik.almanacLost && d.tik.locked && !d.tik.holdover then withTik d fun x => { x with almanacLost := false } else d

/-- A cabled edge under test: after a reset, or after a write of TIK_CABLE_DLY (R109). -/
def cableTested (d : Dev) : Bool := d.tik.source = 2 && !d.tik.cableIgnored && d.join.position != 0

/-- R109: a cabled edge that agrees for sixteen consecutive ticks of its test gives the phase; whether it agrees in a
tick is no input of the model (log 28). One that differs for as long is CABLE_FAULT. -/
def cableTick (d : Dev) : Dev :=
  if !cableTested d then d
  else
    let (k, d) := draw d
    if Config.choice k % 2 = 0 then withTik d fun x => { x with cableRun := 0 }
    else if d.tik.cableRun < 15 then withTik d fun x => { x with cableRun := x.cableRun + 1 }
    else withTik d fun x => { x with cableRun := 0, source := 1 }

/-- The level of a new era's first tick (R83, R99). -/
def newEraLeap (d : Dev) (c : EraChange) : BitVec 4 := effectiveFloor d c.period.toNat c.floor

/-- The frame the master sends at this boundary, for the tick that the next one begins (Table 8-7, R360). -/
def tickBody (d : Dev) : TickBody :=
  let t := d.tik
  let base : TickBody := ⟨t.tick + 1, t.era, t.period.zeroExtend 16, t.leap, 0xF, t.holidayForce.zeroExtend 8, 0,
    d.join.member.zeroExtend 16, ⟨t.tick, t.offset⟩, 0, false, t.leapFloor, 0, 0, 0, 0⟩
  let base := match t.leapNext with
    | some (l, x) => { base with announced := l, announcedAt := x }
    | none => base
  if t.starting != 0 then { base with tick := 0 }
  else match t.change with
    | none => base
    | some c =>
      if c.lastTick = t.tick then
        { base with tick := 0, era := nextEra t.era, period := c.period.zeroExtend 16, leap := newEraLeap d c, announced := 0xF
                    announcedAt := 0, holiday := c.holiday.zeroExtend 8, leapFloor := c.floor }
      else { base with eraChange := true, newLeapFloor := c.floor, lastTick := c.lastTick, newPeriod := c.period, newHoliday := c.holiday }

/-- Copies of a tick frame to the distribution children. -/
def sendTick (d : Dev) (b : TickBody) : Dev := d.join.children.foldl (fun d p => sendCtl d p 0 0x01 (tickFrameBytes b)) d

/-- R360: the master's tick frame. -/
def masterFrame (d : Dev) : Dev :=
  if !d.tik.isMaster || d.tik.silent || !d.tik.eraValid then d
  else withTik (sendTick d (tickBody d)) fun x => { x with lockRun := x.lockRun + 1 }

/-- SET_TICK completes once the frames carry its change (R99, R232). -/
def endSetTicks (d : Dev) : Dev :=
  if d.tik.change.isNone then d
  else (d.running.filter fun r => r.wait = .eraChange && r.chunks = 0).foldl (fun d r => finishRunning d r 0 (changeResult d)) d

/-- A tile leaves service: draining, with no copy under way and no spare to wait for (R600). -/
def leavesService (d : Dev) (p : Nat) : Bool :=
  let x := physAt d p
  x.state = 2 && (copyOf d x.logical).isNone && !(tileRequested d p && (freeSpare d).isSome)

/-- R600, R601: whether the slice's SRAM passes BIST is a free choice (log 8). -/
def dropTile (d : Dev) (p : Nat) : Dev :=
  let (k, d) := draw d
  let d := setPhys d p fun x => { x with state := 3, sliceLost := Config.choice k % 2 = 1 }
  let d := withRpr d fun x => { x with degraded := true, missing := x.missing ++ [((physAt d p).logical, p)] }
  if activeCount d < 32 then failDevice d else d

def leaveTiles (d : Dev) : Dev := ((List.range 68).filter (leavesService d)).foldl dropTile d

/-- Settle time that passes. -/
def settleTick (ns : Nat) (d : Dev) : Dev := { d with quads := vmap (fun q => { q with remaining := q.remaining - ns }) d.quads }

/-- The settle time that remains at a boundary is what the budgets of the tick lose (R365). -/
def settleBudgets (d : Dev) : Dev := { d with quads := vmap (fun q => { q with lost := if q.settling then q.remaining else 0 }) d.quads }

/-- The writer brings the counts of the control page up to date at least once per tick (R636). -/
def pageTick (d : Dev) : Dev := if d.glb.initialised && !d.trc.stopped then updateControl d else d

/-- The end of the tick in force. -/
def endTick (d : Dev) : Dev :=
  let ns := stretched d - d.tik.offset.toNat
  let d := pageTick (settleBudgets (settleTick ns (passTime (markLate d) ns)))
  withTik d fun x => { x with
    ended := ⟨x.era, x.tick⟩
    offset := 0
    sinceEra := x.sinceEra + 1
    sinceFrame := if x.isMaster then 0 else x.sinceFrame + 1
    holdoverTicks := if x.holdover then x.holdoverTicks + 1 else 0 }

/-- What begins with a tick whose number is set: settings, levels, frames, the plan, carried-over work. -/
def openTick (d : Dev) (firmware : List PlanEntry) (settled : Bool) : Dev :=
  let d := withTik d fun x => { x with guardForce := x.guard, slipForce := x.slipLimit }
  let d := if d.join.position = 0 && d.tik.eraValid then withBus d fun b => { b with tickOut := b.tickOut + 1 } else d
  let d := recoverAlmanac (throttleTick (floorTick (leapTick d)) settled)
  let d := planPlacement (cableTick (applyTopology d))
  let d := endSetTicks (masterFrame d)
  let d := withPlan d fun p => { p with running := p.running.map fun x => { x with carried := true } }
  leaveTiles (takePlan d firmware false)

/-- The announced last tick of the era is in force (R99). In holdover, once the Almanac is lost, or while an election
runs, the change does not happen (R52, R533). -/
def atEraEnd (d : Dev) : Option EraChange :=
  if d.tik.eraValid && d.tik.starting = 0 && !d.tik.holdover && !d.tik.almanacLost && !d.join.electing then
    match d.tik.change with
    | some c => if c.lastTick = d.tik.tick then some c else none
    | none => none
  else none

/-- The next tick's number; the boundaries before tick 0 of an era just established count down (R514). A change
whose last tick ends here has not happened (R533). -/
def nextTick (x : Tik) : Tik :=
  if x.starting = 0 then { x with tick := x.tick + 1, change := x.change.filter fun c => c.lastTick != x.tick }
  else { x with starting := x.starting - 1 }

/-- The last tick that exists is in force: no tick of this era follows it (R62). -/
def atLastTick (d : Dev) : Bool := d.tik.eraValid && d.tik.starting = 0 && d.tik.tick.toNat = lastTickOf

/-- TICK_BOUNDARY (R60, R64, R67, R80, R89). The last boundary of an era is ERA_BOUNDARY. -/
def execTickBoundary (firmwarePlan : List PlanEntry) (vcoreSettled : Bool) (s : State) : Host.Outcome State Fault Refusal :=
  if s.dev.pwr.inReset || (atEraEnd s.dev).isSome || atLastTick s.dev then .next s
  else finish s (openTick (withTik (endTick (appendPlan s.dev [])) nextTick) firmwarePlan vcoreSettled)

/-! ### Era boundaries (R99, R100, R524, R507, R364) -/

/-- A deadline of the old era as one of the new (R73, R108). -/
def carryDeadline (last : BitVec 48) (w : Work) : Work :=
  { w with deadline := w.deadline.map fun t => t - last.toNat - 1 }

/-- R364: a changed rate takes effect; the quad settles for at most 500 ms. -/
def changeRate (q : Quad) (d : Dev) : Dev :=
  let x := d.quads[q]
  if x.rateRequest = x.rateActive then d
  else
    let d := withQuad d q fun x => { x with rateActive := x.rateRequest, settling := true, locked := false, remaining := 500000000, lost := 500000000 }
    (allPorts.filter fun p => quadOf p = q).foldl (fun d p => withPort d p fun s => { s with
      rate := x.rateRequest, state := if s.state = 2 then 3 else s.state }) d

/-- The device's own new member number is admitted (R507); its neighbours hear of it (log 26). -/
def takeMember (d : Dev) (era : BitVec 16) : Dev :=
  let m := d.join.tray ++ d.join.position
  let admitted := d.join.admitting.any (fun r => r.serial = d.fuses.serial)
    || d.join.segments.any fun s => s.era = era && s.edges.any fun e => e.1 = m || e.2 = m
  if m = d.join.member || !admitted then d
  else
    let d := withJoin d fun j => { j with
      member := m
      master := j.master.map fun x => if d.tik.isMaster then (x.1, m) else x }
    (upPorts d).foldl (fun d p => sendDisc d p (helloBody d p)) d

/-- The causes of a change that wait behind this one: the first is announced (R99), before joins that wait too (DESIGN
CHOICE, log 26). -/
def announceDeferred (d : Dev) : Dev :=
  match d.tik.deferred with
  | [] => d
  | c :: t =>
    let upd := fun (r : Running) => if r.wait = .eraChange then { r with chunks := r.chunks - 1 } else r
    announce (withTik { d with running := d.running.map upd } fun x => { x with deferred := t }) c

/-- A system of one member has a topology without edges, which no segment carries (R519). -/
def loneTopology (d : Dev) (era : BitVec 16) : Dev :=
  if d.tik.isMaster && !(d.join.admitting.isEmpty && d.join.removing.isEmpty) && !(d.join.segments.any fun s => s.era = era) then
    withJoin d fun j => { j with edges := [], members := [j.member], topoValid := true, topoEra := era }
  else d

/-- Tick 0 of the era that the change announced. A topology of which only some segments have come is not held
(R537); a member lost since the announcement awaits a change of its own (R99, R525). -/
def turnEra (d : Dev) (c : EraChange) : Dev :=
  let e := nextEra d.tik.era
  let leap := match d.tik.leapNext with
    | some (l, t) => if t = 0 && !d.tik.isMaster then l else newEraLeap d c
    | none => newEraLeap d c
  let d := loneTopology (takeMember d e) e
  let d := withTik { d with work := d.work.map (carryDeadline c.lastTick) } fun x => { x with
    era := e
    tick := 0
    lastEra := x.era
    sinceEra := 0
    period := c.period
    holidayForce := c.holiday
    leapFloor := c.floor
    leap := leap
    leapNext := none
    leapOwed := 0
    windowSum := 0
    lateInWindow := false
    carried := some (c.period, c.holiday, c.floor)
    childReports := 0
    zeroTicks := 0
    lastReport := 0
    change := none }
  let d := withJoin d fun j =>
    let lost := j.lost.filter fun m => !j.removing.contains m
    { j with
      highEra := maxEra j.highEra e
      master := j.master.map fun x => ({ x.1 with era := e }, x.2)
      topoValid := j.topoValid && !(j.segments.any fun s => s.era = e)
      admitting := []
      lost := lost
      removing := []
      downReports := j.downReports.filter fun x => lost.contains x.2
      firstJoin := if j.joins.isEmpty && lost.isEmpty then none else some 0 }
  let d := traceAlmanac (setTikEvent d 0) 1
  let d := eraPlacement d
  let d := ([0, 1, 2, 3] : List Quad).foldl (fun d q => changeRate q d) d
  if d.tik.isMaster then announceDeferred d else d

/-- ERA_BOUNDARY. Whether the supply has settled (R550) is no operand of it: left open (log 8). -/
def execEraBoundary (s : State) : Host.Outcome State Fault Refusal :=
  match atEraEnd s.dev with
  | none => .next s
  | some c =>
    if s.dev.pwr.inReset then .next s
    else
      let (k, d) := draw s.dev
      finish s (openTick (turnEra (endTick (appendPlan d [])) c) [] (Config.choice k % 2 = 1))

/-- The settings that the era after every change asked for so far would have. -/
def latestSettings (d : Dev) : EraChange :=
  let t := d.tik
  (t.deferred.getLast?.orElse fun _ => t.change).getD ⟨0, t.period, t.holidayForce, t.leapFloor⟩

/-- TICK_WRAP_ERA_CHANGE: an era change that keeps the settings (R62, R104). -/
def execTickWrapEraChange (s : State) : Host.Outcome State Fault Refusal :=
  let t := s.dev.tik
  if t.isMaster && t.eraValid && t.starting = 0 then finish s (requestChange s.dev (latestSettings s.dev)).1 else .next s

/-! ### Slips and stalls (R75–R78, R105) -/

/-- One tick later for a chunk that slips. -/
def laterBy1 (w : Work) : Work := { w with deadline := w.deadline.map (· + 1) }

/-- The own count of the group's slip for a tick that it has slipped for. -/
def slipOf (g : Group) (t : Stamp) : Option Nat := (g.slipSeen.find? fun x => x.1 = t).map (·.2)

/-- The tick after the one in force. -/
def afterNow (d : Dev) : Stamp := ⟨d.tik.era, d.tik.tick + 1⟩

/-- The group's slip for the tick `at0`, with the count that it has by this member's own finding: its oldest incomplete
chunk when this member found it late, and every chunk not started. A chunk not yet placed is left out of the next
tick's plan by firmware, so it is planned one tick later (R75; log 36). -/
def shiftGroup (d : Dev) (h : Nat) (at0 : Stamp) (count : Nat) (own : Option Work) : Dev :=
  let moves := fun (w : Work) => w.cls = groupClass && w.handle.toNat = h && w.stage != .done
    && (!w.started || own.any (sameWork w))
  let unplaced := fun (w : Work) => w.cls = groupClass && w.handle.toNat = h && w.planned.isNone
  let upd := fun (w : Work) => if unplaced w then { w with notIn := some (afterNow d) } else if moves w then laterBy1 w else w
  let d := { d with work := d.work.map upd }
  withTik (withGroup d h fun g => { g with slipSeen := (at0, count) :: g.slipSeen }) fun x => { x with slips := satAdd x.slips 1 }

/-- A slip notice to every neighbour but the one it came from (Table 8-7, type 0x12). -/
def sendSlip (d : Dev) (h : Nat) (g : Group) (at0 : Stamp) (count : Nat) (except : Option Port) : Dev :=
  ((neighbours g).filter fun n => except != some n.port).foldl (fun d n =>
    let hdr := { blankHdr d n.port with era := at0.era, tick := at0.tick.truncate 16, handle := BitVec.ofNat 16 h }
    sendFrame d n.port ⟨1, 0x12, hdr, beBytes 6 at0.tick.toNat ++ beBytes 2 h ++ beBytes 4 count, []⟩) d

/-- GROUP_SLIP (R75, R76). -/
def execGroupSlip (group : Fin 256) (s : State) : Host.Outcome State Fault Refusal :=
  let d := s.dev
  let h := group.val
  match groupOf d h, oldestIncomplete d h with
  | some g, some w =>
    if g.faulted.isSome || !w.late then .next s
    else match slipOf g d.tik.ended with
    | some count =>
      -- a neighbour's notice for the tick came first: the higher count stays, and the late chunk's own deadline moves
      let d := withGroup d h fun g => { g with slip := max g.slip count }
      finish s (if w.deadline.any fun t => t ≤ d.tik.ended.tick.toNat then putWork d (laterBy1 w) else d)
    | none =>
      let d := shiftGroup (withGroup d h fun g => { g with slip := g.slip + 1 }) h d.tik.ended (g.slip + 1) (some w)
      let d := traceChunk d 5 w.cls w.handle w.seq 0 (some g.label)
      finish s (sendSlip d h g s.dev.tik.ended (g.slip + 1) none)
  | _, _ => .next s

/-- GROUP_STALLED (R78). -/
def execGroupStalled (group : Fin 256) (s : State) : Host.Outcome State Fault Refusal :=
  let d := s.dev
  let h := group.val
  match groupOf d h with
  | none => .next s
  | some g =>
    if g.faulted.isSome || g.stalled || g.slip ≤ d.tik.slipForce.toNat then .next s
    else
      let d := withGroup d h fun g => { g with stalled := true }
      let d := setTikEvent (eventTo d g.opener 0x0402 [(20, 1, 1), (22, 2, h), (24, 4, g.slip)]) 4
      let seq := match oldestIncomplete d h with
        | some w => w.seq
        | none => g.nextSeq
      finish s (traceChunk d 6 groupClass (BitVec.ofNat 16 h) seq 0 (some g.label))

/-! ### Leap (R80–R84) -/

/-- The summed count that raises the level: one sixteenth of the members, rounded up (R83). -/
def leapThreshold (d : Dev) : Nat := ceilDiv (max 1 d.join.members.length) 16

/-- TICK_REPORT_SEND: the window's sum goes to the parent; on the master it is judged (R82, R83). -/
def execTickReportSend (s : State) : Host.Outcome State Fault Refusal :=
  let d := s.dev
  let t := d.tik
  if !isMember d || t.starting != 0 || t.tick.toNat % 16 != 0 || t.tick.toNat < 16 || t.lastReport = t.tick then .next s
  else
    let own := if t.lateInWindow then 1 else 0
    let sum := t.childReports + own
    let clear := fun (x : Tik) => { x with lateInWindow := false, childReports := 0, lastReport := x.tick }
    if t.isMaster then
      let d := withTik d fun x => { clear x with zeroTicks := if sum = 0 then x.zeroTicks + 16 else 0, windowSum := sum }
      finish s (if t.childReports < leapThreshold d && leapThreshold d ≤ sum then raiseLeap d else d)
    else
      let d := withTik d clear
      match d.join.parent with
      | some p => finish s (sendCtl d p 0 0x04 (beBytes 6 (t.tick.toNat - 16) ++ beBytes 2 sum))
      | none => finish s d

/-- The master's sum of a window rises from `before`: reaching the threshold raises the level (R83). -/
def judgeSum (d : Dev) (before count : Nat) : Dev :=
  let d := withTik d fun x => { x with zeroTicks := if count = 0 then x.zeroTicks else 0 }
  if d.tik.isMaster && before < leapThreshold d && leapThreshold d ≤ before + count then raiseLeap d else d

/-- A child's report of a window: it joins this device's own report of that window, or, when that one has gone
already, follows it up the tree; on the master it counts for its own window only (R82, R83). -/
def addReport (d : Dev) (window : BitVec 48) (count : Nat) : Dev :=
  let t := d.tik
  if t.lastReport.toNat ≤ window.toNat then
    judgeSum (withTik d fun x => { x with childReports := x.childReports + count }) t.childReports count
  else if !t.isMaster then
    match d.join.parent with
    | some p => sendCtl d p 0 0x04 (beBytes 6 window.toNat ++ beBytes 2 count)
    | none => d
  else if window.toNat + 16 = t.lastReport.toNat then
    judgeSum (withTik d fun x => { x with windowSum := x.windowSum + count }) t.windowSum count
  else d

/-- TICK_REPORT (R82, R83). -/
def execTickReport (p : Port) (h : LysHdr) (window : BitVec 48) (count : BitVec 16) (s : State) : Host.Outcome State Fault Refusal :=
  let (ok, d) := receive s.dev p 0 0x04 h
  if !ok || !isMember d || !d.join.children.contains p || h.era != d.tik.era || d.tik.tick.toNat < window.toNat then finish s d
  else finish s (addReport d window count.toNat)

/-- LEAP_LOWER: after 256 ticks without a late chunk, or because the cap has fallen below the level (R81, R83). -/
def execLeapLower (s : State) : Host.Outcome State Fault Refusal :=
  let d := s.dev
  let t := d.tik
  let floor := effectiveFloor d t.period.toNat t.leapFloor
  let cap := leapCap d t.period.toNat
  if t.isMaster && t.eraValid && t.leapNext.isNone && cap < t.leap.toNat then finish s (announceLeap d (BitVec.ofNat 4 cap))
  else if t.isMaster && t.eraValid && 256 ≤ t.zeroTicks && t.leapNext.isNone && floor.toNat < t.leap.toNat then
    finish s (announceLeap (withTik d fun x => { x with zeroTicks := 0 }) (t.leap - 1))
  else .next s

/-! ### Tick frames (R89, R90, R110, R115, R360) -/

/-- The frame as this hop sends it on: with its residence time, which is not given (log 8), and the link
delay added. -/
def forwardTick (d : Dev) (p : Port) (b : TickBody) : Dev :=
  if d.join.children.isEmpty then d
  else
    let (k, d) := draw d
    sendTick d { b with correction := b.correction + (portAt d p).linkDelay + BitVec.ofNat 64 (Config.choice k) }

/-- The ticks as a tick frame gives them to a device that did not follow them before (R115). -/
def frameTik (delay : BitVec 64) (b : TickBody) (x : Tik) : Tik :=
  let ns := b.origin.ns.toNat + (b.correction + delay).toNat / 65536
  let period : BitVec 10 := b.period.truncate 10
  let holiday : BitVec 3 := b.holiday.truncate 3
  { x with
    era := b.era
    tick := if b.tick = 0 then 0 else b.tick - 1
    offset := BitVec.ofNat 20 ns
    starting := if b.tick = 0 then 1 else 0
    eraValid := true
    period := period
    leap := b.leap
    leapNext := if b.announced = 0xF then none else some (b.announced, b.announcedAt)
    leapOwed := 0
    windowSum := 0
    lateInWindow := false
    holidayForce := holiday
    leapFloor := b.leapFloor
    carried := some (period, holiday, b.leapFloor)
    isMaster := false
    silent := false
    source := 2
    cableRun := 0
    holdover := false
    sinceFrame := 0
    lockRun := 0
    lastEra := 0
    sinceEra := 0
    change := none }

/-- A device that begins to follow an era it did not follow before. -/
def enterEra (d : Dev) (p : Port) (b : TickBody) : Dev :=
  let d := withTik (dropPlan d) (frameTik (portAt d p).linkDelay b)
  let d := eraPlacement (traceAlmanac (setTikEvent d 0) 1)
  if b.announced = 0xF then d else setTikEvent d 3

/-- The era was in being before this device followed it: its first ticks have passed, or the frame is of a later era
than the one accepted, or the device comes from another master (R523, R530). -/
def eraRuns (d : Dev) (b : TickBody) : Bool :=
  d.join.merging || b.tick != 0 || d.join.master.any fun m => m.1.era != b.era

/-- What the first tick frame of an era does for a device that has accepted the era (R115, R518, R523). A member whose
tray gives another number asks for that too (R507). -/
def adoptEra (d : Dev) (p : Port) (b : TickBody) : Dev :=
  let joining := eraRuns d b
  let d := withTik (enterEra d p b) fun x => { x with almanacLost := false }
  let d := withJoin d fun j => { j with
    attached := joining
    merging := false
    electing := false
    master := j.master.map fun m => ({ m.1 with era := b.era }, m.2) }
  let d := if joining then d else sendUp d (reportBody 2 (ownReport d false))
  if joining || d.join.tray ++ d.join.position != d.join.member then sendUp d (reportBody 4 (ownReport d true)) else d

/-- Frames return after the era has changed under the same master: the groups of the old era end, and the device
locks anew (R113); its links are reported in the new era (R518). -/
def catchUpEra (d : Dev) (p : Port) (b : TickBody) : Dev :=
  let d := enterEra (setLocked (failSetTicks (endAllGroups d)) false) p b
  let d := withJoin d fun j => { j with
    electing := false, best := none, heldProcl := none, master := j.master.map fun m => ({ m.1 with era := b.era }, m.2) }
  sendUp d (reportBody 2 (ownReport d false))

/-- The device has lost its place in the era that the frame leaves behind. -/
def fellBehind (d : Dev) (b : TickBody) : Bool :=
  (d.tik.holdover || d.tik.almanacLost || d.tik.change.isNone) && eraNewer b.era d.tik.era
    && d.join.master.any fun m => m.2.toNat = b.master.toNat

/-- The frame's announcements and its measured offset. -/
def followTick (d : Dev) (b : TickBody) (measured : Int) : Dev :=
  let good := decide (-40 ≤ measured) && decide (measured ≤ 40)
  let news := b.announced != 0xF && d.tik.leapNext != some (b.announced, b.announcedAt)
  let change : Option EraChange := if b.eraChange then some ⟨b.lastTick, b.newPeriod, b.newHoliday, b.newLeapFloor⟩ else d.tik.change
  let d := withTik d fun x => { x with
    sinceFrame := 0
    holdover := false
    lockRun := if good then x.lockRun + 1 else 0
    tick := if x.tick.toNat + 1 < b.tick.toNat then b.tick - 1 else x.tick
    leapNext := if b.announced != 0xF then some (b.announced, b.announcedAt)
      else if b.leap != x.leap && x.leapNext.isNone then some (b.leap, b.tick) else x.leapNext
    leapFloor := b.leapFloor
    change := change }
  let d := if good then d else setLocked d false
  if news then setTikEvent d 3 else d

/-- The frame for tick 0 of the announced era (R94, R99). -/
def lastFrame (d : Dev) (b : TickBody) (measured : Int) : Dev :=
  let good := decide (-40 ≤ measured) && decide (measured ≤ 40)
  let d := if good then d else setLocked d false
  withTik d fun x => { x with
    sinceFrame := 0
    holdover := false
    lockRun := if good then x.lockRun + 1 else 0
    leapNext := some (b.leap, 0)
    change := x.change.map fun c => { c with period := b.period.truncate 10, holiday := b.holiday.truncate 3, floor := b.leapFloor } }

/-- TICK_FRAME: from the distribution parent and of the era followed; other frames change nothing of the
device's own ticks (R110). -/
def execTickFrame (p : Port) (h : LysHdr) (b : TickBody) (measuredOffset : Int) (s : State) : Host.Outcome State Fault Refusal :=
  let (ok, d) := receive s.dev p 0 0x01 h
  if !ok then finish s d
  else
    let d := seeEra d b.era
    if d.join.parent != some p || d.tik.isMaster then finish s d
    else if !d.tik.eraValid then
      match d.join.master with
      | some (_, m) => if b.master.toNat = m.toNat then finish s (adoptEra (forwardTick d p b) p b) else finish s d
      | none => finish s d
    else if b.era = d.tik.era then finish s (followTick (forwardTick d p b) b measuredOffset)
    else if b.era = nextEra d.tik.era && b.tick = 0 && (atEraEnd d).isSome then finish s (lastFrame (forwardTick d p b) b measuredOffset)
    else if fellBehind d b then finish s (catchUpEra (forwardTick d p b) p b)
    else finish s d

/-- TICK_LOCK (R94). -/
def execTickLock (s : State) : Host.Outcome State Fault Refusal :=
  let t := s.dev.tik
  if t.eraValid && !t.locked && 16 ≤ t.lockRun then finish s (setLocked s.dev true) else .next s

/-- CABLE_FAULT: the edge in use, or one under test, has differed for 16 ticks (R109). -/
def execCableFault (s : State) : Host.Outcome State Fault Refusal :=
  if s.dev.tik.source = 1 || cableTested s.dev then
    finish s (setTikEvent (withTik s.dev fun x => { x with cableIgnored := true, cableRun := 0, source := 2 }) 5)
  else .next s

/-! ### Link delay (R90, R361) -/

/-- PEER_DELAY_SEND. -/
def execPeerDelaySend (p : Port) (s : State) : Host.Outcome State Fault Refusal :=
  let d := s.dev
  if !linkStands d p then .next s
  else
    let n := (portAt d p).delayNumber
    let d := withPort d p fun x => { x with delayNumber := n + 1, delaySent := none }
    finish s (sendCtl d p 0 0x05 (beBytes 2 n.toNat))

/-- PEER_DELAY_REQUEST. -/
def execPeerDelayRequest (p : Port) (h : LysHdr) (number : BitVec 16) (received : WireTime) (s : State) : Host.Outcome State Fault Refusal :=
  let (ok, d) := receive s.dev p 0 0x05 h
  if !ok then finish s d
  else finish s (sendCtl d p 0 0x06 (beBytes 2 number.toNat ++ timeBytes received.tick received.ns ++ timeBytes d.tik.tick d.tik.offset))

/-- A timestamp in ns of the ticks in force. -/
def wireNs (d : Dev) (t : WireTime) : Int := t.tick.toNat * stretched d + t.ns.toNat

/-- PEER_DELAY_RESPONSE: the link delay in units of 2^−16 ns. -/
def execPeerDelayResponse (p : Port) (h : LysHdr) (number : BitVec 16) (t2 t3 t4 : WireTime) (s : State) : Host.Outcome State Fault Refusal :=
  let (ok, d) := receive s.dev p 0 0x06 h
  match (portAt d p).delaySent with
  | some t1 =>
    if !ok || number + 1 != (portAt d p).delayNumber then finish s d
    else
      let delay := ((wireNs d t4 - wireNs d t1) - (wireNs d t3 - wireNs d t2)) * 32768
      finish s (withPort d p fun x => { x with delaySent := none, linkDelay := BitVec.ofInt 64 delay })
  | none => finish s d

/-! ### Holdover (R111–R113) -/

/-- HOLDOVER_ENTRY: eight ticks without a frame. -/
def execHoldoverEntry (s : State) : Host.Outcome State Fault Refusal :=
  let t := s.dev.tik
  if t.eraValid && !t.isMaster && !t.holdover && 8 ≤ t.sinceFrame then
    finish s (traceAlmanac (withTik s.dev fun x => { x with holdover := true, holdoverTicks := 0, lockRun := 0 }) 4)
  else .next s

end Sys2Proof.Machine
end

