-- ==== Sys2Proof/Machine/Joining.lean ====
section
/-!
DEFINITION. Joining (chapter 12): discovery, election, era frames, the topology, joining and leaving, as
the rows of the frames and timers that drive them.
-/
namespace Sys2Proof.Machine

/-! ### Election (R512–R514) -/

/-- This device's own Proclamation, proposing era H + 1. -/
def ownProcl (d : Dev) : Procl := ⟨d.join.masterPri, d.fuses.serial, nextEra d.join.highEra, 0⟩

/-- An election begins with this device's backoff. -/
def startElection (d : Dev) : Dev := withJoin d fun j => { j with electing := true, best := some (ownProcl d), heldProcl := none }

/-- The best Proclamation is the device's own. -/
def bestIsOwn (d : Dev) : Bool :=
  match d.join.best with
  | some b => b.serial = d.fuses.serial
  | none => false

/-- ELECTION_START (R512, R538, R539). -/
def execElectionStart (s : State) : Host.Outcome State Fault Refusal :=
  let d := s.dev
  let j := d.join
  if !eraHost d && j.masterPri != 0 && !d.tik.eraValid && !j.electing && j.master.isNone && d.pwr.stage = 8
      && !(upPorts d).isEmpty then finish s (startElection d)
  else .next s

/-- The own Proclamation goes out, proposing the H + 1 of this moment (R512). -/
def proclaim (d : Dev) : Dev :=
  let b := ownProcl d
  sendProclamations (withJoin d fun j => { j with best := some b }) ⟨b.priority, 0, b.era, b.serial, 0⟩ none

/-- PROCLAMATION_SEND: never in ERA host-assisted mode (R34), and held while a change of ERA is pending (R36, R512,
R514). -/
def execProclamationSend (s : State) : Host.Outcome State Fault Refusal :=
  let d := s.dev
  if d.join.electing && bestIsOwn d && !eraHost d && !pendingFn d 4 then finish s (proclaim d) else .next s

/-- Hop count of the era frames this device sends. -/
def ownHops (d : Dev) : Nat :=
  if d.tik.isMaster then 0
  else match d.join.parent with
    | some p => ((d.join.hopsAt[p]).map (fun (h : BitVec 8) => h.toNat + 1)).getD 1
    | none => 1

/-- The current era frame of the era held, on one port (R517, R529); none from a master whose designation has been
cleared (R522). -/
def answerEra (d : Dev) (p : Port) : Dev :=
  match d.join.master with
  | some (m, num) => if ownHops d ≤ 7 && !d.tik.silent then sendCtl d p 0 0x03 (eraFrame m num (BitVec.ofNat 8 (ownHops d))) else d
  | none => d

/-- A Proclamation stronger than the best is taken and sent on (R513, R532). -/
def takeProclamation (d : Dev) (p : Port) (b : ProcBody) : Dev :=
  let x : Procl := ⟨b.priority, b.serial, b.era, b.hops⟩
  let better := match d.join.best with
    | some y => strongerP x y
    | none => true
  if !better then d
  else
    let d := withJoin d fun j => { j with electing := true, best := some x, heldProcl := none }
    if 7 < b.hops.toNat + 1 then d
    else copyProclamation d { b with hops := b.hops + 1, era := maxEra b.era (nextEra d.join.highEra) } p

/-- PROCLAMATION: its proposed era is noted (R514); a member answers; a device without an era, or with a lost one, takes part (R513, R517,
R528; log 26). -/
def execProclamation (p : Port) (h : LysHdr) (b : ProcBody) (s : State) : Host.Outcome State Fault Refusal :=
  let (ok, d) := receive s.dev p 0 0x02 h
  let d := if ok then withJoin d fun j => { j with maxProposed := maxEra j.maxProposed b.era } else d
  if !ok then finish s d
  else if d.tik.eraValid && !d.tik.almanacLost then finish s (if isMember d then answerEra d p else d)
  else if eraHost d || (!d.tik.eraValid && d.join.master.isSome) then finish s d
  else finish s (takeProclamation d p b)

/-- BECOME_MASTER (R514). -/
def execBecomeMaster (s : State) : Host.Outcome State Fault Refusal :=
  let d := s.dev
  match d.join.best with
  | some b =>
    if d.join.electing && bestIsOwn d && !eraHost d then
      finish s (establishEra d (maxEra b.era d.join.maxProposed) d.join.masterPri)
    else .next s
  | none => .next s

/-- The Almanac is lost: no foreground work, an announced era change does not happen (R533), and an election may
start (R112, R528). -/
def loseAlmanac (d : Dev) : Dev :=
  let d := setTikEvent (setLocked (withTik d fun x => { x with almanacLost := true, lockRun := 0, change := none }) false) 2
  let d := traceAlmanac d 5
  if !eraHost d && d.join.masterPri != 0 then startElection d else d

/-- ALMANAC_LOST: in ERA hardware mode a device that may be master starts an election at once (R112, R528). -/
def execAlmanacLost (s : State) : Host.Outcome State Fault Refusal :=
  let t := s.dev.tik
  if t.holdover && !t.almanacLost && t.holdoverLimit.toNat ≤ t.holdoverTicks then finish s (loseAlmanac s.dev) else .next s

/-! ### Era frames (R515, R517, R523, R529, R533, R535) -/

/-- The era held is that of another master that still sends it: leaving it is a merge (R529, R530). -/
def isMerge (d : Dev) (x : Procl) : Bool :=
  d.tik.eraValid && !d.tik.almanacLost && d.join.master.any fun m => m.1.serial != x.serial

/-- The device accepts an era: the port becomes its distribution parent, the frame goes on. -/
def acceptEra (d : Dev) (p : Port) (x : Procl) (master : BitVec 12) : Dev :=
  let merging := isMerge d x
  let d := if d.tik.eraValid || d.join.master.isSome then leaveEra d else d
  let d := withJoin d fun j => { j with
    master := some (x, master)
    electing := false
    best := none
    heldProcl := none
    merging := merging
    hopsAt := j.hopsAt.set p (some x.hops) }
  let d := attachTo d p
  if 7 < x.hops.toNat + 1 then d else sendEraFrames d x master (x.hops + 1) (some p)

/-- A later era frame of the era held: its hop count may give a better parent; one that comes from the
parent goes on. A peer that is seen in the era for the first time makes a new link to report (R518, R525; log 26). -/
def repeatEra (d : Dev) (p : Port) (x : Procl) (master : BitVec 12) : Dev :=
  let known := peerInEra d p
  let d := withJoin d fun j => { j with hopsAt := j.hopsAt.set p (some x.hops) }
  if d.tik.isMaster then d
  else
    let d := match bestParent d fun _ => true with
      | some q => attachTo d q
      | none => d
    let d := if known then d else reportLinks d
    if d.join.parent = some p && x.hops.toNat + 1 ≤ 7 then sendEraFrames d x master (x.hops + 1) (some p) else d

/-- The era that a planned change leads to. -/
def plannedEra (d : Dev) (e : BitVec 16) : Bool := d.tik.change.isSome && e = nextEra d.tik.era

/-- An era frame at a device that holds or has accepted the era of master `y`; one in an election compares the frame's
master with its best (R517). -/
def compareEra (d : Dev) (p : Port) (x y : Procl) (master : BitVec 12) : Dev :=
  let beaten := d.join.electing && d.join.best.any fun b => b.serial != x.serial && !strongerP x b
  if beaten then d
  else if x.serial = y.serial then
    if x.era = y.era then
      repeatEra (withJoin d fun j => { j with electing := false, best := none, heldProcl := none }) p x master
    else if d.tik.isMaster || plannedEra d x.era || !eraNewer x.era y.era then d
    else acceptEra d p x master
  else if d.tik.almanacLost then acceptEra d p x master
  else if strongerP x y then acceptEra d p x master
  else if isMember d then answerEra d p
  else d

/-- ERA_FRAME. -/
def execEraFrame (p : Port) (h : LysHdr) (b : ProcBody) (s : State) : Host.Outcome State Fault Refusal :=
  let (ok, d) := receive s.dev p 0 0x03 h
  if !ok then finish s d
  else
    let d := seeEra d b.era
    let x : Procl := ⟨b.priority, b.serial, b.era, b.hops⟩
    let m : BitVec 12 := b.master.truncate 12
    match d.join.master with
    | some (y, _) => finish s (compareEra d p x y m)
    | none => match d.join.best with
      | some y => if y.serial = x.serial || strongerP x y then finish s (acceptEra d p x m) else finish s d
      | none => finish s (acceptEra d p x m)

/-- ERA_FRAME_PERIODIC (R515, R522). -/
def execEraFramePeriodic (s : State) : Host.Outcome State Fault Refusal :=
  let d := s.dev
  match d.join.master with
  | some (m, num) => if d.tik.isMaster && d.tik.eraValid && !d.tik.silent then finish s (sendEraFrames d m num 0 none) else .next s
  | none => .next s

/-! ### Topology (R518, R519, R537) -/

/-- TOPOLOGY_FORM: 64 ticks into an established era. The first tick of the topology's use is the
master's choice (log 8). -/
def execTopologyForm (s : State) : Host.Outcome State Fault Refusal :=
  let t := s.dev.tik
  if !t.isMaster || !t.eraValid || t.starting != 0 || t.tick.toNat < 64 || s.dev.join.topoValid || s.dev.join.duplicate then .next s
  else
    let d := s.dev
    let rs := putReport (ownReport d false) d.join.reports
    let edges := formEdges rs
    let (k, d) := draw d
    let d := withJoin d fun j => { j with
      reports := rs
      edges := edges
      members := dedup (rs.map (·.member))
      topoEra := t.era
      topoValid := true }
    finish s (sendSegments d (formSegments edges t.era (BitVec.ofNat 48 (t.tick.toNat + Config.choice k))))

/-- TOPOLOGY_MISSING: no segments have given the topology of this era, and the link report goes again. -/
def execTopologyMissing (s : State) : Host.Outcome State Fault Refusal :=
  let d := s.dev
  if d.tik.eraValid && !d.tik.isMaster && !(d.join.topoValid && d.join.topoEra = d.tik.era) && !d.join.duplicate then
    finish s (sendUp d (reportBody 2 (ownReport d false)))
  else .next s

/-- The common course of a discovery frame; one with counts outside their ranges is dropped (R537). -/
def receiveDisc (d : Dev) (p : Port) (h : LysHdr) (good : Bool) : Bool × Dev :=
  let (ok, d) := receive d p 3 0x33 h
  if ok && !good then (false, dropFrame d p) else (ok, d)

/-- TOPOLOGY_SEGMENT: from the parent, kept and sent on. -/
def execTopologySegment (p : Port) (h : LysHdr) (b : TopoBody) (s : State) : Host.Outcome State Fault Refusal :=
  let good := 1 ≤ b.edges.length && b.edges.length ≤ 2040 && b.index.toNat < b.count.toNat && b.count.toNat ≤ maxSegments
  let (ok, d) := receiveDisc s.dev p h good
  if !ok || d.join.parent != some p || d.tik.isMaster then finish s d
  else
    let d := sendDown d (segmentBody b)
    if b.era != d.tik.era && b.era != nextEra d.tik.era then finish s d
    else
      let other := fun (x : TopoBody) => !(x.era = b.era && x.firstTick = b.firstTick && x.index = b.index)
      finish s (applyTopology (withJoin d fun j => { j with segments := j.segments.filter other ++ [b] }))

/-! ### Links and reports (R510, R518, R524, R525, R509) -/

/-- HELLO_SEND: at link-up, and again until the peer's hello has come (R510). -/
def execHelloSend (p : Port) (s : State) : Host.Outcome State Fault Refusal :=
  let d := s.dev
  let x := portAt d p
  if linkStands d p && !(x.helloSent && x.helloHeard) then
    finish s (sendDisc (withPort d p fun x => { x with helloSent := true }) p (helloBody d p))
  else .next s

/-- HELLO: the peer's number; a link that it makes known, or known under another number, is reported. -/
def execHello (p : Port) (h : LysHdr) (b : HelloBody) (s : State) : Host.Outcome State Fault Refusal :=
  let (ok, d) := receiveDisc s.dev p h (b.port.toNat < 16)
  if !ok then finish s d
  else
    let known := (portAt d p).peerValid && (portAt d p).peer = b.member
    let d := withPort d p fun x => { x with peer := b.member, peerValid := true, helloHeard := true }
    finish s (if known then d else reportLinks d)

/-- A report from a distribution child goes to the master's records or toward it. -/
def takeReport (d : Dev) (p : Port) (b : ReportBody) (kind : Byte) : Dev :=
  if !d.join.children.contains p then d
  else if d.tik.isMaster then masterReport d b (kind = 4)
  else sendUp d (reportBody kind b)

/-- LINK_REPORT. -/
def execLinkReport (p : Port) (h : LysHdr) (b : ReportBody) (s : State) : Host.Outcome State Fault Refusal :=
  let (ok, d) := receiveDisc s.dev p h (b.links.length ≤ 16)
  if ok then finish s (takeReport d p b 2) else finish s d

/-- JOIN_REQUEST. -/
def execJoinRequest (p : Port) (h : LysHdr) (b : ReportBody) (s : State) : Host.Outcome State Fault Refusal :=
  let (ok, d) := receiveDisc s.dev p h (b.links.length ≤ 16)
  if ok then finish s (takeReport d p b 4) else finish s d

/-- JOIN_ANNOUNCE: the era change that admits the devices whose requests have come and removes those
lost, with the new topology sent ahead (R524, R525, R534). -/
def execJoinAnnounce (s : State) : Host.Outcome State Fault Refusal :=
  let d := s.dev
  let t := d.tik
  let due := match d.join.firstJoin with
    | some x => x.toNat + 16 ≤ t.tick.toNat
    | none => false
  if !t.isMaster || !t.eraValid || t.starting != 0 || !due || t.change.isSome then .next s
  else
    let known := putReport (ownReport d false) d.join.reports
    let rs := (d.join.joins.foldl (fun rs b => putReport b rs) (known.filter fun r => !d.join.lost.contains r.member)).map
      (renameLinks (renumbered known d.join.joins))
    let segs := formSegments (formEdges rs) (nextEra t.era) 0
    let d := withJoin d fun j => { j with
      reports := rs
      admitting := j.joins
      removing := j.lost
      joins := []
      firstJoin := none
      segments := j.segments ++ segs }
    finish s (sendSegments (announce d ⟨0, t.period, t.holidayForce, t.leapFloor⟩) segs)

/-- MEMBER_LOST: sent on, and groups that hold the member fault (R525, R55). -/
def execMemberLost (p : Port) (h : LysHdr) (member : BitVec 12) (s : State) : Host.Outcome State Fault Refusal :=
  let (ok, d) := receiveDisc s.dev p h true
  if !ok || d.join.parent != some p then finish s d
  else finish s (loseMember (sendDown d (lostBody member)) member)

/-- CHILD_ATTACH (R515): the link to the peer, now in the era, is reported (R525; log 26). -/
def execChildAttach (p : Port) (h : LysHdr) (s : State) : Host.Outcome State Fault Refusal :=
  let (ok, d) := receiveDisc s.dev p h true
  if !ok || d.join.master.isNone || d.join.parent = some p || d.join.children.contains p then finish s d
  else finish s (reportLinks (withJoin d fun j => { j with children := j.children ++ [p] }))

/-- DUPLICATE_NOTICE (R509). -/
def execDuplicateNotice (p : Port) (h : LysHdr) (serial : BitVec 64) (s : State) : Host.Outcome State Fault Refusal :=
  let (ok, d) := receiveDisc s.dev p h true
  if !ok || d.join.parent != some p then finish s d
  else if serial = d.fuses.serial then
    finish s (withJoin d fun j => { j with duplicate := true, topoValid := false, edges := [], members := [] })
  else finish s (sendDown d (duplicateBody serial))

end Sys2Proof.Machine
end

