-- ==== Sys2Proof/Machine/Frames.lean ====
section
/-!
DEFINITION. What a Lysesh port receives and what its timers do (chapters 8 to 10): chunk segments, ACK,
RE_ASK and retries, notices and requests, handoffs, credits, lanes, and ports that come up or go down.
-/
namespace Sys2Proof.Machine

/-! ### Retries (R354–R357, R440) -/

/-- The chunk of work that a held chunk carries. -/
def sentWork (d : Dev) (c : SentChunk) : Option Work :=
  if c.stream then findHandoff d c.handle c.seq else findWork d groupClass c.handle c.seq

/-- A chunk event of a chunk this device sent (Table 15-4, kind 5). -/
def traceSent (d : Dev) (event : Nat) (c : SentChunk) (p : Port) : Dev :=
  traceChunk d event (chunkClass c.stream) c.handle c.seq p.val ((sentWork d c).map fun w => ownerLabel d w.owner)

/-- The sender has no resend left: the command that carries the chunk ends, and its group faults. -/
def exhaust (d : Dev) (p : Port) (c : SentChunk) (st : Status) : Dev :=
  let d := portEvent d p 4
  if !c.stream then faultGroup d c.handle.toNat st none
  else match (sentWork d c).bind fun w => runningOf d w.owner with
    | some r => match r.cmd with
      | .kvHandoff o => handoffFail (forgetOnPorts d true c.handle) r o st
      | _ => d
    | none => d

/-- The next attempt of a chunk: these segments, as work carried over (R354, R355). -/
def resend (d : Dev) (p : Port) (c : SentChunk) (segments : List Nat) : Dev :=
  let d := withSent d p c fun x => { x with attempt := x.attempt + 1, segments := segments, left := false }
  let bytes := (segments.map fun k => min 8192 (c.bytes.length - 8192 * k)).foldl (· + ·) 0
  let cost := segmentsCost (portAt d p) bytes segments.length
  let x : RunEntry := ⟨⟨txResource p, c.handle, c.seq, BitVec.ofNat 24 cost, chunkClass c.stream⟩, true, false, false, false, false⟩
  bumpPort (withPlan d fun q => { q with carried := q.carried ++ [x] }) p 6 1

/-- A failed attempt: another one, or the end after the third resend (R357). -/
def retry (d : Dev) (p : Port) (c : SentChunk) (segments : List Nat) (st : Status) : Dev :=
  if c.attempt = 3 then exhaust d p c st else resend d p c segments

def allSegments (c : SentChunk) : List Nat := List.range (segmentCount c.bytes.length)

/-- RE_ASK (R354, R356). -/
def execReAsk (p : Port) (h : LysHdr) (reason : BitVec 8) (missing : BitVec 32) (s : State) : Host.Outcome State Fault Refusal :=
  let (ok, d) := receive s.dev p 1 0x11 h
  if !ok then finish s d
  else if reason = 0 || 3 < reason.toNat then finish s (dropFrame d p)
  else
    let d := bumpPort d p 5 1
    match wireChunk d p h.stream h.handle h.seq with
    | none => finish s d
    | some c =>
      if h.attempt != c.attempt || !c.left then finish s d
      else
        let named := (allSegments c).filter fun k => missing.getLsbD k
        let segs := if reason = 3 && !named.isEmpty then named else allSegments c
        finish s (retry (traceSent d 4 c p) p c segs (if reason = 2 then 0x0301 else 0x0302))

/-- ACK_TIMEOUT (R354, R357). -/
def execAckTimeout (p : Port) (stream : Bool) (handle : BitVec 16) (seq : BitVec 32) (s : State) : Host.Outcome State Fault Refusal :=
  match sentChunk s.dev p stream handle seq with
  | none => .next s
  | some c => if c.left then finish s (retry s.dev p c (allSegments c) 0x0503) else .next s

/-- The neighbour holds the chunk: its bytes are freed here, and the chunk is done once every
destination has it (R356, Table 9-2). -/
def acknowledged (d : Dev) (p : Port) (c : SentChunk) : Dev :=
  let w := sentWork d c
  let d := traceSent d 2 c p
  let d := dropSent d p c
  match w with
  | none => d
  | some w =>
    let w' := withoutPort p w
    let stay := { w' with stage := w.stage }
    toStage (putWork d stay) stay w'.stage

/-- ACK. -/
def execAck (p : Port) (h : LysHdr) (s : State) : Host.Outcome State Fault Refusal :=
  let (ok, d) := receive s.dev p 1 0x10 h
  if !ok then finish s d
  else match wireChunk d p h.stream h.handle h.seq with
    | some c => if c.left || c.attempt != 0 then finish s (acknowledged d p c) else finish s d
    | none => finish s d

/-! ### Receiving chunks (R352, R353, R375) -/

def samePartial (stream : Bool) (handle : BitVec 16) (seq : BitVec 32) (x : Partial) : Bool :=
  x.stream = stream && x.handle = handle && x.seq = seq

/-- RE_ASK goes out; after attempt 3 the receiver gives the chunk up too (R357). -/
def askAgain (d : Dev) (p : Port) (x : Partial) (reason : Nat) (missing : Nat) : Dev :=
  if !x.stream then askGroup d p x.handle x.seq x.attempt reason missing
  else
    let d := sendReAsk d p true x.handle x.seq x.attempt reason missing
    if x.attempt != 3 then d
    else
      let d := portEvent d p 4
      match incomingOf d x.handle with
      | some i =>
        let st := exhaustStatus reason
        failWaitingStages (forgetOnPorts (dropIncoming (sendDone d i.port i.stream st) i) true x.handle) i.stream st
      | none => d

def sendAck (d : Dev) (p : Port) (x : Partial) (pages : List (Nat × Nat)) : Dev :=
  ackChunk d p x.stream x.handle x.seq x.attempt pages

/-- The whole chunk of a group has come. -/
def groupArrival (d : Dev) (p : Port) (x : Partial) (bs : List Byte) : Dev :=
  let h := x.handle.toNat
  match groupOf d h with
  | none => d
  | some g =>
    let own := (findWork d groupClass x.handle x.seq).bind fun w => ctxOf d w.owner
    let coded := bit (chunkForm bs) 2
    -- a chunk that is not what the own command expects faults the group (R402), whatever its balance
    let other := (findWork d groupClass x.handle x.seq).any fun w => chunkDiffers d g (childPort g p) w bs
    let check := if other then some true else chunkCheck d own bs
    let keep := fun (unchecked : Option (BitVec 2)) (d : Dev) =>
      let y : RxChunk := ⟨p, childPort g p, x.seq, bs, if coded then [] else bs.drop 64, !coded, unchecked⟩
      withGroup d h fun g => { g with received := g.received ++ [y] }
    match check with
    | some true => sendAck (keep none d) p x []
    | none => keep (some x.attempt) d
    | some false => askAgain d p x 2 0

/-- A handoff chunk that is not what the handoff expects ends it, without RE_ASK (log 24). -/
def failIncoming (d : Dev) (i : Incoming) (st : Status) : Dev :=
  failWaitingStages (forgetOnPorts (dropIncoming (sendDone d i.port i.stream st) i) true i.stream) i.stream st

/-- The header of a kind 2 chunk fits the handoff (Table 10-2). -/
def handoffHeaderOk (s : Stream) (bs : List Byte) : Bool :=
  chunkKind bs = 2 && field bs 48 1 % 128 = s.bpp / 128 && field bs 49 1 = s.format.toNat && field bs 42 4 % 16 = 0

/-- Sequences received in order from the oldest awaited on. -/
def advanceGot : Nat → BitVec 32 → List (BitVec 32) → BitVec 32 × List (BitVec 32)
  | 0, n, l => (n, l)
  | fuel + 1, n, l => if l.contains n then advanceGot fuel (n + 1) (l.filter (· != n)) else (n, l)

/-- The whole chunk of a handoff has come (R439). -/
def handoffArrival (d : Dev) (p : Port) (x : Partial) (bs : List Byte) : Dev :=
  match incomingOf d x.handle, streamOf d x.handle.toNat with
  | some i, some s =>
    if (bs.take 24).any (· != 0) then askAgain d p x 2 0
    else if !handoffHeaderOk s bs then failIncoming (sendAck d p x []) i 0x0503
    else match chunkPages s i (field bs 32 4) (field bs 40 1) (field bs 42 4 / 16) (bs.drop 64) with
      | none => failIncoming (sendAck d p x []) i 0x0303
      | some pages =>
        let (lost, d) := bufferLost d (handoffTag x.handle.toNat)
        if lost then failIncoming (sendAck d p x []) i 0x0505
        else match storeAll d i pages with
        | none => failIncoming (sendAck d p x []) i 0x0303
        | some (d, i) =>
          let (n, got) := advanceGot (i.got.length + 1) i.nextSeq (i.got ++ [x.seq])
          let moved := n != i.nextSeq
          let i := { i with nextSeq := n, got := got, limit := if moved then n + 8 else i.limit }
          let d := sendAck (putIncoming d i) p x (pages.map fun e => (e.1.1, e.1.2.1))
          if i.stored.length = incomingPages i then commitIncoming d i
          else if moved then sendStream d p i.stream 0 0x0103 (requestOps [(4, 4, i.limit.toNat)])
          else d
  | _, _ => d

/-- Bytes of a chunk whose segments are all held. -/
def partialBytes (x : Partial) : List Byte :=
  (List.range (segmentCount x.length)).flatMap fun k => ((x.segments.find? fun e => e.1 = k).map (·.2)).getD []

def missingSegments (x : Partial) : List Nat :=
  (List.range (segmentCount x.length)).filter fun k => !x.segments.any fun e => e.1 = k

def dropPartial (d : Dev) (p : Port) (x : Partial) : Dev :=
  let other := fun (y : Partial) => !samePartial x.stream x.handle x.seq y
  withPort d p fun s => { s with partials := s.partials.filter other }

/-- The first segment of a neighbour's chunk takes its slot (Table 9-2). -/
def holdSlot (d : Dev) (x : Partial) : Dev :=
  match (if x.stream then none else groupOf d x.handle.toNat) with
  | some g => if slotOf g x.seq = .free then setSlot d x.handle.toNat x.seq .gather else d
  | none => d

/-- One more segment: the chunk is kept in part, or checked when it is whole. -/
def addSegment (d : Dev) (p : Port) (h : LysHdr) (payload : List Byte) : Dev :=
  let old := ((portAt d p).partials.find? (samePartial h.stream h.handle h.seq)).getD
    ⟨h.stream, h.handle, h.seq, h.attempt, h.chunkLength.toNat, []⟩
  let k := h.offset.toNat / 8192
  if old.length != h.chunkLength.toNat then dropFrame d p
  else
    let have_ := old.segments.any fun e => e.1 = k
    let x : Partial := { old with
      attempt := if old.attempt.toNat < h.attempt.toNat then h.attempt else old.attempt
      segments := if have_ then old.segments else old.segments ++ [(k, payload)] }
    let d := holdSlot (dropPartial d p x) x
    if !(missingSegments x).isEmpty then withPort d p fun s => { s with partials := s.partials ++ [x] }
    else
      let bs := partialBytes x
      if field bs 36 4 != (chunkCrc bs).toNat then askAgain (bumpPort d p 3 1) p x 1 0
      else if x.stream then handoffArrival d p x bs
      else groupArrival d p x bs

/-- The segment lies inside its chunk, and its flags say where (R344, R378). -/
def segmentFits (h : LysHdr) (payload : List Byte) : Bool :=
  let n := h.chunkLength.toNat
  let o := h.offset.toNat
  64 ≤ n && n ≤ 262144 && o % 8192 = 0 && o < n && payload.length = min 8192 (n - o) && payload.length = h.length.toNat
    && h.first = (o = 0) && h.last = (o + payload.length = n)

/-- This port's peer may send the chunk: a group's neighbour within its grant (R387, R394), or the
sender of the incoming handoff (R438). -/
def segmentWanted (d : Dev) (p : Port) (h : LysHdr) : Bool :=
  if h.stream then
    match incomingOf d h.handle with
    | some i => i.fromMember = (portAt d p).peer && !seqBefore h.seq i.nextSeq && seqBefore h.seq i.limit && !i.got.contains h.seq
    | none => false
  else match groupOf d h.handle.toNat with
    | some g => g.faulted.isNone && (nbrOn g p).isSome && !lostParent g p && seqBefore h.seq g.granted
        && h.chunkLength.toNat ≤ chunkSizeOf g
    | none => false

/-- A segment of a chunk already acknowledged: ACK once for each later attempt (R356). -/
def ackAgain (d : Dev) (p : Port) (h : LysHdr) (a : Acked) : Dev :=
  if a.attempts.contains h.attempt then d
  else
    let upd := fun (x : Acked) => if x.stream = a.stream && x.handle = a.handle && x.seq = a.seq then
      { x with attempts := h.attempt :: x.attempts } else x
    sendVc1 (withPort d p fun s => { s with acked := s.acked.map upd }) p 0x10 h.stream h.handle h.seq h.attempt (zeros 4)

/-- A chunk that waits for the own command to be checked: the answer will name the newest attempt. -/
def noteAttempt (d : Dev) (p : Port) (h : LysHdr) : Dev :=
  let upd := fun (y : RxChunk) => if y.port = p && y.seq = h.seq then
    { y with unchecked := y.unchecked.map fun a => if a.toNat < h.attempt.toNat then h.attempt else a } else y
  withGroup d h.handle.toNat fun g => { g with received := g.received.map upd }

/-- CHUNK_SEGMENT. -/
def execChunkSegment (p : Port) (h : LysHdr) (payload : List Byte) (s : State) : Host.Outcome State Fault Refusal :=
  let (ok, d) := receive s.dev p 2 0x20 h
  if !ok then finish s d
  else if !segmentFits h payload then finish s (dropFrame d p)
  else match (portAt d p).acked.find? fun a => a.stream = h.stream && a.handle = h.handle && a.seq = h.seq with
    | some a => finish s (ackAgain d p h a)
    | none =>
      if !segmentWanted d p h then finish s (dropFrame d p)
      else if !h.stream && (match groupOf d h.handle.toNat with
          | some g => (rxOf g p h.seq).isSome
          | none => false) then finish s (noteAttempt d p h)
      else finish s (addSegment d p h payload)

/-- REASM_TIMEOUT (R353). -/
def execReasmTimeout (p : Port) (stream : Bool) (handle : BitVec 16) (seq : BitVec 32) (s : State) : Host.Outcome State Fault Refusal :=
  match (portAt s.dev p).partials.find? (samePartial stream handle seq) with
  | none => .next s
  | some x => finish s (askAgain s.dev p x 3 ((missingSegments x).foldl (fun acc k => acc + 2 ^ k) 0))

/-! ### Notices and requests of groups -/

/-- SLIP_NOTICE (R76, R105). -/
def execSlipNotice (p : Port) (h : LysHdr) (tick : BitVec 48) (group : BitVec 16) (count : BitVec 32) (s : State) :
    Host.Outcome State Fault Refusal :=
  let (ok, d) := receive s.dev p 1 0x12 h
  let n := group.toNat
  match groupOf d n with
  | none => finish s d
  | some g =>
    if !ok || g.faulted.isSome || (nbrOn g p).isNone then finish s d
    else
      let at0 : Stamp := ⟨h.era, tick⟩
      let d' := withGroup d n fun g => { g with slip := max g.slip count.toNat }
      if (slipOf g at0).isSome then finish s d'
      else finish s (sendSlip (shiftGroup d' n at0 (g.slip + 1) none) n g at0 (max g.slip count.toNat) (some p))

/-- EXPONENT_NOTICE: kept for the next BUCKET_OPEN, and sent on (R141). -/
def execExponentNotice (p : Port) (h : LysHdr) (group : BitVec 16) (bucket exponent : BitVec 8) (s : State) :
    Host.Outcome State Fault Refusal :=
  let (ok, d) := receive s.dev p 1 0x13 h
  let n := group.toNat
  match groupOf d n with
  | none => finish s d
  | some g =>
    if !ok || !(g.parent.any fun x => x.port = p) then finish s d
    else finish s (sendExponent { d with exponents := expSet d.exponents n bucket.toNat exponent } n bucket.toNat exponent)

/-- The neighbour on this port changed. -/
def withNbr (d : Dev) (h : Nat) (p : Port) (f : Nbr → Nbr) : Dev :=
  let upd := fun (n : Nbr) => if n.port = p then f n else n
  withGroup d h fun g => { g with parent := g.parent.map upd, children := g.children.map upd }

/-- The neighbour's latest limit holds. One for a group that is not open here yet, or not ahead of the last one because
the neighbour has opened its group anew, and every one after that, is kept for the next OPEN_GROUP too (R394; log 16). -/
def takeGrant (d : Dev) (p : Port) (h : Nat) (limit : BitVec 32) : Dev :=
  let ahead := match (groupOf d h).bind fun g => nbrOn g p with
    | some n => seqBefore n.grant limit
    | none => false
  let d := withNbr d h p fun n => { n with grant := limit }
  if ahead && (assoc h (portAt d p).grants).isNone then d
  else withPort d p fun x => { x with grants := assocSet h limit x.grants }

/-- GRANT. -/
def execGrant (p : Port) (h : LysHdr) (limit : BitVec 32) (s : State) : Host.Outcome State Fault Refusal :=
  let (ok, d) := receive s.dev p 1 0x14 h
  if !ok || h.stream then finish s d
  else finish s (takeGrant d p h.handle.toNat limit)

/-- The alternate can still take the orphan in from this sequence on (R415). -/
def mayAdopt (d : Dev) (h : Nat) (g : Group) (first : BitVec 32) : Bool :=
  let computing := fun (w : Work) => match w.job with
    | .reduce .. => w.seq = first && (w.started || (w.stage != .gather && w.stage != .engine))
    | _ => false
  let held := (openWorks d h).map (·.seq)
  let kept := (List.range (g.nextSeq - first).toNat).all fun i => held.contains (first + BitVec.ofNat 32 i)
  let most := if g.parent.isNone then 16 else 15
  g.derived && g.faulted.isNone && g.children.length < most && !seqBefore first (groupFloor d h g)
    && (seqBefore g.nextSeq first || kept)
    && !(d.work.any fun w => w.cls = groupClass && w.handle.toNat = h && computing w)

/-- The orphan becomes a child: chunks not begun wait for its own. -/
def adoptChild (d : Dev) (h : Nat) (p : Port) (first : BitVec 32) : Dev :=
  let m := (portAt d p).peer
  let d := withGroup d h fun g => { g with children := g.children ++ [⟨m, p, first, some first⟩] }
  let wait := fun (w : Work) =>
    if w.cls = groupClass && w.handle.toNat = h && !seqBefore w.seq first && !w.started && w.stage = .engine then
      { w with stage := Stage.gather } else w
  { d with work := d.work.map wait }

/-- The broadcast chunks from this sequence on are for the new neighbour too. -/
def addDestination (h : Nat) (p : Port) (first : BitVec 32) (d : Dev) : Dev :=
  let more := fun (w : Work) =>
    let forward := match w.job with
      | .bcast .. => match w.stage with
        | .send _ | .held _ => true
        | _ => false
      | _ => false
    if w.cls = groupClass && w.handle.toNat = h && !seqBefore w.seq first && forward then
      let ps := match w.stage with
        | .send ps => ps
        | _ => []
      { w with stage := Stage.send (ps ++ [p]), unacked := w.unacked ++ [p] }
    else w
  { d with work := d.work.map more }

/-- ADOPT (R415). -/
def execAdopt (p : Port) (h : LysHdr) (first : BitVec 32) (s : State) : Host.Outcome State Fault Refusal :=
  let (ok, d) := receive s.dev p 1 0x14 h
  let n := h.handle.toNat
  let reply := fun (d : Dev) (yes : Bool) =>
    sendRequest d p false h.handle 3 (requestOps [(4, 4, first.toNat), (8, 1, if yes then 1 else 0)])
  if !ok || h.stream then finish s d
  else match groupOf d n with
    | none => finish s (reply d false)
    | some g =>
      if !mayAdopt d n g first || (nbrOn g p).isSome then finish s (reply d false)
      else
        let d := reply (addDestination n p first (adoptChild d n p first)) true
        finish s (sendRequest d p false h.handle 1 (requestOps [(4, 4, g.granted.toNat)]))

/-- The alternate is the new parent: unacknowledged chunks go there at attempt 0. -/
def takeParent (d : Dev) (h : Nat) (g : Group) (p : Port) (first : BitVec 32) : Dev :=
  let old := g.parent.map (·.port)
  let m := (portAt d p).peer
  let d := withGroup d h fun g => { g with parent := some ⟨m, p, first, none⟩, adopting := none }
  let d := match old with
    | some q => { d with work := d.work.map fun w => if w.cls = groupClass && w.handle.toNat = h then movePort q p w else w }
    | none => d
  sendRequest d p false (BitVec.ofNat 16 h) 1 (requestOps [(4, 4, g.granted.toNat)])

/-- ADOPT_REPLY (R415, R416). -/
def execAdoptReply (p : Port) (h : LysHdr) (first : BitVec 32) (accepted : Bool) (s : State) : Host.Outcome State Fault Refusal :=
  let (ok, d) := receive s.dev p 1 0x14 h
  let n := h.handle.toNat
  match groupOf d n with
  | none => finish s d
  | some g =>
    if !ok || h.stream || g.faulted.isSome || g.adopting != some first then finish s d
    else if accepted then finish s (takeParent d n g p first)
    else finish s (faultGroup d n 0x0507 none)

/-- ABORT (R420). -/
def execAbort (p : Port) (h : LysHdr) (status : BitVec 16) (s : State) : Host.Outcome State Fault Refusal :=
  let (ok, d) := receive s.dev p 1 0x14 h
  match groupOf d h.handle.toNat with
  | none => finish s d
  | some g =>
    if !ok || h.stream || (nbrOn g p).isNone then finish s d
    else finish s (faultGroup d h.handle.toNat status (some p))

/-! ### Handoffs (R433, R434, R438, R440) -/

/-- HANDOFF_BEGIN. -/
def execHandoffBegin (p : Port) (h : LysHdr) (first positions : BitVec 32) (firstLayer layersM1 bppUnits format : BitVec 8)
    (s : State) : Host.Outcome State Fault Refusal :=
  let (ok, d) := receive s.dev p 1 0x14 h
  let layers := layersM1.toNat + 1
  let reply := fun (d : Dev) (st : Status) (limit : BitVec 32) =>
    sendStream d p h.handle 0 0x0102 (requestOps [(2, 2, st.toNat), (4, 4, limit.toNat)])
  if !ok || !h.stream then finish s d
  else match handoffRoom d h.handle first.toNat positions.toNat firstLayer.toNat layers (bppUnits.toNat % 128) format.toNat with
    | .error st => finish s (reply d st 0)
    | .ok d =>
      let i : Incoming := ⟨h.handle, p, (portAt d p).peer, first.toNat, positions.toNat, firstLayer.toNat, layers, h.seq + 8, h.seq, [], []⟩
      -- a new handoff's chunks are none of an earlier one's
      finish s (reply { forgetOnPorts d true h.handle with incoming := d.incoming ++ [i] } 0 i.limit)

/-- The own handoff to this stream of the peer on this port, in the given wait. -/
def handoffTo (d : Dev) (p : Port) (h : LysHdr) (w : Wait) : Option (Running × HandoffOps) :=
  d.running.findSome? fun r => match r.cmd with
    | .kvHandoff o =>
      if r.wait = w && o.destStream = h.handle && o.destMember.toNat = (portAt d p).peer.toNat then some (r, o) else none
    | _ => none

/-- HANDOFF_REPLY. -/
def execHandoffReply (p : Port) (h : LysHdr) (status : BitVec 16) (limit : BitVec 32) (s : State) : Host.Outcome State Fault Refusal :=
  let (ok, d) := receive s.dev p 1 0x14 h
  if !ok || !h.stream then finish s d
  else match handoffTo d p h .handoffReply with
    | none => finish s d
    | some (r, o) =>
      if status != 0 then finish s (turnEnd d r status 0)
      else match streamOf d r.hdr.handle.toNat with
        | some st => finish s (handoffAccepted d r st o limit)
        | none => finish s (turnEnd d r 0x0103 0)

/-- HANDOFF_GRANT. -/
def execHandoffGrant (p : Port) (h : LysHdr) (limit : BitVec 32) (s : State) : Host.Outcome State Fault Refusal :=
  let (ok, d) := receive s.dev p 1 0x14 h
  if !ok || !h.stream then finish s d
  else match handoffTo d p h .handoffDone with
    | some (r, _) => finish s (if seqBefore r.limit limit then putRunning d { r with limit := limit } else d)
    | none => finish s d

/-- HANDOFF_DONE: at the sender the command's status; at the receiver the end of a handoff that failed
(R440, R466). -/
def execHandoffDone (p : Port) (h : LysHdr) (status : BitVec 16) (s : State) : Host.Outcome State Fault Refusal :=
  let (ok, d) := receive s.dev p 1 0x14 h
  if !ok || !h.stream then finish s d
  else match handoffTo d p h .handoffDone with
    | some (r, _) =>
      let d := dropWorks (forgetOnPorts d true r.hdr.handle) fun w => w.owner = r.id
      finish s (turnEnd d r status 0)
    | none => match incomingOf d h.handle with
      | some i =>
        if i.fromMember = (portAt d p).peer then
          finish s (failWaitingStages (forgetOnPorts (dropIncoming d i) true i.stream) i.stream status)
        else finish s d
      | none => finish s d

/-! ### Credits (R348–R351) -/

def allVcs : List (Fin 4) := [0, 1, 2, 3]

/-- CREDIT. -/
def execCredit (p : Port) (h : LysHdr) (limits : Vector (BitVec 30) 4) (s : State) : Host.Outcome State Fault Refusal :=
  let (ok, d) := receive s.dev p 3 0x30 h
  if ok then finish s (flushPort (withPort d p fun x => { x with limit := limits }) p) else finish s d

/-- A credit frame: it carries the limits of the moment at which it leaves. -/
def sendCredit (d : Dev) (p : Port) : Dev := sendCtl d p 3 0x30 (limitBytes (advertiseAll (portAt d p)))

/-- CREDIT_SEND (R349, R376, R379). -/
def execCreditSend (p : Port) (s : State) : Host.Outcome State Fault Refusal :=
  if takesFrame s.dev p 0x30 then finish s (sendCredit s.dev p) else .next s

/-- CREDIT_SYNC_SEND (R350). -/
def execCreditSyncSend (p : Port) (s : State) : Host.Outcome State Fault Refusal :=
  let d := s.dev
  if takesFrame d p 0x31 && d.tik.tick.toNat % 16 = 0 && d.tik.offset = 0 then finish s (sendCtl d p 3 0x31 (limitBytes (portAt d p).sent)) else .next s

/-- CREDIT_SYNC: units of frames lost on the way are returned. -/
def execCreditSync (p : Port) (h : LysHdr) (sent : Vector (BitVec 30) 4) (s : State) : Host.Outcome State Fault Refusal :=
  let (ok, d) := receive s.dev p 3 0x31 h
  if !ok then finish s d
  else
    let lost := (allVcs.map fun v => (sent[v] - (portAt d p).received[v]).toNat).foldl (· + ·) 0
    let d := bumpPort (withPort d p fun x => { x with received := sent }) p 7 lost
    finish s (if lost = 0 then d else portEvent d p 6)

/-! ### Lanes (R366–R368, R374, R595) -/

def spareFree (d : Dev) (q : Quad) : Bool := d.quads[q].spare.isNone

/-- Logical lane `lane` of the port moves to the quad's spare lane: numbered 16 in the lane map. -/
def mapLane (m : BitVec 20) (lane : Nat) : BitVec 20 :=
  let clear := m &&& ~~~BitVec.ofNat 20 (31 * 2 ^ (5 * lane))
  clear ||| BitVec.ofNat 20 (16 * 2 ^ (5 * lane))

def moveLane (d : Dev) (p : Port) (lane : Fin 4) : Dev :=
  let q := quadOf p
  let d := withQuad d q fun x => { x with spare := some (⟨p.val % 4, by omega⟩, lane) }
  let d := withPort d p fun x => { x with
    laneMap := mapLane x.laneMap lane.val
    spare := true
    swap := none
    degraded := if x.degraded = some (BitVec.ofNat 2 lane.val) then none else x.degraded }
  let d := portEvent d p 3
  let d := appendMap d 3 q.val (BitVec.ofNat 32 (p.val + lane.val * 256))
  traceDevice d 11 (68 + p.val) (7 + (68 + p.val) * 2 ^ 8)

def lane4 (l : BitVec 2) : Fin 4 := ⟨l.toNat, l.isLt⟩

/-- The peer's proposal is for the tick of our own, and ours stands (R374). -/
def ownStands (d : Dev) (p : Port) (tick : BitVec 48) : Bool :=
  match (portAt d p).swap with
  | some w => w.ours && w.tick = tick && (portAt d p).peer.toNat < d.join.member.toNat
  | none => false

/-- LANE_SWAP. -/
def execLaneSwap (p : Port) (h : LysHdr) (kind lane : BitVec 8) (swapTick : BitVec 48) (s : State) : Host.Outcome State Fault Refusal :=
  let (ok, d) := receive s.dev p 3 0x32 h
  let l : BitVec 2 := lane.truncate 2
  if !ok then finish s d
  else if 3 < lane.toNat || kind = 0 || 3 < kind.toNat then finish s (dropFrame d p)
  else if kind = 1 then
    if ownStands d p swapTick then finish s d
    else if spareFree d (quadOf p) then
      let d := withPort d p fun x => { x with yielded := x.yielded || x.swap.any (·.ours), swap := some ⟨l, swapTick, true, false, true⟩, leftOut := some swapTick }
      finish s (sendCtl d p 3 0x32 (swapBody 2 l swapTick))
    else finish s (sendCtl d p 3 0x32 (swapBody 3 l swapTick))
  else match (portAt d p).swap with
    | some w =>
      if !w.ours || w.lane != l || w.tick != swapTick then finish s d
      else if kind = 2 then finish s (withPort d p fun x => { x with swap := some { w with accepted := true } })
      else finish s (withPort d p fun x => { x with swap := none })
    | none => finish s d

/-- The lane whose own proposal gave way to the peer's is proposed again (R374). -/
def proposeAgain (d : Dev) (p : Port) : Dev :=
  match (portAt d p).degraded with
  | some l => if (portAt d p).yielded then
      let asked := (d.rpr.posted.toList.filterMap id ++ d.rpr.waiting).any fun q =>
        q.kind = 3 && q.detail = BitVec.ofNat 32 (p.val + l.toNat * 256)
      proposeSwap (withPort d p fun x => { x with yielded := false }) p l (!asked) else d
  | none => withPort d p fun x => { x with yielded := false }

/-- LANE_SWAP_EXECUTE: at the swap tick, on the proposing device once the swap is approved (R366, R367). -/
def execLaneSwapExecute (p : Port) (s : State) : Host.Outcome State Fault Refusal :=
  let d := s.dev
  match (portAt d p).swap with
  | some w =>
    if w.accepted && w.approved && w.tick.toNat ≤ d.tik.tick.toNat && spareFree d (quadOf p) then
      finish s (proposeAgain (moveLane d p (lane4 w.lane)) p)
    else .next s
  | none => .next s

/-- LANE_DEGRADED: the swap is proposed, and in REPAIR host-assisted mode asked of the host too (R366, R367, R608). -/
def execLaneDegraded (p : Port) (lane : Fin 4) (s : State) : Host.Outcome State Fault Refusal :=
  let d := s.dev
  if !portUpNow d p then .next s
  else
    let d := portEvent (withPort d p fun x => { x with degraded := some (BitVec.ofNat 2 lane.val) }) p 2
    let detail := BitVec.ofNat 32 (p.val + lane.val * 256)
    if repairKnown d 3 (quadOf p).val detail || (portAt d p).swap.isSome || !spareFree d (quadOf p) then finish s d
    else finish s (requestRepair d 3 (quadOf p).val detail)

/-- LANE_SIGNAL_LOSS (R368, R595); a settling quad raises no PORT_DOWN (R365). -/
def execLaneSignalLoss (p : Port) (lane : Fin 4) (peerSpareFree : Bool) (s : State) : Host.Outcome State Fault Refusal :=
  let d := s.dev
  if !portAlive (portAt d p) || !quadCarries d p then .next s
  else
    let swap := spareFree d (quadOf p) && peerSpareFree
    let d := losePort d p (if d.rpr.failed then 4 else 1)
    finish s (if swap then moveLane d p lane else d)

/-! ### Frames that are discarded (R333, R334, R346, R378) -/

/-- MAC_CONTROL_FRAME. -/
def execMacControlFrame (p : Port) (s : State) : Host.Outcome State Fault Refusal :=
  if portAlive (portAt s.dev p) then finish s (portEvent (bumpPort s.dev p 9 1) p 7) else .next s

/-- FCS_ERROR_FRAME: a bad FCS, or a frame that is not of the port's encapsulation. -/
def execFcsErrorFrame (p : Port) (badFcs : Bool) (s : State) : Host.Outcome State Fault Refusal :=
  if portAlive (portAt s.dev p) then finish s (bumpPort s.dev p (if badFcs then 2 else 8) 1) else .next s

/-- UNLISTED_FRAME_TYPE. -/
def execUnlistedFrameType (p : Port) (s : State) : Host.Outcome State Fault Refusal :=
  if portAlive (portAt s.dev p) then finish s (dropFrame s.dev p) else .next s

/-! ### Ports and quads (R364, R365, R371, R376, R377, R379) -/

/-- PORT_UP: training is complete, at the rate of the port's quad, and the peer's credit frame is here. The row names no
source address: where no frame before has shown the peer's, the next one does (R380; DEDUCED, log 39). -/
def execPortUp (p : Port) (rate : BitVec 2) (limits : Vector (BitVec 30) 4) (s : State) : Host.Outcome State Fault Refusal :=
  let d := s.dev
  let x := portAt d p
  if x.state != 1 || !x.ctrl.getLsbD 0 || rate != d.quads[quadOf p].rateActive || d.rpr.failed || d.pwr.inReset then .next s
  else
    let d := withPort d p fun x => { clearLink x with
      state := 2
      rate := rate
      routedForce := x.ctrl.getLsbD 2
      macLearned := x.macLearned
      limit := limits }
    let d := sendCredit (portEvent d p 0) p
    finish s (if x.peerValid then reportLinks d else d)

/-- PORT_DOWN: a settling quad raises none (R365). -/
def execPortDown (p : Port) (s : State) : Host.Outcome State Fault Refusal :=
  let d := s.dev
  if !portAlive (portAt d p) || !quadCarries d p then .next s
  else finish s (losePort d p (if d.rpr.failed then 4 else if (portAt d p).ctrl.getLsbD 0 then 1 else 0))

/-- QUAD_SETTLED: what was queued goes out. -/
def execQuadSettled (q : Quad) (s : State) : Host.Outcome State Fault Refusal :=
  let x := s.dev.quads[q]
  if !x.settling && !x.recalibrating then .next s
  else
    let d := withQuad s.dev q fun x => { x with settling := false, recalibrating := false, locked := true, remaining := 0 }
    let mine := allPorts.filter fun p => quadOf p = q
    let up := fun (d : Dev) (p : Port) => flushPort (withPort d p fun y => { y with state := if y.state = 3 then 2 else y.state }) p
    finish s (mine.foldl up d)

end Sys2Proof.Machine
end

