-- ==== Sys2Proof/Machine/Reckoner.lean ====
section
/-!
DEFINITION. The Reckoner island (chapter 11): the commit tap, intervals and their signed records, the
record store, the event log, the seal, and what power events do to it.
-/
namespace Sys2Proof.Machine

/-! ### The log (R483, R489) -/

/-- A log entry goes into the open interval and among the 1,024 most recent. -/
def addLog (m : Met) (kind : Byte) (detail : Nat) : Met :=
  let e : LogEntry := ⟨kind, BitVec.ofNat 48 detail, m.time⟩
  let recent := m.recentLog ++ [e]
  { m with log := m.log ++ [e], recentLog := recent.drop (recent.length - 1024) }

/-! ### Records (Tables 11-2 and 11-3, R482) -/

def roleSum (m : Met) (role : Byte) : Nat :=
  ((m.labels.filter fun e => e.role = role).map fun e => e.positions.toNat).foldl (· + ·) 0

def stampBytes (s : Stamp) : List Byte := leBytes 2 s.era.toNat ++ leBytes 6 s.tick.toNat

def labelBytes (e : LabelCount) : List Byte := [e.label, e.role] ++ zeros 6 ++ leBytes 8 e.positions.toNat

def streamBytes (e : StreamCount) : List Byte :=
  leBytes 2 e.handle.toNat ++ leBytes 2 e.generation.toNat ++ [e.label, e.role, 0, 0] ++ leBytes 4 e.commits.toNat
    ++ leBytes 4 e.positions.toNat

def logBytes (e : LogEntry) : List Byte := [e.kind, 0] ++ leBytes 6 e.detail.toNat ++ leBytes 8 e.time.toNat

/-- The log entries that a record holds, at most 1,024 (R483, R496). -/
def recordLog (m : Met) : List LogEntry := m.log.take 1024

def recordLen (m : Met) : Nat := 128 + 16 * (m.labels.length + m.streams.length + (recordLog m).length) + 64

def recordFlags (m : Met) : Nat := bitAt m.suspect 0 + bitAt m.extended 1 + bitAt m.overflow 2 + bitAt m.rejected 3

/-- The record without its signature. -/
def recordBody (serial : BitVec 64) (m : Met) (reason : Nat) : List Byte :=
  [0x45, 0x5A, 0x52, 0x4B, 1, BitVec.ofNat 8 m.sealState.toNat, BitVec.ofNat 8 reason, BitVec.ofNat 8 (recordFlags m)]
    ++ leBytes 8 serial.toNat ++ leBytes 2 0x0102 ++ zeros 2 ++ leBytes 4 m.interval.toNat ++ leBytes 8 m.start.toNat
    ++ leBytes 8 m.time.toNat ++ leBytes 4 m.seqFirst.toNat ++ leBytes 4 m.events.toNat ++ stampBytes m.firstEvent
    ++ stampBytes m.lastEvent ++ leBytes 8 (roleSum m 0) ++ leBytes 8 (roleSum m 1) ++ leBytes 2 m.labels.length
    ++ leBytes 2 m.streams.length ++ leBytes 2 (recordLog m).length ++ zeros 2 ++ leBytes 4 (recordLen m)
    ++ leBytes 4 m.bootNumber.toNat ++ leBytes 32 m.previous.toNat
    ++ m.labels.flatMap labelBytes ++ m.streams.flatMap streamBytes ++ (recordLog m).flatMap logBytes

/-- The next interval begins; log entries beyond those of the record go into the next one (R489, log 29). -/
def freshInterval (m : Met) : Met :=
  { m with
    interval := m.interval + 1
    start := m.time
    seqFirst := 0
    events := 0
    firstEvent := ⟨0, 0⟩
    lastEvent := ⟨0, 0⟩
    labels := []
    streams := []
    overflow := false
    rejected := false
    extended := false
    log := m.log.drop 1024 }

/-- The interval's record is signed and stored (R484). -/
def storeRecord (serial : BitVec 64) (m : Met) (reason : Nat) : Met :=
  let body := recordBody serial m reason
  let bytes := body ++ islandSign body
  freshInterval { m with
    records := m.records ++ [⟨m.interval, m.nextOffset, bytes⟩]
    nextOffset := (m.nextOffset + bytes.length) % storeBytesTotal
    previous := BitVec.ofNat 256 (fromLe (sha256 bytes)) }

/-- Room for a record: closes for a reset or a supply loss may use the reserve (R484). -/
def recordFits (m : Met) (reason : Nat) : Bool :=
  let used := (m.records.map fun r => r.bytes.length).foldl (· + ·) 0
  let keep := if reason = 1 || reason = 2 then 0 else recordReserve
  used + recordLen m + keep ≤ storeBytesTotal

/-- The interval stays open for want of room; it will end with the reason that came first (R483, R485;
log 29). -/
def extendInterval (m : Met) (reason : Nat) : Met :=
  if m.extended then m else addLog { m with extended := true, closing := BitVec.ofNat 8 reason } 0x08 0

/-- The log entry of the end of an extension, where there is one to end (Table 11-5). -/
def leaveExtension (m : Met) : Met := if m.extended then addLog m 0x09 0 else m

/-- The interval ends for a reason, or is extended when its record has no room (log 29). -/
def closeInterval (serial : BitVec 64) (m : Met) (reason : Nat) : Met :=
  if recordFits (leaveExtension m) reason then storeRecord serial (leaveExtension m) reason else extendInterval m reason

/-- The end of an interval that has reached 1,024 log entries (R483). -/
def closeFull (serial : BitVec 64) (m : Met) : Met :=
  if 1024 ≤ m.log.length then closeInterval serial m 3 else m

/-- A log entry, and the end of the interval that it fills (R483). -/
def metLog (d : Dev) (kind : Byte) (detail : Nat) : Dev :=
  if !d.met.ready then d
  else withMet d fun m => closeFull d.fuses.serial (addLog m kind detail)

/-! ### The tap (R470, R477, R478, R480, R483) -/

/-- Cause of a rejection, 0 for none. -/
def rejectCause (m : Met) (e : TapEntry) : Nat :=
  if e.crc != crc32c (tapBody e) then 1
  else if 4096 ≤ e.handle.toNat || 1 < e.role.toNat || e.spare != 0 then 2
  else if e.kind != 1 && e.kind != 2 then 3
  else if (if e.kind = 1 then e.n.toNat = 0 || 1048576 < e.n.toNat else 65536 ≤ e.n.toNat) then 4
  else match m.lastSeq with
    | some q => if e.sequence != q + 1 then 5 else 0
    | none => 0

/-- An entry put where its key says, or merged with the one that has its key. -/
def mergeEntry {α : Type} (before same : α → Bool) (merge : α → α) (x : α) : List α → List α
  | [] => [x]
  | y :: t => if same y then merge y :: t else if before y then y :: mergeEntry before same merge x t else x :: y :: t

def countLabel (l : List LabelCount) (label role : Byte) (n : Nat) : List LabelCount :=
  let key := fun (e : LabelCount) => e.label.toNat * 256 + e.role.toNat
  let k := label.toNat * 256 + role.toNat
  mergeEntry (fun e => key e < k) (fun e => key e = k) (fun e => { e with positions := e.positions + BitVec.ofNat 64 n })
    ⟨label, role, BitVec.ofNat 64 n⟩ l

def streamKey (handle generation : BitVec 16) (label role : Byte) : Nat :=
  ((handle.toNat * 65536 + generation.toNat) * 256 + label.toNat) * 256 + role.toNat

def countStream (l : List StreamCount) (e : TapEntry) : List StreamCount :=
  let key := fun (x : StreamCount) => streamKey x.handle x.generation x.label x.role
  let k := streamKey e.handle e.generation e.label e.role
  mergeEntry (fun x => key x < k) (fun x => key x = k)
    (fun x => { x with commits := x.commits + 1, positions := x.positions + e.n }) ⟨e.handle, e.generation, e.label, e.role, 1, e.n⟩ l

/-- A commit event is counted. -/
def countEvent (m : Met) (e : TapEntry) : Met :=
  let l := countStream m.streams e
  let full := 8192 < l.length
  { m with
    labels := countLabel m.labels e.label e.role e.n.toNat
    streams := if full then m.streams else l
    overflow := m.overflow || full }

/-- One entry is taken. -/
def takeTap (d : Dev) (e : TapEntry) : Dev :=
  let d := withMet d fun m => { m with
    tap := m.tap.drop 1
    taken := m.taken + 1
    seqFirst := if m.events = 0 then e.sequence else m.seqFirst
    firstEvent := if m.events = 0 then e.stamp else m.firstEvent
    lastEvent := e.stamp
    events := m.events + 1 }
  let cause := rejectCause d.met e
  let d := withMet d fun m => { m with lastSeq := some e.sequence }
  if cause != 0 then
    metLog (withMet d fun m => { m with rejected := true }) 0x06 (cause + e.sequence.toNat * 2 ^ 16)
  else if e.kind = 2 then metLog d 0x05 (e.n.toNat % 65536)
  else withMet d fun m => countEvent m e

/-! ### Intervals (R479, R480, R485) -/

/-- Interval length in steps of Reckoner time. -/
def intervalSteps (m : Met) : Nat := (if m.otpInterval = 0 then 60 else m.otpInterval.toNat) * 100000000

/-- The length of the open interval has elapsed and its end has not been dealt with. -/
def intervalDue (m : Met) : Bool := m.ready && !m.extended && m.start.toNat + intervalSteps m ≤ m.time.toNat

/-- An interval whose length has elapsed ends, before an event of the same time is taken (R480). -/
def endDue (d : Dev) : Dev :=
  if intervalDue d.met then withMet d fun m => closeInterval d.fuses.serial m 0 else d

/-- INTERVAL_END. -/
def execIntervalEnd (s : State) : Host.Outcome State Fault Refusal :=
  if intervalDue s.dev.met then finish s (endDue s.dev) else .next s

/-- TAP_ENTRY_TAKE. -/
def execTapEntryTake (s : State) : Host.Outcome State Fault Refusal :=
  match s.dev.met.tap with
  | [] => .next s
  | e :: _ => if s.dev.met.ready then finish s (takeTap (endDue s.dev) e) else .next s

/-- Every valid entry is taken; entries without their mark are discarded (R490). -/
def drainTap (d : Dev) : Dev := d.met.tap.foldl takeTap (endDue (withMet d fun m => { m with reserved := 0 }))

/-- Collection has freed space: an extended interval ends, with the reason that extended it, if its record
now fits. -/
def endExtension (d : Dev) : Dev :=
  if d.met.extended then withMet d fun m => closeInterval d.fuses.serial m m.closing.toNat else d

/-! ### Boot, supply and seal (R487–R491, R501, R503, R504) -/

/-- ISLAND_BOOT: VDD_MET is valid and the crystal runs. An island in FAULT stays in it (R487, R501; DEDUCED, log 43). -/
def execIslandBoot (checksPass : Bool) (s : State) : Host.Outcome State Fault Refusal :=
  let d := s.dev
  if d.met.powered || d.fuses.variant != 1 || !d.fuses.metCrystal then .next s
  else
    let d := withMet d fun m =>
      let m := { m with powered := true, bootNumber := m.bootNumber + 1, time := 0, timeNs := 0, start := 0, suspect := false, tap := [], reserved := 0, lastSeq := none, taken := 0 }
      let m := addLog m 0x01 m.bootNumber.toNat
      let state := if checksPass then m.sealState else 4
      closeFull d.fuses.serial { m with ready := state != 4, sealState := state, tapClosed := d.pwr.hold }
    finish s d

/-- Commits that have not reached step 5 when the tap closes or the host link is lost end with 0x0206, those that still
wait for their turn among them (R251, R465, R490). -/
def endOpenCommits (d : Dev) : Dev :=
  d.running.foldl (fun d r => match r.cmd, r.wait with
    | .kvCommit _, .birsp _ => dropCommit d r 0x0206
    | .kvCommit _, .turn => turnEnd d r 0x0206 0
    | _, _ => d) d

/-- ISLAND_SUPPLY_LOSS (R491, R696). -/
def execIslandSupplyLoss (s : State) : Host.Outcome State Fault Refusal :=
  let d := s.dev
  if !d.met.powered then .next s
  else
    let d := endOpenCommits d
    let d := if !d.met.ready then d
      else
        let d := metLog (drainTap d) 0x0B 0
        withMet d fun m => closeInterval d.fuses.serial m 2
    finish s (withMet d fun m => { m with powered := false, ready := false, tap := [], reserved := 0 })

/-- ISLAND_DEBUG_ACCESS (Table 11-4). -/
def execIslandDebugAccess (s : State) : Host.Outcome State Fault Refusal :=
  if s.dev.met.sealState = 2 then finish s (metLog (withMet s.dev fun m => { m with sealState := 3 }) 0x0A 0) else .next s

/-- SEAL_FUSE_BLOW (R488). -/
def execSealFuseBlow (s : State) : Host.Outcome State Fault Refusal :=
  let m := s.dev.met
  if m.sealState = 1 && m.portOpen && s.dev.fuses.variant = 1 then
    finish s (withMet s.dev fun m => { m with sealState := 2, portOpen := false })
  else .next s

/-- CLOCK_ANOMALY: the deviation in steps of 0.1 % (R490). -/
def execClockAnomaly (deviation : BitVec 16) (s : State) : Host.Outcome State Fault Refusal :=
  if s.dev.met.ready && 20 < deviation.toNat then
    finish s (metLog (withMet s.dev fun m => { m with suspect := true }) 0x07 deviation.toNat)
  else .next s

end Sys2Proof.Machine
end

