-- ==== Sys2Proof/Machine/Power.lean ====
section
/-!
DEFINITION. Power, clocks, resets and start-up (chapter 13): the brown-out hold and its re-verification,
the five reset kinds, start-up, throttling, loss of clocks, and the host link (section 16.11).
-/
namespace Sys2Proof.Machine

def setPwrEvent (d : Dev) (b : Nat) : Dev := withPwr d fun p => { p with event := p.event ||| BitVec.ofNat 8 (2 ^ b) }

/-! ### The brown-out hold (R553–R556, R699) -/

/-- The level above which requalification runs (R555): VWARN + 15 mV. -/
def requalMv (d : Dev) : Nat := vwarnMv d + 15

/-- VDD_CORE below VWARN: the pin, and requalification from zero. -/
def senseDip (d : Dev) (mv : BitVec 12) : Dev :=
  withBus (withPwr d fun p => { p with warn := true, sensed := mv, requal := false, requalDone := false }) fun b => { b with brownLow := true }

/-- BROWN_HOLD_ENTRY (R553, R699). A main die in reset only drives the pin; in the hold it starts over. -/
def execBrownHoldEntry (vcoreMv : BitVec 12) (s : State) : Host.Outcome State Fault Refusal :=
  let d := s.dev
  if vwarnMv d ≤ vcoreMv.toNat then .next s
  else if d.pwr.inReset || d.pwr.hold then finish s (senseDip d vcoreMv)
  else
    let d := senseDip d vcoreMv
    let d := setPwrEvent (withPwr d fun p => { p with hold := true, brownCount := satAdd p.brownCount 1 }) 0
    let d := traceDevice (endOpenCommits d) 11 deviceUnit 1
    finish s (metLog (withMet d fun m => { m with tapClosed := true }) 0x02 0)

/-- REQUALIFICATION_START: VDD_CORE rises above VWARN + 15 mV, or falls back below it (R555). -/
def execRequalificationStart (vcoreMv : BitVec 12) (s : State) : Host.Outcome State Fault Refusal :=
  let d := s.dev
  if !d.bus.brownLow || d.pwr.requalDone then .next s
  else
    let up := decide (requalMv d < vcoreMv.toNat) || (d.pwr.requal && requalMv d = vcoreMv.toNat)
    finish s (withPwr d fun p => { p with sensed := vcoreMv, warn := decide (vcoreMv.toNat < vwarnMv d), requal := up })

/-! ### Re-verification (R557, R558, Table 13-4) -/

/-- Chunks that have left and await their ACK. -/
def launchedItems (d : Dev) : List HoldItem :=
  allPorts.flatMap fun p => ((portAt d p).held.filter fun c => c.left || c.attempt != 0).map fun c => .launched p c.stream c.handle c.seq

/-- An entry that passed: its work is carried over, ahead of the plan. -/
def carryVerify (d : Dev) (x : RunEntry) : Dev :=
  withPlan d fun p => { p with carried := p.carried ++ [{ x with carried := true, rerun := false, reverify := true, alone := false }] }

/-- An entry that has lost a child's chunk waits for it again (R135, Table 9-2). -/
def ungather (d : Dev) (h : BitVec 16) (seq : BitVec 32) : Dev :=
  match findWork d groupClass h seq with
  | some w => if w.stage = .engine then setSlot (putWork d { w with stage := .gather }) h.toNat seq .gather else d
  | none => d

/-- A received chunk that fails is asked for again (R352). -/
def forgetReceived (d : Dev) (p : Port) (stream : Bool) (h : BitVec 16) (seq : BitVec 32) (attempt : BitVec 2) (pages : List (Nat × Nat)) : Dev :=
  let mine := fun (a : Acked) => a.stream = stream && a.handle = h && a.seq = seq
  let d := withPort d p fun x => { x with acked := x.acked.filter fun a => !mine a }
  let d := sendReAsk d p stream h seq attempt 1 0
  if stream then
    match incomingOf d h with
    | none => d
    | some i =>
      let after := (List.range (i.nextSeq - seq).toNat).map fun k => seq + BitVec.ofNat 32 k
      let back := seqBefore seq i.nextSeq
      putIncoming d { i with
        nextSeq := if back then seq else i.nextSeq
        got := (if back then after.drop 1 ++ i.got else i.got).filter (· != seq)
        stored := i.stored.filter fun e => !pages.contains (e.1, e.2.k) }
  else ungather (withGroup d h.toNat fun g => { g with received := g.received.filter fun y => !(y.port = p && y.seq = seq) }) h seq

/-- A launched chunk whose held bytes are damaged (Table 13-4). -/
def damageLaunched (d : Dev) (p : Port) (stream : Bool) (h : BitVec 16) (seq : BitVec 32) : Dev :=
  match sentChunk d p stream h seq with
  | none => d
  | some c =>
    if !stream then faultGroup d h.toNat 0x0502 none
    else match (sentWork d c).bind fun w => runningOf d w.owner with
      | some r => match r.cmd with
        | .kvHandoff o => handoffFail d r o 0x0502
        | _ => d
      | none => d

/-- A codec entry whose blocks fail. -/
def damageCodec (d : Dev) (w : Work) : Dev :=
  match runningOf d w.owner with
  | some r => if w.cls = streamClass then failPages d r 0x0502 else failOwner d w.owner 0x0502
  | none => failOwner d w.owner 0x0502

def failItem (d : Dev) : HoldItem → Dev
  | .entry x => match entryWork d x.entry with
    | some w => failOwner (noteFailedEntry d x w) w.owner 0x0502
    | none => d
  | .codec x => match entryWork d x.entry with
    | some w => damageCodec d w
    | none => d
  | .received p stream h seq attempt pages => forgetReceived d p stream h seq attempt pages
  | .launched p stream h seq => damageLaunched d p stream h seq

def passItem (d : Dev) : HoldItem → Dev
  | .entry x => carryVerify d x
  | .codec x => carryVerify d x
  | _ => d

/-- The items in turn, from number `i` on. -/
def verifyFrom (bad : Nat → Bool) : Nat → List HoldItem → Dev → Dev
  | _, [], d => d
  | i, x :: t, d => verifyFrom bad (i + 1) t (if bad i then failItem d x else passItem d x)

/-- All work in the hold, the launched chunks last. -/
def verifyAll (d : Dev) (bad : Nat → Bool) : Dev :=
  let items := d.holdWork ++ launchedItems d
  verifyFrom bad 0 items { d with holdWork := [] }

/-- The kind 2 tap entry of the boot core (R492). -/
def bootEntry (d : Dev) (version : BitVec 16) : Dev :=
  if !d.met.ready || noIsland d then d
  else withMet d fun m => pushTap ⟨0, 0, 0, 0, 2, version.zeroExtend 32, now d, 0, 0, 0⟩ m

/-- The RW fields of a port from its part of the port configuration block (R379). A later write of LYS_PEER_MAC_HI alone
takes the lower half of the block, where R22 speaks of a reset value (DESIGN CHOICE, log 32). -/
def configPort (d : Dev) (p : Port) : Dev :=
  match (if d.flash.portBlock then vget d.flash.ports p.val none else none) with
  | none => d
  | some c => withPort d p fun x => { x with
      ctrl := c.ctrl &&& 0x01FF_FFFD
      timers := mergeTimers x.timers c.timers
      peerMac := ⟨c.peerMac.zeroExtend 64, c.peerMac.truncate 32⟩
      ip := c.ip
      peerIp := c.peerIp
      udp := c.udp
      ethertype := c.ethertype
      laneLimit := c.laneLimit }

/-- Step 7: quads run at the configured rates and enabled ports train (R379). -/
def trainPorts (d : Dev) : Dev :=
  let d := allPorts.foldl configPort d
  let d := ([0, 1, 2, 3] : List Quad).foldl (fun (d : Dev) (q : Quad) =>
    let r : BitVec 2 := if d.flash.portBlock && d.flash.quadRate[q] != 3 then d.flash.quadRate[q] else 0
    withQuad d q fun x => { x with rateRequest := r, rateActive := r, locked := true }) d
  allPorts.foldl (fun d p => withPort d p fun x => { x with
    rate := d.quads[quadOf p].rateActive
    state := if x.ctrl.getLsbD 0 then 1 else 0 }) d

/-- Steps 5 to 8, once the image has passed: the control cores start. GLB_VERSION reads 3.4 for every image
that passes (R2 gives no other version), while the tap entry carries the image's own version (DESIGN CHOICE,
log 10). -/
def bootCores (d : Dev) : Dev :=
  let v := image d
  let d := bootEntry (withGlb d fun g => { g with uahias := 0x0304 }) v
  withPwr (trainPorts d) fun p => { p with stage := 8, bootCode := 0 }

/-- PWR_RECOVER.go with boot code 4: the image in scratchpad is authenticated (R579). -/
def recover (d : Dev) : Dev :=
  let bs := load d 0 d.pwr.recoverLength.toNat
  if Config.imageAuthentic bs then
    bootCores (withPwr (withFlash d fun f => { f with image := bs }) fun p => { p with recoverResult := 1 })
  else withPwr d fun p => { p with recoverResult := 2 }

/-- What the boot core was asked for in the hold, when it goes on (R574). -/
def resumeBoot (d : Dev) : Dev :=
  if d.pwr.recoverGo then recover (withPwr d fun p => { p with recoverGo := false }) else d

/-- The boundary of resumption (R51, R556, R572, R574). Whether the supply has settled (R550) is left open (log 8). -/
def resumeHold (d : Dev) (bad : Nat → Bool) : Dev :=
  let (k, d) := draw d
  let d := withPwr d fun p => { p with hold := false, warn := false, requal := false, requalDone := false }
  let d := setPwrEvent (withBus d fun b => { b with brownLow := false }) 1
  let d := metLog (withMet d fun m => { m with tapClosed := false }) 0x03 0
  let d := throttleTick (traceDevice d 11 deviceUnit 2) (Config.choice k % 2 = 1)
  let d := if d.dbg.halted then withDbg d fun x => { x with verify := true } else verifyAll d bad
  let d := if d.fpl.eraPassed then eraPlacement (withFpl d fun f => { f with eraPassed := false }) else d
  resumeBoot (takePlan (planPlacement d) [] true)

/-- Re-verification whose outcome no operand gives: which items fail is a free choice (log 8). -/
def drawFailures (d : Dev) : (Nat → Bool) × Dev :=
  let (k, d) := drawN d ((d.holdWork ++ launchedItems d).length)
  (fun i => Config.choice (k + i) % 2 = 1, d)

/-- BROWN_HOLD_RESUME. -/
def execBrownHoldResume (failed : List Nat) (s : State) : Host.Outcome State Fault Refusal :=
  let d := s.dev
  if d.pwr.hold && d.pwr.requalDone && !d.pwr.inReset && (!d.tik.eraValid || d.tik.offset = 0) then finish s (resumeHold d failed.contains)
  else .next s

/-- REQUALIFICATION_COMPLETE (R555, R697, R699): a main die in reset releases the pin at once. Without an era the device
resumes at this moment, and BROWN_HOLD_RESUME finds it done (R556). -/
def execRequalificationComplete (s : State) : Host.Outcome State Fault Refusal :=
  let d := s.dev
  if !d.pwr.requal then .next s
  else if d.pwr.hold then
    let d := withPwr d fun p => { p with requal := false, requalDone := true }
    if d.tik.eraValid || d.pwr.inReset then finish s d
    else
      let (bad, d) := drawFailures d
      finish s (resumeHold d bad)
  else finish s (withBus (withPwr d fun p => { p with requal := false, warn := false }) fun b => { b with brownLow := false })

/-! ### What resets leave (R562–R564, and "every reset that restarts the control cores") -/

/-- The start-up placement word (R56). -/
def startWord (f : Flash) : BitVec 10 := if f.directory && f.placementWord.toNat < 1024 then f.placementWord.truncate 10 else 0

/-- The tray word (R507). -/
def startTray (f : Flash) : BitVec 9 := if f.directory && f.trayWord.toNat < 512 then f.trayWord.truncate 9 else 0

/-- The cable-delay word (R118). -/
def startCable (f : Flash) : Byte := if f.directory && f.cableWord.toNat < 256 then f.cableWord.truncate 8 else 0

/-- The island's share of a main-die reset (Table 11-6, R475, R497). -/
def islandReset (d : Dev) : Dev :=
  let d := if d.met.ready then
      let d := drainTap (metLog d 0x04 0)
      withMet d fun m => closeInterval d.fuses.serial m 1
    else d
  withMet d fun m => { m with tap := [], reserved := 0, lastSeq := some 0xFFFFFFFF, nextSeq := 0, tapClosed := false }

/-- Listed bytes whose contents become undefined take free values (Table 13-6, log 8). -/
def undefine (d : Dev) (m : Memory) (lost : Nat → Bool) : Memory :=
  m.foldl (fun (acc : Memory) (c : Host.Cell) =>
    if lost c.1 then memPut acc c.1 (Config.freeByte (d.freeCount + c.1)) else acc) m

/-- Residual stores are zeroed (R163). -/
def zeroStores (d : Dev) : Dev := d.resStores.foldl (fun d e => zeroStore d e.desc) d

/-- Replacement pages of retired pages stay taken (R598). -/
def replaceHolds (l : List (Nat × Nat × Nat)) : List (Nat × Nat × Nat) :=
  l.filter fun h => replaceTag 0 ≤ h.1 && h.1 < pageTag 0 0 0

/-- Supply and cause registers: sticky fields, the kind and the count (R564, R580). -/
def resetPwr (p : Pwr) (v0 : BitVec 12) (kind : BitVec 3) : Pwr :=
  { Pwr.reset v0 with
    hot := p.hot
    deadSensors := p.deadSensors
    senseForced := p.senseForced
    warn := p.warn && !p.requalDone
    requal := p.requal
    sequenceErr := p.sequenceErr
    resetCount := satAdd p.resetCount 1
    kind := kind
    sensed := p.sensed
    heldForPowerCycle := p.heldForPowerCycle }

/-- The main die loses its state. HBM contents are kept, in self-refresh, or undefined. -/
def dieReset (d : Dev) (kind : BitVec 3) (hbmKept : Bool) : Dev :=
  let d := zeroStores (islandReset d)
  let lost := fun a => !hbmKept && isHbm a
  let mem := undefine d (memErase d.mem 0 scratchTop) lost
  let bar2 := undefine d d.bar2 fun _ => true
  let stack := fun (h : HbmSt) => { HbmSt.reset with retired := h.retired, selfRefresh := hbmKept }
  { Dev.reset with
    fuses := d.fuses
    flash := d.flash
    bus := { d.bus with brownLow := d.bus.brownLow && !d.pwr.requalDone }
    met := d.met
    generations := d.generations
    annalsMiB := d.annalsMiB
    mem := mem
    bar2 := bar2
    poison := d.poison.filter fun a => isHost a || (isHbm a && hbmKept)
    holds := replaceHolds d.holds
    pwr := resetPwr d.pwr d.fuses.v0 kind
    fpl := .reset (startWord d.flash)
    tik := .reset (startCable d.flash)
    join := .reset (startTray d.flash) d.join.position d.join.masterPri
    hbm := vmap stack d.hbm
    trc := .reset d.trc.base d.trc.written
    freeCount := d.freeCount + deviceTop }

/-- BROWNOUT_RESET (R562, R570, R699): start-up follows requalification. -/
def execBrownoutReset (s : State) : Host.Outcome State Fault Refusal :=
  let d := dieReset s.dev 2 false
  finish s (senseDip d d.pwr.sensed)

/-- The loss of VDD_AON (R564, R623): sticky fields read 0, the Annals size is the default again. -/
def loseAon (d : Dev) : Dev :=
  let d := withPwr d fun p => { p with sequenceErr := false, resetCount := 0, warn := false, requal := false }
  let d := withBus { d with trc := .reset 0 0, annalsMiB := 1024 } fun b => { b with brownLow := false }
  withJoin d fun j => { j with position := 0, masterPri := 0, member := j.tray ++ 0#3 }

/-- POWER_RESET (R543, R544, R562): PWRGOOD is deasserted, which ends every hold for a power cycle. -/
def execPowerReset (aonLost : Bool) (s : State) : Host.Outcome State Fault Refusal :=
  let d := dieReset s.dev 0 false
  let d := withBus (withPwr d fun p => { p with heldForPowerCycle := false }) fun b => { b with thermTripLow := false }
  finish s (if aonLost then loseAon d else d)

/-- FUNDAMENTAL_RESET: PERST_N asserts. While PWRGOOD is deasserted it is asserted already (R542). -/
def execFundamentalReset (s : State) : Host.Outcome State Fault Refusal :=
  if s.dev.pwr.inReset && s.dev.pwr.kind = 0 then .next s else finish s (dieReset s.dev 1 true)

/-- A DEVICE reset of the given kind. -/
def deviceReset (d : Dev) (kind : BitVec 3) : Dev := if d.pwr.inReset then d else dieReset d kind true

/-- DEVICE_RESET: a hot reset or a function-level reset, over the host link. -/
def execDeviceReset (s : State) : Host.Outcome State Fault Refusal :=
  if s.dev.hif.linkUp then finish s (deviceReset s.dev 4) else .next s

/-- SEQUENCE_ERROR (R544, R687): held in reset until PWRGOOD is cycled. -/
def execSequenceError (s : State) : Host.Outcome State Fault Refusal :=
  let d := s.dev
  let p := d.pwr
  let d := if p.inReset then d else dieReset d p.kind false
  finish s (setPwrEvent (withPwr d fun x => { x with
    resetCount := p.resetCount, sequenceErr := true, heldForPowerCycle := true }) 6)

/-- THERMAL_TRIP (R559): until the rails have been cycled. -/
def execThermalTrip (s : State) : Host.Outcome State Fault Refusal :=
  let d := s.dev
  if d.bus.thermTripLow then .next s
  else
    let d := withBus (dieReset d 3 false) fun b => { b with thermTripLow := true }
    finish s (withPwr d fun p => { p with heldForPowerCycle := true })

/-! ### Start-up (R565–R579) -/

/-- Repairs that the field map in use lists, of one kind: (unit, detail) (R584). -/
def mapRepairs (d : Dev) (kind : Byte) : List (Nat × Word) :=
  if d.rpr.mapValid then
    ((mapCopyInUse d).entries.filter fun e => e.crcOk && e.kind = kind).map fun e => (e.unit.toNat, e.detail)
  else []

/-- The field map copy that qualifies, the higher generation of two (R584). -/
def chooseMap (d : Dev) : Dev :=
  let a := d.flash.mapA
  let b := d.flash.mapB
  let ok := fun (m : MapCopy) => m.headerOk && m.serial = d.fuses.serial
  let foreign := fun (m : MapCopy) => m.headerOk && m.serial != d.fuses.serial
  withRpr d fun x => { x with
    mapValid := ok a || ok b
    mapForeign := foreign a || foreign b
    mapCopyB := ok b && (!ok a || a.generation.toNat < b.generation.toNat) }

/-- Logical numbers given to physical tiles in order, and the spares (R586). -/
def numberTiles (ps : List Nat) (d : Dev) : Dev :=
  ps.foldl (fun (d : Dev) (p : Nat) =>
    let n := (d.phys.toList.filter fun x => x.state = 0).length
    setPhys d p fun x => if n < 64 then { x with state := 0, logical := BitVec.ofNat 6 n } else { x with state := 1 }) d

/-- Tile BIST (R586, R618). Tiles that fail are mapped out, or, in REPAIR host-assisted mode, out of service
without spares until the host has decided; whether the SRAM of such a tile is good is left open (log 8). -/
def bistTiles (d : Dev) (bad : List Nat) : Dev :=
  let known := d.fuses.factoryTiles ++ (mapRepairs d 1).map (·.1)
  let fresh := bad.filter fun p => p < 68 && !known.contains p
  let out := fun (d : Dev) (p : Nat) => setPhys d p fun x => { x with state := 3, sliceLost := false }
  let good := (List.range 68).filter fun p => !known.contains p
  let all := { d with phys := Vector.replicate 68 { Phys.reset with state := 3 } }
  if !hostMode d 7 then
    let d := numberTiles (good.filter fun p => !fresh.contains p) all
    fresh.foldl (fun d p => appendMap d 1 p 0) d
  else
    let d := numberTiles good all
    let served := fresh.filter fun p => (physAt d p).state = 0
    let d := fresh.foldl out d
    served.foldl (fun (d : Dev) (p : Nat) =>
      let (k, d) := draw d
      let d := setPhys d p fun x => { x with sliceLost := Config.choice k % 2 = 1 }
      requestRepair (withRpr d fun x => { x with missing := x.missing ++ [((physAt d p).logical, p)] }) 1 p 0) d

/-- Banks on spares, from both maps (R582). -/
def placeBanks (d : Dev) : Dev :=
  let field := (mapRepairs d 2).map fun e => (e.1, e.2.toNat % 256, e.2.toNat / 256 % 256)
  (d.fuses.factoryBanks ++ field).foldl (fun d e =>
    setPhys d e.1 fun x => if e.2.2 = 0 then { x with bank0 := some (BitVec.ofNat 6 e.2.1) } else { x with bank1 := some (BitVec.ofNat 6 e.2.1) }) d

/-- A bank that SRAM BIST finds bad (R618): it goes to a free spare bank, with its entry in the field map; in REPAIR
host-assisted mode its repair is a request, and the bank, whose lines no rule gives, is out of service. -/
def bistBank (d : Dev) (e : Nat × Nat) : Dev :=
  let x := physAt d e.1
  let spare : Option Nat := if x.bank0.isNone then some 0 else if x.bank1.isNone then some 1 else none
  if 3 ≤ x.state.toNat || x.bank0 = some (BitVec.ofNat 6 e.2) || x.bank1 = some (BitVec.ofNat 6 e.2) then d
  else match spare with
    | none => d
    | some sb =>
      let detail := BitVec.ofNat 32 (e.2 + sb * 256)
      if hostMode d 7 then requestRepair d 2 e.1 detail
      else
        let b := BitVec.ofNat 6 e.2
        appendMap (setPhys d e.1 fun x => if sb = 0 then { x with bank0 := some b } else { x with bank1 := some b }) 2 e.1 detail

/-- Tiles that fail BIST: those of the operand, and those with more bad banks than free spare banks (R588). -/
def lostTiles (d : Dev) (b : BootInputs) : List Nat :=
  let used := d.fuses.factoryBanks.map (·.1) ++ (mapRepairs d 2).map (·.1)
  let short := fun (p : Nat) => 2 < (used.filter (· = p)).length + (b.banksFailed.eraseDups.filter fun e => e.1 = p).length
  b.tilesFailed ++ (List.range 68).filter fun p => b.banksFailed.any (fun e => e.1 = p) && short p

/-- Lanes on spares, before the ports train (R595). -/
def placeLanes (d : Dev) : Dev :=
  let field := (mapRepairs d 3).map fun e => (e.2.toNat % 256, e.2.toNat / 256 % 256)
  (d.fuses.factoryLanes ++ field).foldl (fun d e =>
    match portOfNat e.1 with
    | none => d
    | some p =>
      let lane := lane4 (BitVec.ofNat 2 e.2)
      let d := withQuad d (quadOf p) fun x => { x with spare := some (⟨p.val % 4, by omega⟩, lane) }
      withPort d p fun x => { x with laneMap := mapLane x.laneMap lane.val, spare := true }) d

/-- HBM trains; soft repaired rows become hard, or stay as they are, which is left open (R597, log 8): the
pages of a row that cannot be made hard are then retired one by one. -/
def trainHbm (d : Dev) : Dev :=
  let rows := mapRepairs d 4
  let hardened := mapRepairs d 5
  let due := rows.filter fun e => !hardened.contains e
  let (k, d) := drawN d due.length
  let fresh := (due.zipIdx.filter fun e => Config.choice (k + e.2) % 2 = 0).map (·.1)
  let d := fresh.foldl (fun d e => appendMap d 5 e.1 e.2) d
  (List.range 6).foldl (fun (d : Dev) (i : Nat) =>
    let (k, d) := draw d
    let n := (fresh.filter fun e => e.1 = i).length
    { d with hbm := vset d.hbm i { (vget d.hbm i HbmSt.reset) with
        trained := true, selfRefresh := false, soft := [], hard := BitVec.ofNat 8 (min n 255), temp := Config.freeByte k } }) d

/-- A replacement page from the part of the KV pool in the stack, at a place the device chooses (R598,
log 21). -/
def takeReplacement (d : Dev) (stack page : Nat) : Option (Nat × Dev) :=
  let base := hbmBase + stack * stackSize
  let inStack := busyRanges d true ++ [(0, base), (base + stackSize, deviceTop)]
  match lowestRun inStack true 65536 65536 with
  | none => none
  | some _ =>
    let free := fun a => freeAt inStack true a 65536
    let (k, d) := draw d
    let want := base + Config.choice k % (stackSize / 65536) * 65536
    let a := if free want then want else (lowestRun inStack true 65536 65536).getD want
    some (a, { d with holds := d.holds ++ [(replaceTag page, a, 65536)] })

/-- A page that the field map retires and that has no replacement yet gets one. -/
def retireMapped (d : Dev) (stack : Nat) (page : Word) : Dev :=
  let known := (vget d.hbm stack HbmSt.reset).retired.any fun e => e.1 = page.toNat
  if known then d
  else match takeReplacement d stack page.toNat with
    | none => d
    | some (a, d) =>
      let upd := fun (h : HbmSt) => { h with retired := h.retired ++ [(page.toNat, a)] }
      { d with hbm := vset d.hbm stack (upd (vget d.hbm stack HbmSt.reset)) }

/-- Start-up stops (R578). -/
def bootFail (d : Dev) (stage : BitVec 4) (code : Byte) : Dev :=
  setPwrEvent (withPwr d fun p => { p with stage := stage, bootCode := code }) 7

/-- Clocks: every domain but CLK_JTAG locks, whose TCK is not the device's; the measured core voltage and
the count of an unlocked domain are left open (log 8). -/
def startClocks (d : Dev) : Dev :=
  let (k, d) := draw d
  withPwr d fun p => { p with
    lock := 0x17F_FFFF
    freq := p.freq.set 23 (Config.freeWord k)
    sensed := (Config.freeWord (k + 1)).truncate 12 }

/-- Step 3 (R682): straps, the level of the sensors (R580). -/
def sampleStraps (d : Dev) (b : BootInputs) : Dev :=
  withJoin d fun j => { j with position := b.trayPos, masterPri := b.masterPri, member := j.tray ++ b.trayPos }

/-- The steps of Table 13-8. -/
def startUp (d : Dev) (b : BootInputs) : Dev :=
  let d := withPwr (sampleStraps d b) fun p => { p with inReset := false, stage := 3 }
  if !b.fusesOk then bootFail d 3 0x01
  else if !b.maskRomOk then bootFail d 3 0x02
  else if !b.pllsLock then bootFail d 3 0x05
  else
    let d := startClocks (chooseMap d)
    let d := placeBanks (bistTiles d (lostTiles d b))
    let d := placeLanes (b.banksFailed.foldl bistBank d)
    let d := withRpr { d with aesFail := !b.aesOk } fun x => { x with degraded := activeCount d < 64 }
    if !b.hbmFailed.isEmpty then bootFail d 4 0x03
    else
      let d := trainHbm d
      let d := (mapRepairs d 6).foldl (fun d e => retireMapped d e.1 e.2) d
      if Config.imageAuthentic d.flash.image then bootCores d else bootFail d 5 0x04

/-- STARTUP: PERST_N is released and the device is not held (R544, R555, R559, R574, R698). -/
def execStartup (b : BootInputs) (s : State) : Host.Outcome State Fault Refusal :=
  let d := s.dev
  if !d.pwr.inReset || d.pwr.heldForPowerCycle || d.bus.brownLow || !b.refclkAon then .next s else finish s (startUp d b)

/-! ### Throttling (R548–R550, R561, R576, R577) -/

/-- Threshold of a level, in hundredths of a degree (Table 13-3). -/
def levelAt (n : Nat) : Nat := 9375 + 125 * n

/-- The highest level whose threshold is reached. -/
def levelReached (t : Nat) : Nat := if t < 9500 then 0 else min 8 ((t - 9375) / 125)

/-- From level `n` down while the temperature is 2 °C below the level's threshold. -/
def levelLeft (t : Nat) : Nat → Nat
  | 0 => 0
  | n + 1 => if t + 200 ≤ levelAt (n + 1) then levelLeft t n else n + 1

/-- The level for the next boundary. -/
def nextLevel (d : Dev) (t : Nat) : Nat :=
  if d.pwr.senseForced then 8
  else max d.pwr.floor.toNat (max (levelReached t) (levelLeft t d.pwr.levelNext.toNat))

/-- Tj that counts: a sensor without readings counts as 103.75 °C. -/
def hottest (d : Dev) : Nat := if d.pwr.deadSensors.isEmpty then d.pwr.hot else max d.pwr.hot 10375

/-- The level that the sensors and the floor ask for. -/
def judgeLevel (d : Dev) : Dev :=
  let t := hottest d
  let d := withPwr d fun p => { p with levelNext := BitVec.ofNat 4 (nextLevel d t) }
  if 10500 < t then setPwrEvent d 4 else d

/-- THERMAL_COMPARE: sensors and their readings in hundredths of a degree. -/
def execThermalCompare (readings : List (Nat × Nat)) (s : State) : Host.Outcome State Fault Refusal :=
  let d := s.dev
  if d.pwr.inReset || readings.isEmpty then .next s
  else
    let alive := fun n => readings.any fun r => r.1 = n
    finish s (judgeLevel (withPwr d fun p => { p with
      hot := (readings.map (·.2)).foldl max 0
      deadSensors := p.deadSensors.filter fun n => !alive n }))

/-- SENSOR_TIMEOUT. -/
def execSensorTimeout (sensor : Nat) (s : State) : Host.Outcome State Fault Refusal :=
  let d := s.dev
  if d.pwr.inReset then .next s
  else
    let d := withPwr d fun p => { p with deadSensors := if p.deadSensors.contains sensor then p.deadSensors else p.deadSensors ++ [sensor] }
    finish s (judgeLevel (setPwrEvent d 5))

/-! ### Clocks (Table 13-10) -/

/-- TICK_LOGIC_FAULT (R114). -/
def tickFault (d : Dev) : Dev := loseAlmanac (withGlb d fun g => { g with tickFault := true })

def execTickLogicFault (s : State) : Host.Outcome State Fault Refusal :=
  if s.dev.pwr.inReset then .next s else finish s (tickFault s.dev)

/-- CLK_TRACE is lost: the session ends and no record is written (R655). -/
def stopTrace (d : Dev) : Dev :=
  let lost := d.trc.buffer
  let d := withTrc d fun t => { t with session := none, stopped := true, buffer := [], drain := 0 }
  lost.foldl (fun d r => noteLeft false (dropRecord d r)) d

/-- A mailbox whose ring lies in host memory stops (R255, R676). -/
def stopHostMailbox (m : Mailbox) : Mailbox :=
  if !m.enabled || (m.sqDev && m.cqDev) then m
  else { m with
    fetchError := m.fetchError || !m.sqDev
    postError := m.postError || !m.cqDev
    stopped := true
    discard := true
    ready := [] }

/-- The host link is lost (R465, R676): its cached copies and held reads go with it. -/
def linkLost (d : Dev) : Dev :=
  let d := endOpenCommits d
  let d := withHif d fun h => { h with linkUp := false, cxl := false, hdm := false, width := 0, speed := 0, flit := false, event := h.event ||| 5 }
  let d := withGlb d fun g => { g with hostLink := true }
  let d := withKvs d fun k => { k with filter := [], snoops := [], reenter := [], heldReads := [], roomReads := [] }
  let d := { d with mbx := vmap stopHostMailbox d.mbx }
  (List.range 65).foldl (fun d n => match mbxOfNat n with
    | some n => settle d n
    | none => d) d

/-- HOST_LINK_DOWN. -/
def execHostLinkDown (s : State) : Host.Outcome State Fault Refusal :=
  if s.dev.hif.linkUp then finish s (linkLost s.dev) else .next s

/-- HOST_LINK_UP: the link trains after a reset, or comes back (R566, R676). -/
def execHostLinkUp (width : BitVec 5) (speed : BitVec 3) (flit cxl hdm : Bool) (s : State) : Host.Outcome State Fault Refusal :=
  if s.dev.hif.linkUp || s.dev.pwr.inReset then .next s
  else finish s (withHif s.dev fun h => { h with linkUp := true, width := width, speed := speed, flit := flit, cxl := cxl, hdm := hdm, event := h.event ||| 2 })

/-- The quad of an SDS domain (index 13 to 16). -/
def sdsQuad (i : Nat) : Option Quad := if h : 13 ≤ i ∧ i ≤ 16 then some ⟨i - 13, by omega⟩ else none

/-- All four ports of a quad go down (R376). -/
def dropQuad (d : Dev) (q : Quad) : Dev :=
  let d := withQuad d q fun x => { x with locked := false }
  (allPorts.filter fun p => quadOf p = q).foldl (fun d p =>
    if portAlive (portAt d p) then losePort d p (if d.rpr.failed then 4 else 1) else d) d

/-- The effect of Table 13-10 on a domain (numbered from 0). -/
def clockLost (d : Dev) (i : Nat) : Dev :=
  match sdsQuad i with
  | some q => dropQuad d q
  | none =>
    if i ≤ 4 || (6 ≤ i && i ≤ 11) then deviceReset d 7
    else if i = 17 then (if d.hif.linkUp then linkLost d else d)
    else if i = 18 then tickFault d
    else if i = 19 then stopTrace d
    else if i = 24 then judgeLevel (setPwrEvent (withPwr d fun p => { p with senseForced := true }) 5)
    else d

/-- CLOCK_LOCK_LOSS. What the lost domain still counts is left open (log 8). -/
def execClockLockLoss (domain : Fin 25) (s : State) : Host.Outcome State Fault Refusal :=
  let d := s.dev
  if d.pwr.inReset || !d.pwr.lock.getLsbD domain.val then .next s
  else
    let (k, d) := draw d
    let bitOf := BitVec.ofNat 25 (2 ^ domain.val)
    let d := withPwr d fun p => { p with
      lock := p.lock &&& ~~~bitOf
      clkEvent := p.clkEvent ||| bitOf
      freq := p.freq.set domain (Config.freeWord k) }
    finish s (clockLost d domain.val)

/-- CLOCK_LOCK_REGAINED. -/
def execClockLockRegained (domain : Fin 25) (s : State) : Host.Outcome State Fault Refusal :=
  let d := s.dev
  if d.pwr.inReset || d.pwr.lock.getLsbD domain.val then .next s
  else
    let d := withPwr d fun p => { p with lock := p.lock ||| BitVec.ofNat 25 (2 ^ domain.val) }
    match sdsQuad domain.val with
    | some q => finish s (withQuad d q fun x => { x with locked := !x.settling })
    | none => finish s (if domain.val = 24 then judgeLevel (withPwr d fun p => { p with senseForced := false }) else d)

end Sys2Proof.Machine
end

