-- ==== Sys2Proof/Machine/Faults.lean ====
section
/-!
DEFINITION. Faults of tiles, memory and lanes and their repair (chapter 14), background tasks, and the
breakpoint of a control core.
-/
namespace Sys2Proof.Machine

/-! ### A tile fails (R588–R590, R613–R615) -/

/-- Physical tile `p` carries logical tile `l` and takes no new work (R589): an entry moved from it goes to
an active tile that firmware chooses (log 8). -/
def otherTile (d : Dev) : Option Nat × Dev := choose d ((List.range 64).filter fun l => match physOf d l with
  | some p => (physAt d p).state = 0
  | none => false)

def onLogical (l : Nat) (x : RunEntry) : Bool := isEngine x.entry.resource && x.entry.resource.toNat / 4 = l

/-- The entry, to be rerun as carried-over work on another tile. -/
def moveEntry (d : Dev) (x : RunEntry) (lastTry : Bool) : Dev :=
  let (t, d) := otherTile d
  match t with
  | none => d
  | some t =>
    let e := { x.entry with resource := BitVec.ofNat 16 (4 * t + engineKind x.entry.resource) }
    withPlan d fun p => { p with carried := p.carried ++ [{ x with entry := e, carried := true, rerun := true, alone := false, lastTry := lastTry }] }

/-- Everything that runs or waits on the engines of logical tile `l` moves; `twice` is the entry that took the second
parity error, whose next run is its last (R288). -/
def evacuate (d : Dev) (l : Nat) (twice : Option PlanEntry) : Dev :=
  let mine := (d.plan.running ++ d.plan.carried).filter (onLogical l)
  let d := withPlan d fun p => { p with
    running := p.running.filter fun x => !onLogical l x
    carried := p.carried.filter fun x => !onLogical l x }
  mine.foldl (fun d x => moveEntry d x (x.lastTry || twice = some x.entry)) d

/-- Repairs that wait for a holiday of the tile are abandoned (R615). -/
def dropBankRepairs (d : Dev) (p : Nat) : Dev :=
  withRpr d fun x => { x with approved := x.approved.filter fun q => !(q.kind = 2 && q.unit.toNat = p) }

/-- An active tile is declared failed: its logical tile drains, and a spare is copied to or asked for. -/
def failActive (d : Dev) (p : Nat) (twice : Option PlanEntry) : Dev :=
  let l := (physAt d p).logical.toNat
  let d := setRprEvent (setPhys d p fun x => { x with state := 2, suspect := 0 }) 0
  let d := traceDevice d 11 p (4 + p * 2 ^ 8)
  let spare := (freeSpare d).isSome
  let left := activeCount d - (if spare then 0 else 1)
  let d := eventTo d adminBox 0x0501 [(20, 1, 4), (22, 1, p), (23, 1, left)]
  let d := evacuate (dropBankRepairs d p) l twice
  if spare then requestRepair d 1 p 0 else d

/-- A spare that receives a copy fails: the copy starts again on the next one (R614). -/
def failReceiver (d : Dev) (p : Nat) : Dev :=
  match d.rpr.copies.find? fun c => c.spare = p with
  | none => appendMap (setPhys d p fun x => { x with state := 3 }) 1 p 0
  | some c =>
    let d := appendMap (setPhys d p fun x => { x with state := 3, logical := 0 }) 1 p 0
    startCopy (withRpr d fun x => { x with copies := x.copies.filter fun y => y.spare != p }) c.source

/-- A physical tile is declared failed. -/
def failTile (d : Dev) (p : Nat) (twice : Option PlanEntry) : Dev :=
  match (physAt d p).state.toNat with
  | 0 => failActive d p twice
  | 1 => appendMap (setPhys d p fun x => { x with state := 3 }) 1 p 0
  | 4 => failReceiver d p
  | _ => d

/-- TILE_FAILURE: a BIST segment fails, or the tile does not answer firmware; which of the two is left open
(log 8). -/
def execTileFailure (tile : Tile) (s : State) : Host.Outcome State Fault Refusal :=
  if s.dev.pwr.inReset then .next s
  else
    let (k, d) := draw s.dev
    let bits : BitVec 3 := if Config.choice k % 2 = 1 then 4 else 0
    finish s (failTile (withTile d tile fun t => { t with tilEvent := t.tilEvent ||| bits }) tile.val none)

/-- A bit and the count of an ERR register (R288, R327). -/
def noteParity (d : Dev) (tile : Tile) (engine : Fin 4) : Dev :=
  withTile d tile fun t => { t with
    error := t.error ||| BitVec.ofNat 4 (2 ^ engine.val)
    errCount := t.errCount.set engine (satAdd t.errCount[engine] 1) }

/-- The entry that takes a parity error: rerun once on its tile, then on another, then given up (R288). -/
def parityEntry (d : Dev) (p : Nat) (engine : Nat) (x : RunEntry) : Dev :=
  let off := withPlan d fun q => { q with running := dropRun x q.running }
  if x.lastTry then
    match entryWork d x.entry with
    | some w => failOwner off w.owner 0x0501
    | none => off
  else if (physAt d p).suspect.getLsbD engine then failTile d p (some x.entry)
  else
    let d := setPhys off p fun y => { y with suspect := y.suspect ||| BitVec.ofNat 4 (2 ^ engine) }
    withPlan d fun q => { q with carried := { x with carried := true, rerun := true } :: q.carried }

/-- ENGINE_PARITY_ERROR: of any physical tile, a spare or one out of service among them. -/
def execEngineParityError (tile : Tile) (engine : Fin 4) (s : State) : Host.Outcome State Fault Refusal :=
  let x := physAt s.dev tile.val
  if s.dev.pwr.inReset then .next s
  else
    let d := noteParity s.dev tile engine
    match (if x.state = 0 || x.state = 2 then runningOn d (BitVec.ofNat 16 (4 * x.logical.toNat + engine.val)) else none) with
    | some e => finish s (parityEntry d tile.val engine.val e)
    | none => finish s d

def tileOfNat (n : Nat) : Option Tile := if h : n < 68 then some ⟨n, h⟩ else none

/-- ENTRY_OVERRUN: past twice its cost plus 1 µs (R588). -/
def execEntryOverrun (resource : BitVec 16) (s : State) : Host.Outcome State Fault Refusal :=
  let d := s.dev
  match runningOn d resource, (if isEngine resource then physOf d (resource.toNat / 4) else none) with
  | some _, some p =>
    match tileOfNat p with
    | some t => finish s (failTile (withTile d t fun x => { x with tilEvent := x.tilEvent ||| 2 }) p none)
    | none => .next s
  | _, _ => .next s

/-! ### Copies and switches (R590, R591, R617) -/

/-- TILE_COPY_DONE: copies pause in BROWN_HOLD. -/
def execTileCopyDone (logical : Fin 64) (s : State) : Host.Outcome State Fault Refusal :=
  let d := s.dev
  let l := BitVec.ofNat 6 logical.val
  if d.pwr.hold || (copyOf d l).isNone then .next s
  else
    let upd := fun (c : SliceCopy) => if c.logical = l then { c with complete := true } else c
    finish s (withRpr d fun x => { x with copies := x.copies.map upd })

/-- The logical tile runs on the spare from now on, without foreground work in this tick. -/
def switchTile (d : Dev) (c : SliceCopy) : Dev :=
  let d := setPhys d c.source fun x => { x with state := 3 }
  let d := setPhys d c.spare fun x => { x with state := 0, logical := c.logical, suspect := 0 }
  let d := withRpr d fun x => { x with
    copies := x.copies.filter fun y => y.logical != c.logical
    missing := x.missing.filter fun e => e.1 != c.logical }
  let d := withRpr d fun x => { x with degraded := activeCount d < 64 }
  let l := c.logical.toNat
  let d := withPlan d fun p => { p with entries := p.entries.filter fun e => !(isEngine e.resource && e.resource.toNat / 4 = l) }
  let d := setRprEvent (appendMap d 1 c.source 0) 1
  traceDevice d 11 c.spare (5 + c.spare * 2 ^ 8)

/-- TILE_SWITCH, at the spare's holiday. -/
def execTileSwitch (logical : Fin 64) (s : State) : Host.Outcome State Fault Refusal :=
  let d := s.dev
  match copyOf d (BitVec.ofNat 6 logical.val) with
  | some c => if c.complete && onHoliday d c.spare && !d.pwr.hold then finish s (switchTile d c) else .next s
  | none => .next s

/-! ### Banks, rows and pages (R593, R596–R599, R608, R609) -/

/-- A repair may run now: in hardware mode when it is due; in host-assisted mode, or while a change of REPAIR is
pending (R36), once it has been approved or scheduled. -/
def repairMayRun (d : Dev) (kind : Byte) (unit : Nat) (fits : Word → Bool) : Bool :=
  (!hostMode d 7 && !repairPending d) || d.rpr.approved.any fun q => q.kind = kind && q.unit.toNat = unit && fits q.detail

def clearApproved (d : Dev) (kind : Byte) (unit : Nat) (fits : Word → Bool) : Dev :=
  withRpr d fun x => { x with approved := x.approved.filter fun q => !(q.kind = kind && q.unit.toNat = unit && fits q.detail) }

/-- The repair is due: it is scheduled, or becomes a request, once. -/
def repairDue (d : Dev) (kind : Byte) (unit : Nat) (detail : Word) : Dev :=
  if repairKnown d kind unit detail then d else requestRepair d kind unit detail

/-- The spare bank that a bank of this tile would take. -/
def spareBank (x : Phys) : Option Nat := if x.bank0.isNone then some 0 else if x.bank1.isNone then some 1 else none

/-- A bank needs repair: a tile without a free spare bank has failed (R588). -/
def bankDue (d : Dev) (p bank : Nat) : Dev :=
  match spareBank (physAt d p) with
  | none => failTile d p none
  | some sb => repairDue d 2 p (BitVec.ofNat 32 (bank + sb * 256))

/-- The bank is copied and switched. -/
def switchBank (d : Dev) (p bank sb : Nat) : Dev :=
  let b := BitVec.ofNat 6 bank
  let d := setPhys d p fun x => if sb = 0 then { x with bank0 := some b } else { x with bank1 := some b }
  let d := clearApproved d 2 p fun w => w.toNat % 256 = bank
  let d := setRprEvent (appendMap d 2 p (BitVec.ofNat 32 (bank + sb * 256))) 2
  traceDevice d 11 p (6 + p * 2 ^ 8)

/-- BANK_REPAIR: a bank of an active tile that needs repair, at the tile's holiday. -/
def execBankRepair (tile : Tile) (bank : Fin 48) (s : State) : Host.Outcome State Fault Refusal :=
  let d := s.dev
  let p := tile.val
  let x := physAt d p
  if d.pwr.inReset || d.pwr.hold || x.state != 0 || !onHoliday d p then .next s
  else match spareBank x with
    | none => finish s (failTile d p none)
    | some sb =>
      if repairMayRun d 2 p fun w => w.toNat % 256 = bank.val then finish s (switchBank d p bank.val sb)
      else finish s (bankDue d p bank.val)

/-- HBM_ROW_REPAIR: a row that needs repair, at the stack's holiday. -/
def execHbmRowRepair (stack : Stack) (detail : Word) (s : State) : Host.Outcome State Fault Refusal :=
  let d := s.dev
  if d.pwr.inReset || d.pwr.hold || !onHoliday d (84 + stack.val) then .next s
  else if !repairMayRun d 4 stack.val (· = detail) then finish s (repairDue d 4 stack.val detail)
  else
    let d := withStack (clearApproved d 4 stack.val (· = detail)) stack fun h => { h with soft := h.soft ++ [detail] }
    finish s (setRprEvent (appendMap d 4 stack.val detail) 3)

/-- The listed bytes of a page move to its replacement. -/
def movePage (m : Memory) (src dst : Nat) : Memory :=
  let cells := m.filter fun c => src ≤ c.1 && c.1 < src + 65536
  cells.foldl (fun m c => memPut m (c.1 - src + dst) c.2) (memErase (memErase m src (src + 65536)) dst (dst + 65536))

/-- The page is copied and its address redirected (R598). -/
def retirePage (d : Dev) (stack : Stack) (page : Word) (a : Nat) : Dev :=
  let n := page.toNat
  let d := { d with mem := movePage d.mem (redirect d (n * 65536)) a }
  let d := withStack (clearApproved d 5 stack.val (· = page)) stack fun h => { h with retired := h.retired.filter (fun e => e.1 != n) ++ [(n, a)] }
  let d := setRprEvent (appendMap d 6 stack.val page) 4
  traceDevice d 11 (84 + stack.val) (8 + (84 + stack.val) * 2 ^ 8)

/-- PAGE_RETIRE, at the stack's holiday (R598, R599). -/
def execPageRetire (stack : Stack) (page : Word) (s : State) : Host.Outcome State Fault Refusal :=
  let d := s.dev
  let inStack := isHbm (page.toNat * 65536) && stackOf (page.toNat * 65536) = stack.val
  if d.pwr.inReset || d.pwr.hold || !onHoliday d (84 + stack.val) || !inStack then .next s
  else if d.hbm[stack].retired.any fun e => e.1 = page.toNat then .next s
  else if !repairMayRun d 5 stack.val (· = page) then finish s (repairDue d 5 stack.val page)
  else if 4096 ≤ d.hbm[stack].retired.length then finish s (failDevice d)
  else match takeReplacement d stack.val page.toNat with
    | none => finish s (setRprEvent d 5)
    | some (a, d) => finish s (retirePage d stack page a)

/-! ### Uncorrectable errors (R161, R207, R502, R593, R594, R596) -/

/-- An error in the descriptor or owner store: which entry lies there is left open (log 8). -/
def damageStore (d : Dev) : Dev :=
  let (k, d) := choose d ((d.descs.map fun e => (true, e.1)) ++ d.owners.map fun e => (false, e.1))
  match k with
  | none => d
  | some (true, h) => { d with descs := assocMod h (fun x => { x with poisoned := true }) d.descs }
  | some (false, t) => { d with owners := assocMod t (fun x => { x with poisoned := true }) d.owners }

/-- Counters of an uncorrectable error at a device address (Table 15-1). -/
def countUncorrectable (d : Dev) (a : Nat) : Dev :=
  let d := bump d 2 0 298 1
  match allocOf d a 1 with
  | some (_, al) => bump d 1 al.label.toNat 11 1
  | none => d

/-- A scratchpad line: the bank that holds it is not stated (log 8). -/
def scratchError (d : Dev) (a : Nat) : Dev :=
  match (physOf d (a / sliceSize)).bind tileOfNat with
  | none => d
  | some p =>
    let d := withTile (poisonLine d a) p fun t => { t with spUe := satAdd t.spUe 1, tilEvent := t.tilEvent ||| 1 }
    let (k, d) := draw d
    bankDue (countUncorrectable d a) p.val (Config.choice k % 48)

/-- An HBM line: its row, and whether a repair resource is left for it, are not stated (log 8). -/
def hbmError (d : Dev) (a : Nat) : Dev :=
  let i := stackOf a
  let up := fun (h : HbmSt) => { h with ue := satAdd h.ue 1 }
  let d := countUncorrectable { d with hbm := vset d.hbm i (up (vget d.hbm i HbmSt.reset)) } a
  if storeBase d ≤ a && a < annalsBase d then damageStore d
  else
    let (k, d) := draw (poisonLine d a)
    if Config.choice k % 2 = 0 then repairDue d 4 i (Config.freeWord k &&& 0x0FFF_FFFF) else repairDue d 5 i (BitVec.ofNat 32 (a / 65536))

/-- An error in the island's record store (R502): one that its ECC cannot correct damages the record there;
whether it can, and what the byte then reads, are left open (log 8). -/
def recordError (d : Dev) (o : Nat) : Dev :=
  let (k, d) := draw d
  if Config.choice k % 2 = 0 then d
  else
    let hit := fun (r : MetRecord) => (o + storeBytesTotal - r.offset) % storeBytesTotal < r.bytes.length
    let upd := fun (r : MetRecord) =>
      if hit r then { r with bytes := r.bytes.set ((o + storeBytesTotal - r.offset) % storeBytesTotal) (Config.freeByte k) } else r
    withMet d fun m =>
      let rs := m.records.map upd
      { m with
        records := rs
        storeError := m.storeError || m.records.any hit
        previous := match rs.getLast? with
          | some r => if hit r then BitVec.ofNat 256 (fromLe (sha256 r.bytes)) else m.previous
          | none => m.previous }

/-- UNCORRECTABLE_ECC. An address of the reserved range above HBM stands for the island's record store,
which has no device address (log 30). -/
def execUncorrectableEcc (address : DevAddr) (s : State) : Host.Outcome State Fault Refusal :=
  let d := s.dev
  let a := address.toNat
  if hbmTop ≤ a && a < hostBase && d.met.powered then finish s (recordError d ((a - hbmTop) % storeBytesTotal))
  else if d.pwr.inReset then .next s
  else if isScratch a then finish s (scratchError d a)
  else if isHbm a then finish s (hbmError d a)
  else .next s

/-! ### Background tasks (R603–R605, R617) -/

/-- Does the task run on the unit? (Table 14-6) -/
def taskUnit (k unit : Nat) : Bool :=
  if k = 1 then 84 ≤ unit
  else if k = 3 then 68 ≤ unit && unit < 84 && unit % 4 = 0
  else unit < 68

/-- Task `k` is overdue at this holiday (R605). -/
def noteOverdue (d : Dev) (k : Fin 5) : Dev :=
  setRprEvent (withRpr d fun x => { x with overdue := x.overdue.set k (satAdd x.overdue[k] 1) }) 6

/-- An overdue task runs first: the foreground work that needs the unit waits for the next tick (R87). -/
def displace (d : Dev) (unit : Nat) : Dev := withPlan d fun p => { p with displaced := unit :: p.displaced }

/-- The longest interval between passes of a task, in ns, where Table 14-6 gives one as a time. -/
def taskInterval (k : Nat) : Option Nat :=
  if k = 0 then some 1000000000
  else if k = 1 then some 86400000000000
  else if k = 2 then some 3600000000000
  else if k = 4 then some 100000000
  else none

/-- Holidays of a unit come too seldom for the task: it is overdue at every one of them (R607). -/
def alwaysOverdue (d : Dev) (k : Nat) : Bool :=
  match taskInterval k with
  | some n => n < 2 ^ ((holidayNow d).toNat + 4) * stretched d
  | none => false

/-- The quad is recalibrated within 3 µs, which its ports' budgets of this tick lose (R364, R365, R373). -/
def recalibrate (d : Dev) (q : Quad) : Dev :=
  let d := withQuad d q fun x => { x with settling := true, recalibrating := true, remaining := 3000, lost := x.lost + 3000 }
  (allPorts.filter fun p => quadOf p = q).foldl (fun d p => withPort d p fun x => { x with state := if x.state = 2 then 3 else x.state }) d

def quadOfUnit (unit : Nat) : Option Quad := if h : 68 ≤ unit ∧ unit < 84 then some ⟨(unit - 68) / 4, by omega⟩ else none

/-- The correctable errors that a scrub pass has found in a region, and those of them in each allocation there: how
many is no input of the model (log 8). They are corrected silently and counted (R208, Table 15-1). -/
def countCorrected (d : Dev) (index : Nat) (lo hi : Nat) : Nat × Dev :=
  let here := d.allocs.filter fun a => a.2.addr < hi && lo < a.2.addr + a.2.size
  let (k, d) := drawN d (here.length + 1)
  let own := (List.range here.length).map fun i => Config.choice (k + 1 + i)
  let d := (here.zip own).foldl (fun d e => bump d 1 e.1.2.label.toNat 10 e.2) d
  let n := own.foldl (· + ·) (Config.choice k)
  (n, bump d 2 0 index n)

/-- A scrub pass of a tile's slice (Table 14-6, k = 0). -/
def scrubTile (d : Dev) (p : Nat) : Dev :=
  let x := physAt d p
  let lo := x.logical.toNat * sliceSize
  let (n, d) := if x.state = 0 || x.state = 2 then countCorrected d 294 lo (lo + sliceSize) else countCorrected d 294 0 0
  match tileOfNat p with
  | some t => withTile d t fun r => { r with spCe := satAdd r.spCe n }
  | none => d

/-- A patrol pass of a stack, with the descriptor and owner stores in the stack that holds them. -/
def scrubStack (d : Dev) (i : Nat) : Dev :=
  let lo := hbmBase + i * stackSize
  let (n, d) := countCorrected d 295 lo (lo + stackSize)
  let (m, d) := if stackOf (storeBase d) = i then
      let (a, d) := countCorrected d 296 0 0
      let (b, d) := countCorrected d 297 0 0
      (a + b, d)
    else (0, d)
  let up := fun (h : HbmSt) => { h with ce := satAdd h.ce (n + m) }
  { d with hbm := vset d.hbm i (up (vget d.hbm i HbmSt.reset)) }

/-- A pass of task `k` on the unit comes to its end. -/
def passTask (d : Dev) (unit : Nat) (k : Nat) : Dev :=
  if k = 0 then scrubTile d unit
  else if k = 1 then scrubStack d (unit - 84)
  else if k = 4 then withPwr d fun p => { p with tj := BitVec.ofNat 8 (min 255 (hottest d / 100)) }
  else if k = 3 then match quadOfUnit unit with
    | some q => if d.quads[q].settling then d else recalibrate d q
    | none => d
  else d

/-- BACKGROUND_TASK: the tasks overdue at the unit's holiday, by the operand or because holidays come too seldom
(R607), and those whose pass ends in it. In BROWN_HOLD none counts as done (R575, R617). -/
def execBackgroundTask (unit : Fin 90) (overdue passed : List (Fin 5)) (s : State) : Host.Outcome State Fault Refusal :=
  let d := s.dev
  let u := unit.val
  if d.pwr.inReset || !onHoliday d u then .next s
  else
    let o := ([0, 1, 2, 3, 4] : List (Fin 5)).filter fun k => taskUnit k.val u && (overdue.contains k || alwaysOverdue d k.val)
    let d := o.foldl noteOverdue d
    if d.pwr.hold then finish s d
    else
      let d := if o.isEmpty then d else displace d u
      finish s ((passed.filter fun k => taskUnit k.val u).foldl (fun d k => passTask d u k.val) d)

/-- BREAKPOINT_HIT (R641, R642). -/
def execBreakpointHit (core : CtrlCore) (slot : Fin 4) (pc : Word) (s : State) : Host.Outcome State Fault Refusal :=
  if s.dev.pwr.inReset then .next s else finish s (hitBreak s.dev core slot pc)

end Sys2Proof.Machine
end

