-- ==== Sys2Proof/Machine/HostIf.lean ====
section
/-!
DEFINITION. What the host does to the device: writes and reads of BAR0 (chapter 16 and the register
sections), the apertures of BAR4, and the CXL window with its back-invalidate responses (chapter 10).
-/
namespace Sys2Proof.Machine

/-! ### Which registers take writes now (R677) -/

/-- GLB, PWR, CLK, TIK, HIF and the admin mailbox. -/
def servedEarly (r : Reg) : Bool :=
  match r with
  | .mbx n _ => n = adminBox
  | r =>
    let o := r.offset
    o < 0x030_0000 || (0x060_0000 ≤ o && o < 0x080_0000)

/-- The device serves a write of this register now; others are discarded. -/
def writeServed (d : Dev) (r : Reg) : Bool := bar0Open d && (d.glb.ready || servedEarly r)

/-! ### Writes that do more than set a field -/

/-- TIK_CTRL.snap: the timestamp, the leap level and P (R119, R705). -/
def takeSnap (d : Dev) : Dev :=
  let p := periodNow d
  withTik d fun x => { x with
    snapPeriod := BitVec.ofNat 10 p
    snapLeap := if x.eraValid then x.leap else 0
    snapEra := x.era
    snapNs := x.offset
    snapTick := x.tick }

def writeTikControl (d : Dev) (w : Word) : Dev :=
  let d := writeTikCtrl d w
  if w.getLsbD 0 then takeSnap d else d

/-- TIK_CABLE_DLY: the cable is tested again (R109). -/
def writeCable (d : Dev) (w : Word) : Dev :=
  withTik d fun x => { x with
    cableDly := w.truncate 8
    cableIgnored := false
    cableRun := 0
    source := if x.source = 1 then 2 else x.source }

/-- TIK_MEMBER.tray: a join request under the new number (R507, R536). -/
def writeTray (d : Dev) (w : Word) : Dev :=
  let d := withJoin d fun j => { j with tray := BitVec.ofNat 9 (w.toNat / 2 ^ 15) }
  if !d.tik.eraValid then d
  else if d.tik.isMaster then recordJoin d (ownReport d true)
  else sendUp d (reportBody 4 (ownReport d true))

/-- TIK_DESIGNATE.master (R521, R522). The era is established by the control cores, so not before step 8. -/
def writeDesignate (d : Dev) (set : Bool) : Dev :=
  let was := d.join.designate && d.tik.isMaster
  let d := withJoin d fun j => { j with designate := set }
  if !eraHost d then d
  else if set then
    if was || d.pwr.stage.toNat < 8 then d else establishEra d (nextEra d.join.highEra) 15
  else if d.tik.isMaster then withTik d fun x => { x with silent := true }
  else d

/-- PWR_RECOVER: with boot code 4 its go bit starts the recovery, in the hold once the boot core goes on (R574,
R579). -/
def writeRecover (d : Dev) (w : Word) : Dev :=
  let d := withPwr d fun p => { p with recoverLength := w.truncate 24 }
  if !(w.getLsbD 31 && d.pwr.bootCode = 4) then d
  else if d.pwr.hold then withPwr d fun p => { p with recoverGo := true }
  else recover d

/-- PWR_THERMAL: the level for the next boundary is never below the floor (R548). -/
def writeThermal (d : Dev) (w : Word) : Dev := judgeLevel (writePlain d .pwrThermal w)

/-- PWR_BROWN: no set point is below VWARN + 30 mV (R549). -/
def writeBrown (d : Dev) (w : Word) : Dev :=
  let d := writePlain d .pwrBrown w
  withPwr d fun p => { p with request := BitVec.ofNat 12 (setPoint d p.level.toNat) }

/-- DBG_CTRL: instruction trace and the open setting (R628, R640). -/
def writeDbgCtrl (d : Dev) (w : Word) : Dev :=
  writeOpen (withDbg d fun x => { x with itrace := BitVec.ofNat 4 (w.toNat / 16) }) (w.getLsbD 0)

/-- DBG_HALT.halt; a halted device stays as it is. -/
def hostHalt (d : Dev) : Dev := if d.dbg.halted then d else haltDevice d 3 0 0 none

/-- The next command of a mailbox, if it is a DESTROY_DESC that may start. -/
def startDestroy (d : Dev) (n : Mbx) : Dev :=
  match (mailbox d n).fetched with
  | f :: rest =>
    if isDestroy f.cmd && !heldBack d n f then startOne (withMbx d n fun m => { m with fetched := rest }) n f else d
  | [] => d

/-- Every mailbox starts what it may again, and fetching goes on. Of the commands that start together,
DESTROY_DESC takes effect first (R202). -/
def restartMailboxes (d : Dev) : Dev :=
  let all := (List.finRange 65).filter fun n => (mailbox d n).enabled
  fetchTurns (all.foldl startHeld (all.foldl startDestroy d))

/-- Re-verification that a halt put off (R651): which items fail is a free choice (log 8). -/
def verifyAfterHalt (d : Dev) : Dev :=
  let due := d.dbg.verify && !d.pwr.hold
  let d := withDbg d fun x => { x with verify := false }
  if !due then d
  else
    let (bad, d) := drawFailures d
    verifyAll d bad

/-- DBG_HALT.resume (R643, R645). -/
def hostResume (d : Dev) : Dev :=
  if !d.dbg.halted then d
  else
    let d := withDbg d fun x => { x with halted := false, cause := 0, id := 0, core := 0 }
    restartMailboxes (verifyAfterHalt (releaseEvents d))

/-- DBG_HALT.step: one instruction of the named core (R640, R645). Where it leaves the program counter, and
whether it is a taken branch or an exception, is not given (log 13). -/
def hostStep (d : Dev) (core : CtrlCore) : Dev :=
  if !d.dbg.halted then d
  else
    let (k, d) := drawN d 3
    let pc := Config.freeWord k
    let d := withDbg d fun x => { x with pc := x.pc.set core pc }
    if d.dbg.itrace.getLsbD core.val && Config.choice (k + 1) % 2 = 1 then
      traceDevice d 6 (90 + core.val) (core.val + Config.choice (k + 2) % 2 ^ 16 * 2 ^ 16 + pc.toNat * 2 ^ 32)
    else d

/-- DBG_HALT: its bits act in ascending order (log 31). -/
def writeHalt (d : Dev) (w : Word) : Dev :=
  let d := if w.getLsbD 0 then hostHalt d else d
  let d := if w.getLsbD 1 then hostResume d else d
  if w.getLsbD 2 then hostStep d ⟨w.toNat / 16 % 4, by omega⟩ else d

/-- DBG_WATCH_CANCEL (R649). -/
def cancelWatches (d : Dev) (mask : BitVec 16) : Dev :=
  (List.range 16).foldl (fun d i =>
    if mask.getLsbD i then withDbg d fun x => { x with watches := vset x.watches i none } else d) d

/-- LYS_CTRL: a port that is disabled goes down, one that is enabled trains (DEDUCED, log 32). -/
def writePortCtrl (d : Dev) (p : Port) (w : Word) : Dev :=
  let d := writeLys d p .ctrl w
  let x := portAt d p
  if w.getLsbD 0 then
    (if x.state = 0 then withPort d p fun x => { x with state := if d.rpr.failed then 4 else 1 } else d)
  else if portAlive x then losePort d p 0
  else withPort d p fun x => { x with state := 0 }

/-- A write of a register. -/
def writeReg (d : Dev) (r : Reg) (w : Word) : Dev :=
  match r with
  | .glbIntAck => ackInts d (w.truncate 11)
  | .pwrReset => if w = 0xA5A5 then deviceReset d 5 else d
  | .pwrRecover => writeRecover d w
  | .pwrThermal => writeThermal d w
  | .pwrBrown => writeBrown d w
  | .tikCtrl => writeTikControl d w
  | .tikCableDly => writeCable d w
  | .tikMember => writeTray d w
  | .tikDesignate => writeDesignate d (w.getLsbD 0)
  | .mbx n .ctrl => writeMbxCtrl d n w
  | .fplMode => writeMode d (w.truncate 10)
  | .dbgCtrl => writeDbgCtrl d w
  | .dbgHalt => writeHalt d w
  | .dbgWatchCancel => cancelWatches d (w.truncate 16)
  | .lys p .ctrl => writePortCtrl d p w
  | r => writePlain d r w

/-- A host write of a register, served or discarded. -/
def hostWrite (s : State) (r : Reg) (w : Word) : Host.Outcome State Fault Refusal :=
  if writeServed s.dev r then finish s (writeReg s.dev r w) else .next s

/-! ### Commands that write one register -/

def execFplModeWrite (value : Word) (s : State) := hostWrite s .fplMode value
def execTickSnap (value : Word) (s : State) := hostWrite s .tikCtrl (value ||| 1)
def execTikCableDlyWrite (value : Word) (s : State) := hostWrite s .tikCableDly value
def execTrayWrite (value : Word) (s : State) := hostWrite s .tikMember value
def execDesignateMaster (s : State) := hostWrite s .tikDesignate 1
def execUndesignateMaster (s : State) := hostWrite s .tikDesignate 0
def execPwrResetKey (s : State) := hostWrite s .pwrReset 0xA5A5
def execRecoverGo (value : Word) (s : State) := hostWrite s .pwrRecover (value ||| 0x8000_0000)
def execOpenSettingWrite (value : Word) (s : State) := hostWrite s .dbgCtrl value
def execHalt (s : State) := hostWrite s .dbgHalt 1
def execResume (s : State) := hostWrite s .dbgHalt 2
def execStep (core : CtrlCore) (s : State) := hostWrite s .dbgHalt (BitVec.ofNat 32 (4 + 16 * core.val))
def execWatchCancel (mask : BitVec 16) (s : State) := hostWrite s .dbgWatchCancel (mask.zeroExtend 32)
def execIntAck (mask : BitVec 11) (s : State) := hostWrite s .glbIntAck (mask.zeroExtend 32)

/-! ### Reads -/

/-- The device lets the oldest record go, and an extended interval may end (R485, R486). -/
def collect (d : Dev) : Dev :=
  endExtension (withMet d fun m => { m with records := m.records.drop 1, readBytes := [] })

/-- Bytes of the record store that a read takes from the oldest record (R486). -/
def markRead (d : Dev) (o n : Nat) : Dev :=
  match d.met.records with
  | [] => d
  | r :: _ =>
    let own := ((List.range n).map fun i => (o + i + storeBytesTotal - r.offset) % storeBytesTotal).filter (· < r.bytes.length)
    withMet d fun m => { m with readBytes := own.filter (fun i => !m.readBytes.contains i) ++ m.readBytes }

/-- What a read of a register does besides (R18, R20, R486, R672). -/
def readEffect (d : Dev) (r : Reg) : Dev :=
  match r with
  | .metCollect => if oldestRead d then collect d else d
  | .metRec w => if metReady d then markRead d (4 * w.val) 4 else d
  | r => clearRc (latchHalf d r) r

/-- An access that is not a naturally aligned 32-bit access (R14). -/
def accessError (d : Dev) : Dev := withGlb d fun g => { g with accessError := true }

/-- A host read of an aligned word of BAR0: the value before any clearing; 0 at a reserved offset, which every offset
is that no table defines, the CXL component registers' among them (R16, R660; log 6). -/
def readWord (d : Dev) (o : Nat) : Dev :=
  match regOfOffset o with
  | none => putRead d (zeros 4) false
  | some r => readEffect (putRead d (leBytes 4 (readReg d r).toNat) false) r

/-- A host read of BAR0. -/
def hostRead (s : State) (o : Nat) : Host.Outcome State Fault Refusal :=
  if !bar0Open s.dev then .next s
  else if o % 4 != 0 then finish s (putRead (accessError s.dev) (List.replicate 4 0xFF) false)
  else finish s (readWord s.dev o)

def execMetCollectRead (s : State) := hostRead s (Reg.offset .metCollect)
def execLoReadLatch (offset : BitVec 26) (s : State) := hostRead s offset.toNat
def execClvGrpStateRead (group : Fin 256) (s : State) := hostRead s (Reg.offset (.clvGrpState group))
def execRcCounterRead (offset : BitVec 26) (s : State) := hostRead s offset.toNat
def execMetRecRead (offset : BitVec 21) (s : State) := hostRead s (0x310_0000 + offset.toNat)

/-- BAR0_MISALIGNED_ACCESS (R14). -/
def execBar0Misaligned (write : Bool) (offset : BitVec 26) (size : Nat) (s : State) : Host.Outcome State Fault Refusal :=
  if !bar0Open s.dev || (size = 4 && offset.toNat % 4 = 0) then .next s
  else
    let d := accessError s.dev
    finish s (if write then d else putRead d (List.replicate size 0xFF) false)

/-- REGISTER_WRITE (R15–R19, R22, R673, R677). -/
def execRegisterWrite (offset : BitVec 26) (value : Word) (s : State) : Host.Outcome State Fault Refusal :=
  if !bar0Open s.dev then .next s
  else if offset.toNat % 4 != 0 then finish s (accessError s.dev)
  else match regOfOffset offset.toNat with
    | some r => hostWrite s r value
    | none => .next s

/-! ### BAR4 (R579, R639, R663, R675) -/

def countUnbacked (d : Dev) : Dev := kvEvent (withKvs d fun k => { k with unbacked := satAdd k.unbacked 1 }) 1

/-- Where a BAR4 offset leads. -/
inductive Aperture where
  /-- the recovery mapping onto scratchpad -/
  | recovery (a : Nat)
  | window (a : Nat)

def apertureOf (d : Dev) (o : Word) : Aperture :=
  if d.pwr.bootCode = 4 && o.toNat < 16 * mib then .recovery o.toNat
  else .window ((vget d.hif.win (o.toNat / 2 ^ 30) ⟨0, 0⟩).value.toNat + o.toNat % 2 ^ 30)

def inAnnals (d : Dev) (a n : Nat) : Bool := annalsBase d ≤ a && a + n ≤ hbmTop

/-- One request does not cross a 4 KiB boundary (R663). -/
def oneRequest (o : Word) (n : Nat) : Bool := 0 < n && o.toNat % 4096 + n ≤ 4096

/-- Bytes of a read that carries poison: not given (log 8). -/
def poisonRead (d : Dev) (n : Nat) : Dev :=
  let (k, d) := drawN d n
  putRead d ((List.range n).map fun i => Config.freeByte (k + i)) true

/-- A read of device memory through BAR4 (R675). -/
def readMemory (d : Dev) (a n : Nat) : Dev :=
  if poisoned d a n then withHif (poisonRead d n) fun h => { h with event := h.event ||| 8 }
  else putRead d (load d a n) false

def bar4Read (d : Dev) (o : Word) (n : Nat) : Dev :=
  match apertureOf d o with
  | .recovery a => readMemory d a n
  | .window a => if (allocOf d a n).isSome || inAnnals d a n then readMemory d a n else putRead d (zeros n) false

def bar4Write (d : Dev) (o : Word) (bs : List Byte) : Dev :=
  match apertureOf d o with
  | .recovery a => store d a bs
  | .window a => if (allocOf d a bs.length).isSome then store d a bs else countUnbacked d

/-- BAR4 and the window answer like BAR0. -/
def execBar4Read (offset : Word) (length : Nat) (s : State) : Host.Outcome State Fault Refusal :=
  if bar0Open s.dev && oneRequest offset length then finish s (bar4Read s.dev offset length) else .next s

def execBar4Write (offset : Word) (data : List Byte) (s : State) : Host.Outcome State Fault Refusal :=
  if bar0Open s.dev && oneRequest offset data.length then finish s (bar4Write s.dev offset data) else .next s

/-! ### The window (Tables 10-3 and 10-4) -/

/-- The host reaches the window: CXL.mem is enabled and the HDM decoder committed. -/
def windowOpen (d : Dev) : Bool := bar0Open d && d.hif.cxl && d.hif.hdm

def grantIf (cached : Bool) (d : Dev) (line : Nat) : Dev := if cached then grantLine d line else d

/-- A read of a window line. -/
def windowRead (d : Dev) (line : Nat) (cached : Bool) : Dev :=
  match windowAt d line with
  | .staging _ _ =>
    if stageReady d line then serveStage d line cached
    else
      let d := withKvs d fun k => { k with heldReads := k.heldReads ++ [(line, cached)] }
      withBus d fun b => { b with readData := [], readPoison := false, readHeld := true }
  | .append _ s l b =>
    if tailPoisoned d s l b 64 then poisonRead d 64
    else if cached && filterFull d line then awaitRoom d line
    else putRead (grantIf cached d line) (tailRead d s l b 64) false
  | .unbacked => putRead (countUnbacked d) (zeros 64) false

/-- WINDOW_READ (R443, R444, R459, R461). -/
def execWindowRead (offset : BitVec 40) (cached : Bool) (s : State) : Host.Outcome State Fault Refusal :=
  if windowOpen s.dev then finish s (windowRead s.dev (winLine offset.toNat) cached) else .next s

/-- A running commit has fixed the line's content: its BIRsp has arrived and the position is one it commits
(R450, R457, R458). -/
def lineFixed (d : Dev) (h pos line : Nat) : Bool :=
  d.running.any fun r => r.hdr.handle.toNat = h && r.lines.contains line && match r.cmd, r.wait, streamOf d h with
    | .kvCommit n, .birsp ls, some s =>
      !ls.contains line && (layerOf s 0).c ≤ pos && pos < (layerOf s 0).c + n.toNat
    | _, _, _ => false

/-- A write after commit: dropped, counted and reported (R443, R458, Table 5-5). -/
def dropWac (d : Dev) (h : Nat) (s : Stream) (pos : Nat) : Dev :=
  let d := kvEvent (withKvs d fun k => { k with wac := satAdd k.wac 1 }) 0
  eventTo (bump d 1 s.label.toNat 9 1) s.opener 0x0106 [(20, 1, 2), (22, 2, h), (24, 4, pos)]

/-- In PAGES host-assisted mode the tail page lies where the page list puts page G / 16. Once a handoff has stored that
page there, it cannot be changed, and what is appended before G has moved is discarded. -/
def tailTaken (d : Dev) (h : Nat) (s : Stream) (l : Nat) : Bool :=
  let k := (layerOf s l).g / 16
  hostPages s && d.incoming.any fun i => i.stream.toNat = h && i.stored.any fun e => e.1 = l && e.2.k = k && e.2.len != 0

/-- A write within one window line. One to committed positions is accepted all the same while the line's BISnpInv is
outstanding, by the crossing rule (R443, R457). -/
def windowLineWrite (d : Dev) (o : Nat) (bs : List Byte) : Dev :=
  match windowAt d o with
  | .staging _ _ => withKvs d fun k => { k with stageWr := satAdd k.stageWr 1 }
  | .append h s l b =>
    let pos := (layerOf s l).g + b / s.bpp
    let crossing := d.kvs.snoops.contains (winLine o)
    if !crossing && (pos < (layerOf s l).c || lineFixed d h pos (winLine o)) then dropWac d h s pos
    else if tailTaken d h s l then d else tailWrite d h l b bs
  | .unbacked => countUnbacked d

/-- A write cut at line boundaries. -/
def windowWrite : Nat → Dev → Nat → List Byte → Dev
  | 0, d, _, _ => d
  | fuel + 1, d, o, bs =>
    if bs.isEmpty then d
    else
      let k := 64 - o % 64
      windowWrite fuel (windowLineWrite d o (bs.take k)) (o + k) (bs.drop k)

/-- WINDOW_WRITE (R443, R452, R457, R458). -/
def execWindowWrite (offset : BitVec 40) (data : List Byte) (s : State) : Host.Outcome State Fault Refusal :=
  if windowOpen s.dev then finish s (windowWrite data.length s.dev offset.toNat data) else .next s

/-- The filter has room for the cached read that has been held longest (R444). -/
def serveRoom (d : Dev) : Dev :=
  match d.kvs.roomReads with
  | [] => d
  | line :: rest =>
    if filterFull d line then d else windowRead (withKvs d fun k => { k with roomReads := rest }) line true

/-- The response for a line: it leaves the filter, waiting commits have its content, and a read served
meanwhile brings it back, or one that was held takes its place (R444, R457, R459). -/
def snoopDone (d : Dev) (line : Nat) : Dev :=
  let again := d.kvs.reenter.contains line
  let upd := fun (r : Running) => match r.wait with
    | .birsp ls => { r with wait := .birsp (ls.filter (· != line)) }
    | _ => r
  let d := withKvs { d with running := d.running.map upd } fun k => { k with
    filter := k.filter.filter (· != line)
    snoops := k.snoops.filter (· != line)
    reenter := k.reenter.filter (· != line) }
  serveRoom (grantIf again d line)

/-- BIRSP, with the dirty line that the host writes back before it responds (Table 10-6, step 3). -/
def execBirsp (offset : BitVec 40) (dirty : Option (List Byte)) (s : State) : Host.Outcome State Fault Refusal :=
  let line := winLine offset.toNat
  if !windowOpen s.dev || !s.dev.kvs.snoops.contains line then .next s
  else
    let d := match dirty with
      | some bs => windowLineWrite s.dev line (bs.take 64)
      | none => s.dev
    finish s (snoopDone d line)

/-- STAGING_READ_TIMEOUT (Table 10-4): the read has been held for 1 ms. -/
def execStagingReadTimeout (offset : BitVec 40) (s : State) : Host.Outcome State Fault Refusal :=
  let line := winLine offset.toNat
  match findIdx (fun (x : Nat × Bool) => x.1 = line) s.dev.kvs.heldReads 0 with
  | none => .next s
  | some (i, _) =>
    let d := withKvs s.dev fun k => { k with heldReads := k.heldReads.eraseIdx i }
    finish s (poisonRead d 64)

/-! ### Time with no command waiting (log 1) -/

/-- One CLK_TICK cycle of 1 ns: the offset within the tick, settle times, the Annals writer, and Reckoner
time, which a main-die reset does not stop. The boundary itself is a command. -/
def idleTick (d : Dev) : Dev :=
  if d.pwr.inReset then passTime d 1
  else if d.tik.offset.toNat + 1 < stretched d then
    withTik (settleTick 1 (passTime d 1)) fun x => { x with offset := x.offset + 1 }
  else d

/-- What a step does when no command waits. -/
def idle (s : State) : Host.Outcome State Fault Refusal := finish s (idleTick s.dev)

end Sys2Proof.Machine
end

