-- ==== Sys2Proof/Machine/Dispatch.lean ====
section
/-!
DEFINITION. One arm per command: each a direct call of its meaning.
-/
namespace Sys2Proof.Machine

def exec (i : Instr) (s : State) : Host.Outcome State Fault Refusal :=
  match i with
  | .init n h annals => Sys2Proof.Machine.execInit n h annals s
  | .setPlacement n h mask value => Sys2Proof.Machine.execSetPlacement n h mask value s
  | .setSeed n h seed => Sys2Proof.Machine.execSetSeed n h seed s
  | .loadTree n h source count => Sys2Proof.Machine.execLoadTree n h source count s
  | .openGroup n h members slots sizeCode => Sys2Proof.Machine.execOpenGroup n h members slots sizeCode s
  | .closeGroup n h => Sys2Proof.Machine.execCloseGroup n h s
  | .setTick n h period leapFloor holiday => Sys2Proof.Machine.execSetTick n h period leapFloor holiday s
  | .repairApprove n h request decision => Sys2Proof.Machine.execRepairApprove n h request decision s
  | .bindTenant n h mailbox label unbind => Sys2Proof.Machine.execBindTenant n h mailbox label unbind s
  | .alloc n h label memory size => Sys2Proof.Machine.execAlloc n h label memory size s
  | .free n h allocation => Sys2Proof.Machine.execFree n h allocation s
  | .fwUpdate n h address length => Sys2Proof.Machine.execFwUpdate n h address length s
  | .createDesc n h address => Sys2Proof.Machine.execCreateDesc n h address s
  | .destroyDesc n h descriptor => Sys2Proof.Machine.execDestroyDesc n h descriptor s
  | .loadOwners n h table source => Sys2Proof.Machine.execLoadOwners n h table source s
  | .topk n h o => Sys2Proof.Machine.execTopk n h o s
  | .quant n h o => Sys2Proof.Machine.execQuant n h o s
  | .lowrank n h o => Sys2Proof.Machine.execLowrank n h o s
  | .residualFlush n h bucket fromBucket source destination => Sys2Proof.Machine.execResidualFlush n h bucket fromBucket source destination s
  | .maskGen n h output threshold step random => Sys2Proof.Machine.execMaskGen n h output threshold step random s
  | .bcast n h source destination fromOwners => Sys2Proof.Machine.execBcast n h source destination fromOwners s
  | .reduceToOne n h o => Sys2Proof.Machine.execReduceToOne n h o s
  | .bucketOpen n h o => Sys2Proof.Machine.execBucketOpen n h o s
  | .bucketAdd n h bucket descriptor => Sys2Proof.Machine.execBucketAdd n h bucket descriptor s
  | .bucketSeal n h bucket => Sys2Proof.Machine.execBucketSeal n h bucket s
  | .streamOpen n h o => Sys2Proof.Machine.execStreamOpen n h o s
  | .streamClose n h => Sys2Proof.Machine.execStreamClose n h s
  | .kvPut n h layer first positions source => Sys2Proof.Machine.execKvPut n h layer first positions source s
  | .kvHandoff n h o => Sys2Proof.Machine.execKvHandoff n h o s
  | .kvStage n h layer first positions => Sys2Proof.Machine.execKvStage n h layer first positions s
  | .kvCommit n h positions => Sys2Proof.Machine.execKvCommit n h positions s
  | .kvEvict n h firstLayer layerCount => Sys2Proof.Machine.execKvEvict n h firstLayer layerCount s
  | .traceStart n h kindMask label allLabels => Sys2Proof.Machine.execTraceStart n h kindMask label allLabels s
  | .traceStop n h => Sys2Proof.Machine.execTraceStop n h s
  | .watchTensor n h descriptor layer operator step action => Sys2Proof.Machine.execWatchTensor n h descriptor layer operator step action s
  | .breakSet n h core kind address hits => Sys2Proof.Machine.execBreakSet n h core kind address hits s
  | .countersSnapshot n h set destination => Sys2Proof.Machine.execCountersSnapshot n h set destination s
  | .unknownOpcode n h opcode => Sys2Proof.Machine.execUnknownOpcode n h opcode s
  | .submissionTailDoorbell n tail stores => Sys2Proof.Machine.execSubmissionTailDoorbell n tail stores s
  | .completionHeadDoorbell n head => Sys2Proof.Machine.execCompletionHeadDoorbell n head s
  | .mailboxEnable n value => Sys2Proof.Machine.execMailboxEnable n value s
  | .mailboxDisable n value => Sys2Proof.Machine.execMailboxDisable n value s
  | .commandStart n => Sys2Proof.Machine.execCommandStart n s
  | .fplModeWrite value => Sys2Proof.Machine.execFplModeWrite value s
  | .placementTakesEffect fn => Sys2Proof.Machine.execPlacementTakesEffect fn s
  | .tickSnap value => Sys2Proof.Machine.execTickSnap value s
  | .tikCableDlyWrite value => Sys2Proof.Machine.execTikCableDlyWrite value s
  | .trayWrite value => Sys2Proof.Machine.execTrayWrite value s
  | .designateMaster => Sys2Proof.Machine.execDesignateMaster s
  | .undesignateMaster => Sys2Proof.Machine.execUndesignateMaster s
  | .pwrResetKey => Sys2Proof.Machine.execPwrResetKey s
  | .recoverGo value => Sys2Proof.Machine.execRecoverGo value s
  | .openSettingWrite value => Sys2Proof.Machine.execOpenSettingWrite value s
  | .halt => Sys2Proof.Machine.execHalt s
  | .resume => Sys2Proof.Machine.execResume s
  | .step core => Sys2Proof.Machine.execStep core s
  | .watchCancel mask => Sys2Proof.Machine.execWatchCancel mask s
  | .intAck mask => Sys2Proof.Machine.execIntAck mask s
  | .metCollectRead => Sys2Proof.Machine.execMetCollectRead s
  | .loReadLatch offset => Sys2Proof.Machine.execLoReadLatch offset s
  | .clvGrpStateRead group => Sys2Proof.Machine.execClvGrpStateRead group s
  | .rcCounterRead offset => Sys2Proof.Machine.execRcCounterRead offset s
  | .bar0Misaligned write offset size => Sys2Proof.Machine.execBar0Misaligned write offset size s
  | .registerWrite offset value => Sys2Proof.Machine.execRegisterWrite offset value s
  | .bar4Read offset length => Sys2Proof.Machine.execBar4Read offset length s
  | .bar4Write offset data => Sys2Proof.Machine.execBar4Write offset data s
  | .windowRead offset cached => Sys2Proof.Machine.execWindowRead offset cached s
  | .windowWrite offset data => Sys2Proof.Machine.execWindowWrite offset data s
  | .birsp offset dirty => Sys2Proof.Machine.execBirsp offset dirty s
  | .stagingReadTimeout offset => Sys2Proof.Machine.execStagingReadTimeout offset s
  | .tickBoundary firmwarePlan vcoreSettled => Sys2Proof.Machine.execTickBoundary firmwarePlan vcoreSettled s
  | .planEntryStart resource appended => Sys2Proof.Machine.execPlanEntryStart resource appended s
  | .compressEntryDone resource engineFault => Sys2Proof.Machine.execCompressEntryDone resource engineFault s
  | .codecEntryDone resource => Sys2Proof.Machine.execCodecEntryDone resource s
  | .transmitEntryDone p => Sys2Proof.Machine.execTransmitEntryDone p s
  | .entryOverrun resource => Sys2Proof.Machine.execEntryOverrun resource s
  | .groupSlip group => Sys2Proof.Machine.execGroupSlip group s
  | .groupStalled group => Sys2Proof.Machine.execGroupStalled group s
  | .tickFrame p h b measuredOffset => Sys2Proof.Machine.execTickFrame p h b measuredOffset s
  | .tickLock => Sys2Proof.Machine.execTickLock s
  | .cableFault => Sys2Proof.Machine.execCableFault s
  | .tickReportSend => Sys2Proof.Machine.execTickReportSend s
  | .tickReport p h window count => Sys2Proof.Machine.execTickReport p h window count s
  | .leapLower => Sys2Proof.Machine.execLeapLower s
  | .peerDelaySend p => Sys2Proof.Machine.execPeerDelaySend p s
  | .peerDelayRequest p h number received => Sys2Proof.Machine.execPeerDelayRequest p h number received s
  | .peerDelayResponse p h number t2 t3 t4 => Sys2Proof.Machine.execPeerDelayResponse p h number t2 t3 t4 s
  | .holdoverEntry => Sys2Proof.Machine.execHoldoverEntry s
  | .almanacLost => Sys2Proof.Machine.execAlmanacLost s
  | .eraBoundary => Sys2Proof.Machine.execEraBoundary s
  | .tickWrapEraChange => Sys2Proof.Machine.execTickWrapEraChange s
  | .joinAnnounce => Sys2Proof.Machine.execJoinAnnounce s
  | .electionStart => Sys2Proof.Machine.execElectionStart s
  | .proclamationSend => Sys2Proof.Machine.execProclamationSend s
  | .proclamation p h b => Sys2Proof.Machine.execProclamation p h b s
  | .becomeMaster => Sys2Proof.Machine.execBecomeMaster s
  | .eraFrame p h b => Sys2Proof.Machine.execEraFrame p h b s
  | .eraFramePeriodic => Sys2Proof.Machine.execEraFramePeriodic s
  | .topologyForm => Sys2Proof.Machine.execTopologyForm s
  | .topologyMissing => Sys2Proof.Machine.execTopologyMissing s
  | .helloSend p => Sys2Proof.Machine.execHelloSend p s
  | .hello p h b => Sys2Proof.Machine.execHello p h b s
  | .linkReport p h b => Sys2Proof.Machine.execLinkReport p h b s
  | .topologySegment p h b => Sys2Proof.Machine.execTopologySegment p h b s
  | .joinRequest p h b => Sys2Proof.Machine.execJoinRequest p h b s
  | .memberLost p h member => Sys2Proof.Machine.execMemberLost p h member s
  | .childAttach p h => Sys2Proof.Machine.execChildAttach p h s
  | .duplicateNotice p h serial => Sys2Proof.Machine.execDuplicateNotice p h serial s
  | .chunkSegment p h payload => Sys2Proof.Machine.execChunkSegment p h payload s
  | .ack p h => Sys2Proof.Machine.execAck p h s
  | .reAsk p h reason missing => Sys2Proof.Machine.execReAsk p h reason missing s
  | .reasmTimeout p stream handle seq => Sys2Proof.Machine.execReasmTimeout p stream handle seq s
  | .ackTimeout p stream handle seq => Sys2Proof.Machine.execAckTimeout p stream handle seq s
  | .slipNotice p h tick group count => Sys2Proof.Machine.execSlipNotice p h tick group count s
  | .exponentNotice p h group bucket exponent => Sys2Proof.Machine.execExponentNotice p h group bucket exponent s
  | .grant p h limit => Sys2Proof.Machine.execGrant p h limit s
  | .adopt p h first => Sys2Proof.Machine.execAdopt p h first s
  | .adoptReply p h first accepted => Sys2Proof.Machine.execAdoptReply p h first accepted s
  | .abort p h status => Sys2Proof.Machine.execAbort p h status s
  | .handoffBegin p h first positions firstLayer layersM1 bppUnits format => Sys2Proof.Machine.execHandoffBegin p h first positions firstLayer layersM1 bppUnits format s
  | .handoffReply p h status limit => Sys2Proof.Machine.execHandoffReply p h status limit s
  | .handoffGrant p h limit => Sys2Proof.Machine.execHandoffGrant p h limit s
  | .handoffDone p h status => Sys2Proof.Machine.execHandoffDone p h status s
  | .credit p h limits => Sys2Proof.Machine.execCredit p h limits s
  | .creditSend p => Sys2Proof.Machine.execCreditSend p s
  | .creditSyncSend p => Sys2Proof.Machine.execCreditSyncSend p s
  | .creditSync p h sent => Sys2Proof.Machine.execCreditSync p h sent s
  | .laneSwap p h kind lane swapTick => Sys2Proof.Machine.execLaneSwap p h kind lane swapTick s
  | .macControlFrame p => Sys2Proof.Machine.execMacControlFrame p s
  | .fcsErrorFrame p badFcs => Sys2Proof.Machine.execFcsErrorFrame p badFcs s
  | .portUp p rate limits => Sys2Proof.Machine.execPortUp p rate limits s
  | .portDown p => Sys2Proof.Machine.execPortDown p s
  | .laneSignalLoss p lane peerSpareFree => Sys2Proof.Machine.execLaneSignalLoss p lane peerSpareFree s
  | .laneDegraded p lane => Sys2Proof.Machine.execLaneDegraded p lane s
  | .laneSwapExecute p => Sys2Proof.Machine.execLaneSwapExecute p s
  | .quadSettled q => Sys2Proof.Machine.execQuadSettled q s
  | .tapEntryTake => Sys2Proof.Machine.execTapEntryTake s
  | .intervalEnd => Sys2Proof.Machine.execIntervalEnd s
  | .islandBoot checksPass => Sys2Proof.Machine.execIslandBoot checksPass s
  | .islandSupplyLoss => Sys2Proof.Machine.execIslandSupplyLoss s
  | .islandDebugAccess => Sys2Proof.Machine.execIslandDebugAccess s
  | .sealFuseBlow => Sys2Proof.Machine.execSealFuseBlow s
  | .clockAnomaly deviation => Sys2Proof.Machine.execClockAnomaly deviation s
  | .brownHoldEntry vcoreMv => Sys2Proof.Machine.execBrownHoldEntry vcoreMv s
  | .requalificationStart vcoreMv => Sys2Proof.Machine.execRequalificationStart vcoreMv s
  | .requalificationComplete => Sys2Proof.Machine.execRequalificationComplete s
  | .brownHoldResume failed => Sys2Proof.Machine.execBrownHoldResume failed s
  | .brownoutReset => Sys2Proof.Machine.execBrownoutReset s
  | .powerReset aonLost => Sys2Proof.Machine.execPowerReset aonLost s
  | .fundamentalReset => Sys2Proof.Machine.execFundamentalReset s
  | .deviceReset => Sys2Proof.Machine.execDeviceReset s
  | .startup b => Sys2Proof.Machine.execStartup b s
  | .sequenceError => Sys2Proof.Machine.execSequenceError s
  | .thermalCompare readings => Sys2Proof.Machine.execThermalCompare readings s
  | .thermalTrip => Sys2Proof.Machine.execThermalTrip s
  | .sensorTimeout sensor => Sys2Proof.Machine.execSensorTimeout sensor s
  | .clockLockLoss domain => Sys2Proof.Machine.execClockLockLoss domain s
  | .tickLogicFault => Sys2Proof.Machine.execTickLogicFault s
  | .hostLinkDown => Sys2Proof.Machine.execHostLinkDown s
  | .hostLinkUp width speed flit cxl hdm => Sys2Proof.Machine.execHostLinkUp width speed flit cxl hdm s
  | .engineParityError tile engine => Sys2Proof.Machine.execEngineParityError tile engine s
  | .tileFailure tile => Sys2Proof.Machine.execTileFailure tile s
  | .tileCopyDone logical => Sys2Proof.Machine.execTileCopyDone logical s
  | .tileSwitch logical => Sys2Proof.Machine.execTileSwitch logical s
  | .bankRepair tile bank => Sys2Proof.Machine.execBankRepair tile bank s
  | .hbmRowRepair stack detail => Sys2Proof.Machine.execHbmRowRepair stack detail s
  | .pageRetire stack page => Sys2Proof.Machine.execPageRetire stack page s
  | .backgroundTask unit overdue passed => Sys2Proof.Machine.execBackgroundTask unit overdue passed s
  | .uncorrectableEcc address => Sys2Proof.Machine.execUncorrectableEcc address s
  | .breakpointHit core slot pc => Sys2Proof.Machine.execBreakpointHit core slot pc s
  | .clockLockRegained domain => Sys2Proof.Machine.execClockLockRegained domain s
  | .metRecRead offset => Sys2Proof.Machine.execMetRecRead offset s
  | .unlistedFrameType p => Sys2Proof.Machine.execUnlistedFrameType p s

end Sys2Proof.Machine
end

