-- ==== Sys2Proof/WellFormed.lean ====
section
/-!
DEFINITION. The checks on a command as syntax: the operands that a row of the opcode table can stand for
at all. `exec` is total and does not rely on them; statements about the queue do.
-/
namespace Sys2Proof

open Sys2Proof.Machine

/-- The opcode is one of Tables 5-6 to 5-12. -/
def knownOpcode (op : BitVec 16) : Bool :=
  let a := op.toNat / 256
  let b := op.toNat % 256
  1 ≤ b && ((a = 1 && b ≤ 12) || (a = 2 && b ≤ 3) || (a = 3 && b ≤ 5) || (a = 4 && b ≤ 5) || (a = 5 && b ≤ 7) || (a = 6 && b ≤ 5))

/-- A store of host software lies in the BAR2 ring area or below the top of the device address space
(Table 5-1, R662). -/
def HostStore.wf (x : HostStore) : Bool :=
  if x.bar2 then 0x10_0000 ≤ x.addr && x.addr < 0x100_0000 else hostBase + x.addr < deviceTop

/-- A NAME_LO register, whose read latches its upper half (R18). -/
def isLatching (o : Nat) : Bool := (regOfOffset o).any fun r => (latchOf r).isSome

/-- A counter that a read clears (R20). -/
def isReadClear (o : Nat) : Bool := (regOfOffset o).any isRc

/-- An access that is not a naturally aligned 32-bit access (R14). -/
def isMisaligned (o size : Nat) : Bool := [1, 2, 4, 8].contains size && !(size = 4 && o % 4 = 0)

/-- What start-up finds names stacks and tiles that exist. -/
def BootInputs.wf (b : BootInputs) : Bool := b.hbmFailed.all (· < 6) && b.tilesFailed.all (· < 68)
  && b.banksFailed.all fun e => decide (e.1 < 68) && decide (e.2 < 48)

/-- One host request carries 1 to 4,096 bytes (R663). -/
def requestLength (n : Nat) : Bool := 0 < n && n ≤ 4096

/-- A command as one of the rows of the opcode table. -/
def Instr.wf : Instr → Bool
  | .unknownOpcode _ _ op => !knownOpcode op
  | .submissionTailDoorbell _ _ stores => stores.all HostStore.wf
  | .loReadLatch o => isLatching o.toNat
  | .rcCounterRead o => isReadClear o.toNat
  | .bar0Misaligned _ o size => isMisaligned o.toNat size
  | .metRecRead o => o.toNat % 4 = 0
  | .bar4Read _ n => requestLength n
  | .bar4Write _ bs => requestLength bs.length
  | .windowWrite _ bs => requestLength bs.length
  | .birsp _ dirty => dirty.all fun bs => bs.length = 64
  | .chunkSegment _ _ bs => bs.length < 16384
  | .startup b => b.wf
  | _ => true

/-- A command of a submission entry: an unknown opcode is none that the tables define. -/
def Cmd.wf : Cmd → Bool
  | .unknown op => !knownOpcode op
  | _ => true

end Sys2Proof
end

