-- ==== Sys2Proof/Safety.lean ====
section
/-!
DEFINITION. The words in which statements speak of a step: the state once everything that follows from an
effect has come about, a device with nothing in progress, a command that may start, a frame that is taken.
-/
namespace Sys2Proof.Machine

/-- The state that an effect leaves: `d` with all that follows from it at once (commands whose wait is
over, chunks that can advance, readiness), and the interrupts that rose against `s` (R668). -/
def settled (s : State) (d : Dev) : State := { s with dev := raiseInts s.dev (wake d) }

/-- Nothing is in progress: no command, chunk of work, group or watch copy. -/
def Quiet (d : Dev) : Prop := d.running = [] ∧ d.work = [] ∧ d.groups = [] ∧ d.dbg.copying = [] ∧ d.rpr.held = []

/-- Every memory the device holds is in its canonical form. -/
def MemoriesWf (d : Dev) : Prop := d.mem.wf = true ∧ d.bar2.wf = true ∧ d.kvs.staging.wf = true

/-- Every command that waits is a row of the opcode table with operands that the row admits. -/
def QueueWf (s : State) : Prop := ∀ c ∈ s.pending, c.wf = true

/-! ### A command of the opcode tables -/

/-- The device once the command's entry is written, covered by a doorbell and fetched (R218, R221). -/
def taken (d : Dev) (n : Mbx) : Dev :=
  withMbx d n fun m => { m with sqTail := m.next m.sqTail, sqHead := m.next m.sqHead, fetched := [] }

/-- The entry can be fetched and is not held back: the mailbox is enabled, takes entries, and nothing waits
in front (R36, R221, R243, R244, R249). -/
def Fetchable (d : Dev) (n : Mbx) (h : Hdr) (c : Cmd) : Prop :=
  canIssue d n = true ∧ (mailbox d n).fetched = [] ∧ heldBack d n ⟨h, c, cmdReserved h c, inGuard d⟩ = false

/-- The first of the checks of R242 that the command fails. -/
def startCheck (d : Dev) (n : Mbx) (h : Hdr) (c : Cmd) : Option Status :=
  startFault (taken d n) (mbxCaller (taken d n) n h) c (cmdReserved h c)

/-- The command starts: it is fetched and passes every check of R242. -/
def Issued (d : Dev) (n : Mbx) (h : Hdr) (c : Cmd) : Prop := Fetchable d n h c ∧ startCheck d n h c = none

/-- The device as the command's own start finds it: the entry is taken, the command begin record is formed
and the watches that match have fired (Table 15-4, R646). -/
def begun (d : Dev) (n : Mbx) (h : Hdr) (c : Cmd) : Dev :=
  matchWatches (traceBegin (taken d n) n (mailbox d n).label h c) d.nextId h c

/-- The command starts on `d`, and its own start finds `e`. -/
def Begins (d : Dev) (n : Mbx) (h : Hdr) (c : Cmd) (e : Dev) : Prop := Issued d n h c ∧ e = begun d n h c

/-- A command that started on `d` has completed at once with this status, its effect `e`: the chunks it has formed
carry the guard, if any, in which it was rung (R71). -/
def ended (d e : Dev) (n : Mbx) (h : Hdr) (c : Cmd) (status : Status) (res : BitVec 96) : Dev :=
  endCommand { stampNew d e (inGuard d) with nextId := d.nextId + 1 } n (mailbox d n).label h c status res

/-- A command that started on `d` has completed at once with status 0x0000, its effect `e`. -/
def completed (d e : Dev) (n : Mbx) (h : Hdr) (c : Cmd) (res : BitVec 96) : Dev := ended d e n h c 0 res

/-- A command that started on `d` is in progress as `r`, with what its start did, `e`. -/
def started (d e : Dev) (r : Running) : Dev :=
  { stampNew d e (inGuard d) with running := e.running ++ [{ r with rung := inGuard d }], nextId := d.nextId + 1 }

/-- A command that fails a check of R242 completes with the status and has no effect. -/
def refused (d : Dev) (n : Mbx) (h : Hdr) (c : Cmd) (status : Status) : Dev :=
  endCommand (taken d n) n (mailbox d n).label h c status 0

/-! ### A received frame -/

/-- A frame of this channel and type is taken: the port is up, the header is well formed, the body fits,
the channel's limit covers the frame, and its era is accepted on VC1 and VC2 (R334, R346, R350, R362, R378). -/
def Accepted (d : Dev) (p : Port) (vc : BitVec 2) (type : Byte) (h : LysHdr) : Prop :=
  ((portAt d p).state = 2 ∨ (portAt d p).state = 3) ∧ h.malformed = false ∧ h.length.toNat ≤ 8192
    ∧ (takesCredit type = true →
      notPast ((portAt d p).received[vcFin vc] + BitVec.ofNat 30 (frameUnits h.length.toNat)) (portAt d p).advertised[vcFin vc] = true)
    ∧ ((vc = 1 ∨ vc = 2) → eraAccepted (arrive d p vc type h) h.era = true)

end Sys2Proof.Machine
end

