-- ==== Sys2Proof/Certificates/Slice0/Obligations.lean ====
section
/-!
DEFINITION. The statements for the provers. `settled s d` is the state that the effect `d` leaves; `begun`,
`completed`, `started`, `refused` and `Issued` speak of the start and the end of a mailbox command; `Accepted`
of a received frame (Safety.lean).
-/

open Sys2Proof Sys2Proof.Machine

/-! ### The queue and the step -/

/-- A step runs the command in front of the queue on the rest of it, and with none waiting lets one
CLK_TICK cycle pass (log 1, the model's choice). -/
def Obligations.StepRunsFrontCommand : Prop :=
  (∀ (c : Instr) (rest : List Instr) (s : State), s.pending = c :: rest → step s = exec c { s with pending := rest })
  ∧ ∀ s : State, s.pending = [] → step s = .next (settled s (idleTick s.dev))

/-- No command touches the queue: what a step leaves waiting is what stood behind the command it ran; so a queue of
well-formed commands stays one. -/
def Obligations.QueueIsFirstInFirstOut : Prop :=
  (∀ (c : Instr) (s t : State), exec c s = .next t → t.pending = s.pending)
  ∧ (∀ s t : State, step s = .next t → t.pending = s.pending.tail)
  ∧ (∀ s t : State, QueueWf s → step s = .next t → QueueWf t)

/-- Every command completes in every state: none ends in a fault or a refusal. An aligned offset of BAR0 at which no
register stands takes no write and reads as 0 (R16). -/
def Obligations.EveryCommandCompletes : Prop :=
  (∀ (c : Instr) (s : State), ∃ t, exec c s = .next t)
  ∧ (∀ (o : BitVec 26) (w : Word) (s : State), bar0Open s.dev = true → o.toNat % 4 = 0 → regOfOffset o.toNat = none →
      let zero := settled s (putRead s.dev (zeros 4) false)
      exec (.registerWrite o w) s = .next s ∧ exec (.loReadLatch o) s = .next zero ∧ exec (.rcCounterRead o) s = .next zero)

/-- The state after reset: nothing waits, the main die is held in reset, memory lists nothing, and every
memory and the queue have their form. -/
def Obligations.ResetMeetsInvariants : Prop :=
  State.reset.pending = [] ∧ QueueWf State.reset ∧ MemoriesWf State.reset.dev ∧ Quiet State.reset.dev
  ∧ State.reset.dev.pwr.inReset = true ∧ State.reset.dev.mem = [] ∧ State.reset.dev.bar2 = []

/-! ### Entries of the submission ring -/

/-- Every command entry reads back as what was written: no operand bit of Tables 5-3 and 5-6 to 5-12 is
dropped, and no reserved bit appears. An entry is 64 bytes, its opcode in bytes 0 and 1 (Table 5-3). -/
def Obligations.EntryRoundTrip : Prop :=
  (∀ (h : Hdr) (c : Cmd), c.wf = true → decodeEntry (encodeEntry h c) = ⟨h, c, false, none⟩)
  ∧ (∀ (h : Hdr) (c : Cmd), (encodeEntry h c).length = 64 ∧ field (encodeEntry h c) 0 2 = (cmdOpcode c).toNat)

/-! ### What follows from an effect -/

/-- With nothing in progress, what an effect leaves is `d` itself, but for readiness and the messages of the
interrupts that rose: messages sent, and messages pending of masked vectors. -/
def Obligations.QuietEffectIsAll : Prop :=
  ∀ (s : State) (d : Dev), Quiet d →
    ∃ (sent : List Byte) (waiting : BitVec 256),
      let e := checkReady d
      (settled s d).dev = { e with
        bus := { e.bus with msi := e.bus.msi ++ sent }
        glb := { e.glb with msixPending := e.glb.msixPending ||| waiting } }

/-! ### Commands of Table 5-6 -/

/-- SET_SEED sets the key; SET_PLACEMENT changes the mode bits it names and waits for those whose active bit
differs; SET_TICK with legal operands asks for an era change and waits for its announcement. INIT sizes the Annals
carve-out and initialises a device with 32 active tiles or more; FW_UPDATE keeps an image that is authentic;
REPAIR_APPROVE takes a posted request down and schedules or declines the repair. -/
def Obligations.SettingsAndDeviceCommandsRun : Prop :=
  (∀ (s : State) (n : Mbx) (h : Hdr) (seed : BitVec 128) (e : Dev), Begins s.dev n h (.setSeed seed) e →
    exec (.setSeed n h seed) s = .next (settled s (completed s.dev { e with seed := some seed } n h (.setSeed seed) 0)))
  ∧ (∀ (s : State) (n : Mbx) (h : Hdr) (mask value : BitVec 10) (e : Dev), Begins s.dev n h (.setPlacement mask value) e →
    let wait := mask &&& (value ^^^ e.fpl.active)
    let d := writeMode e ((e.fpl.mode &&& ~~~mask) ||| (value &&& mask))
    exec (.setPlacement n h mask value) s = .next (settled s
      (if wait = 0 then completed s.dev d n h (.setPlacement mask value) 0
        else started s.dev d (newRunning d (mbxCaller s.dev n h) (.setPlacement mask value) (.placement wait)))))
  ∧ (∀ (s : State) (n : Mbx) (h : Hdr) (period : BitVec 16) (floor holiday : BitVec 8) (e : Dev), Begins s.dev n h (.setTick period floor holiday) e →
    let q := requestChange e ⟨0, period.truncate 10, holiday.truncate 3, floor.truncate 4⟩
    2 ≤ period.toNat → period.toNat ≤ 1000 → floor.toNat ≤ 8 → holiday.toNat ≤ 6 →
    exec (.setTick n h period floor holiday) s = .next (settled s
      (started s.dev q.1 { newRunning q.1 (mbxCaller s.dev n h) (.setTick period floor holiday) .eraChange with chunks := q.2 })))
  ∧ (∀ (s : State) (n : Mbx) (h : Hdr) (annals : Word) (size : Nat) (e : Dev), Begins s.dev n h (.init annals) e →
    let d := placeAnnals e size
    e.glb.initialised = false → annalsSize annals = some size → 32 ≤ activeCount d →
    let d := postRequests 16 (withGlb d fun g => { g with initialised := true })
    exec (.init n h annals) s = .next (settled s
      (completed s.dev d n h (.init annals) (result [(20, 2, d.join.member.toNat), (22, 1, d.join.position.toNat), (23, 1, activeCount d)]))))
  ∧ (∀ (s : State) (n : Mbx) (h : Hdr) (address : BitVec 48) (length : Word) (e : Dev), Begins s.dev n h (.fwUpdate address length) e →
    let bs := load e address.toNat length.toNat
    0 < length.toNat → length.toNat ≤ 15 * mib → sourceFault e address.toNat length.toNat = none →
    exec (.fwUpdate n h address length) s = .next (settled s
      (if Config.imageAuthentic bs then completed s.dev (withFlash e fun f => { f with image := bs }) n h (.fwUpdate address length) 0
        else refused s.dev n h (.fwUpdate address length) 0x0306)))
  ∧ (∀ (s : State) (n : Mbx) (h : Hdr) (request : Word) (decision : BitVec 8) (i : Fin 16) (q : RepairReq) (e : Dev), Begins s.dev n h (.repairApprove request decision) e →
    let clear := fun (o : Option RepairReq) => if o = some q then none else o
    let d := withRpr e fun x => { x with posted := vmap clear x.posted }
    hostMode e 7 = true → decision.toNat ≤ 1 → e.rpr.posted[i] = some q → q.id = request →
    (∀ j : Fin 16, ∀ p, e.rpr.posted[j] = some p → p.id = request → p = q) →
    exec (.repairApprove n h request decision) s = .next (settled s
      (completed s.dev (postRequests 16 (if decision = 0 then scheduleRepair d q
        else withRpr d fun x => { x with declined := x.declined ++ [q] })) n h (.repairApprove request decision) 0)))

/-- BIND_TENANT binds or unbinds a mailbox that is not enabled, and sets the admin mailbox's acting label;
ALLOC takes the lowest run that fits under the lowest free handle; FREE drops an allocation nothing holds. -/
def Obligations.TenancyCommandsRun : Prop :=
  (∀ (s : State) (n m : Mbx) (h : Hdr) (mailbox label : BitVec 8) (unbind : Bool) (e : Dev), Begins s.dev n h (.bindTenant mailbox label unbind) e →
    mailbox.toNat = m.val → m.val < 64 → e.mbx[m].enabled = false →
    (unbind = true ∨ openRefuses e label = false) →
    exec (.bindTenant n h mailbox label unbind) s = .next (settled s
      (completed s.dev (withMbx e m fun x => { x with bound := !unbind, label := if unbind then 0 else label }) n h (.bindTenant mailbox label unbind) 0)))
  ∧ (∀ (s : State) (n : Mbx) (h : Hdr) (label : BitVec 8) (e : Dev), Begins s.dev n h (.bindTenant 64 label false) e →
    exec (.bindTenant n h 64 label false) s = .next (settled s
      (completed s.dev (withMbx (e) 64 fun x => { x with label := label }) n h (.bindTenant 64 label false) 0)))
  ∧ (∀ (s : State) (n : Mbx) (h : Hdr) (label memory : BitVec 8) (size : BitVec 64) (a k : Nat) (e : Dev), Begins s.dev n h (.alloc label memory size) e →
    memory.toNat ≤ 1 → 0 < size.toNat → size.toNat % 65536 = 0 →
    lowestRun (busyRanges e (memory = 1)) (memory = 1) size.toNat 65536 = some a →
    lowestFree e.allocs 0 (e.allocs.length + 1) = some k →
    exec (.alloc n h label memory size) s = .next (settled s
      (completed s.dev { e with allocs := assocSet k ⟨label, memory = 1, a, size.toNat⟩ e.allocs } n h (.alloc label memory size)
        (result [(20, 4, k), (24, 6, a)]))))
  ∧ (∀ (s : State) (n : Mbx) (h : Hdr) (allocation : Word) (a : Alloc) (e : Dev), Begins s.dev n h (.free allocation) e →
    assoc allocation.toNat e.allocs = some a → allocHeld e allocation.toNat a = false →
    exec (.free n h allocation) s = .next (settled s
      (completed s.dev { e with
        allocs := assocDel allocation.toNat e.allocs
        resStores := e.resStores.filter fun x => !(a.addr ≤ resKey x.desc && resKey x.desc < a.addr + a.size) } n h (.free allocation) 0)))

/-! ### Descriptors and owner tables (Table 5-7) -/

/-- The table of owners that a descriptor image names, if it is loaded. -/
def imageTable (e : Dev) (bs : List Byte) : Option OwnerTable := assoc (field bs 56 2 % 1024) e.owners

/-- The descriptor that an image of 64 bytes makes on this device. -/
def imageMade (e : Dev) (label : Byte) (bs : List Byte) : Desc :=
  imageDesc bs label e.join.member ((imageTable e bs).elim [] fun t => blocksOf t e.join.member) ((imageTable e bs).elim 1 fun t => t.block)

/-- CREATE_DESC of an image that passes the checks of section 4.1 takes the lowest free handle; DESTROY_DESC
ends at once where nothing uses the descriptor, and waits for its uses otherwise; LOAD_OWNERS of no entries
empties the table, and of entries fills it. -/
def Obligations.DescriptorCommandsRun : Prop :=
  (∀ (s : State) (n : Mbx) (h : Hdr) (address : BitVec 48) (e : Dev) (j : Nat) (a : Alloc), Begins s.dev n h (.createDesc address) e →
    let cl := mbxCaller s.dev n h
    let bs := load e address.toNat 64
    let k := imageMade e cl.label bs
    sourceFault e address.toNat 64 = none → lowestFree e.descs 0 65536 = some j →
    fmtDefined k.fmt = true → 1 ≤ k.rk → k.rk ≤ 6 → encodingOk bs k = true → k.count ≤ 2 ^ 40 → stridesOk k = true →
    (k.transpose = true → 2 ≤ k.rk ∧ mayTranspose k.fmt = true) →
    (k.ownerValid = true → ∃ t, imageTable e bs = some t ∧ cl.may t.label = true ∧ t.poisoned = false ∧ tableFits k t = true) →
    assoc k.allocation.toNat e.allocs = some a → cl.may a.label = true → k.base.toNat + k.reach ≤ a.size →
    exec (.createDesc n h address) s = .next (settled s
      (completed s.dev { e with descs := assocSet j { k with start := a.addr } e.descs } n h (.createDesc address) (result [(20, 2, j)]))))
  ∧ (∀ (s : State) (n : Mbx) (h : Hdr) (k : BitVec 16) (e : Dev) (x : Desc), Begins s.dev n h (.destroyDesc k) e →
    bucketHolds e k = false → descOf e k = some x →
    exec (.destroyDesc n h k) s = .next (settled s
      (if descInUse e k then
          started s.dev (withDesc e k fun x => { x with destroying := true })
            (newRunning e (mbxCaller s.dev n h) (.destroyDesc k) (.descUses k))
        else completed s.dev (dropDesc e k) n h (.destroyDesc k)
          (result [(20, 4, x.filled.toNat), (24, 4, x.dropped.toNat)]))))
  ∧ (∀ (s : State) (n : Mbx) (h : Hdr) (table : BitVec 16) (source : BitVec 48) (e : Dev), Begins s.dev n h (.loadOwners table source) e →
    let t := table.toNat
    let a := source.toNat
    let head := load e a 16
    let count := field head 0 4
    let block := field head 4 4
    let entries := (List.range count).map fun i => field (load e (a + 16 + 2 * i) 2) 0 2
    t < 1024 → (∀ x, assoc t e.owners = some x → (mbxCaller s.dev n h).may x.label = true ∧ (x.poisoned = false ∨ count = 0)) →
    sourceFault e a 16 = none → count ≤ 65536 → 1 ≤ block → block ≤ 2 ^ 24 → field head 8 8 = 0 →
    (0 < count → sourceFault e (a + 16) (2 * count) = none) → (∀ x ∈ entries, x < 4096) →
    ownerEntries e t + count ≤ 0x10_0000 → (e.descs.any fun x => x.2.ownerValid && x.2.owner.toNat = t) = false →
    let kept := if count = 0 then assocDel t e.owners
      else assocSet t ⟨(mailbox s.dev n).label, block, entries.map (BitVec.ofNat 12 ·), false⟩ e.owners
    exec (.loadOwners n h table source) s = .next (settled s
      (completed s.dev { e with owners := kept } n h (.loadOwners table source) 0)))

/-! ### Compression (Table 5-9) -/

/-- A compress command on its own, in progress: its chunks run in the mailbox's sequence (R69, R154). -/
def compressStarted (d e : Dev) (n : Mbx) (h : Hdr) (c : Cmd) (comp : Nat) (o : CompressOps) : Dev :=
  let chunks := (commandChunks e comp o standaloneSize).getD []
  let t := touchStore e e.fpl.active o.residual
  let r := newRunning e (mbxCaller d n h) c (turnOr e (mbxCaller d n h) c)
  started d (standaloneWorks t n e.nextId (chunks.map .compress)) { r with table := tableCopy t o, chunks := chunks.length }

/-- The output of a compress command takes the worst parcel, or drops what lies outside. -/
def OutputHolds (e : Dev) (comp : Nat) (o : CompressOps) : Prop :=
  ∀ k, optDesc e o.output = some k → k.errorMode = true →
    parcelWorst e comp o ((commandChunks e comp o standaloneSize).getD []) ≤ k.imageLen

/-- TOPK, QUANT and LOWRANK that pass their own checks cut their input into chunks and go on; RESIDUAL_FLUSH between
two tensors of one format and count is one step of work, or waits behind another command on its bucket; MASK_GEN works through its elements in chunks. -/
def Obligations.CompressCommandsStart : Prop :=
  (∀ (s : State) (n : Mbx) (h : Hdr) (o : CompressOps) (e : Dev),
      (Begins s.dev n h (.topk o) e → o.compressor.toNat = cTopk → compressFault e (.topk o) h cTopk o standaloneSize = none →
        OutputHolds e cTopk o → exec (.topk n h o) s = .next (settled s (compressStarted s.dev e n h (.topk o) cTopk o)))
      ∧ (Begins s.dev n h (.quant o) e → o.compressor.toNat = cQuant → compressFault e (.quant o) h cQuant o standaloneSize = none →
        OutputHolds e cQuant o → exec (.quant n h o) s = .next (settled s (compressStarted s.dev e n h (.quant o) cQuant o)))
      ∧ (Begins s.dev n h (.lowrank o) e → o.compressor.toNat = cLowrank → compressFault e (.lowrank o) h cLowrank o standaloneSize = none →
        OutputHolds e cLowrank o → exec (.lowrank n h o) s = .next (settled s (compressStarted s.dev e n h (.lowrank o) cLowrank o))))
  ∧ (∀ (s : State) (n : Mbx) (h : Hdr) (b : BitVec 8) (fromBucket : Bool) (source destination k : BitVec 16) (x y : Desc) (e : Dev),
    Begins s.dev n h (.residualFlush b fromBucket source destination) e →
    (if fromBucket then assoc b.toNat e.bucketStores = some k else k = source) →
    descOf e k = some x → descOf e destination = some y → x.lowView = false → y.lowView = false → resFormat x = true → y.fmt = x.fmt → y.count = x.count →
    errorOob x = false → errorOob y = false →
    let c := Cmd.residualFlush b fromBucket source destination
    exec (.residualFlush n h b fromBucket source destination) s = .next (settled s
      (if bucketWait e e.nextId c then started s.dev e (newRunning e (mbxCaller s.dev n h) c .turn)
        else started s.dev (standaloneWorks e n e.nextId [.flush])
          { newRunning e (mbxCaller s.dev n h) c (turnOr e (mbxCaller s.dev n h) c) with chunks := 1 })))
  ∧ (∀ (s : State) (n : Mbx) (h : Hdr) (output threshold : BitVec 16) (step : Word) (random : BitVec 16) (k : Desc) (e : Dev),
    Begins s.dev n h (.maskGen output threshold step random) e →
    let c := Cmd.maskGen output threshold step random
    descOf e output = some k → lowFault e c = none → k.fmt = fINT8 → oobFault e c = none →
    drawFault e (optDesc e random) (some (8 * k.count)) = none →
    let chunks := ceilDiv k.count standaloneSize
    let jobs := (List.range chunks).map fun i => Job.mask (standaloneSize * i) (min standaloneSize (k.count - standaloneSize * i))
    exec (.maskGen n h output threshold step random) s = .next (settled s
      (started s.dev (standaloneWorks e n e.nextId jobs)
        { newRunning e (mbxCaller s.dev n h) c .work with chunks := chunks })))

/-! ### Collectives (Table 5-10) -/

/-- LOAD_TREE keeps a legal tree in the store; OPEN_GROUP opens the group with its neighbours, its slots free;
CLOSE_GROUP closes an idle group at once and waits for a busy one. -/
def Obligations.GroupCommandsRun : Prop :=
  (∀ (s : State) (n : Mbx) (h : Hdr) (source : BitVec 48) (count : BitVec 16) (e : Dev), Begins s.dev n h (.loadTree source count) e →
    let g := h.handle.toNat
    let raw := (List.range count.toNat).map fun i => load e (source.toNat + 8 * i) 8
    let t := raw.map treeEntryOf
    g < 256 → 2 ≤ count.toNat → count.toNat ≤ 4096 → groupOf e g = none → sourceFault e source.toNat (8 * count.toNat) = none →
    raw.any treeReserved = false → treeOk t = true →
    ((e.trees.filter fun x => x.1 != g).map fun x => x.2.length).foldl (· + ·) 0 + count.toNat ≤ treeStoreSize →
    exec (.loadTree n h source count) s = .next (settled s
      (completed s.dev { e with trees := assocSet g t e.trees } n h (.loadTree source count) 0)))
  ∧ (∀ (s : State) (n : Mbx) (h : Hdr) (members : BitVec 16) (slots size : BitVec 8) (t : List TreeEntry) (me : TreeEntry)
      (ns : List Nbr) (a : Nat) (e f : Dev), Begins s.dev n h (.openGroup members slots size) e →
    let g := h.handle.toNat
    let down := childrenOf t e.join.member
    g < 256 → 2 ≤ members.toNat → members.toNat ≤ 4096 → 2 ≤ slots.toNat → slots.toNat ≤ 16 → size.toNat ≤ 6 →
    groupOf e g = none → e.groups.length < 256 → treeFor e g members.toNat = some t → treeFind t e.join.member = some me →
    t.length = members.toNat → (∀ x ∈ t, x.member ∈ e.join.members) →
    nbrsOf e ((if me.root then [] else [me.parent]) ++ down) = some ns →
    holdRun e g false (slots.toNat * (down.length + 1) * (4096 * 2 ^ size.toNat)) 64 = some (a, f) →
    let group : Group := {
      label := (mailbox s.dev n).label, opener := n, slotsS := slots, sizeCode := size, tree := t, derived := !hostMode f 3,
      level := (levelIn t 12 f.join.member).getD 0, parent := if me.root then none else (ns.map (earlyGrant f g)).head?,
      children := if me.root then ns.map (earlyGrant f g) else (ns.map (earlyGrant f g)).tail, nextSeq := 0, slots := [], slip := 0, stalled := false, faulted := none,
      received := [], slipSeen := [], adopting := none, granted := 0 }
    exec (.openGroup n h members slots size) s = .next (settled s
      (completed s.dev (forgetOnPorts (forgetGrants { f with groups := assocSet g group f.groups } g) false (BitVec.ofNat 16 g)) n h
        (.openGroup members slots size) 0)))
  ∧ (∀ (s : State) (n : Mbx) (h : Hdr) (e : Dev), Begins s.dev n h .closeGroup e →
    let g := h.handle.toNat
    bucketOn e g = false →
    exec (.closeGroup n h) s = .next (settled s
      (if groupBusy e g then started s.dev e (newRunning e (mbxCaller s.dev n h) .closeGroup .groupIdle)
        else completed s.dev (closeGroup e g) n h .closeGroup 0)))

/-- A broadcast's operands fit one another and the member's part in it: the tensors have one shape, each end
that is needed is named, and none that is touched reports accesses outside it. -/
def BcastFits (e : Dev) (g : Group) (src dst : BitVec 16) (fromOwners : Bool) : Prop :=
  (if fromOwners then ∃ t, bcastTable e src = some t ∧ (dst ≠ unused ∨ ∀ x ∈ t.owners, x = e.join.member)
    else if g.parent.isNone then src ≠ unused else dst ≠ unused)
  ∧ (∀ s t, optDesc e src = some s → optDesc e dst = some t → bcastShapes s t = true)
  ∧ (fromOwners = false → g.parent = none → ∀ s, optDesc e src = some s → errorOob s = false)
  ∧ (∀ t, optDesc e dst = some t → errorOob t = false)
  ∧ bcastPoisoned e src (bcastParts e g src dst fromOwners) = false

/-- The result of a reduction has the shape of its input. -/
def ReduceShapes (e : Dev) (o : CompressOps) : Prop :=
  ∃ i, descOf e o.input = some i ∧ ∀ k, optDesc e o.output = some k → k.count = i.count ∧ k.rowLen = i.rowLen

/-- BCAST and REDUCE_TO_ONE on an open group that has not faulted, with operands that fit, take a run of the
group's sequence and go on (R385, R403). -/
def Obligations.CollectiveCommandsStart : Prop :=
  (∀ (s : State) (n : Mbx) (h : Hdr) (src dst : BitVec 16) (fromOwners : Bool) (g : Group) (e : Dev),
    Begins s.dev n h (.bcast src dst fromOwners) e → groupOf e h.handle.toNat = some g → g.faulted = none →
    BcastFits e g src dst fromOwners →
    let parts := bcastParts e g src dst fromOwners
    exec (.bcast n h src dst fromOwners) s = .next (settled s
      (started s.dev (groupWorks e h.handle.toNat e.nextId (bcastJobs parts))
        { newRunning e (mbxCaller s.dev n h) (.bcast src dst fromOwners) .work with
          chunks := parts.length, firstSeq := g.nextSeq })))
  ∧ (∀ (s : State) (n : Mbx) (h : Hdr) (o : CompressOps) (g : Group) (e : Dev),
    Begins s.dev n h (.reduceToOne o) e → groupOf e h.handle.toNat = some g → g.faulted = none →
    outputMatches g o = true → compressFault e (.reduceToOne o) h o.compressor.toNat o (chunkSizeOf g) = none → ReduceShapes e o →
    let chunks := (commandChunks e o.compressor.toNat o (chunkSizeOf g)).getD []
    let jobs := (List.range chunks.length).zip chunks |>.map fun x => (Job.reduce x.2 x.1, reduceStage g)
    let t := touchStore e e.fpl.active o.residual
    let cl := mbxCaller s.dev n h
    exec (.reduceToOne n h o) s = .next (settled s
      (started s.dev (groupWorks t h.handle.toNat e.nextId jobs)
        { newRunning e cl (.reduceToOne o) (turnOr e cl (.reduceToOne o)) with
          table := tableCopy t o, chunks := chunks.length, firstSeq := g.nextSeq })))

/-- What a descriptor adds to a bucket fits its residual, its output and its random bits (R239, R407). -/
def AddFits (e : Dev) (k : Bucket) (d : BitVec 16) (x : Desc) : Prop :=
  let add := x.rows * roundUp x.rowLen 64
  let fits := fun (h : BitVec 16) => ∀ r, optDesc e h = some r → k.elements + add ≤ r.count
  let comp := k.ops.compressor.toNat
  k.bytes + bucketBytes x add ≤ 256 * mib ∧ fits k.ops.residual ∧ fits k.ops.residualOut ∧ fits k.ops.output
  ∧ (comp = cLowrank → ∀ f, optDesc e k.ops.auxA = some f → f.rows = roundUp x.rowLen 64)
  ∧ (stochasticOps comp k.ops = true → k.modes.getLsbD 6 = true → fits (if comp = cQuant then k.ops.auxA else k.ops.auxB))
  ∧ bucketOob e k x = false ∧ addedFault e k d x = none

/-- How a row of a descriptor is split into records of its bucket (Table 6-2). -/
def rowSplit (e : Dev) (g : Group) (k : Bucket) (x : Desc) : Option (List (Nat × Nat)) :=
  let comp := k.ops.compressor.toNat
  splitRow comp k.ops.parameter (payloadLen e comp k.ops) (gathersOps comp k.ops) (k.ops.coding.getLsbD 0) (chunkSizeOf g) (roundUp x.rowLen 64)

/-- BUCKET_OPEN opens the bucket on a free record; BUCKET_ADD adds the descriptor's rows and cuts the chunks
they fill; BUCKET_SEAL cuts what remains and waits for the bucket's chunks. None of them waits for an earlier
command on the bucket here. -/
def Obligations.BucketCommandsRun : Prop :=
  (∀ (s : State) (n : Mbx) (h : Hdr) (o : CompressOps) (g : Group) (x : Byte) (a : Nat) (e f : Dev),
    Begins s.dev n h (.bucketOpen o) e → bucketWait e e.nextId (.bucketOpen o) = false → groupOf e h.handle.toNat = some g →
    o.bucket.toNat < 64 → assoc o.bucket.toNat e.buckets = none → g.faulted = none → e.buckets.length < 64 →
    outputMatches g o = true → bucketFault e o (chunkSizeOf g) = none →
    stepExponent e h.handle.toNat o.bucket.toNat o.exponent = some x → mustWait e e.nextId h (.bucketOpen o) = false →
    tableFault e o = none → (mustRescale e h.handle.toNat o.bucket.toNat x = true → ∀ k, optDesc e o.residual = some k → errorOob k = false) → (mustRescale e h.handle.toNat o.bucket.toNat x = true → lostStore e o.residual = none) →
    recordRun e o.bucket.toNat = some (a, f) →
    exec (.bucketOpen n h o) s = .next (settled s
      (completed s.dev (openBucket f (mbxCaller s.dev n h) o (tableCopy e o) g x a) n h (.bucketOpen o)
        (openResult f (mbxCaller s.dev n h) o x))))
  ∧ (∀ (s : State) (n : Mbx) (h : Hdr) (b : BitVec 8) (d : BitVec 16) (k : Bucket) (g : Group) (x : Desc)
      (rs : List (Nat × Nat)) (e : Dev),
    Begins s.dev n h (.bucketAdd b d) e → bucketWait e e.nextId (.bucketAdd b d) = false → mustWait e e.nextId h (.bucketAdd b d) = false →
    assoc b.toNat e.buckets = some k → k.sealing = false → groupOf e k.group.toNat = some g → groupFaulted e k.group.toNat = false →
    descOf e d = some x → x.lowView = false → errorOob x = false → AddFits e k d x → rowSplit e g k x = some rs →
    exec (.bucketAdd n h b d) s = .next (settled s
      (completed s.dev (addToBucket e b.toNat k d x rs) n h (.bucketAdd b d)
        (result [(20, 4, k.bytes + bucketBytes x (x.rows * roundUp x.rowLen 64))]))))
  ∧ (∀ (s : State) (n : Mbx) (h : Hdr) (b : BitVec 8) (k : Bucket) (e : Dev),
    Begins s.dev n h (.bucketSeal b) e → bucketWait e e.nextId (.bucketSeal b) = false → mustWait e e.nextId h (.bucketSeal b) = false →
    assoc b.toNat e.buckets = some k → k.sealing = false →
    let d := withBucket (cutBucket e b.toNat [] true) b.toNat fun k => { k with sealing := true }
    exec (.bucketSeal n h b) s = .next (settled s
      (started s.dev d (newRunning d (mbxCaller s.dev n h) (.bucketSeal b) .bucketSeal))))

/-! ### Streams (Table 5-11) -/

/-- The operands of STREAM_OPEN lie in their ranges (Table 5-11, R428). -/
def StreamInRange (o : StreamOps) : Prop :=
  1 ≤ o.layers.toNat ∧ o.layers.toNat ≤ 256 ∧ o.format.toNat ≤ 4 ∧ 1 ≤ o.maxPositions.toNat ∧ o.maxPositions.toNat ≤ 1048576
  ∧ o.bpp.toNat % 128 = 0 ∧ 128 ≤ o.bpp.toNat ∧ o.bpp.toNat ≤ 16256 ∧ o.role.toNat ≤ 1

/-- A stream just opened: its tails at these addresses, its pages where the list says. -/
def openedStream (f : Dev) (n : Mbx) (label : Byte) (o : StreamOps) (j : Nat) (tails pages : List Nat) : Stream where
  label := label
  opener := n
  decode := o.role = 1
  format := o.format
  bpp := o.bpp.toNat
  maxPositions := o.maxPositions.toNat
  coding := o.coding
  generation := (assoc j f.generations).getD 0 + 1
  layers := tails.map fun a => ⟨0, 0, false, a, []⟩
  pageList := pages
  nextPageSeq := 0
  nextChunkSeq := 0
  staged := []

/-- The device with a stream open under handle `j`: its tails are zero and nothing of an earlier stream of that
handle is remembered on the ports. -/
def streamOpened (f : Dev) (o : StreamOps) (j : Nat) (x : Stream) : Dev :=
  let layers := List.range o.layers.toNat
  let d := releaseRuns { f with streams := assocSet j x f.streams, generations := assocSet j x.generation f.generations }
    (layers.map (0x800_0000_0000_0000 + ·))
  forgetOnPorts (layers.foldl (fun d l => zeroTail d j l) d) true (BitVec.ofNat 16 j)

/-- The commands that work on a stream take their place among those of the stream, with the committed length of
each layer as it stands, and for KV_STAGE also what incoming handoffs are to bring (R246, R445, R460). -/
def streamCommandStarted (d e : Dev) (n : Mbx) (h : Hdr) (c : Cmd) : Dev :=
  let reach := fun (s : Stream) => match c with
    | .kvStage .. => (List.range s.layers.length).map (stageReach e h.handle.toNat s)
    | _ => s.layers.map (·.c)
  let cs := (streamOf e h.handle.toNat).elim [] reach
  started d e { newRunning e (mbxCaller d n h) c .turn with cs := cs }

/-- STREAM_OPEN in hardware mode takes tails of its own, and with host-supplied pages takes the list. KV_PUT,
KV_HANDOFF, KV_STAGE, KV_COMMIT, KV_EVICT and STREAM_CLOSE that pass the checks of R242 start. -/
def Obligations.StreamCommandsStart : Prop :=
  (∀ (s : State) (n : Mbx) (h : Hdr) (o : StreamOps) (j : Nat) (tails : List Nat) (e f : Dev),
    Begins s.dev n h (.streamOpen o) e → hostMode e 8 = false → o.pageList = 0 → StreamInRange o →
    lowestFree e.streams 0 4096 = some j → takeTails (roundUp (16 * o.bpp.toNat) 4096) e o.layers.toNat [] = some (f, tails) →
    let x := openedStream f n (mailbox s.dev n).label o j tails []
    exec (.streamOpen n h o) s = .next (settled s
      (completed s.dev (streamOpened f o j x) n h (.streamOpen o) (result [(20, 2, j)]))))
  ∧ (∀ (s : State) (n : Mbx) (h : Hdr) (o : StreamOps) (j : Nat) (e : Dev),
    Begins s.dev n h (.streamOpen o) e → hostMode e 8 = true → o.pageList ≠ 0 → StreamInRange o →
    lowestFree e.streams 0 4096 = some j →
    let count := o.layers.toNat * ceilDiv o.maxPositions.toNat 16
    let pages := (List.range count).map fun i => field (load e (o.pageList.toNat + 8 * i) 8) 0 8
    let span := ceilDiv (16 * o.bpp.toNat) 65536 * 16 + 16 * o.bpp.toNat
    sourceFault e o.pageList.toNat (8 * count) = none → (∀ p ∈ pages, pageEntryOk e (mailbox s.dev n).label span p = true) →
    let x := openedStream e n (mailbox s.dev n).label o j (List.replicate o.layers.toNat 0) pages
    exec (.streamOpen n h o) s = .next (settled s
      (completed s.dev (streamOpened e o j x) n h (.streamOpen o) (result [(20, 2, j)]))))
  ∧ (∀ (s : State) (n : Mbx) (h : Hdr) (e : Dev),
      (Begins s.dev n h .streamClose e →
        exec (.streamClose n h) s = .next (settled s (streamCommandStarted s.dev e n h .streamClose)))
      ∧ (∀ layer first positions source, Begins s.dev n h (.kvPut layer first positions source) e →
        exec (.kvPut n h layer first positions source) s
          = .next (settled s (streamCommandStarted s.dev e n h (.kvPut layer first positions source))))
      ∧ (∀ o, Begins s.dev n h (.kvHandoff o) e →
        exec (.kvHandoff n h o) s = .next (settled s (streamCommandStarted s.dev e n h (.kvHandoff o))))
      ∧ (∀ layer first positions, Begins s.dev n h (.kvStage layer first positions) e →
        exec (.kvStage n h layer first positions) s
          = .next (settled s (streamCommandStarted s.dev e n h (.kvStage layer first positions))))
      ∧ (∀ positions, Begins s.dev n h (.kvCommit positions) e →
        exec (.kvCommit n h positions) s = .next (settled s (streamCommandStarted s.dev e n h (.kvCommit positions))))
      ∧ (∀ first count, Begins s.dev n h (.kvEvict first count) e →
        exec (.kvEvict n h first count) s = .next (settled s (streamCommandStarted s.dev e n h (.kvEvict first count)))))

/-- The conditions under which a stream command's turn comes: it runs, waits for its turn, and no earlier
command of the stream or of its residual store is in progress (R154, R246). -/
def HasTurn (d : Dev) (r : Running) (s : Stream) : Prop :=
  runningOf d r.id = some r ∧ r.wait = .turn ∧ mustWait d r.id r.hdr r.cmd = false ∧ streamOf d r.hdr.handle.toNat = some s

/-- What each stream command does when its turn comes: KV_PUT reserves pages and encodes them, KV_COMMIT
back-invalidates the append lines, KV_STAGE fills or releases sets, KV_HANDOFF asks the destination, KV_EVICT
frees the pages of its layers, STREAM_CLOSE evicts all layers and drops the stream (chapter 10). -/
def Obligations.StreamTurns : Prop :=
  ∀ (d : Dev) (r : Running) (s : Stream), HasTurn d r s →
    let h := r.hdr.handle.toNat
    (∀ (layer : BitVec 16) (first n : Word) (src : BitVec 16) (k : Desc) (e : Dev), r.cmd = .kvPut layer first n src →
      let y := layerOf s layer.toNat
      let pages := (List.range (n.toNat / 16)).map (first.toNat / 16 + ·)
      s.decode = false → layer.toNat < s.layers.length → y.evicted = false → first.toNat = y.g → y.c ≤ y.g →
      0 < n.toNat → n.toNat % 16 = 0 → first.toNat + n.toNat ≤ s.maxPositions →
      descOf d src = some k → k.imageLen = n.toNat * s.bpp → errorOob k = false →
      reservePages d s (pages.map (pageTag h layer.toNat)) = some e →
      wakeOne d r.id = putRunning (pageWorks e h s r.id (pages.map fun k => .encodePage layer.toNat k 16 false))
        { r with wait := .work, chunks := pages.length })
    ∧ (∀ (n : Word) (e : Dev), r.cmd = .kvCommit n →
      let c := (layerOf s 0).c
      0 < n.toNat → (∀ y ∈ s.layers, y.c = c ∧ y.evicted = false ∧ c + n.toNat ≤ y.g + 16) →
      d.pwr.hold = false →
      reservePages d s ((retiring s (c + n.toNat)).map fun l => pageTag h l ((layerOf s l).g / 16)) = some e →
      (noIsland d = true ∨ commitTapFree d ≠ 0) →
      let f := if noIsland d then e else withMet e fun m => { m with reserved := m.reserved + 1 }
      let lines := appendLines f h s
      wakeOne d r.id = putRunning (snoop f lines) { r with wait := .birsp lines, lines := lines })
    ∧ (∀ n : Word, r.cmd = .kvCommit n → d.pwr.hold = true → wakeOne d r.id = turnEnd d r 0x0206 0)
    ∧ (∀ (layer : BitVec 16) (first n : Word), r.cmd = .kvStage layer first n →
      (n = 0 → wakeOne d r.id = turnEnd (releaseSets d h fun _ => true) r 0 0)
      ∧ (0 < n.toNat → first.toNat % 16 = 0 → layer.toNat < s.layers.length → (layerOf s layer.toNat).evicted = false →
        first.toNat + n.toNat ≤ r.cs.getD layer.toNat 0 →
        (first.toNat + n.toNat ≤ (layerOf s layer.toNat).c →
          wakeOne d r.id = stageTake d r h s layer.toNat first.toNat n.toNat)
        ∧ ((layerOf s layer.toNat).c < first.toNat + n.toNat → (incomingFor d h layer.toNat first.toNat n.toNat).isSome = true →
          wakeOne d r.id = putRunning d { r with wait := .incoming })))
    ∧ (∀ (o : HandoffOps) (p : Port), r.cmd = .kvHandoff o →
      let c := r.cs.foldl min (r.cs.headD 0)
      let ls := (List.range o.layerCount.toNat).map (o.firstLayer.toNat + ·)
      s.decode = false → o.positions ≠ 0 → o.layerCount ≠ 0 → o.destMember.toNat < 4096 → o.destStream.toNat < 4096 →
      o.first.toNat % 16 = 0 → o.first.toNat + o.positions.toNat ≤ c → o.firstLayer.toNat + o.layerCount.toNat ≤ s.layers.length →
      (∀ l ∈ ls, (layerOf s l).evicted = false) → portTo d (o.destMember.truncate 12) = some p →
      wakeOne d r.id = putRunning
        (sendStream d p o.destStream s.nextChunkSeq 0x0101 (requestOps [(2, 4, o.first.toNat), (6, 4, o.positions.toNat),
          (10, 1, o.firstLayer.toNat), (11, 1, o.layerCount.toNat - 1), (12, 1, s.bpp / 128), (13, 1, s.format.toNat)]))
        { r with wait := .handoffReply, firstSeq := s.nextChunkSeq, slot := h })
    ∧ (∀ first count : BitVec 16, r.cmd = .kvEvict first count →
      (count = 0 ∨ first.toNat + count.toNat ≤ s.layers.length) →
      let ls := if count.toNat = 0 then List.range s.layers.length else (List.range count.toNat).map (first.toNat + ·)
      let e := evictLayers d h ls
      wakeOne d r.id = turnEnd e.1 r 0 (result [(20, 4, e.2)]))
    ∧ (r.cmd = .streamClose → wakeOne d r.id = turnClose d r h s)

/-! ### Observation (Table 5-12) -/

/-- TRACE_START opens the session, TRACE_STOP closes it and waits for what is still buffered, COUNTERS_SNAPSHOT
writes the counters of a set. WATCH_TENSOR takes the first free watch; BREAK_SET takes the first free breakpoint of
its core, or frees one (kind 0). -/
def Obligations.ObservationCommandsRun : Prop :=
  (∀ (s : State) (n : Mbx) (h : Hdr) (mask : Word) (label : BitVec 8) (all : Bool) (e : Dev),
    Begins s.dev n h (.traceStart mask label all) e → e.trc.stopped = false →
    let x : Session := ⟨mask, label, all, e.trc.session.elim 0 (·.written), !(n = adminBox)⟩
    let resume := if e.trc.full then e.trc.written else e.trc.resumeAt
    exec (.traceStart n h mask label all) s = .next (settled s
      (completed s.dev (withTrc e fun t => { t with session := some x, full := false, resumeAt := resume }) n h
        (.traceStart mask label all) 0)))
  ∧ (∀ (s : State) (n : Mbx) (h : Hdr) (x : Session) (e : Dev), Begins s.dev n h .traceStop e → e.trc.session = some x →
    let d := withTrc e fun t => { t with session := none }
    exec (.traceStop n h) s = .next (settled s
      (if e.trc.buffer.isEmpty then completed s.dev d n h .traceStop (result [(20, 4, x.written.toNat)])
        else started s.dev d { newRunning d (mbxCaller s.dev n h) .traceStop .traceDrain with
          chunks := e.trc.buffer.length, firstSeq := x.written })))
  ∧ (∀ (s : State) (n : Mbx) (h : Hdr) (set : BitVec 8) (dest : BitVec 48) (e : Dev),
    Begins s.dev n h (.countersSnapshot set dest) e → set.toNat ≤ 2 → e.trc.stopped = false →
    let bs := snapshotBytes e (mbxCaller s.dev n h) set.toNat
    snapshotFault e (mbxCaller s.dev n h) dest.toNat bs.length = none →
    exec (.countersSnapshot n h set dest) s = .next (settled s
      (completed s.dev (bump (store (drawN e 304).2 dest.toNat bs) 0 n.val 9 bs.length) n h (.countersSnapshot set dest)
        (result [(20, 4, bs.length)]))))
  ∧ (∀ (s : State) (n : Mbx) (h : Hdr) (k layer operator : BitVec 16) (step : Word) (action : BitVec 8) (i : Fin 16) (e : Dev),
    Begins s.dev n h (.watchTensor k layer operator step action) e → action.toNat ≤ 1 →
    e.dbg.watches[i] = none → (∀ j : Fin 16, j < i → e.dbg.watches[j] ≠ none) →
    let w : Watch := ⟨k, layer, operator, step, action = 1, !(n = adminBox), none⟩
    exec (.watchTensor n h k layer operator step action) s = .next (settled s
      (completed s.dev (withDbg e fun x => { x with watches := x.watches.set i (some w) }) n h
        (.watchTensor k layer operator step action) (result [(20, 2, i.val)]))))
  ∧ (∀ (s : State) (n : Mbx) (h : Hdr) (core kind : BitVec 8) (address : Word) (hits : BitVec 16) (i : Fin 4) (m : Fin 16) (e : Dev),
    Begins s.dev n h (.breakSet core kind address hits) e → core.toNat ≤ 3 → 1 ≤ kind.toNat → kind.toNat ≤ 2 →
    m.val = 4 * core.toNat + i.val → e.dbg.breaks[m] = none →
    (∀ j : Fin 16, 4 * core.toNat ≤ j.val → j < m → e.dbg.breaks[j] ≠ none) →
    let b : Break := ⟨kind = 2, address, if hits = 0 then 1 else hits, !(n = adminBox)⟩
    exec (.breakSet n h core kind address hits) s = .next (settled s
      (completed s.dev (withDbg e fun x => { x with breaks := x.breaks.set m (some b) }) n h
        (.breakSet core kind address hits) (result [(20, 1, m.val)]))))
  ∧ (∀ (s : State) (n : Mbx) (h : Hdr) (core : BitVec 8) (address : Word) (hits : BitVec 16) (m : Fin 16) (b : Break) (e : Dev),
    Begins s.dev n h (.breakSet core 0 address hits) e → core.toNat ≤ 3 → address.toNat % 256 = m.val →
    e.dbg.breaks[m] = some b →
    exec (.breakSet n h core 0 address hits) s = .next (settled s
      (completed s.dev (withDbg e fun x => { x with breaks := x.breaks.set m none }) n h
        (.breakSet core 0 address hits) (result [(20, 1, m.val)]))))

/-! ### Checks and waits of every mailbox command -/

/-- The row of the opcode table that issues a command on a mailbox. -/
def issued (n : Mbx) (h : Hdr) : Cmd → Instr
  | .init a => .init n h a
  | .setPlacement m v => .setPlacement n h m v
  | .setSeed x => .setSeed n h x
  | .loadTree x k => .loadTree n h x k
  | .openGroup m k z => .openGroup n h m k z
  | .closeGroup => .closeGroup n h
  | .setTick p f o => .setTick n h p f o
  | .repairApprove q x => .repairApprove n h q x
  | .bindTenant m l u => .bindTenant n h m l u
  | .alloc l m z => .alloc n h l m z
  | .free a => .free n h a
  | .fwUpdate a l => .fwUpdate n h a l
  | .createDesc a => .createDesc n h a
  | .destroyDesc k => .destroyDesc n h k
  | .loadOwners t x => .loadOwners n h t x
  | .topk o => .topk n h o
  | .quant o => .quant n h o
  | .lowrank o => .lowrank n h o
  | .residualFlush b f x y => .residualFlush n h b f x y
  | .maskGen o t x r => .maskGen n h o t x r
  | .bcast x y f => .bcast n h x y f
  | .reduceToOne o => .reduceToOne n h o
  | .bucketOpen o => .bucketOpen n h o
  | .bucketAdd b k => .bucketAdd n h b k
  | .bucketSeal b => .bucketSeal n h b
  | .streamOpen o => .streamOpen n h o
  | .streamClose => .streamClose n h
  | .kvPut l f p x => .kvPut n h l f p x
  | .kvHandoff o => .kvHandoff n h o
  | .kvStage l f p => .kvStage n h l f p
  | .kvCommit p => .kvCommit n h p
  | .kvEvict f k => .kvEvict n h f k
  | .traceStart m l a => .traceStart n h m l a
  | .traceStop => .traceStop n h
  | .watchTensor k l o x a => .watchTensor n h k l o x a
  | .breakSet k t a x => .breakSet n h k t a x
  | .countersSnapshot x a => .countersSnapshot n h x a
  | .unknown op => .unknownOpcode n h op

/-- Every mailbox command: one that fails a check of R242 completes with the status of the first check that
fails and has no effect; one that something holds back stays fetched; and where the mailbox takes no entry,
nothing changes. UNKNOWN_OPCODE completes with 0x0101, or with 0x0501 on a user mailbox of a failed device; an admin
command on a user mailbox of a working device is refused with 0x0601, whatever else is wrong with it. -/
def Obligations.MailboxCommandsAreChecked : Prop :=
  (∀ (s : State) (n : Mbx) (h : Hdr) (c : Cmd),
      (∀ st, Fetchable s.dev n h c → startCheck s.dev n h c = some st →
        exec (issued n h c) s = .next (settled s (refused s.dev n h c st)))
      ∧ (canIssue s.dev n = true → (mailbox s.dev n).fetched = [] → heldBack s.dev n ⟨h, c, cmdReserved h c, inGuard s.dev⟩ = true →
        exec (issued n h c) s = .next (settled s (withMbx s.dev n fun m => { m with
          sqTail := m.next m.sqTail, sqHead := m.next m.sqHead, fetched := [⟨h, c, cmdReserved h c, inGuard s.dev⟩] })))
      ∧ (canIssue s.dev n = false → exec (issued n h c) s = .next s))
  ∧ (∀ (s : State) (n : Mbx) (h : Hdr) (op : BitVec 16), Fetchable s.dev n h (.unknown op) →
      exec (.unknownOpcode n h op) s = .next (settled s
        (refused s.dev n h (.unknown op) (if s.dev.rpr.failed = true ∧ n ≠ adminBox then 0x0501 else 0x0101))))
  ∧ (∀ (s : State) (n : Mbx) (h : Hdr) (c : Cmd), adminOnly c = true → n ≠ adminBox → s.dev.rpr.failed = false →
      Fetchable s.dev n h c → exec (issued n h c) s = .next (settled s (refused s.dev n h c 0x0601)))

/-! ### Doorbells, enabling and disabling (chapter 5) -/

/-- SUBMISSION_TAIL_DOORBELL and COMPLETION_HEAD_DOORBELL: the host's stores become visible first; a value inside
the ring moves the tail or the head and the mailbox goes on; a value outside sets the error and stops fetching
(R219, R248). -/
def Obligations.DoorbellsMoveTheRing : Prop :=
  (∀ (s : State) (n : Mbx) (tail : Word) (stores : List HostStore) (d : Dev), d = stores.foldl hostStore s.dev →
    d.hif.linkUp = true → (mailbox d n).enabled = true → (mailbox d n).enable = true →
    exec (.submissionTailDoorbell n tail stores) s = .next (settled s
      (if tail.toNat < (mailbox d n).ringDepth then fetchTurns (withMbx d n (ringTail (inGuard d) tail))
        else withMbx d n fun m => { m with doorbellError := true, stopped := true })))
  ∧ (∀ (s : State) (n : Mbx) (head : Word),
    s.dev.hif.linkUp = true → (mailbox s.dev n).enabled = true →
    let d := drainReady (withMbx s.dev n fun m => { m with cqHead := head.truncate 12 }) n ((mailbox s.dev n).ready.length + 1)
    exec (.completionHeadDoorbell n head) s = .next (settled s
      (if head.toNat < (mailbox s.dev n).ringDepth then fetchTurns (startHeld d n)
        else withMbx s.dev n fun m => { m with doorbellError := true, stopped := true })))
  ∧ (∀ (s : State) (n : Mbx), exec (.commandStart n) s = .next (settled s (fetchTurns (startHeld (firmwareGivesUp s.dev n) n))))

/-- MAILBOX_ENABLE of a disabled mailbox that meets R259 leaves it enabled with empty rings, heads and tails 0
and phase 1; one that does not gets config_error and stays disabled. MAILBOX_DISABLE completes what was fetched and not
started with 0x010F (R250), and the mailbox stays enabled until nothing is left to post. -/
def Obligations.MailboxesEnableAndDisable : Prop :=
  (∀ (s : State) (n : Mbx) (value : Word), mbxWritable s.dev n = true → (mailbox s.dev n).enable = false →
    let w := value ||| 1
    let d := withMbx s.dev n fun m => writeCtrlFields m w
    exec (.mailboxEnable n value) s = .next (settled s
      (if enableOk d n (mailbox d n) then withMbx d n fun m => { m with
          enable := true, enabled := true, stopped := false, discard := false, sqHead := 0, sqTail := 0, cqHead := 0,
          cqTail := 0, phase := true, guardRung := none, chunkSeq := 0, fetched := [], ready := [] }
        else withMbx d n fun m => { m with configError := true })))
  ∧ (∀ (s : State) (n : Mbx) (value : Word), mbxWritable s.dev n = true → (mailbox s.dev n).enable = true →
    let d := withMbx (withMbx s.dev n fun m => writeCtrlFields m (value &&& ~~~1)) n fun m => { m with enable := false }
    exec (.mailboxDisable n value) s = .next (settled s (settle (cancelFetched d n) n)))

/-! ### Registers that do more than hold a value -/

/-- The host reaches the registers: the link is up, start-up has passed step 5, and the registers of every block
are served once the device is ready (R568, R677). -/
def HostServed (d : Dev) : Prop := d.hif.linkUp = true ∧ d.pwr.inReset = false ∧ d.glb.ready = true

/-- FPL_MODE takes the mode bits, and PLACEMENT_TAKES_EFFECT makes a pending bit the active one once its function is
idle; TICK_SNAP latches era, tick, offset, leap level and period together and sets the fields of TIK_CTRL;
TIK_CABLE_DLY sets the delay and has the cabled edge tested again; TRAY_WRITE sets the tray and sends a join request
where an era is held; DESIGNATE_MASTER on an era host establishes an era of priority 15 above every era seen, and
UNDESIGNATE_MASTER silences the master it made (R42, R109, R119, R507, R521, R522). -/
def Obligations.SettingRegistersWritten : Prop :=
  (∀ (s : State) (value : Word), HostServed s.dev →
    exec (.fplModeWrite value) s = .next (settled s (writeMode s.dev (value.truncate 10))))
  ∧ (∀ (s : State) (fn : MovFn), pendingFn s.dev fn.val = true → functionIdle s.dev fn.val = true → s.dev.pwr.hold = false →
    exec (.placementTakesEffect fn) s = .next (settled s (functionChanged (switchPlacement s.dev (bitMask fn.val)) fn.val)))
  ∧ (∀ (s : State) (value : Word), HostServed s.dev →
    let d := writeTikCtrl s.dev (value ||| 1)
    exec (.tickSnap value) s = .next (settled s (withTik d fun x => { x with
      snapPeriod := BitVec.ofNat 10 (periodNow d), snapLeap := if x.eraValid then x.leap else 0,
      snapEra := x.era, snapNs := x.offset, snapTick := x.tick })))
  ∧ (∀ (s : State) (value : Word), HostServed s.dev →
    exec (.tikCableDlyWrite value) s = .next (settled s (withTik s.dev fun x => { x with
      cableDly := value.truncate 8, cableIgnored := false, cableRun := 0, source := if x.source = 1 then 2 else x.source })))
  ∧ (∀ (s : State) (value : Word), HostServed s.dev →
    let d := withJoin s.dev fun j => { j with tray := BitVec.ofNat 9 (value.toNat / 2 ^ 15) }
    exec (.trayWrite value) s = .next (settled s
      (if d.tik.eraValid = false then d
        else if d.tik.isMaster then recordJoin d (ownReport d true) else sendUp d (reportBody 4 (ownReport d true)))))
  ∧ (∀ s : State, HostServed s.dev → eraHost s.dev = true → 8 ≤ s.dev.pwr.stage.toNat →
    (s.dev.join.designate && s.dev.tik.isMaster) = false →
    let d := withJoin s.dev fun j => { j with designate := true }
    exec .designateMaster s = .next (settled s (establishEra d (nextEra d.join.highEra) 15)))
  ∧ (∀ s : State, HostServed s.dev → eraHost s.dev = true → s.dev.tik.isMaster = true →
    exec .undesignateMaster s = .next (settled s
      (withTik (withJoin s.dev fun j => { j with designate := false }) fun x => { x with silent := true })))

/-- PWR_RESET with the key 0xA5A5 resets the main die as a DEVICE reset of kind 5 and keeps HBM; RECOVER_GO with
boot code 4 authenticates the image in scratchpad and boots it; DBG_CTRL sets the instruction trace and opens or closes
the open setting; WATCH_CANCEL frees the watches of its mask and no others (R544, R579, R628, R629, R649). -/
def Obligations.ControlRegistersWritten : Prop :=
  (∀ s : State, HostServed s.dev → exec .pwrResetKey s = .next (settled s (dieReset s.dev 5 true)))
  ∧ (∀ (s : State) (value : Word), bar0Open s.dev = true → s.dev.pwr.bootCode = 4 → s.dev.pwr.hold = true →
    exec (.recoverGo value) s = .next (settled s
      (withPwr s.dev fun p => { p with recoverLength := value.truncate 24, recoverGo := true })))
  ∧ (∀ (s : State) (value : Word), bar0Open s.dev = true → s.dev.pwr.bootCode = 4 → s.dev.pwr.hold = false →
    let d := withPwr s.dev fun p => { p with recoverLength := value.truncate 24 }
    let bs := load d 0 (value.toNat % 2 ^ 24)
    exec (.recoverGo value) s = .next (settled s
      (if Config.imageAuthentic bs then
          bootCores (withPwr (withFlash d fun f => { f with image := bs }) fun p => { p with recoverResult := 1 })
        else withPwr d fun p => { p with recoverResult := 2 })))
  ∧ (∀ (s : State) (value : Word), HostServed s.dev →
    let d := withDbg s.dev fun x => { x with itrace := BitVec.ofNat 4 (value.toNat / 16) }
    exec (.openSettingWrite value) s = .next (settled s
      (if value.getLsbD 0 then
          (if d.dbg.openSet || oneLabel d then withDbg d fun x => { x with openSet := true }
            else withDbg d fun x => { x with event := x.event ||| 4 })
        else if d.dbg.openSet then
          withTrc (withDbg d fun x => clearUserDebug { x with openSet := false }) fun t => { t with session := none }
        else d)))
  ∧ (∀ (s : State) (mask : BitVec 16), HostServed s.dev →
    exec (.watchCancel mask) s = .next (settled s (cancelWatches s.dev mask)))
  ∧ (∀ (d : Dev) (mask : BitVec 16) (i : Fin 16),
      (cancelWatches d mask).dbg.watches[i] = if mask.getLsbD i.val then none else d.dbg.watches[i])

/-- HALT stops a running device with cause 3; RESUME of a halted one clears the cause, releases the held event
completions and restarts the mailboxes; STEP of a halted one runs one instruction of the core, whose outcome is
free (R640–R645). -/
def Obligations.HaltResumeStep : Prop :=
  (∀ s : State, HostServed s.dev → s.dev.dbg.halted = false → exec .halt s = .next (settled s (haltDevice s.dev 3 0 0 none)))
  ∧ (∀ s : State, HostServed s.dev → s.dev.dbg.halted = true →
    let d := withDbg s.dev fun x => { x with halted := false, cause := 0, id := 0, core := 0 }
    exec .resume s = .next (settled s (restartMailboxes (verifyAfterHalt (releaseEvents d)))))
  ∧ (∀ (s : State) (core : CtrlCore), HostServed s.dev → s.dev.dbg.halted = true →
    let k := s.dev.freeCount
    let pc := Config.freeWord k
    let d := withDbg (drawN s.dev 3).2 fun x => { x with pc := x.pc.set core pc }
    exec (.step core) s = .next (settled s
      (if d.dbg.itrace.getLsbD core.val && Config.choice (k + 1) % 2 = 1 then
          traceDevice d 6 (90 + core.val) (core.val + Config.choice (k + 2) % 2 ^ 16 * 2 ^ 16 + pc.toNat * 2 ^ 32)
        else d)))

/-- A read of an aligned word of BAR0 shows the register's value as it was before the read, and then does what
the read does besides: a NAME_LO latches its upper half, a read-clear counter returns to 0, MET_COLLECT lets the
oldest record go, a byte of the record store is taken (R18, R20, R486). An access that is not a naturally aligned
32-bit access sets the access error; an aligned register write is served by the register at the offset, and a
reserved offset takes nothing (R14, R16). -/
def Obligations.RegisterAccessesServed : Prop :=
  (∀ s : State, bar0Open s.dev = true →
      let shown := fun (r : Reg) => putRead s.dev (leBytes 4 (readReg s.dev r).toNat) false
      (∀ (o : BitVec 26) (r q : Reg), regOfOffset o.toNat = some r → latchOf r = some q → isRc r = false →
        exec (.loReadLatch o) s = .next (settled s { shown r with
          latches := assocSet q.offset (BitVec.ofNat 32 (regValue s.dev q)) s.dev.latches }))
      ∧ (∀ g : Fin 256, exec (.clvGrpStateRead g) s = .next (settled s { shown (.clvGrpState g) with
          latches := assocSet (Reg.clvGrpSeq g).offset (BitVec.ofNat 32 (grpSeq s.dev g.val)) s.dev.latches }))
      ∧ (∀ (o : BitVec 26) (r : Reg), regOfOffset o.toNat = some r → isRc r = true →
        exec (.rcCounterRead o) s = .next (settled s (clearRc (shown r) r)))
      ∧ exec .metCollectRead s = .next (settled s
          (if oldestRead s.dev = false then shown .metCollect
            else endExtension (withMet (shown .metCollect) fun m => { m with records := m.records.drop 1, readBytes := [] })))
      ∧ (∀ w : Fin 524288, exec (.metRecRead (BitVec.ofNat 21 (4 * w.val))) s = .next (settled s
          (if metReady s.dev then markRead (shown (.metRec w)) (4 * w.val) 4 else shown (.metRec w)))))
  ∧ (∀ (s : State) (write : Bool) (o : BitVec 26) (size : Nat), bar0Open s.dev = true → ¬(size = 4 ∧ o.toNat % 4 = 0) →
    let d := withGlb s.dev fun g => { g with accessError := true }
    exec (.bar0Misaligned write o size) s = .next (settled s
      (if write then d else putRead d (List.replicate size 0xFF) false)))
  ∧ (∀ (s : State) (o : BitVec 26) (w : Word) (r : Reg), HostServed s.dev →
    regOfOffset o.toNat = some r → exec (.registerWrite o w) s = .next (settled s (writeReg s.dev r w)))
  ∧ (∀ (s : State) (o : BitVec 26) (w : Word), bar0Open s.dev = true → o.toNat % 4 = 0 →
    regOfOffset o.toNat = none → exec (.registerWrite o w) s = .next s)

/-! ### BAR4 and the CXL window -/

/-- BAR4 reads and writes one request through its aperture: memory of an allocation or of the Annals, or scratchpad
under recovery; a read outside gives zeros and a write outside is counted and dropped (R579, R639, R663, R675). -/
def Obligations.Bar4Accesses : Prop :=
  (∀ (s : State) (o : Word) (n : Nat), bar0Open s.dev = true → oneRequest o n = true →
    exec (.bar4Read o n) s = .next (settled s
      (match apertureOf s.dev o with
        | .recovery a => readMemory s.dev a n
        | .window a => if (allocOf s.dev a n).isSome || inAnnals s.dev a n then readMemory s.dev a n
            else putRead s.dev (zeros n) false)))
  ∧ (∀ (s : State) (o : Word) (bs : List Byte), bar0Open s.dev = true → oneRequest o bs.length = true →
    exec (.bar4Write o bs) s = .next (settled s
      (match apertureOf s.dev o with
        | .recovery a => store s.dev a bs
        | .window a => if (allocOf s.dev a bs.length).isSome then store s.dev a bs else countUnbacked s.dev)))

/-- Where BAR4 leads, as a device address (R579, R663). -/
def apertureAddress (d : Dev) (o : Word) : Nat :=
  match apertureOf d o with
  | .recovery a => a
  | .window a => a

/-- BAR4_WRITE changes no byte of device memory but those it stores to, whatever address the aperture gives, and on
a device with nothing in progress nothing else of memory changes either; the ring area and the window's staging stay.
A write that lands reads back byte for byte, where no two of its bytes are held in one cell (no retired page lies in
its range, R598). -/
def Obligations.Bar4WriteFrame : Prop :=
  (∀ (s t : State) (o : Word) (bs : List Byte), Quiet s.dev → exec (.bar4Write o bs) s = .next t →
      (∀ x, (∀ i, i < bs.length → redirect s.dev (apertureAddress s.dev o + i) ≠ x) → memGet t.dev.mem x = memGet s.dev.mem x)
      ∧ t.dev.bar2 = s.dev.bar2 ∧ t.dev.kvs.staging = s.dev.kvs.staging
      ∧ (s.dev.mem.wf = true → t.dev.mem.wf = true))
  ∧ (∀ (d : Dev) (a : Nat) (bs : List Byte), rangeOk d a bs.length = true → (∀ i, i < bs.length → redirect d (a + i) = a + i) →
      load (store d a bs) a bs.length = bs)

/-- WINDOW_READ serves a staging line that is written and holds one that is not, serves an append line, and answers
zeros where nothing backs the line; WINDOW_WRITE is cut at lines; BIRSP takes the dirty line first and then takes the
line out of the filter; a read held too long is answered with poison (Tables 10-3, 10-4, 10-6). -/
def Obligations.WindowAccesses : Prop :=
  (∀ (s : State) (o : BitVec 40) (cached : Bool), windowOpen s.dev = true →
    let line := winLine o.toNat
    exec (.windowRead o cached) s = .next (settled s
      (match windowAt s.dev line with
        | .staging _ _ => if stageReady s.dev line then serveStage s.dev line cached
            else withBus (withKvs s.dev fun k => { k with heldReads := k.heldReads ++ [(line, cached)] }) fun b =>
              { b with readData := [], readPoison := false, readHeld := true }
        | .append _ x l b => if tailPoisoned s.dev x l b 64 then poisonRead s.dev 64
            else if cached && filterFull s.dev line then awaitRoom s.dev line
            else putRead (if cached then grantLine s.dev line else s.dev) (tailRead s.dev x l b 64) false
        | .unbacked => putRead (countUnbacked s.dev) (zeros 64) false)))
  ∧ (∀ (s : State) (o : BitVec 40) (bs : List Byte), windowOpen s.dev = true → 0 < bs.length → o.toNat % 64 + bs.length ≤ 64 →
    exec (.windowWrite o bs) s = .next (settled s (windowLineWrite s.dev o.toNat bs)))
  ∧ (∀ (s : State) (o : BitVec 40) (dirty : Option (List Byte)), windowOpen s.dev = true →
    let line := winLine o.toNat
    line ∈ s.dev.kvs.snoops →
    exec (.birsp o dirty) s = .next (settled s
      (snoopDone (dirty.elim s.dev fun bs => windowLineWrite s.dev line (bs.take 64)) line)))
  ∧ (∀ (s : State) (o : BitVec 40) (i : Nat) (x : Nat × Bool),
    findIdx (fun (x : Nat × Bool) => x.1 = winLine o.toNat) s.dev.kvs.heldReads 0 = some (i, x) →
    exec (.stagingReadTimeout o) s = .next (settled s
      (poisonRead (withKvs s.dev fun k => { k with heldReads := k.heldReads.eraseIdx i }) 64)))

/-! ### The tick (chapter 2) -/

/-- A tick boundary within an era, or before one: what was appended to the plan is taken, work of the tick that ended is judged, the tick number rises by
one (or a start-up boundary of a new era passes), the offset returns to 0 and the new tick opens with its plan
(R62, R63, R95); an era boundary and a tick wrap do the same under the era that begins or is asked for. -/
def Obligations.TickBoundariesPass : Prop :=
  (∀ (s : State) (plan : List PlanEntry) (settledV : Bool),
    s.dev.pwr.inReset = false → atEraEnd s.dev = none → atLastTick s.dev = false →
    exec (.tickBoundary plan settledV) s = .next (settled s (openTick (withTik (endTick (appendPlan s.dev [])) nextTick) plan settledV)))
  ∧ (∀ (s : State) (c : EraChange), s.dev.pwr.inReset = false → atEraEnd s.dev = some c →
    let d := (draw s.dev).2
    exec .eraBoundary s = .next (settled s
      (openTick (turnEra (endTick (appendPlan d [])) c) [] (Config.choice s.dev.freeCount % 2 = 1))))
  ∧ (∀ s : State, s.dev.tik.isMaster = true → s.dev.tik.eraValid = true → s.dev.tik.starting = 0 →
    exec .tickWrapEraChange s = .next (settled s
      (requestChange s.dev (latestSettings s.dev)).1))

/-! ### Plan entries (section 2.2) -/

/-- PLAN_ENTRY_START on a free resource takes what firmware appended, then starts what the resource carries over,
or else the first planned entry of the resource (R68). The end of an entry frees its resource and does its work: an
engine entry forms records, a codec entry runs blocks, a transmit entry launches the chunk's segments; in the hold the
work of an engine is kept for re-verification (R69, R557); an overrun fails the tile. -/
def Obligations.PlanEntriesRun : Prop :=
  (∀ (s : State) (r : BitVec 16) (appended : List PlanEntry), planStopped s.dev = false → s.dev.plan.valid = true →
      runningOn s.dev r = none →
      let d := appendPlan s.dev appended
      (∀ x, carriedOn d r = some x → exec (.planEntryStart r appended) s = .next (settled s (startCarried d x)))
      ∧ (∀ e, carriedOn d r = none → d.plan.entries.find? (fun e => e.resource = r) = some e →
        exec (.planEntryStart r appended) s = .next (settled s (startPlanned d e)))
      ∧ (carriedOn d r = none → d.plan.entries.find? (fun e => e.resource = r) = none →
        exec (.planEntryStart r appended) s = .next (settled s d)))
  ∧ (∀ (s : State) (r : BitVec 16) (fault : Bool) (x : RunEntry) (w : Work),
    runningOn s.dev r = some x → isEngine r = true → engineKind r ≠ 3 → entryPaused s.dev x.entry = false →
    let d := endEntry s.dev x
    entryWork d x.entry = some w → w.stage = .engine →
    exec (.compressEntryDone r fault) s = .next (settled s
      (if d.pwr.hold then holdItem d (.entry x) else runEngine d x w fault)))
  ∧ (∀ (s : State) (r : BitVec 16) (x : RunEntry) (w : Work),
    runningOn s.dev r = some x → isEngine r = true → engineKind r = 3 → entryPaused s.dev x.entry = false →
    let d := endEntry s.dev x
    entryWork d x.entry = some w →
    exec (.codecEntryDone r) s = .next (settled s (if d.pwr.hold then holdItem d (.codec x) else runCodec d x w)))
  ∧ (∀ (s : State) (p : Port) (x : RunEntry) (c : SentChunk) (w : Work),
    runningOn s.dev (txResource p) = some x →
    sentChunk s.dev p (x.entry.cls = streamClass) x.entry.handle x.entry.sequence = some c → canLaunch s.dev p c = true →
    entryPaused s.dev x.entry = false → entryWork s.dev x.entry = some w →
    let lost := sendLost (endEntry s.dev x) w
    let d := launchSegments lost.2 p c
    let f := traceChunk d 1 w.cls w.handle w.seq p.val (some (ownerLabel d w.owner))
    exec (.transmitEntryDone p) s = .next (settled s
      (if lost.1 then failOwner (dropSent lost.2 p c) w.owner 0x0505
        else chunkLeft (if c.attempt = 0 then noteLaunch f w c.bytes.length else f) w p)))
  ∧ (∀ (s : State) (r : BitVec 16) (x : RunEntry) (t : Tile), runningOn s.dev r = some x → isEngine r = true →
    physOf s.dev (r.toNat / 4) = some t.val →
    exec (.entryOverrun r) s = .next (settled s
      (failTile (withTile s.dev t fun y => { y with tilEvent := y.tilEvent ||| 2 }) t.val none)))
  ∧ (∀ (d : Dev) (x : RunEntry), runningOn d x.entry.resource = some x →
      (∀ y ∈ d.plan.running, y.entry.resource = x.entry.resource → y = x) → d.plan.running.Nodup →
      runningOn (endEntry d x) x.entry.resource = none)

/-! ### Groups that slip (R75–R79, R105) -/

/-- GROUP_SLIP of a group whose oldest incomplete chunk is late moves its deadlines on by one tick and tells the
neighbours, unless a notice for the tick came first: then the higher count stays and only the late chunk's own deadline
moves; GROUP_STALLED past the slip limit reports the stall; a SLIP notice brings a neighbour's count. -/
def Obligations.GroupsSlip : Prop :=
  (∀ (s : State) (h : Fin 256) (g : Group) (w : Work), groupOf s.dev h.val = some g → oldestIncomplete s.dev h.val = some w →
    g.faulted = none → w.late = true → slipOf g s.dev.tik.ended = none →
    let d := shiftGroup (withGroup s.dev h.val fun g => { g with slip := g.slip + 1 }) h.val s.dev.tik.ended (g.slip + 1) (some w)
    exec (.groupSlip h) s = .next (settled s
      (sendSlip (traceChunk d 5 w.cls w.handle w.seq 0 (some g.label)) h.val g s.dev.tik.ended (g.slip + 1) none)))
  ∧ (∀ (s : State) (h : Fin 256) (g : Group) (w : Work) (t count : Nat), groupOf s.dev h.val = some g →
    oldestIncomplete s.dev h.val = some w → g.faulted = none → w.late = true → slipOf g s.dev.tik.ended = some count →
    w.deadline = some t →
    let d := withGroup s.dev h.val fun g => { g with slip := max g.slip count }
    exec (.groupSlip h) s = .next (settled s
      (if t ≤ s.dev.tik.ended.tick.toNat then putWork d { w with deadline := some (t + 1) } else d)))
  ∧ (∀ (s : State) (h : Fin 256) (g : Group), groupOf s.dev h.val = some g → g.faulted = none → g.stalled = false →
    s.dev.tik.slipForce.toNat < g.slip →
    let d := withGroup s.dev h.val fun g => { g with stalled := true }
    let e := setTikEvent (eventTo d g.opener 0x0402 [(20, 1, 1), (22, 2, h.val), (24, 4, g.slip)]) 4
    exec (.groupStalled h) s = .next (settled s
      (traceChunk e 6 groupClass (BitVec.ofNat 16 h.val) ((oldestIncomplete e h.val).elim g.nextSeq (·.seq)) 0 (some g.label))))
  ∧ (∀ (s : State) (p : Port) (h : LysHdr) (tick : BitVec 48) (group : BitVec 16) (count : BitVec 32) (g : Group),
    Accepted s.dev p 1 0x12 h →
    let d := arrive s.dev p 1 0x12 h
    groupOf d group.toNat = some g → g.faulted = none → nbrOn g p ≠ none →
    let at0 : Stamp := ⟨h.era, tick⟩
    let f := withGroup d group.toNat fun g => { g with slip := max g.slip count.toNat }
    exec (.slipNotice p h tick group count) s = .next (settled s
      (if (slipOf g at0).isSome then f
        else sendSlip (shiftGroup f group.toNat at0 (g.slip + 1) none) group.toNat g at0 (max g.slip count.toNat) (some p))))

/-! ### Following the Almanac (sections 2.5 and 8.7) -/

/-- TICK_LOCK locks after 16 frames in a row inside ±40 ns (R94); CABLE_FAULT gives up the cabled edge in use or under test (R109);
HOLDOVER_ENTRY after eight ticks without a frame (R111); ALMANAC_LOST at the holdover limit (R112). A tick frame from
the parent: one of the era in force is forwarded and followed; one of the era that the device is to join is adopted. -/
def Obligations.AlmanacFollowed : Prop :=
  (∀ s : State, s.dev.tik.eraValid = true → s.dev.tik.locked = false → 16 ≤ s.dev.tik.lockRun →
    exec .tickLock s = .next (settled s (setLocked s.dev true)))
  ∧ (∀ s : State, s.dev.tik.source = 1 ∨ cableTested s.dev = true →
    exec .cableFault s = .next (settled s
      (setTikEvent (withTik s.dev fun x => { x with cableIgnored := true, cableRun := 0, source := 2 }) 5)))
  ∧ (∀ s : State, s.dev.tik.eraValid = true → s.dev.tik.isMaster = false → s.dev.tik.holdover = false → 8 ≤ s.dev.tik.sinceFrame →
    exec .holdoverEntry s = .next (settled s
      (traceAlmanac (withTik s.dev fun x => { x with holdover := true, holdoverTicks := 0, lockRun := 0 }) 4)))
  ∧ (∀ s : State, s.dev.tik.holdover = true → s.dev.tik.almanacLost = false → s.dev.tik.holdoverLimit.toNat ≤ s.dev.tik.holdoverTicks →
    exec .almanacLost s = .next (settled s (loseAlmanac s.dev)))
  ∧ (∀ (s : State) (p : Port) (h : LysHdr) (b : TickBody) (off : Int), Accepted s.dev p 0 0x01 h →
      let d := seeEra (arrive s.dev p 0 0x01 h) b.era
      d.join.parent = some p → d.tik.isMaster = false →
      (d.tik.eraValid = true → b.era = d.tik.era →
        exec (.tickFrame p h b off) s = .next (settled s (followTick (forwardTick d p b) b off)))
      ∧ (∀ (x : Procl) (m : BitVec 12), d.tik.eraValid = false → d.join.master = some (x, m) → b.master.toNat = m.toNat →
        exec (.tickFrame p h b off) s = .next (settled s (adoptEra (forwardTick d p b) p b)))
      ∧ (d.tik.eraValid = true → b.era ≠ d.tik.era → b.era = nextEra d.tik.era → b.tick = 0 → (atEraEnd d).isSome = true →
        exec (.tickFrame p h b off) s = .next (settled s (lastFrame (forwardTick d p b) b off)))
      ∧ (d.tik.eraValid = true → b.era ≠ d.tik.era → ¬(b.era = nextEra d.tik.era ∧ b.tick = 0 ∧ (atEraEnd d).isSome = true) →
        fellBehind d b = true → exec (.tickFrame p h b off) s = .next (settled s (catchUpEra (forwardTick d p b) p b))))

/-- TICK_REPORT_SEND in the first tick of a window sends the sum of the children's counts and the device's own to the
parent; the master takes it as a window's sum; TICK_REPORT adds a child's count to the window it names, and one
that comes after the device's own report follows it to the parent; LEAP_LOWER after 256 ticks without a late chunk
announces the next lower level, and a level above the cap goes to the cap (R82–R84). A peer-delay request notes its departure time, its answer carries
the times of arrival and of departure, and half the round trip less the peer's residence is the link's delay. -/
def Obligations.TickReportsAndDelays : Prop :=
  (∀ (s : State) (p : Port), isMember s.dev = true → s.dev.tik.starting = 0 → s.dev.tik.tick.toNat % 16 = 0 →
    16 ≤ s.dev.tik.tick.toNat → s.dev.tik.lastReport ≠ s.dev.tik.tick → s.dev.tik.isMaster = false → s.dev.join.parent = some p →
    let d := withTik s.dev fun x => { x with lateInWindow := false, childReports := 0, lastReport := x.tick }
    let sum := s.dev.tik.childReports + if s.dev.tik.lateInWindow then 1 else 0
    exec .tickReportSend s = .next (settled s
      (sendCtl d p 0 0x04 (beBytes 6 (s.dev.tik.tick.toNat - 16) ++ beBytes 2 sum))))
  ∧ (∀ s : State, isMember s.dev = true → s.dev.tik.starting = 0 → s.dev.tik.tick.toNat % 16 = 0 →
    16 ≤ s.dev.tik.tick.toNat → s.dev.tik.lastReport ≠ s.dev.tik.tick → s.dev.tik.isMaster = true →
    let sum := s.dev.tik.childReports + if s.dev.tik.lateInWindow then 1 else 0
    let d := withTik s.dev fun x => { x with
      lateInWindow := false, childReports := 0, lastReport := x.tick, zeroTicks := if sum = 0 then x.zeroTicks + 16 else 0
      windowSum := sum }
    exec .tickReportSend s = .next (settled s
      (if s.dev.tik.childReports < leapThreshold d ∧ leapThreshold d ≤ sum then raiseLeap d else d)))
  ∧ (∀ (s : State) (p : Port) (h : LysHdr) (window : BitVec 48) (count : BitVec 16), Accepted s.dev p 0 0x04 h →
    let d := arrive s.dev p 0 0x04 h
    isMember d = true → p ∈ d.join.children → h.era = d.tik.era → window.toNat ≤ d.tik.tick.toNat →
    (d.tik.lastReport.toNat ≤ window.toNat →
      let before := d.tik.childReports
      let f := withTik d fun x => { x with childReports := before + count.toNat, zeroTicks := if count = 0 then x.zeroTicks else 0 }
      exec (.tickReport p h window count) s = .next (settled s
        (if f.tik.isMaster = true ∧ before < leapThreshold f ∧ leapThreshold f ≤ before + count.toNat then raiseLeap f else f)))
    ∧ (∀ q, window.toNat < d.tik.lastReport.toNat → d.tik.isMaster = false → d.join.parent = some q →
      exec (.tickReport p h window count) s = .next (settled s
        (sendCtl d q 0 0x04 (beBytes 6 window.toNat ++ beBytes 2 count.toNat))))
    ∧ (window.toNat + 16 = d.tik.lastReport.toNat → d.tik.isMaster = true →
      let before := d.tik.windowSum
      let f := withTik d fun x => { x with windowSum := before + count.toNat, zeroTicks := if count = 0 then x.zeroTicks else 0 }
      exec (.tickReport p h window count) s = .next (settled s
        (if before < leapThreshold f ∧ leapThreshold f ≤ before + count.toNat then raiseLeap f else f))))
  ∧ (∀ s : State, s.dev.tik.isMaster = true → s.dev.tik.eraValid = true → s.dev.tik.leapNext = none →
    let cap := leapCap s.dev s.dev.tik.period.toNat
    cap < s.dev.tik.leap.toNat → exec .leapLower s = .next (settled s (announceLeap s.dev (BitVec.ofNat 4 cap))))
  ∧ (∀ s : State, s.dev.tik.isMaster = true → s.dev.tik.eraValid = true → 256 ≤ s.dev.tik.zeroTicks → s.dev.tik.leapNext = none →
    (effectiveFloor s.dev s.dev.tik.period.toNat s.dev.tik.leapFloor).toNat < s.dev.tik.leap.toNat →
    s.dev.tik.leap.toNat ≤ leapCap s.dev s.dev.tik.period.toNat →
    exec .leapLower s = .next (settled s (announceLeap (withTik s.dev fun x => { x with zeroTicks := 0 }) (s.dev.tik.leap - 1))))
  ∧ (∀ (s : State) (p : Port), linkStands s.dev p = true →
    let n := (portAt s.dev p).delayNumber
    exec (.peerDelaySend p) s = .next (settled s
      (sendCtl (withPort s.dev p fun x => { x with delayNumber := n + 1, delaySent := none }) p 0 0x05 (beBytes 2 n.toNat))))
  ∧ (∀ (d : Dev) (p : Port) (f : Frame),
    (f.type = 0x05 → (portAt (depart d p f) p).delaySent = some ⟨d.tik.tick, d.tik.offset⟩)
    ∧ (f.type = 0x06 → departBody d p f = f.body.take 12 ++ timeBytes d.tik.tick d.tik.offset))
  ∧ (∀ (s : State) (p : Port) (h : LysHdr) (n : BitVec 16) (t : WireTime), Accepted s.dev p 0 0x05 h →
    let d := arrive s.dev p 0 0x05 h
    exec (.peerDelayRequest p h n t) s = .next (settled s
      (sendCtl d p 0 0x06 (beBytes 2 n.toNat ++ timeBytes t.tick t.ns ++ timeBytes d.tik.tick d.tik.offset))))
  ∧ (∀ (s : State) (p : Port) (h : LysHdr) (n : BitVec 16) (t1 t2 t3 t4 : WireTime), Accepted s.dev p 0 0x06 h →
    let d := arrive s.dev p 0 0x06 h
    (portAt d p).delaySent = some t1 → n + 1 = (portAt d p).delayNumber →
    let delay := ((wireNs d t4 - wireNs d t1) - (wireNs d t3 - wireNs d t2)) * 32768
    exec (.peerDelayResponse p h n t2 t3 t4) s = .next (settled s
      (withPort d p fun x => { x with delaySent := none, linkDelay := BitVec.ofInt 64 delay })))

/-! ### Eras and membership (chapter 12) -/

/-- A candidate for master with an up port starts an election; the best candidate repeats its Proclamation; it
establishes the era that the election proposed once it stands unopposed (R511–R514). A received Proclamation is answered
with the era by a member of one, and compared with the best known otherwise; an era frame is compared with the era held,
or accepted (R512–R517). -/
def Obligations.ErasEstablished : Prop :=
  (∀ s : State, eraHost s.dev = false → s.dev.join.masterPri ≠ 0 → s.dev.tik.eraValid = false → s.dev.join.electing = false →
    s.dev.join.master = none → s.dev.pwr.stage = 8 → upPorts s.dev ≠ [] →
    exec .electionStart s = .next (settled s (startElection s.dev)))
  ∧ (∀ s : State, s.dev.join.electing = true → bestIsOwn s.dev = true → eraHost s.dev = false → pendingFn s.dev 4 = false →
    let own : Procl := ⟨s.dev.join.masterPri, s.dev.fuses.serial, nextEra s.dev.join.highEra, 0⟩
    exec .proclamationSend s = .next (settled s
      (sendProclamations (withJoin s.dev fun j => { j with best := some own }) ⟨own.priority, 0, own.era, own.serial, 0⟩ none)))
  ∧ (∀ (s : State) (b : Procl), s.dev.join.best = some b → s.dev.join.electing = true → bestIsOwn s.dev = true →
    eraHost s.dev = false →
    exec .becomeMaster s = .next (settled s (establishEra s.dev (maxEra b.era s.dev.join.maxProposed) s.dev.join.masterPri)))
  ∧ (∀ (s : State) (p : Port) (h : LysHdr) (b : ProcBody), Accepted s.dev p 0 0x02 h →
    let d := withJoin (arrive s.dev p 0 0x02 h) fun j => { j with maxProposed := maxEra j.maxProposed b.era }
    (d.tik.eraValid = true → d.tik.almanacLost = false → isMember d = true →
      exec (.proclamation p h b) s = .next (settled s (answerEra d p)))
    ∧ ((d.tik.eraValid = true ∧ d.tik.almanacLost = true) ∨ (d.tik.eraValid = false ∧ d.join.master = none) → eraHost d = false →
      exec (.proclamation p h b) s = .next (settled s (takeProclamation d p b))))
  ∧ (∀ (s : State) (p : Port) (h : LysHdr) (b : ProcBody), Accepted s.dev p 0 0x03 h →
    let d := seeEra (arrive s.dev p 0 0x03 h) b.era
    let x : Procl := ⟨b.priority, b.serial, b.era, b.hops⟩
    let m : BitVec 12 := b.master.truncate 12
    (∀ y k, d.join.master = some (y, k) → exec (.eraFrame p h b) s = .next (settled s (compareEra d p x y m)))
    ∧ (d.join.master = none → (∀ y, d.join.best = some y → y.serial = x.serial ∨ strongerP x y = true) →
      exec (.eraFrame p h b) s = .next (settled s (acceptEra d p x m))))
  ∧ (∀ (s : State) (m : Procl) (k : BitVec 12), s.dev.join.master = some (m, k) → s.dev.tik.isMaster = true →
    s.dev.tik.eraValid = true → s.dev.tik.silent = false →
    exec .eraFramePeriodic s = .next (settled s (sendEraFrames s.dev m k 0 none)))

/-- The master forms the topology from the reports it holds once an era is 64 ticks old; a member that holds none asks
for it by a report; a segment from the parent is sent on and applied with the others of its set (R519, R520). -/
def Obligations.TopologyFormed : Prop :=
  (∀ s : State, s.dev.tik.isMaster = true → s.dev.tik.eraValid = true → s.dev.tik.starting = 0 → 64 ≤ s.dev.tik.tick.toNat →
    s.dev.join.topoValid = false → s.dev.join.duplicate = false →
    let rs := putReport (ownReport s.dev false) s.dev.join.reports
    let edges := formEdges rs
    let d := withJoin (draw s.dev).2 fun j => { j with
      reports := rs, edges := edges, members := dedup (rs.map (·.member)), topoEra := s.dev.tik.era, topoValid := true }
    exec .topologyForm s = .next (settled s (sendSegments d
      (formSegments edges s.dev.tik.era (BitVec.ofNat 48 (s.dev.tik.tick.toNat + Config.choice s.dev.freeCount))))))
  ∧ (∀ s : State, s.dev.tik.eraValid = true → s.dev.tik.isMaster = false →
    (s.dev.join.topoValid = false ∨ s.dev.join.topoEra ≠ s.dev.tik.era) → s.dev.join.duplicate = false →
    exec .topologyMissing s = .next (settled s (sendUp s.dev (reportBody 2 (ownReport s.dev false)))))
  ∧ (∀ (s : State) (p : Port) (h : LysHdr) (b : TopoBody), Accepted s.dev p 3 0x33 h → 1 ≤ b.edges.length →
    b.edges.length ≤ 2040 → b.index.toNat < b.count.toNat → b.count.toNat ≤ 17 →
    let d := arrive s.dev p 3 0x33 h
    d.join.parent = some p → d.tik.isMaster = false →
    let f := sendDown d (segmentBody b)
    b.era = f.tik.era ∨ b.era = nextEra f.tik.era →
    let other := fun (x : TopoBody) => !(x.era = b.era && x.firstTick = b.firstTick && x.index = b.index)
    exec (.topologySegment p h b) s = .next (settled s
      (applyTopology (withJoin f fun j => { j with segments := j.segments.filter other ++ [b] }))))

/-- Sixteen ticks after the first join request the master announces an era change that admits the members, and sends
the topology of the era to come (R524); a report and a join request of at most 16 links go to the master. HELLO_SEND
names the device on an up port; a hello makes the peer known and, the first time, has the links reported; a child
attaches; the parent tells of members lost and of duplicates, and both are sent on (R506, R510, R518, R525). -/
def Obligations.MembersJoin : Prop :=
  (∀ (s : State) (x : BitVec 48), s.dev.tik.isMaster = true → s.dev.tik.eraValid = true → s.dev.tik.starting = 0 →
    s.dev.join.firstJoin = some x → x.toNat + 16 ≤ s.dev.tik.tick.toNat → s.dev.tik.change = none →
    let t := s.dev.tik
    let known := putReport (ownReport s.dev false) s.dev.join.reports
    let rs := (s.dev.join.joins.foldl (fun rs b => putReport b rs) (known.filter fun r => !s.dev.join.lost.contains r.member)).map
      (renameLinks (renumbered known s.dev.join.joins))
    let segs := formSegments (formEdges rs) (nextEra t.era) 0
    let d := withJoin s.dev fun j => { j with
      reports := rs, admitting := j.joins, removing := j.lost, joins := [], firstJoin := none, segments := j.segments ++ segs }
    exec .joinAnnounce s = .next (settled s (sendSegments (announce d ⟨0, t.period, t.holidayForce, t.leapFloor⟩) segs)))
  ∧ (∀ (s : State) (p : Port) (h : LysHdr) (b : ReportBody), Accepted s.dev p 3 0x33 h → b.links.length ≤ 16 →
    let d := arrive s.dev p 3 0x33 h
    exec (.linkReport p h b) s = .next (settled s (takeReport d p b 2))
    ∧ exec (.joinRequest p h b) s = .next (settled s (takeReport d p b 4)))
  ∧ (∀ (s : State) (p : Port), linkStands s.dev p = true →
    let x := portAt s.dev p
    exec (.helloSend p) s = if x.helloSent && x.helloHeard then .next s
      else .next (settled s (sendDisc (withPort s.dev p fun x => { x with helloSent := true }) p (helloBody s.dev p))))
  ∧ (∀ (s : State) (p : Port) (h : LysHdr) (b : HelloBody), Accepted s.dev p 3 0x33 h → b.port.toNat < 16 →
    let d := arrive s.dev p 3 0x33 h
    let f := withPort d p fun x => { x with peer := b.member, peerValid := true, helloHeard := true }
    exec (.hello p h b) s = .next (settled s (if (portAt d p).peerValid ∧ (portAt d p).peer = b.member then f else reportLinks f)))
  ∧ (∀ (s : State) (p : Port) (h : LysHdr), Accepted s.dev p 3 0x33 h →
    let d := arrive s.dev p 3 0x33 h
    (d.join.master ≠ none → d.join.parent ≠ some p → p ∉ d.join.children →
      exec (.childAttach p h) s = .next (settled s (reportLinks (withJoin d fun j => { j with children := j.children ++ [p] }))))
    ∧ (∀ m : BitVec 12, d.join.parent = some p →
      exec (.memberLost p h m) s = .next (settled s (loseMember (sendDown d (lostBody m)) m)))
    ∧ (∀ serial : BitVec 64, d.join.parent = some p →
      exec (.duplicateNotice p h serial) s = .next (settled s
        (if serial = d.fuses.serial then
            withJoin d fun j => { j with duplicate := true, topoValid := false, edges := [], members := [] }
          else sendDown d (duplicateBody serial)))))

/-! ### Chunks on the links (sections 8.4 and 8.5) -/

/-- A received segment that fits its chunk, of a chunk that is wanted and not yet held, joins what is held of it; a
segment of a chunk already acknowledged is acknowledged again; one of a chunk that is held and waits for its check
changes only the attempt that the answer will name; one nobody waits for is dropped (R353–R357). -/
def Obligations.SegmentsTaken : Prop :=
  ∀ (s : State) (p : Port) (h : LysHdr) (bs : List Byte), Accepted s.dev p 2 0x20 h →
    let d := arrive s.dev p 2 0x20 h
    let known := (portAt d p).acked.find? fun a => a.stream = h.stream && a.handle = h.handle && a.seq = h.seq
    (segmentFits h bs = false → exec (.chunkSegment p h bs) s = .next (settled s (dropFrame d p)))
    ∧ (∀ a, segmentFits h bs = true → known = some a → exec (.chunkSegment p h bs) s = .next (settled s (ackAgain d p h a)))
    ∧ (segmentFits h bs = true → known = none → segmentWanted d p h = false →
      exec (.chunkSegment p h bs) s = .next (settled s (dropFrame d p)))
    ∧ (segmentFits h bs = true → known = none → segmentWanted d p h = true →
      (h.stream = true ∨ ∀ g, groupOf d h.handle.toNat = some g → rxOf g p h.seq = none) →
      exec (.chunkSegment p h bs) s = .next (settled s (addSegment d p h bs)))
    ∧ (∀ g, segmentFits h bs = true → known = none → segmentWanted d p h = true → h.stream = false →
      groupOf d h.handle.toNat = some g → rxOf g p h.seq ≠ none →
      exec (.chunkSegment p h bs) s = .next (settled s (noteAttempt d p h)))

/-- An ACK of a chunk that has left ends its wait on the port; a RE_ASK of the latest attempt sends it, or the segments
it names, again; a partial chunk whose time is over is asked for again, and a chunk without ACK is sent again. -/
def Obligations.ChunksAcknowledged : Prop :=
  (∀ (s : State) (p : Port) (h : LysHdr) (c : SentChunk), Accepted s.dev p 1 0x10 h →
    let d := arrive s.dev p 1 0x10 h
    wireChunk d p h.stream h.handle h.seq = some c → (c.left = true ∨ c.attempt ≠ 0) →
    exec (.ack p h) s = .next (settled s (acknowledged d p c)))
  ∧ (∀ (s : State) (p : Port) (h : LysHdr) (reason : BitVec 8) (missing : BitVec 32) (c : SentChunk), Accepted s.dev p 1 0x11 h →
    reason ≠ 0 → reason.toNat ≤ 3 →
    let d := bumpPort (arrive s.dev p 1 0x11 h) p 5 1
    wireChunk d p h.stream h.handle h.seq = some c → h.attempt = c.attempt → c.left = true →
    let named := (allSegments c).filter fun k => missing.getLsbD k
    let segs := if reason = 3 ∧ named ≠ [] then named else allSegments c
    exec (.reAsk p h reason missing) s = .next (settled s
      (retry (traceSent d 4 c p) p c segs (if reason = 2 then 0x0301 else 0x0302))))
  ∧ (∀ (s : State) (p : Port) (stream : Bool) (handle : BitVec 16) (seq : BitVec 32) (x : Partial),
    (portAt s.dev p).partials.find? (samePartial stream handle seq) = some x →
    exec (.reasmTimeout p stream handle seq) s = .next (settled s
      (askAgain s.dev p x 3 ((missingSegments x).foldl (fun acc k => acc + 2 ^ k) 0))))
  ∧ (∀ (s : State) (p : Port) (stream : Bool) (handle : BitVec 16) (seq : BitVec 32) (c : SentChunk),
    sentChunk s.dev p stream handle seq = some c → c.left = true →
    exec (.ackTimeout p stream handle seq) s = .next (settled s (retry s.dev p c (allSegments c) 0x0503)))

/-- Frames about a group: an exponent from the parent is kept and sent on; a grant is the neighbour's limit from then
on, and is kept for the group's next opening too where it may be meant for that (log 16); a member
that may adopt takes the orphan in and grants it what the group has granted, and its answer makes it the parent; an
ABORT faults the group with its status (R141, R394, R415, R418). -/
def Obligations.GroupFramesTaken : Prop :=
  (∀ (s : State) (p : Port) (h : LysHdr) (group : BitVec 16) (bucket exponent : BitVec 8) (g : Group), Accepted s.dev p 1 0x13 h →
    let d := arrive s.dev p 1 0x13 h
    groupOf d group.toNat = some g → (g.parent.any fun x => x.port = p) = true →
    exec (.exponentNotice p h group bucket exponent) s = .next (settled s
      (sendExponent { d with exponents := expSet d.exponents group.toNat bucket.toNat exponent } group.toNat bucket.toNat exponent)))
  ∧ (∀ (s : State) (p : Port) (h : LysHdr), Accepted s.dev p 1 0x14 h → h.stream = false →
    let d := arrive s.dev p 1 0x14 h
    let n := h.handle.toNat
    (∀ limit,
      let e := withNbr d n p fun x => { x with grant := limit }
      (∀ g x, groupOf d n = some g → nbrOn g p = some x → seqBefore x.grant limit = true → assoc n (portAt d p).grants = none →
        exec (.grant p h limit) s = .next (settled s e))
      ∧ ((∀ g x, groupOf d n = some g → nbrOn g p = some x → seqBefore x.grant limit = false ∨ assoc n (portAt d p).grants ≠ none) →
        exec (.grant p h limit) s = .next (settled s (withPort e p fun x => { x with grants := assocSet n limit x.grants }))))
    ∧ (∀ g first, groupOf d n = some g → mayAdopt d n g first = true → nbrOn g p = none →
      let f := addDestination n p first (adoptChild d n p first)
      let reply := sendRequest f p false h.handle 3 (requestOps [(4, 4, first.toNat), (8, 1, 1)])
      exec (.adopt p h first) s = .next (settled s (sendRequest reply p false h.handle 1 (requestOps [(4, 4, g.granted.toNat)]))))
    ∧ (∀ g first accepted, groupOf d n = some g → g.faulted = none → g.adopting = some first →
      exec (.adoptReply p h first accepted) s = .next (settled s
        (if accepted then takeParent d n g p first else faultGroup d n 0x0507 none)))
    ∧ (∀ g status, groupOf d n = some g → nbrOn g p ≠ none →
      exec (.abort p h status) s = .next (settled s (faultGroup d n status (some p)))))

/-- The frames of a handoff (section 10.3): a request that finds room opens an incoming handoff with a limit of eight
chunks, one that does not is refused with the reason; the reply starts the chunks or ends the command; a grant raises
the limit; the end completes the command on the sender. -/
def Obligations.HandoffFramesTaken : Prop :=
  ∀ (s : State) (p : Port) (h : LysHdr), Accepted s.dev p 1 0x14 h → h.stream = true →
    let d := arrive s.dev p 1 0x14 h
    (∀ (first positions : Word) (firstLayer layersM1 bpp format : BitVec 8),
      let layers := layersM1.toNat + 1
      let room := handoffRoom d h.handle first.toNat positions.toNat firstLayer.toNat layers (bpp.toNat % 128) format.toNat
      (∀ st, room = .error st → exec (.handoffBegin p h first positions firstLayer layersM1 bpp format) s = .next (settled s
        (sendStream d p h.handle 0 0x0102 (requestOps [(2, 2, st.toNat), (4, 4, 0)]))))
      ∧ (∀ f, room = .ok f →
        let i : Incoming := ⟨h.handle, p, (portAt f p).peer, first.toNat, positions.toNat, firstLayer.toNat, layers, h.seq + 8, h.seq, [], []⟩
        exec (.handoffBegin p h first positions firstLayer layersM1 bpp format) s = .next (settled s
          (sendStream { forgetOnPorts f true h.handle with incoming := f.incoming ++ [i] } p h.handle 0 0x0102
            (requestOps [(2, 2, 0), (4, 4, (h.seq + 8).toNat)])))))
    ∧ (∀ status limit r o, handoffTo d p h .handoffReply = some (r, o) →
      (status ≠ 0 → exec (.handoffReply p h status limit) s = .next (settled s (turnEnd d r status 0)))
      ∧ (∀ x, status = 0 → streamOf d r.hdr.handle.toNat = some x →
        exec (.handoffReply p h status limit) s = .next (settled s (handoffAccepted d r x o limit))))
    ∧ (∀ limit r o, handoffTo d p h .handoffDone = some (r, o) →
      exec (.handoffGrant p h limit) s = .next (settled s
        (if seqBefore r.limit limit then putRunning d { r with limit := limit } else d)))
    ∧ (∀ status r o, handoffTo d p h .handoffDone = some (r, o) →
      exec (.handoffDone p h status) s = .next (settled s
        (turnEnd (dropWorks (forgetOnPorts d true r.hdr.handle) fun w => w.owner = r.id) r status 0)))

/-! ### Credits and ports (chapter 8) -/

/-- A frame that leaves consumes exactly its units of its channel, none of a type that takes no credit, and its credit
field returns the limit of the channel whose turn it is. A frame that the port takes leaves once its lanes
carry frames and the channel's limit covers it; otherwise it waits and consumes nothing, and a port that is down takes
nothing (R348, R365). -/
def Obligations.CreditIsSpentOnDeparture : Prop :=
  (∀ (d : Dev) (p : Port) (f : Frame), let e := depart d p f
      (∀ v, (portAt e p).sent[v] = if takesCredit f.type = true ∧ v = vcFin f.vc then
          (portAt d p).sent[v] + BitVec.ofNat 30 (frameUnits (departBody d p f).length) else (portAt d p).sent[v])
      ∧ (portAt e p).limit = (portAt d p).limit
      ∧ (portAt e p).advertised[vcFin (portAt d p).rotate] = advertise (portAt d p) (vcFin (portAt d p).rotate)
      ∧ (portAt e p).rotate = (portAt d p).rotate + 1
      ∧ (∃ g, (portAt e p).wire = (portAt d p).wire ++ [g] ∧ g.body = departBody d p f ∧ g.hdr.credit = true ∧ g.hdr.seq = f.hdr.seq
        ∧ g.hdr.tick = d.tik.tick.truncate 16 ∧ (f.type ≠ 0x12 → g.hdr.era = d.tik.era)
        ∧ g.hdr.length.toNat = (departBody d p f).length % 2 ^ 14 ∧ g.hdr.mac = ownMac d p
        ∧ g.hdr.creditLimit = advertise (portAt d p) (vcFin (portAt d p).rotate))
      ∧ ∀ q : Port, q ≠ p → portAt e q = portAt d q)
  ∧ (∀ (d : Dev) (p : Port) (f : Frame),
      (takesFrame d p f.type = false → sendFrame d p f = d)
      ∧ (takesFrame d p f.type = true → mayDepart d p f = false → (portAt (sendFrame d p f) p).wire = (portAt d p).wire
        ∧ (portAt (sendFrame d p f) p).queue = (portAt d p).queue ++ [f])
      ∧ (takesFrame d p f.type = true → mayDepart d p f = true → (takesCredit f.type = false ∨ ∀ g ∈ (portAt d p).queue, g.vc ≠ f.vc) →
        sendFrame d p f = depart d p f))

/-- Credits: a credit frame replaces the limits and lets queued frames leave; credit-sync resets the received counts to
what the peer has sent and reports units lost; a credit frame is sent by a port that is up, settles or has trained,
credit-sync by one that is up or settles, at the start of every 16th tick (R348–R350, R376). A MAC control frame, a frame with a bad FCS and a frame of an unlisted type change nothing but the port's
counters and its event (R335, R346). -/
def Obligations.CreditFramesTaken : Prop :=
  (∀ (s : State) (p : Port) (h : LysHdr) (limits : Vector (BitVec 30) 4), Accepted s.dev p 3 0x30 h →
    exec (.credit p h limits) s = .next (settled s
      (flushPort (withPort (arrive s.dev p 3 0x30 h) p fun x => { x with limit := limits }) p)))
  ∧ (∀ (s : State) (p : Port), takesFrame s.dev p 0x30 = true → exec (.creditSend p) s = .next (settled s (sendCredit s.dev p)))
  ∧ (∀ (s : State) (p : Port), takesFrame s.dev p 0x31 = true → s.dev.tik.tick.toNat % 16 = 0 → s.dev.tik.offset = 0 →
    exec (.creditSyncSend p) s = .next (settled s (sendCtl s.dev p 3 0x31 (limitBytes (portAt s.dev p).sent))))
  ∧ (∀ (s : State) (p : Port) (h : LysHdr) (sent : Vector (BitVec 30) 4), Accepted s.dev p 3 0x31 h →
    let d := arrive s.dev p 3 0x31 h
    let lost := (allVcs.map fun v => (sent[v] - (portAt d p).received[v]).toNat).foldl (· + ·) 0
    let f := bumpPort (withPort d p fun x => { x with received := sent }) p 7 lost
    exec (.creditSync p h sent) s = .next (settled s (if lost = 0 then f else portEvent f p 6)))
  ∧ (∀ (s : State) (p : Port), portAlive (portAt s.dev p) = true →
      exec (.macControlFrame p) s = .next (settled s (withPort (withPort s.dev p fun x => { x with
          counters := x.counters.set 9 (satAdd x.counters[9] 1) }) p fun x => { x with event := x.event ||| 128 }))
      ∧ exec (.fcsErrorFrame p true) s = .next (settled s (withPort s.dev p fun x => { x with
          counters := x.counters.set 2 (satAdd x.counters[2] 1) }))
      ∧ exec (.fcsErrorFrame p false) s = .next (settled s (withPort s.dev p fun x => { x with
          counters := x.counters.set 8 (satAdd x.counters[8] 1) }))
      ∧ exec (.unlistedFrameType p) s = .next (settled s (withPort s.dev p fun x => { x with
          counters := x.counters.set 8 (satAdd x.counters[8] 1) })))

/-- Lanes (section 8.9): a swap request is accepted where the quad's spare lane is free and refused where it is not,
an answer to our own request is noted, and the swap is made at its tick, after which
a lane whose own proposal gave way is proposed again; a degraded lane asks for a repair; lost signal
takes the port down and moves the lane where both ends have a spare. PORT_UP of a training, enabled port at its quad's
rate brings it up with the peer's limits and sends credit; PORT_DOWN takes a live port down; QUAD_SETTLED ends settling,
and the quad's ports carry what they queued (R347, R364, R379). -/
def Obligations.PortsAndLanes : Prop :=
  (∀ (s : State) (p : Port) (h : LysHdr) (kind lane : BitVec 8) (t : BitVec 48), Accepted s.dev p 3 0x32 h → lane.toNat ≤ 3 →
    let d := arrive s.dev p 3 0x32 h
    let l : BitVec 2 := lane.truncate 2
    (kind = 1 → ownStands d p t = false → exec (.laneSwap p h kind lane t) s = .next (settled s
      (if spareFree d (quadOf p) then
          sendCtl (withPort d p fun x => { x with yielded := x.yielded || x.swap.any (·.ours), swap := some ⟨l, t, true, false, true⟩, leftOut := some t })
            p 3 0x32 (swapBody 2 l t)
        else sendCtl d p 3 0x32 (swapBody 3 l t))))
    ∧ (∀ w, kind = 2 ∨ kind = 3 → (portAt d p).swap = some w → w.ours = true → w.lane = l → w.tick = t →
      exec (.laneSwap p h kind lane t) s = .next (settled s (withPort d p fun x => { x with
        swap := if kind = 2 then some { w with accepted := true } else none }))))
  ∧ (∀ (s : State) (p : Port) (w : Swap), (portAt s.dev p).swap = some w → w.accepted = true → w.approved = true →
    w.tick.toNat ≤ s.dev.tik.tick.toNat → spareFree s.dev (quadOf p) = true →
    exec (.laneSwapExecute p) s = .next (settled s (proposeAgain (moveLane s.dev p (lane4 w.lane)) p)))
  ∧ (∀ (s : State) (p : Port) (lane : Fin 4), portUpNow s.dev p = true →
    let d := portEvent (withPort s.dev p fun x => { x with degraded := some (BitVec.ofNat 2 lane.val) }) p 2
    let detail := BitVec.ofNat 32 (p.val + lane.val * 256)
    repairKnown d 3 (quadOf p).val detail = false → (portAt d p).swap = none → spareFree d (quadOf p) = true →
    exec (.laneDegraded p lane) s = .next (settled s
      (requestRepair d 3 (quadOf p).val detail)))
  ∧ (∀ (s : State) (p : Port) (lane : Fin 4) (peer : Bool), portAlive (portAt s.dev p) = true → quadCarries s.dev p = true →
    let d := losePort s.dev p (if s.dev.rpr.failed then 4 else 1)
    exec (.laneSignalLoss p lane peer) s = .next (settled s
      (if spareFree s.dev (quadOf p) && peer then moveLane d p lane else d)))
  ∧ (∀ (s : State) (p : Port) (rate : BitVec 2) (limits : Vector (BitVec 30) 4),
    let x := portAt s.dev p
    x.state = 1 → x.ctrl.getLsbD 0 = true → rate = s.dev.quads[quadOf p].rateActive → s.dev.rpr.failed = false →
    s.dev.pwr.inReset = false →
    let d := withPort s.dev p fun x => { clearLink x with
      state := 2, rate := rate, routedForce := x.ctrl.getLsbD 2, macLearned := x.macLearned, limit := limits }
    let e := sendCredit (portEvent d p 0) p
    exec (.portUp p rate limits) s = .next (settled s (if x.peerValid then reportLinks e else e)))
  ∧ (∀ (s : State) (p : Port), portAlive (portAt s.dev p) = true → quadCarries s.dev p = true →
    exec (.portDown p) s = .next (settled s
      (losePort s.dev p (if s.dev.rpr.failed then 4 else if (portAt s.dev p).ctrl.getLsbD 0 then 1 else 0))))
  ∧ (∀ (s : State) (q : Quad), s.dev.quads[q].settling = true ∨ s.dev.quads[q].recalibrating = true →
    let d := withQuad s.dev q fun x => { x with settling := false, recalibrating := false, locked := true, remaining := 0 }
    exec (.quadSettled q) s = .next (settled s ((allPorts.filter fun p => quadOf p = q).foldl
      (fun d p => flushPort (withPort d p fun y => { y with state := if y.state = 3 then 2 else y.state }) p) d)))

/-! ### The Reckoner island (chapter 11) -/

/-- A ready island takes the oldest tap entry, and closes an interval whose length is over; it boots with the next boot
number and Reckoner time 0, and at supply loss drains the tap, closes its record and loses what it held. The seal fuse
is blown once, on an open test port; any debug access of a sealed island breaks the seal for good and is logged; a clock
that is more than 20 off marks the time suspect (chapter 11). -/
def Obligations.IslandRuns : Prop :=
  (∀ (s : State) (e : TapEntry) (rest : List TapEntry), s.dev.met.tap = e :: rest → s.dev.met.ready = true →
    exec .tapEntryTake s = .next (settled s (takeTap (endDue s.dev) e)))
  ∧ (∀ s : State, s.dev.met.ready = true → s.dev.met.extended = false →
    s.dev.met.start.toNat + intervalSteps s.dev.met ≤ s.dev.met.time.toNat →
    exec .intervalEnd s = .next (settled s (withMet s.dev fun m => closeInterval s.dev.fuses.serial m 0)))
  ∧ (∀ (s : State) (ok : Bool), s.dev.met.powered = false → s.dev.fuses.variant = 1 → s.dev.fuses.metCrystal = true →
    let m := { s.dev.met with
      powered := true, bootNumber := s.dev.met.bootNumber + 1, time := 0, timeNs := 0, start := 0, suspect := false,
      tap := [], reserved := 0, lastSeq := none, taken := 0 }
    let m := addLog m 0x01 m.bootNumber.toNat
    let state := if ok then m.sealState else 4
    let n := { m with ready := state != 4, sealState := state, tapClosed := s.dev.pwr.hold }
    exec (.islandBoot ok) s = .next (settled s { s.dev with met := closeFull s.dev.fuses.serial n }))
  ∧ (∀ s : State, s.dev.met.powered = true →
    let d := endOpenCommits s.dev
    let e := if d.met.ready then
        let e := metLog (drainTap d) 0x0B 0
        withMet e fun m => closeInterval e.fuses.serial m 2
      else d
    exec .islandSupplyLoss s = .next (settled s
      (withMet e fun m => { m with powered := false, ready := false, tap := [], reserved := 0 })))
  ∧ (∀ s : State, s.dev.met.sealState = 2 →
    exec .islandDebugAccess s = .next (settled s (metLog (withMet s.dev fun m => { m with sealState := 3 }) 0x0A 0)))
  ∧ (∀ s : State, s.dev.met.sealState = 1 → s.dev.met.portOpen = true → s.dev.fuses.variant = 1 →
    exec .sealFuseBlow s = .next (settled s (withMet s.dev fun m => { m with sealState := 2, portOpen := false })))
  ∧ (∀ (s : State) (x : BitVec 16), s.dev.met.ready = true → 20 < x.toNat →
    exec (.clockAnomaly x) s = .next (settled s (metLog (withMet s.dev fun m => { m with suspect := true }) 0x07 x.toNat)))

/-! ### Power, clocks and resets (chapter 13) -/

/-- BROWN_HOLD: a core voltage below the warning level holds the device, closes the tap and logs it; above the
requalification level requalification runs and completes; the hold is left at a tick boundary, without an era as soon as
requalification completes (R551–R557). -/
def Obligations.BrownHold : Prop :=
  (∀ (s : State) (mv : BitVec 12), mv.toNat < vwarnMv s.dev → s.dev.pwr.inReset = false → s.dev.pwr.hold = false →
    let d := withPwr (senseDip s.dev mv) fun p => { p with hold := true, brownCount := satAdd p.brownCount 1 }
    let e := traceDevice (endOpenCommits (setPwrEvent d 0)) 11 deviceUnit 1
    exec (.brownHoldEntry mv) s = .next (settled s (metLog (withMet e fun m => { m with tapClosed := true }) 0x02 0)))
  ∧ (∀ (s : State) (mv : BitVec 12), s.dev.bus.brownLow = true → s.dev.pwr.requalDone = false →
    exec (.requalificationStart mv) s = .next (settled s (withPwr s.dev fun p => { p with
      sensed := mv, warn := decide (mv.toNat < vwarnMv s.dev), requal := decide (vwarnMv s.dev + 15 < mv.toNat ∨ (s.dev.pwr.requal = true ∧ mv.toNat = vwarnMv s.dev + 15)) })))
  ∧ (∀ s : State, s.dev.pwr.requal = true →
    exec .requalificationComplete s = .next (settled s
      (if s.dev.pwr.hold then
          let d := withPwr s.dev fun p => { p with requal := false, requalDone := true }
          if s.dev.tik.eraValid || s.dev.pwr.inReset then d else resumeHold (drawFailures d).2 (drawFailures d).1
        else withBus (withPwr s.dev fun p => { p with requal := false, warn := false }) fun b => { b with brownLow := false })))
  ∧ (∀ (s : State) (failed : List Nat), s.dev.pwr.hold = true → s.dev.pwr.requalDone = true → s.dev.pwr.inReset = false →
    (s.dev.tik.eraValid = false ∨ s.dev.tik.offset = 0) →
    exec (.brownHoldResume failed) s = .next (settled s (resumeHold s.dev failed.contains)))

/-- Every reset of the main die: BROWNOUT drives BROWN_N, POWER releases what waits for a power cycle, FUNDAMENTAL
and DEVICE keep HBM, a sequence error and a thermal trip hold the die until its power is cycled; a link that is down
takes no device reset (R544, R559, R560, R687). -/
def Obligations.ResetsOfTheDie : Prop :=
  ∀ s : State,
    exec .brownoutReset s = .next (settled s (senseDip (dieReset s.dev 2 false) (dieReset s.dev 2 false).pwr.sensed))
    ∧ (∀ aon d, d = withBus (withPwr (dieReset s.dev 0 false) fun p => { p with heldForPowerCycle := false }) (fun b =>
          { b with thermTripLow := false }) →
      exec (.powerReset aon) s = .next (settled s (if aon then loseAon d else d)))
    ∧ (¬(s.dev.pwr.inReset = true ∧ s.dev.pwr.kind = 0) →
      exec .fundamentalReset s = .next (settled s (dieReset s.dev 1 true)))
    ∧ (s.dev.hif.linkUp = true → s.dev.pwr.inReset = false → exec .deviceReset s = .next (settled s (dieReset s.dev 4 true)))
    ∧ (s.dev.pwr.inReset = false → exec .sequenceError s = .next (settled s
        (setPwrEvent (withPwr (dieReset s.dev s.dev.pwr.kind false) fun x => { x with
          resetCount := s.dev.pwr.resetCount, sequenceErr := true, heldForPowerCycle := true }) 6)))
    ∧ (s.dev.bus.thermTripLow = false → exec .thermalTrip s = .next (settled s
        (withPwr (withBus (dieReset s.dev 3 false) fun b => { b with thermTripLow := true }) fun p =>
          { p with heldForPowerCycle := true })))

/-- What a reset of the main die leaves (Tables 11-6 and 13-6): fuses, flash and the Annals size stay, nothing runs,
no object is open, scratchpad is empty, the die is held in reset with the kind and one more reset counted. -/
def Obligations.ResetLeaves : Prop :=
  ∀ (d : Dev) (kind : BitVec 3) (kept : Bool), let e := dieReset d kind kept
    e.fuses = d.fuses ∧ e.flash = d.flash ∧ e.annalsMiB = d.annalsMiB ∧ e.pwr.inReset = true ∧ e.pwr.kind = kind
    ∧ e.pwr.resetCount = satAdd d.pwr.resetCount 1 ∧ e.glb.ready = false ∧ e.glb.initialised = false ∧ e.seed = none
    ∧ e.running = [] ∧ e.work = [] ∧ e.groups = [] ∧ e.buckets = [] ∧ e.streams = [] ∧ e.descs = [] ∧ e.allocs = []
    ∧ e.dbg = Dbg.reset ∧ e.met.tap = [] ∧ e.met.tapClosed = false ∧ e.met.lastSeq = some 0xFFFFFFFF
    ∧ (∀ a, a < scratchTop → memGet e.mem a = 0)
    ∧ (kept = true → ∀ a, hbmBase ≤ a → a < hbmTop → d.resStores = [] → memGet e.mem a = memGet d.mem a)

/-- Temperature: a comparison takes the hottest reading and sets the level; a sensor that stops answering is dead and
raises the event; a lost clock is unlocked, remembered, and has its own consequence, and its return is no event; a
tick-logic fault loses the Almanac (R548–R550, R574–R577). -/
def Obligations.SensorsAndClocks : Prop :=
  (∀ (s : State) (readings : List (Nat × Nat)), s.dev.pwr.inReset = false → readings ≠ [] →
    let alive := fun n => readings.any fun r => r.1 = n
    exec (.thermalCompare readings) s = .next (settled s (judgeLevel (withPwr s.dev fun p => { p with
      hot := (readings.map (·.2)).foldl max 0, deadSensors := p.deadSensors.filter fun n => !alive n }))))
  ∧ (∀ (s : State) (n : Nat), s.dev.pwr.inReset = false →
    let dead := if s.dev.pwr.deadSensors.contains n then s.dev.pwr.deadSensors else s.dev.pwr.deadSensors ++ [n]
    exec (.sensorTimeout n) s = .next (settled s
      (judgeLevel (setPwrEvent (withPwr s.dev fun p => { p with deadSensors := dead }) 5))))
  ∧ (∀ (s : State) (i : Fin 25), s.dev.pwr.inReset = false → s.dev.pwr.lock.getLsbD i.val = true →
    let bit := BitVec.ofNat 25 (2 ^ i.val)
    let d := withPwr (draw s.dev).2 fun p => { p with
      lock := p.lock &&& ~~~bit, clkEvent := p.clkEvent ||| bit, freq := p.freq.set i (Config.freeWord s.dev.freeCount) }
    exec (.clockLockLoss i) s = .next (settled s (clockLost d i.val)))
  ∧ (∀ (s : State) (i : Fin 25), s.dev.pwr.inReset = false → s.dev.pwr.lock.getLsbD i.val = false →
    let d := withPwr s.dev fun p => { p with lock := p.lock ||| BitVec.ofNat 25 (2 ^ i.val) }
    (∀ q, sdsQuad i.val = some q →
      exec (.clockLockRegained i) s = .next (settled s (withQuad d q fun x => { x with locked := !x.settling })))
    ∧ (sdsQuad i.val = none → i.val ≠ 24 → exec (.clockLockRegained i) s = .next (settled s d))
    ∧ (i.val = 24 → exec (.clockLockRegained i) s = .next (settled s (judgeLevel (withPwr d fun p => { p with senseForced := false })))))
  ∧ (∀ s : State, s.dev.pwr.inReset = false → exec .tickLogicFault s = .next (settled s (tickFault s.dev)))

/-- STARTUP of a die that is held in reset and may start: the mask ROM's faults end it with a boot code in the order
fuses, mask ROM, PLLs. The host link comes up with what was negotiated and sets its event; when it is lost, open commits
end, the window's filter and held reads are forgotten and mailboxes with rings in host memory stop (R568, R682, R686). -/
def Obligations.StartupAndHostLink : Prop :=
  (∀ (s : State) (b : BootInputs), s.dev.pwr.inReset = true → s.dev.pwr.heldForPowerCycle = false → s.dev.bus.brownLow = false →
      b.refclkAon = true →
      let d := withPwr (sampleStraps s.dev b) fun p => { p with inReset := false, stage := 3 }
      exec (.startup b) s = .next (settled s (startUp s.dev b))
      ∧ (b.fusesOk = false → startUp s.dev b = bootFail d 3 0x01)
      ∧ (b.fusesOk = true → b.maskRomOk = false → startUp s.dev b = bootFail d 3 0x02)
      ∧ (b.fusesOk = true → b.maskRomOk = true → b.pllsLock = false → startUp s.dev b = bootFail d 3 0x05))
  ∧ (∀ (s : State) (width : BitVec 5) (speed : BitVec 3) (flit cxl hdm : Bool), s.dev.hif.linkUp = false → s.dev.pwr.inReset = false →
    exec (.hostLinkUp width speed flit cxl hdm) s = .next (settled s (withHif s.dev fun h => { h with
      linkUp := true, width := width, speed := speed, flit := flit, cxl := cxl, hdm := hdm, event := h.event ||| 2 })))
  ∧ (∀ s : State, s.dev.hif.linkUp = true → exec .hostLinkDown s = .next (settled s (linkLost s.dev)))

/-! ### Errors and repair (chapter 14) -/

/-- Tiles: a failed tile is taken out with a free cause bit; a parity error is counted and judged on the entry that ran;
a copied slice switches to its spare at the spare's holiday, outside the hold (R588–R590, R600). -/
def Obligations.TilesFailOver : Prop :=
  (∀ (s : State) (t : Tile), s.dev.pwr.inReset = false →
    let bits : BitVec 3 := if Config.choice s.dev.freeCount % 2 = 1 then 4 else 0
    exec (.tileFailure t) s = .next (settled s
      (failTile (withTile (draw s.dev).2 t fun x => { x with tilEvent := x.tilEvent ||| bits }) t.val none)))
  ∧ (∀ (s : State) (t : Tile) (k : Fin 4), s.dev.pwr.inReset = false →
    let d := noteParity s.dev t k
    let serves := (physAt s.dev t.val).state = 0 ∨ (physAt s.dev t.val).state = 2
    let r := BitVec.ofNat 16 (4 * (physAt s.dev t.val).logical.toNat + k.val)
    exec (.engineParityError t k) s = .next (settled s
      (if serves then (runningOn d r).elim d fun e => parityEntry d t.val k.val e else d)))
  ∧ (∀ (s : State) (l : Fin 64), s.dev.pwr.hold = false → copyOf s.dev (BitVec.ofNat 6 l.val) ≠ none →
    exec (.tileCopyDone l) s = .next (settled s (withRpr s.dev fun x => { x with
      copies := x.copies.map fun c => if c.logical = BitVec.ofNat 6 l.val then { c with complete := true } else c })))
  ∧ (∀ (s : State) (l : Fin 64) (c : SliceCopy), copyOf s.dev (BitVec.ofNat 6 l.val) = some c → c.complete = true →
    onHoliday s.dev c.spare = true → s.dev.pwr.hold = false → exec (.tileSwitch l) s = .next (settled s (switchTile s.dev c)))

/-- Memory repairs at the holiday of the unit: a bank goes to a spare bank or is asked for, an HBM row is repaired softly
and entered in the map, a page is copied to a replacement and redirected; an uncorrectable error is judged by the memory
it lies in (R591–R599). Background tasks of the unit that are overdue, or that its holidays come too
seldom for, are counted and displace its foreground work, and those that come to the end of a pass do what the pass does, unless the device is held; a breakpoint that is hit counts and stops
its core (R85, R604–R607, R642). -/
def Obligations.MemoryRepaired : Prop :=
  (∀ (s : State) (t : Tile) (b : Fin 48) (x : Fin 2), s.dev.pwr.inReset = false → s.dev.pwr.hold = false →
    (physAt s.dev t.val).state = 0 → onHoliday s.dev t.val = true → spareBank (physAt s.dev t.val) = some x.val →
    exec (.bankRepair t b) s = .next (settled s
      (if repairMayRun s.dev 2 t.val (fun w => w.toNat % 256 = b.val) then switchBank s.dev t.val b.val x.val
        else bankDue s.dev t.val b.val)))
  ∧ (∀ (s : State) (k : Stack) (detail : Word), s.dev.pwr.inReset = false → s.dev.pwr.hold = false →
    onHoliday s.dev (84 + k.val) = true →
    exec (.hbmRowRepair k detail) s = .next (settled s
      (if repairMayRun s.dev 4 k.val (· = detail) then
          setRprEvent (appendMap (withStack (clearApproved s.dev 4 k.val (· = detail)) k fun h =>
            { h with soft := h.soft ++ [detail] }) 4 k.val detail) 3
        else repairDue s.dev 4 k.val detail)))
  ∧ (∀ (s : State) (k : Stack) (page : Word) (a : Nat) (e : Dev), s.dev.pwr.inReset = false → s.dev.pwr.hold = false →
    onHoliday s.dev (84 + k.val) = true → isHbm (page.toNat * 65536) = true → stackOf (page.toNat * 65536) = k.val →
    (s.dev.hbm[k].retired.any fun e => e.1 = page.toNat) = false → repairMayRun s.dev 5 k.val (· = page) = true →
    s.dev.hbm[k].retired.length < 4096 → takeReplacement s.dev k.val page.toNat = some (a, e) →
    exec (.pageRetire k page) s = .next (settled s (retirePage e k page a)))
  ∧ (∀ (s : State) (a : DevAddr), s.dev.pwr.inReset = false →
    exec (.uncorrectableEcc a) s = if isScratch a.toNat then .next (settled s (scratchError s.dev a.toNat))
      else if isHbm a.toNat then .next (settled s (hbmError s.dev a.toNat))
      else if hbmTop ≤ a.toNat ∧ a.toNat < hostBase ∧ s.dev.met.powered = true then
        .next (settled s (recordError s.dev ((a.toNat - hbmTop) % storeBytesTotal)))
      else .next s)
  ∧ (∀ (s : State) (a : DevAddr), s.dev.met.powered = true → hbmTop ≤ a.toNat → a.toNat < hostBase →
    exec (.uncorrectableEcc a) s = .next (settled s (recordError s.dev ((a.toNat - hbmTop) % storeBytesTotal))))
  ∧ (∀ (s : State) (u : Fin 90) (overdue passed : List (Fin 5)), s.dev.pwr.inReset = false → onHoliday s.dev u.val = true →
    let late := ([0, 1, 2, 3, 4] : List (Fin 5)).filter fun k =>
      taskUnit k.val u.val && (overdue.contains k || alwaysOverdue s.dev k.val)
    let d := late.foldl noteOverdue s.dev
    let e := if late.isEmpty then d else displace d u.val
    exec (.backgroundTask u overdue passed) s = .next (settled s
      (if d.pwr.hold then d else (passed.filter fun k => taskUnit k.val u.val).foldl (fun d k => passTask d u.val k.val) e)))
  ∧ (∀ (s : State) (core : CtrlCore) (slot : Fin 4) (pc : Word), s.dev.pwr.inReset = false →
    exec (.breakpointHit core slot pc) s = .next (settled s (hitBreak s.dev core slot pc)))

/-! ### Rules of the spec, and what is left alone -/

/-- Whatever command runs, and on an idle step, device memory, the ring area and the staging lines keep their
canonical form: no address twice, none out of order, none listed with what an unlisted one reads as. -/
def Obligations.MemoriesStayCanonical : Prop :=
  ∀ s t : State, MemoriesWf s.dev → step s = .next t → MemoriesWf t.dev

/-- R488: no command, register or image changes the seal state. Only the fuse blown on the test port, a debug access
and the island's own boot do (Table 11-4); blowing takes an open port and closes it, and a closed port stays closed. -/
def Obligations.SealStateKept : Prop :=
  (∀ (c : Instr) (s t : State), exec c s = .next t → (∀ b, c ≠ .islandBoot b) → c ≠ .islandDebugAccess → c ≠ .sealFuseBlow →
    t.dev.met.sealState = s.dev.met.sealState)
  ∧ (∀ s t : State, exec .sealFuseBlow s = .next t → t.dev.met.sealState ≠ s.dev.met.sealState →
    s.dev.met.sealState = 1 ∧ s.dev.met.portOpen = true ∧ t.dev.met.sealState = 2 ∧ t.dev.met.portOpen = false)
  ∧ (∀ (c : Instr) (s t : State), exec c s = .next t → s.dev.met.portOpen = false → t.dev.met.portOpen = false)

/-- What the start and the end of a mailbox command leave alone, whatever the command: they touch the mailbox, the
counters, the trace buffer and the watches, and the end also the fault bits, the messages sent, and memory in the one
slot of the completion ring. Every other field and every other mailbox is as the command's own effect left it. -/
def Obligations.CompletionFrame : Prop :=
  (∀ (d : Dev) (n : Mbx) (h : Hdr) (c : Cmd), ∃ ms ws es cp ct tr,
    begun d n h c = { d with
      mbx := ms, counters := ct, trc := tr, dbg := { d.dbg with watches := ws, event := es, copying := cp } }
    ∧ ∀ m : Mbx, m ≠ n → ms[m] = d.mbx[m])
  ∧ (∀ (d : Dev) (n : Mbx) (label : Byte) (h : Hdr) (c : Cmd) (st : Status) (res : BitVec 96), ∃ gl pe ms bs mm b2 ct tr,
    endCommand d n label h c st res = { d with
      glb := gl, pwr := { d.pwr with event := pe }, mbx := ms, bus := bs, mem := mm, bar2 := b2, counters := ct, trc := tr }
    ∧ (∀ m : Mbx, m ≠ n → ms[m] = d.mbx[m])
    ∧ (let a := (mailbox d n).cqBase.value.toNat + 32 * (mailbox d n).cqTail.toNat
      (∀ x, x < hostBase + a ∨ hostBase + a + 32 ≤ x ∨ (mailbox d n).cqDev = true → memGet mm x = memGet d.mem x)
      ∧ (∀ x, x < a ∨ a + 32 ≤ x ∨ (mailbox d n).cqDev = false → memGet b2 x = memGet d.bar2 x)))

/-- What the arrival and the sending of a frame leave alone: they touch the port, the counters and, on arrival of a
frame of VC0, the highest era number seen (chapter 12, log 26), and, when frames leave, the count of free values (the
identification of an IPv4 packet, log 8). Every other field and every other port is as it was. -/
def Obligations.LinkFrame : Prop :=
  (∀ (d : Dev) (p : Port) (vc : BitVec 2) (type : Byte) (h : LysHdr), ∃ ps ct k,
    arrive d p vc type h = { d with
      ports := ps, counters := ct, freeCount := k
      join := if vc = 0 then { d.join with highEra := maxEra d.join.highEra h.era } else d.join } ∧ ∀ q : Port, q ≠ p → ps[q] = d.ports[q])
  ∧ (∀ (d : Dev) (p : Port) (f : Frame), ∃ ps ct k,
    sendFrame d p f = { d with ports := ps, counters := ct, freeCount := k } ∧ ∀ q : Port, q ≠ p → ps[q] = d.ports[q])

/-- Era, tick and offset: the offset rises by one in each CLK_TICK cycle of the tick (an idle step is one, log 1) and
returns to 0 at a boundary, where the tick that ended is remembered and the tick number rises by one, or, while an era
starts, one boundary less is to come (R63, R95). A snapshot holds the three together. -/
def Obligations.TimestampCounts : Prop :=
  (∀ d : Dev, d.pwr.inReset = false → d.tik.offset.toNat + 1 < stretched d →
    (idleTick d).tik.offset = d.tik.offset + 1 ∧ (idleTick d).tik.tick = d.tik.tick ∧ (idleTick d).tik.era = d.tik.era)
  ∧ (∀ d : Dev, let x := (withTik (endTick d) nextTick).tik
    x.offset = 0 ∧ x.ended = ⟨d.tik.era, d.tik.tick⟩ ∧ x.era = d.tik.era ∧ x.period = d.tik.period
    ∧ (d.tik.starting = 0 → x.tick = d.tik.tick + 1 ∧ x.starting = 0)
    ∧ (d.tik.starting ≠ 0 → x.tick = d.tik.tick ∧ x.starting = d.tik.starting - 1))
  ∧ (∀ d : Dev, (takeSnap d).tik.snapEra = d.tik.era ∧ (takeSnap d).tik.snapTick = d.tik.tick
    ∧ (takeSnap d).tik.snapNs = d.tik.offset)

/-- R219: a doorbell value of the ring depth or more moves nothing, sets doorbell_error and stops fetching from the
mailbox; a stopped mailbox fetches nothing, and enabling it clears the stop only once it has been disabled. -/
def Obligations.BadDoorbellStopsMailbox : Prop :=
  (∀ (s : State) (n : Mbx) (v : Word), s.dev.hif.linkUp = true → (mailbox s.dev n).enabled = true →
    (mailbox s.dev n).ringDepth ≤ v.toNat →
    let t := settled s (withMbx s.dev n fun m => { m with doorbellError := true, stopped := true })
    exec (.completionHeadDoorbell n v) s = .next t
    ∧ ((mailbox s.dev n).enable = true → exec (.submissionTailDoorbell n v []) s = .next t))
  ∧ (∀ (s : State) (n : Mbx), (mailbox s.dev n).stopped = true →
    fetchOne s.dev n = s.dev ∧ ∀ h c, exec (issued n h c) s = .next s)
  ∧ (∀ (d : Dev) (n : Mbx) (v : Word), (mailbox d n).stopped = true →
    ((mailbox d n).enable = true → (mailbox (writeMbxCtrl d n (v ||| 1)) n).stopped = true)
    ∧ ((mailbox d n).enable = false → (mailbox (writeMbxCtrl d n (v ||| 1)) n).enabled = true →
      (mailbox d n).enabled = false → (mailbox (writeMbxCtrl d n (v ||| 1)) n).stopped = false))

/-- R628: a write of 1 to DBG_CTRL.open takes effect only if every bound user mailbox is bound to one label, or none is
bound; otherwise open stays 0 and open_refused sets. -/
def Obligations.OpenSettingNeedsOneLabel : Prop :=
  ∀ (s : State) (value : Word), HostServed s.dev → value.getLsbD 0 = true → s.dev.dbg.openSet = false →
    ∃ e : Dev, exec (.openSettingWrite value) s = .next (settled s e)
    ∧ ((∀ i j : Mbx, i.val < 64 → j.val < 64 → (mailbox s.dev i).bound = true → (mailbox s.dev j).bound = true →
        (mailbox s.dev i).label = (mailbox s.dev j).label) → e.dbg.openSet = true ∧ e.dbg.event = s.dev.dbg.event)
    ∧ ((∃ i j : Mbx, i.val < 64 ∧ j.val < 64 ∧ (mailbox s.dev i).bound = true ∧ (mailbox s.dev j).bound = true ∧
        (mailbox s.dev i).label ≠ (mailbox s.dev j).label) → e.dbg.openSet = false ∧ e.dbg.event = s.dev.dbg.event ||| 4)

/-- Interrupts (R668): what follows from an effect sends, in ascending order, the message of each source whose status
AND enable rose, and INT_ACK the message of each source of its mask for which both are 1. A message of a masked vector
becomes pending and is not sent (log 9, the model's choice from PCI Express). -/
def Obligations.InterruptsSent : Prop :=
  (∀ old d : Dev,
    let vs := ((List.range 11).filter fun k => sourceLevel d k && !sourceLevel old k).map fun k => vget d.glb.intVec k 0
    let masked := fun (v : Byte) => (vget d.glb.msixTable (4 * v.toNat + 3) 0).getLsbD 0
    (raiseInts old d).bus.msi = d.bus.msi ++ vs.filter (fun v => !masked v)
    ∧ ∀ v : Byte, (raiseInts old d).glb.msixPending.getLsbD v.toNat = (d.glb.msixPending.getLsbD v.toNat || (masked v && vs.contains v)))
  ∧ (∀ (s : State) (mask : BitVec 11), HostServed s.dev →
    exec (.intAck mask) s = .next (settled s
      (((List.range 11).filter fun k => mask.getLsbD k && sourceLevel s.dev k).foldl
        (fun d k => sendMsi d (vget d.glb.intVec k 0)) s.dev)))

/-- R486: a read of MET_COLLECT returns the interval number of the oldest held record and releases that record once
every byte of it has been read; otherwise it returns 0 and releases nothing. MET_COLLECT is no upper half, so no latch
stands for it (R18). -/
def Obligations.OldestRecordCollected : Prop :=
  ∀ s : State, bar0Open s.dev = true → s.dev.met.ready = true → assoc (Reg.offset .metCollect) s.dev.latches = none →
    let reads := fun (v : Nat) (m : Met) =>
      { s.dev with bus := { s.dev.bus with readData := leBytes 4 v, readPoison := false, readHeld := false }, met := m }
    (∀ r rest, s.dev.met.records = r :: rest → (∀ i, i < r.bytes.length → i ∈ s.dev.met.readBytes) →
      exec .metCollectRead s = .next (settled s
        (endExtension (reads r.interval.toNat { s.dev.met with records := rest, readBytes := [] }))))
    ∧ (∀ r rest, s.dev.met.records = r :: rest → (∃ i, i < r.bytes.length ∧ i ∉ s.dev.met.readBytes) →
      exec .metCollectRead s = .next (settled s (reads 0 s.dev.met)))
    ∧ (s.dev.met.records = [] → exec .metCollectRead s = .next (settled s (reads 0 s.dev.met)))

/-- R14: a read of BAR0 that is not a naturally aligned 32-bit access returns ones (as many bytes as were asked for, log 33),
such a write is discarded, and both set the access-error bit, bit 0 of GLB_FAULT. -/
def Obligations.MisalignedAccessRefused : Prop :=
  ∀ s : State, bar0Open s.dev = true →
    let d := { s.dev with glb := { s.dev.glb with accessError := true } }
    let ones := fun (n : Nat) => { d with bus := { d.bus with readData := List.replicate n 0xFF, readPoison := false, readHeld := false } }
    (∀ (o : BitVec 26) (size : Nat), ¬(size = 4 ∧ o.toNat % 4 = 0) →
      exec (.bar0Misaligned false o size) s = .next (settled s (ones size))
      ∧ exec (.bar0Misaligned true o size) s = .next (settled s d))
    ∧ (∀ (o : BitVec 26) (w : Word), o.toNat % 4 ≠ 0 →
      exec (.registerWrite o w) s = .next (settled s d)
      ∧ exec (.loReadLatch o) s = .next (settled s (ones 4))
      ∧ exec (.rcCounterRead o) s = .next (settled s (ones 4)))
    ∧ faultBits d % 2 = 1

/-- R478: the island rejects an entry whose crc fails, whose reserved bits are not zero, whose kind is not defined,
whose n lies outside its range, or whose sequence does not follow that of the last entry taken. A rejected entry is
logged and sets the record's flag, nothing is counted for it, and the sequence goes on from it. -/
def Obligations.TapEntriesRejected : Prop :=
  (∀ (m : Met) (e : TapEntry), rejectCause m e ≠ 0 ↔
    (e.crc ≠ crc32c (tapBody e) ∨ 4096 ≤ e.handle.toNat ∨ 1 < e.role.toNat ∨ e.spare ≠ 0 ∨ (e.kind ≠ 1 ∧ e.kind ≠ 2)
      ∨ (e.kind = 1 ∧ (e.n = 0 ∨ 1048576 < e.n.toNat)) ∨ (e.kind = 2 ∧ 65536 ≤ e.n.toNat)
      ∨ (∃ q, m.lastSeq = some q ∧ e.sequence ≠ q + 1)))
  ∧ (∀ (d : Dev) (e : TapEntry), d.met.ready = true → d.met.log.length < 1023 → rejectCause d.met e ≠ 0 →
    let x := (takeTap d e).met
    x.labels = d.met.labels ∧ x.streams = d.met.streams ∧ x.rejected = true ∧ x.lastSeq = some e.sequence
    ∧ x.log = d.met.log ++ [⟨0x06, BitVec.ofNat 48 (rejectCause d.met e + e.sequence.toNat * 2 ^ 16), d.met.time⟩])
end

