-- ==== Sys2Proof/Laws/Memory.lean ====
section
/-!
SUPPORT. Memory: what a read gives after a write, and that every operation on memory keeps the canonical
form (addresses strictly rising, no byte equal to what an unlisted address reads as; log 4).
-/
namespace Sys2Proof.Machine

/-! ### Association lists -/

@[simp] theorem assoc_assocSet_same {α : Type} (k : Nat) (v : α) (l : List (Nat × α)) :
    assoc k (assocSet k v l) = some v := by
  induction l with
  | nil => simp [assocSet, assoc]
  | cons e t ih =>
    obtain ⟨j, w⟩ := e
    by_cases h : k < j
    · simp [assocSet, h, assoc]
    · by_cases g : j = k
      · simp [assocSet, g, assoc]
      · simp [assocSet, h, g, assoc, ih]

theorem assoc_assocSet_other {α : Type} {j k : Nat} (v : α) (l : List (Nat × α)) (h : j ≠ k) :
    assoc j (assocSet k v l) = assoc j l := by
  induction l with
  | nil => simp [assocSet, assoc, Ne.symm h]
  | cons e t ih =>
    obtain ⟨i, w⟩ := e
    by_cases g : k < i
    · simp [assocSet, g, assoc, Ne.symm h]
    · by_cases c : i = k
      · subst c; simp [assocSet, assoc, Ne.symm h]
      · simp [assocSet, g, c, assoc, ih]

@[simp] theorem assoc_assocDel_same {α : Type} (k : Nat) (l : List (Nat × α)) : assoc k (assocDel k l) = none := by
  induction l with
  | nil => simp [assocDel, assoc]
  | cons e t ih =>
    obtain ⟨j, w⟩ := e
    by_cases g : j = k
    · simpa [assocDel, g] using ih
    · simpa [assocDel, g, assoc] using ih

theorem assoc_assocDel_other {α : Type} {j k : Nat} (l : List (Nat × α)) (h : j ≠ k) :
    assoc j (assocDel k l) = assoc j l := by
  induction l with
  | nil => simp [assocDel, assoc]
  | cons e t ih =>
    obtain ⟨i, w⟩ := e
    by_cases g : i = k
    · subst g; simpa [assocDel, assoc, Ne.symm h] using ih
    · by_cases c : i = j
      · subst c; simp [assocDel, g, assoc]
      · simpa [assocDel, g, assoc, c] using ih

/-! ### Reading after writing -/

@[simp] theorem memGet_memPut_same (m : Memory) (a : Nat) (b : Byte) : memGet (memPut m a b) a = b := by
  unfold memGet memPut
  split
  · next h => simp [h]
  · simp

theorem memGet_memPut_other (m : Memory) {a x : Nat} (b : Byte) (h : x ≠ a) :
    memGet (memPut m a b) x = memGet m x := by
  unfold memGet memPut
  split
  · rw [assoc_assocDel_other m h]
  · rw [assoc_assocSet_other b m h]

theorem memGet_memPuts_outside (bs : List Byte) (m : Memory) (a x : Nat) (h : x < a ∨ a + bs.length ≤ x) :
    memGet (memPuts m a bs) x = memGet m x := by
  induction bs generalizing m a with
  | nil => rfl
  | cons b t ih =>
    simp only [List.length_cons] at h
    rw [memPuts, ih _ _ (by omega), memGet_memPut_other _ _ (by omega)]

theorem memGet_memPuts_inside (bs : List Byte) (m : Memory) (a i : Nat) (h : i < bs.length) :
    memGet (memPuts m a bs) (a + i) = bs[i] := by
  induction bs generalizing m a i with
  | nil => simp at h
  | cons b t ih =>
    cases i with
    | zero =>
      rw [memPuts, memGet_memPuts_outside _ _ _ _ (by omega)]
      simp
    | succ i =>
      have e : a + (i + 1) = a + 1 + i := by omega
      rw [memPuts, e, ih _ _ _ (by simpa using h)]
      simp

/-! ### The canonical form -/

theorem wfFrom_mono {lo hi : Nat} {m : Memory} (h : Memory.wfFrom hi m = true) (g : lo ≤ hi) :
    Memory.wfFrom lo m = true := by
  cases m with
  | nil => rfl
  | cons c t =>
    simp only [Memory.wfFrom, Bool.and_eq_true, decide_eq_true_eq] at h ⊢
    exact ⟨⟨by omega, h.1.2⟩, h.2⟩

theorem wfFrom_filter (p : Host.Cell → Bool) {lo : Nat} {m : Memory} (h : Memory.wfFrom lo m = true) :
    Memory.wfFrom lo (m.filter p) = true := by
  induction m generalizing lo with
  | nil => rfl
  | cons c t ih =>
    simp only [Memory.wfFrom, Bool.and_eq_true, decide_eq_true_eq] at h
    rw [List.filter_cons]
    split
    · simp only [Memory.wfFrom, Bool.and_eq_true, decide_eq_true_eq]
      exact ⟨h.1, ih h.2⟩
    · exact wfFrom_mono (ih h.2) (by omega)

theorem wfFrom_assocSet {lo a : Nat} {b : Byte} {m : Memory} (h : Memory.wfFrom lo m = true) (ha : lo ≤ a) (hb : b ≠ 0) :
    Memory.wfFrom lo (assocSet a b m) = true := by
  induction m generalizing lo with
  | nil => simpa [assocSet, Memory.wfFrom, ha] using hb
  | cons c t ih =>
    obtain ⟨j, w⟩ := c
    simp only [Memory.wfFrom, Bool.and_eq_true, decide_eq_true_eq, bne_iff_ne] at h
    by_cases g : a < j
    · simp only [assocSet, g, if_true, Memory.wfFrom, Bool.and_eq_true, decide_eq_true_eq, bne_iff_ne]
      exact ⟨⟨ha, hb⟩, ⟨⟨by omega, h.1.2⟩, h.2⟩⟩
    · by_cases e : j = a
      · subst e
        simp only [assocSet, g, if_false, if_true, Memory.wfFrom, Bool.and_eq_true, decide_eq_true_eq, bne_iff_ne]
        exact ⟨⟨ha, hb⟩, h.2⟩
      · simp only [assocSet, g, e, if_false, Memory.wfFrom, Bool.and_eq_true, decide_eq_true_eq, bne_iff_ne]
        exact ⟨h.1, ih h.2 (by omega)⟩

/-- A write of one byte keeps the canonical form. -/
theorem memPut_wf {m : Memory} (h : m.wf = true) (a : Nat) (b : Byte) : (memPut m a b).wf = true := by
  unfold memPut
  split
  · exact wfFrom_filter _ h
  · next g => exact wfFrom_assocSet h (Nat.zero_le a) g

theorem memPuts_wf (bs : List Byte) {m : Memory} (h : m.wf = true) (a : Nat) : (memPuts m a bs).wf = true := by
  induction bs generalizing m a with
  | nil => exact h
  | cons b t ih => exact ih (memPut_wf h a b) (a + 1)

theorem memErase_wf {m : Memory} (h : m.wf = true) (a z : Nat) : (memErase m a z).wf = true := wfFrom_filter _ h

/-- A fold of writes keeps the canonical form. -/
theorem foldl_memPut_wf {α : Type} (l : List α) (f : Memory → α → Memory) (hf : ∀ m x, m.wf = true → (f m x).wf = true)
    {m : Memory} (h : m.wf = true) : (l.foldl f m).wf = true := by
  induction l generalizing m with
  | nil => exact h
  | cons x t ih => exact ih (hf m x h)

/-- A page moved to its replacement (R598). -/
theorem movePage_wf {m : Memory} (h : m.wf = true) (src dst : Nat) : (movePage m src dst).wf = true :=
  foldl_memPut_wf _ _ (fun _ _ hm => memPut_wf hm _ _) (memErase_wf (memErase_wf h _ _) _ _)

/-- The bytes a reset leaves undefined (Table 13-6). -/
theorem undefine_wf (d : Dev) {m : Memory} (h : m.wf = true) (lost : Nat → Bool) : (undefine d m lost).wf = true := by
  refine foldl_memPut_wf _ _ (fun m x hm => ?_) h
  split
  · exact memPut_wf hm _ _
  · exact hm

/-! ### The device's own writes -/

theorem storeBytes_mem_wf (bs : List Byte) (d : Dev) (a : Nat) (h : d.mem.wf = true) :
    (storeBytes d a bs).mem.wf = true := by
  induction bs generalizing d a with
  | nil => exact h
  | cons b t ih => exact ih _ _ (memPut_wf h _ _)

/-- `store` keeps the canonical form of device memory. -/
theorem store_mem_wf (d : Dev) (a : Nat) (bs : List Byte) (h : d.mem.wf = true) : (store d a bs).mem.wf = true := by
  unfold store
  split
  · exact storeBytes_mem_wf bs d a h
  · exact h

/-- A write into a completion ring keeps both memories' canonical form. -/
theorem ringStore_wf (d : Dev) (dev : Bool) (a : Nat) (bs : List Byte) (h : d.mem.wf = true) (g : d.bar2.wf = true) :
    (ringStore d dev a bs).mem.wf = true ∧ (ringStore d dev a bs).bar2.wf = true := by
  unfold ringStore
  split
  · exact ⟨h, memPuts_wf bs g a⟩
  · exact ⟨memPuts_wf bs h _, g⟩

/-- A store of host software keeps both memories' canonical form. -/
theorem hostStore_wf (d : Dev) (x : HostStore) (h : d.mem.wf = true) (g : d.bar2.wf = true) :
    (hostStore d x).mem.wf = true ∧ (hostStore d x).bar2.wf = true := by
  unfold hostStore
  split
  · split
    · exact ⟨h, memPut_wf g _ _⟩
    · exact ⟨h, g⟩
  · split
    · exact ⟨memPut_wf h _ _, g⟩
    · exact ⟨h, g⟩

/-- Retired pages and nothing else decide where an address is held, so a write does not move them. -/
@[simp] theorem storeBytes_hbm (bs : List Byte) (d : Dev) (a : Nat) : (storeBytes d a bs).hbm = d.hbm := by
  induction bs generalizing d a with
  | nil => rfl
  | cons b t ih => exact ih _ _

theorem redirect_congr {d e : Dev} (h : e.hbm = d.hbm) (a : Nat) : redirect e a = redirect d a := by
  unfold redirect
  rw [h]

/-- `storeBytes` leaves every cell that none of its bytes is held in. -/
theorem storeBytes_outside (bs : List Byte) (d : Dev) (a x : Nat) (h : ∀ i, i < bs.length → redirect d (a + i) ≠ x) :
    memGet (storeBytes d a bs).mem x = memGet d.mem x := by
  induction bs generalizing d a with
  | nil => rfl
  | cons b t ih =>
    have h0 := h 0 (by simp)
    rw [storeBytes, ih]
    · exact memGet_memPut_other _ _ (fun e => h0 (by simpa using e.symm))
    · intro i hi
      have e : a + 1 + i = a + (i + 1) := by omega
      rw [redirect_congr (e := { d with mem := memPut d.mem (redirect d a) b }) (d := d) rfl, e]
      exact h (i + 1) (by simpa using hi)

end Sys2Proof.Machine
end

