-- ==== Sys2Proof/Laws/State.lean ====
section
/-!
SUPPORT. What each update of a block of the device leaves in each field of `Dev`: one lemma per field and
update, so that no proof unfolds a record update.
-/
namespace Sys2Proof.Machine

variable (d : Dev)

/-! ### withBus -/

@[simp] theorem withBus_fuses (f : Bus → Bus) : (withBus d f).fuses = d.fuses := rfl
@[simp] theorem withBus_glb (f : Bus → Bus) : (withBus d f).glb = d.glb := rfl
@[simp] theorem withBus_hif (f : Bus → Bus) : (withBus d f).hif = d.hif := rfl
@[simp] theorem withBus_bus (f : Bus → Bus) : (withBus d f).bus = f d.bus := rfl
@[simp] theorem withBus_pwr (f : Bus → Bus) : (withBus d f).pwr = d.pwr := rfl
@[simp] theorem withBus_flash (f : Bus → Bus) : (withBus d f).flash = d.flash := rfl
@[simp] theorem withBus_fpl (f : Bus → Bus) : (withBus d f).fpl = d.fpl := rfl
@[simp] theorem withBus_tik (f : Bus → Bus) : (withBus d f).tik = d.tik := rfl
@[simp] theorem withBus_join (f : Bus → Bus) : (withBus d f).join = d.join := rfl
@[simp] theorem withBus_mbx (f : Bus → Bus) : (withBus d f).mbx = d.mbx := rfl
@[simp] theorem withBus_nextMbx (f : Bus → Bus) : (withBus d f).nextMbx = d.nextMbx := rfl
@[simp] theorem withBus_latches (f : Bus → Bus) : (withBus d f).latches = d.latches := rfl
@[simp] theorem withBus_mem (f : Bus → Bus) : (withBus d f).mem = d.mem := rfl
@[simp] theorem withBus_bar2 (f : Bus → Bus) : (withBus d f).bar2 = d.bar2 := rfl
@[simp] theorem withBus_bar2Poison (f : Bus → Bus) : (withBus d f).bar2Poison = d.bar2Poison := rfl
@[simp] theorem withBus_poison (f : Bus → Bus) : (withBus d f).poison = d.poison := rfl
@[simp] theorem withBus_holds (f : Bus → Bus) : (withBus d f).holds = d.holds := rfl
@[simp] theorem withBus_allocs (f : Bus → Bus) : (withBus d f).allocs = d.allocs := rfl
@[simp] theorem withBus_descs (f : Bus → Bus) : (withBus d f).descs = d.descs := rfl
@[simp] theorem withBus_owners (f : Bus → Bus) : (withBus d f).owners = d.owners := rfl
@[simp] theorem withBus_trees (f : Bus → Bus) : (withBus d f).trees = d.trees := rfl
@[simp] theorem withBus_groups (f : Bus → Bus) : (withBus d f).groups = d.groups := rfl
@[simp] theorem withBus_buckets (f : Bus → Bus) : (withBus d f).buckets = d.buckets := rfl
@[simp] theorem withBus_streams (f : Bus → Bus) : (withBus d f).streams = d.streams := rfl
@[simp] theorem withBus_generations (f : Bus → Bus) : (withBus d f).generations = d.generations := rfl
@[simp] theorem withBus_incoming (f : Bus → Bus) : (withBus d f).incoming = d.incoming := rfl
@[simp] theorem withBus_resStores (f : Bus → Bus) : (withBus d f).resStores = d.resStores := rfl
@[simp] theorem withBus_resZero (f : Bus → Bus) : (withBus d f).resZero = d.resZero := rfl
@[simp] theorem withBus_bucketStores (f : Bus → Bus) : (withBus d f).bucketStores = d.bucketStores := rfl
@[simp] theorem withBus_exponents (f : Bus → Bus) : (withBus d f).exponents = d.exponents := rfl
@[simp] theorem withBus_lastExponents (f : Bus → Bus) : (withBus d f).lastExponents = d.lastExponents := rfl
@[simp] theorem withBus_seed (f : Bus → Bus) : (withBus d f).seed = d.seed := rfl
@[simp] theorem withBus_aesFail (f : Bus → Bus) : (withBus d f).aesFail = d.aesFail := rfl
@[simp] theorem withBus_running (f : Bus → Bus) : (withBus d f).running = d.running := rfl
@[simp] theorem withBus_nextId (f : Bus → Bus) : (withBus d f).nextId = d.nextId := rfl
@[simp] theorem withBus_work (f : Bus → Bus) : (withBus d f).work = d.work := rfl
@[simp] theorem withBus_plan (f : Bus → Bus) : (withBus d f).plan = d.plan := rfl
@[simp] theorem withBus_holdWork (f : Bus → Bus) : (withBus d f).holdWork = d.holdWork := rfl
@[simp] theorem withBus_ports (f : Bus → Bus) : (withBus d f).ports = d.ports := rfl
@[simp] theorem withBus_quads (f : Bus → Bus) : (withBus d f).quads = d.quads := rfl
@[simp] theorem withBus_tiles (f : Bus → Bus) : (withBus d f).tiles = d.tiles := rfl
@[simp] theorem withBus_phys (f : Bus → Bus) : (withBus d f).phys = d.phys := rfl
@[simp] theorem withBus_hbm (f : Bus → Bus) : (withBus d f).hbm = d.hbm := rfl
@[simp] theorem withBus_rpr (f : Bus → Bus) : (withBus d f).rpr = d.rpr := rfl
@[simp] theorem withBus_dbg (f : Bus → Bus) : (withBus d f).dbg = d.dbg := rfl
@[simp] theorem withBus_trc (f : Bus → Bus) : (withBus d f).trc = d.trc := rfl
@[simp] theorem withBus_annalsMiB (f : Bus → Bus) : (withBus d f).annalsMiB = d.annalsMiB := rfl
@[simp] theorem withBus_counters (f : Bus → Bus) : (withBus d f).counters = d.counters := rfl
@[simp] theorem withBus_kvs (f : Bus → Bus) : (withBus d f).kvs = d.kvs := rfl
@[simp] theorem withBus_met (f : Bus → Bus) : (withBus d f).met = d.met := rfl
@[simp] theorem withBus_freeCount (f : Bus → Bus) : (withBus d f).freeCount = d.freeCount := rfl

/-! ### withTik -/

@[simp] theorem withTik_fuses (f : Tik → Tik) : (withTik d f).fuses = d.fuses := rfl
@[simp] theorem withTik_glb (f : Tik → Tik) : (withTik d f).glb = d.glb := rfl
@[simp] theorem withTik_hif (f : Tik → Tik) : (withTik d f).hif = d.hif := rfl
@[simp] theorem withTik_bus (f : Tik → Tik) : (withTik d f).bus = d.bus := rfl
@[simp] theorem withTik_pwr (f : Tik → Tik) : (withTik d f).pwr = d.pwr := rfl
@[simp] theorem withTik_flash (f : Tik → Tik) : (withTik d f).flash = d.flash := rfl
@[simp] theorem withTik_fpl (f : Tik → Tik) : (withTik d f).fpl = d.fpl := rfl
@[simp] theorem withTik_tik (f : Tik → Tik) : (withTik d f).tik = f d.tik := rfl
@[simp] theorem withTik_join (f : Tik → Tik) : (withTik d f).join = d.join := rfl
@[simp] theorem withTik_mbx (f : Tik → Tik) : (withTik d f).mbx = d.mbx := rfl
@[simp] theorem withTik_nextMbx (f : Tik → Tik) : (withTik d f).nextMbx = d.nextMbx := rfl
@[simp] theorem withTik_latches (f : Tik → Tik) : (withTik d f).latches = d.latches := rfl
@[simp] theorem withTik_mem (f : Tik → Tik) : (withTik d f).mem = d.mem := rfl
@[simp] theorem withTik_bar2 (f : Tik → Tik) : (withTik d f).bar2 = d.bar2 := rfl
@[simp] theorem withTik_bar2Poison (f : Tik → Tik) : (withTik d f).bar2Poison = d.bar2Poison := rfl
@[simp] theorem withTik_poison (f : Tik → Tik) : (withTik d f).poison = d.poison := rfl
@[simp] theorem withTik_holds (f : Tik → Tik) : (withTik d f).holds = d.holds := rfl
@[simp] theorem withTik_allocs (f : Tik → Tik) : (withTik d f).allocs = d.allocs := rfl
@[simp] theorem withTik_descs (f : Tik → Tik) : (withTik d f).descs = d.descs := rfl
@[simp] theorem withTik_owners (f : Tik → Tik) : (withTik d f).owners = d.owners := rfl
@[simp] theorem withTik_trees (f : Tik → Tik) : (withTik d f).trees = d.trees := rfl
@[simp] theorem withTik_groups (f : Tik → Tik) : (withTik d f).groups = d.groups := rfl
@[simp] theorem withTik_buckets (f : Tik → Tik) : (withTik d f).buckets = d.buckets := rfl
@[simp] theorem withTik_streams (f : Tik → Tik) : (withTik d f).streams = d.streams := rfl
@[simp] theorem withTik_generations (f : Tik → Tik) : (withTik d f).generations = d.generations := rfl
@[simp] theorem withTik_incoming (f : Tik → Tik) : (withTik d f).incoming = d.incoming := rfl
@[simp] theorem withTik_resStores (f : Tik → Tik) : (withTik d f).resStores = d.resStores := rfl
@[simp] theorem withTik_resZero (f : Tik → Tik) : (withTik d f).resZero = d.resZero := rfl
@[simp] theorem withTik_bucketStores (f : Tik → Tik) : (withTik d f).bucketStores = d.bucketStores := rfl
@[simp] theorem withTik_exponents (f : Tik → Tik) : (withTik d f).exponents = d.exponents := rfl
@[simp] theorem withTik_lastExponents (f : Tik → Tik) : (withTik d f).lastExponents = d.lastExponents := rfl
@[simp] theorem withTik_seed (f : Tik → Tik) : (withTik d f).seed = d.seed := rfl
@[simp] theorem withTik_aesFail (f : Tik → Tik) : (withTik d f).aesFail = d.aesFail := rfl
@[simp] theorem withTik_running (f : Tik → Tik) : (withTik d f).running = d.running := rfl
@[simp] theorem withTik_nextId (f : Tik → Tik) : (withTik d f).nextId = d.nextId := rfl
@[simp] theorem withTik_work (f : Tik → Tik) : (withTik d f).work = d.work := rfl
@[simp] theorem withTik_plan (f : Tik → Tik) : (withTik d f).plan = d.plan := rfl
@[simp] theorem withTik_holdWork (f : Tik → Tik) : (withTik d f).holdWork = d.holdWork := rfl
@[simp] theorem withTik_ports (f : Tik → Tik) : (withTik d f).ports = d.ports := rfl
@[simp] theorem withTik_quads (f : Tik → Tik) : (withTik d f).quads = d.quads := rfl
@[simp] theorem withTik_tiles (f : Tik → Tik) : (withTik d f).tiles = d.tiles := rfl
@[simp] theorem withTik_phys (f : Tik → Tik) : (withTik d f).phys = d.phys := rfl
@[simp] theorem withTik_hbm (f : Tik → Tik) : (withTik d f).hbm = d.hbm := rfl
@[simp] theorem withTik_rpr (f : Tik → Tik) : (withTik d f).rpr = d.rpr := rfl
@[simp] theorem withTik_dbg (f : Tik → Tik) : (withTik d f).dbg = d.dbg := rfl
@[simp] theorem withTik_trc (f : Tik → Tik) : (withTik d f).trc = d.trc := rfl
@[simp] theorem withTik_annalsMiB (f : Tik → Tik) : (withTik d f).annalsMiB = d.annalsMiB := rfl
@[simp] theorem withTik_counters (f : Tik → Tik) : (withTik d f).counters = d.counters := rfl
@[simp] theorem withTik_kvs (f : Tik → Tik) : (withTik d f).kvs = d.kvs := rfl
@[simp] theorem withTik_met (f : Tik → Tik) : (withTik d f).met = d.met := rfl
@[simp] theorem withTik_freeCount (f : Tik → Tik) : (withTik d f).freeCount = d.freeCount := rfl

/-! ### withJoin -/

@[simp] theorem withJoin_fuses (f : Join → Join) : (withJoin d f).fuses = d.fuses := rfl
@[simp] theorem withJoin_glb (f : Join → Join) : (withJoin d f).glb = d.glb := rfl
@[simp] theorem withJoin_hif (f : Join → Join) : (withJoin d f).hif = d.hif := rfl
@[simp] theorem withJoin_bus (f : Join → Join) : (withJoin d f).bus = d.bus := rfl
@[simp] theorem withJoin_pwr (f : Join → Join) : (withJoin d f).pwr = d.pwr := rfl
@[simp] theorem withJoin_flash (f : Join → Join) : (withJoin d f).flash = d.flash := rfl
@[simp] theorem withJoin_fpl (f : Join → Join) : (withJoin d f).fpl = d.fpl := rfl
@[simp] theorem withJoin_tik (f : Join → Join) : (withJoin d f).tik = d.tik := rfl
@[simp] theorem withJoin_join (f : Join → Join) : (withJoin d f).join = f d.join := rfl
@[simp] theorem withJoin_mbx (f : Join → Join) : (withJoin d f).mbx = d.mbx := rfl
@[simp] theorem withJoin_nextMbx (f : Join → Join) : (withJoin d f).nextMbx = d.nextMbx := rfl
@[simp] theorem withJoin_latches (f : Join → Join) : (withJoin d f).latches = d.latches := rfl
@[simp] theorem withJoin_mem (f : Join → Join) : (withJoin d f).mem = d.mem := rfl
@[simp] theorem withJoin_bar2 (f : Join → Join) : (withJoin d f).bar2 = d.bar2 := rfl
@[simp] theorem withJoin_bar2Poison (f : Join → Join) : (withJoin d f).bar2Poison = d.bar2Poison := rfl
@[simp] theorem withJoin_poison (f : Join → Join) : (withJoin d f).poison = d.poison := rfl
@[simp] theorem withJoin_holds (f : Join → Join) : (withJoin d f).holds = d.holds := rfl
@[simp] theorem withJoin_allocs (f : Join → Join) : (withJoin d f).allocs = d.allocs := rfl
@[simp] theorem withJoin_descs (f : Join → Join) : (withJoin d f).descs = d.descs := rfl
@[simp] theorem withJoin_owners (f : Join → Join) : (withJoin d f).owners = d.owners := rfl
@[simp] theorem withJoin_trees (f : Join → Join) : (withJoin d f).trees = d.trees := rfl
@[simp] theorem withJoin_groups (f : Join → Join) : (withJoin d f).groups = d.groups := rfl
@[simp] theorem withJoin_buckets (f : Join → Join) : (withJoin d f).buckets = d.buckets := rfl
@[simp] theorem withJoin_streams (f : Join → Join) : (withJoin d f).streams = d.streams := rfl
@[simp] theorem withJoin_generations (f : Join → Join) : (withJoin d f).generations = d.generations := rfl
@[simp] theorem withJoin_incoming (f : Join → Join) : (withJoin d f).incoming = d.incoming := rfl
@[simp] theorem withJoin_resStores (f : Join → Join) : (withJoin d f).resStores = d.resStores := rfl
@[simp] theorem withJoin_resZero (f : Join → Join) : (withJoin d f).resZero = d.resZero := rfl
@[simp] theorem withJoin_bucketStores (f : Join → Join) : (withJoin d f).bucketStores = d.bucketStores := rfl
@[simp] theorem withJoin_exponents (f : Join → Join) : (withJoin d f).exponents = d.exponents := rfl
@[simp] theorem withJoin_lastExponents (f : Join → Join) : (withJoin d f).lastExponents = d.lastExponents := rfl
@[simp] theorem withJoin_seed (f : Join → Join) : (withJoin d f).seed = d.seed := rfl
@[simp] theorem withJoin_aesFail (f : Join → Join) : (withJoin d f).aesFail = d.aesFail := rfl
@[simp] theorem withJoin_running (f : Join → Join) : (withJoin d f).running = d.running := rfl
@[simp] theorem withJoin_nextId (f : Join → Join) : (withJoin d f).nextId = d.nextId := rfl
@[simp] theorem withJoin_work (f : Join → Join) : (withJoin d f).work = d.work := rfl
@[simp] theorem withJoin_plan (f : Join → Join) : (withJoin d f).plan = d.plan := rfl
@[simp] theorem withJoin_holdWork (f : Join → Join) : (withJoin d f).holdWork = d.holdWork := rfl
@[simp] theorem withJoin_ports (f : Join → Join) : (withJoin d f).ports = d.ports := rfl
@[simp] theorem withJoin_quads (f : Join → Join) : (withJoin d f).quads = d.quads := rfl
@[simp] theorem withJoin_tiles (f : Join → Join) : (withJoin d f).tiles = d.tiles := rfl
@[simp] theorem withJoin_phys (f : Join → Join) : (withJoin d f).phys = d.phys := rfl
@[simp] theorem withJoin_hbm (f : Join → Join) : (withJoin d f).hbm = d.hbm := rfl
@[simp] theorem withJoin_rpr (f : Join → Join) : (withJoin d f).rpr = d.rpr := rfl
@[simp] theorem withJoin_dbg (f : Join → Join) : (withJoin d f).dbg = d.dbg := rfl
@[simp] theorem withJoin_trc (f : Join → Join) : (withJoin d f).trc = d.trc := rfl
@[simp] theorem withJoin_annalsMiB (f : Join → Join) : (withJoin d f).annalsMiB = d.annalsMiB := rfl
@[simp] theorem withJoin_counters (f : Join → Join) : (withJoin d f).counters = d.counters := rfl
@[simp] theorem withJoin_kvs (f : Join → Join) : (withJoin d f).kvs = d.kvs := rfl
@[simp] theorem withJoin_met (f : Join → Join) : (withJoin d f).met = d.met := rfl
@[simp] theorem withJoin_freeCount (f : Join → Join) : (withJoin d f).freeCount = d.freeCount := rfl

/-! ### withPwr -/

@[simp] theorem withPwr_fuses (f : Pwr → Pwr) : (withPwr d f).fuses = d.fuses := rfl
@[simp] theorem withPwr_glb (f : Pwr → Pwr) : (withPwr d f).glb = d.glb := rfl
@[simp] theorem withPwr_hif (f : Pwr → Pwr) : (withPwr d f).hif = d.hif := rfl
@[simp] theorem withPwr_bus (f : Pwr → Pwr) : (withPwr d f).bus = d.bus := rfl
@[simp] theorem withPwr_pwr (f : Pwr → Pwr) : (withPwr d f).pwr = f d.pwr := rfl
@[simp] theorem withPwr_flash (f : Pwr → Pwr) : (withPwr d f).flash = d.flash := rfl
@[simp] theorem withPwr_fpl (f : Pwr → Pwr) : (withPwr d f).fpl = d.fpl := rfl
@[simp] theorem withPwr_tik (f : Pwr → Pwr) : (withPwr d f).tik = d.tik := rfl
@[simp] theorem withPwr_join (f : Pwr → Pwr) : (withPwr d f).join = d.join := rfl
@[simp] theorem withPwr_mbx (f : Pwr → Pwr) : (withPwr d f).mbx = d.mbx := rfl
@[simp] theorem withPwr_nextMbx (f : Pwr → Pwr) : (withPwr d f).nextMbx = d.nextMbx := rfl
@[simp] theorem withPwr_latches (f : Pwr → Pwr) : (withPwr d f).latches = d.latches := rfl
@[simp] theorem withPwr_mem (f : Pwr → Pwr) : (withPwr d f).mem = d.mem := rfl
@[simp] theorem withPwr_bar2 (f : Pwr → Pwr) : (withPwr d f).bar2 = d.bar2 := rfl
@[simp] theorem withPwr_bar2Poison (f : Pwr → Pwr) : (withPwr d f).bar2Poison = d.bar2Poison := rfl
@[simp] theorem withPwr_poison (f : Pwr → Pwr) : (withPwr d f).poison = d.poison := rfl
@[simp] theorem withPwr_holds (f : Pwr → Pwr) : (withPwr d f).holds = d.holds := rfl
@[simp] theorem withPwr_allocs (f : Pwr → Pwr) : (withPwr d f).allocs = d.allocs := rfl
@[simp] theorem withPwr_descs (f : Pwr → Pwr) : (withPwr d f).descs = d.descs := rfl
@[simp] theorem withPwr_owners (f : Pwr → Pwr) : (withPwr d f).owners = d.owners := rfl
@[simp] theorem withPwr_trees (f : Pwr → Pwr) : (withPwr d f).trees = d.trees := rfl
@[simp] theorem withPwr_groups (f : Pwr → Pwr) : (withPwr d f).groups = d.groups := rfl
@[simp] theorem withPwr_buckets (f : Pwr → Pwr) : (withPwr d f).buckets = d.buckets := rfl
@[simp] theorem withPwr_streams (f : Pwr → Pwr) : (withPwr d f).streams = d.streams := rfl
@[simp] theorem withPwr_generations (f : Pwr → Pwr) : (withPwr d f).generations = d.generations := rfl
@[simp] theorem withPwr_incoming (f : Pwr → Pwr) : (withPwr d f).incoming = d.incoming := rfl
@[simp] theorem withPwr_resStores (f : Pwr → Pwr) : (withPwr d f).resStores = d.resStores := rfl
@[simp] theorem withPwr_resZero (f : Pwr → Pwr) : (withPwr d f).resZero = d.resZero := rfl
@[simp] theorem withPwr_bucketStores (f : Pwr → Pwr) : (withPwr d f).bucketStores = d.bucketStores := rfl
@[simp] theorem withPwr_exponents (f : Pwr → Pwr) : (withPwr d f).exponents = d.exponents := rfl
@[simp] theorem withPwr_lastExponents (f : Pwr → Pwr) : (withPwr d f).lastExponents = d.lastExponents := rfl
@[simp] theorem withPwr_seed (f : Pwr → Pwr) : (withPwr d f).seed = d.seed := rfl
@[simp] theorem withPwr_aesFail (f : Pwr → Pwr) : (withPwr d f).aesFail = d.aesFail := rfl
@[simp] theorem withPwr_running (f : Pwr → Pwr) : (withPwr d f).running = d.running := rfl
@[simp] theorem withPwr_nextId (f : Pwr → Pwr) : (withPwr d f).nextId = d.nextId := rfl
@[simp] theorem withPwr_work (f : Pwr → Pwr) : (withPwr d f).work = d.work := rfl
@[simp] theorem withPwr_plan (f : Pwr → Pwr) : (withPwr d f).plan = d.plan := rfl
@[simp] theorem withPwr_holdWork (f : Pwr → Pwr) : (withPwr d f).holdWork = d.holdWork := rfl
@[simp] theorem withPwr_ports (f : Pwr → Pwr) : (withPwr d f).ports = d.ports := rfl
@[simp] theorem withPwr_quads (f : Pwr → Pwr) : (withPwr d f).quads = d.quads := rfl
@[simp] theorem withPwr_tiles (f : Pwr → Pwr) : (withPwr d f).tiles = d.tiles := rfl
@[simp] theorem withPwr_phys (f : Pwr → Pwr) : (withPwr d f).phys = d.phys := rfl
@[simp] theorem withPwr_hbm (f : Pwr → Pwr) : (withPwr d f).hbm = d.hbm := rfl
@[simp] theorem withPwr_rpr (f : Pwr → Pwr) : (withPwr d f).rpr = d.rpr := rfl
@[simp] theorem withPwr_dbg (f : Pwr → Pwr) : (withPwr d f).dbg = d.dbg := rfl
@[simp] theorem withPwr_trc (f : Pwr → Pwr) : (withPwr d f).trc = d.trc := rfl
@[simp] theorem withPwr_annalsMiB (f : Pwr → Pwr) : (withPwr d f).annalsMiB = d.annalsMiB := rfl
@[simp] theorem withPwr_counters (f : Pwr → Pwr) : (withPwr d f).counters = d.counters := rfl
@[simp] theorem withPwr_kvs (f : Pwr → Pwr) : (withPwr d f).kvs = d.kvs := rfl
@[simp] theorem withPwr_met (f : Pwr → Pwr) : (withPwr d f).met = d.met := rfl
@[simp] theorem withPwr_freeCount (f : Pwr → Pwr) : (withPwr d f).freeCount = d.freeCount := rfl

/-! ### withGlb -/

@[simp] theorem withGlb_fuses (f : Glb → Glb) : (withGlb d f).fuses = d.fuses := rfl
@[simp] theorem withGlb_glb (f : Glb → Glb) : (withGlb d f).glb = f d.glb := rfl
@[simp] theorem withGlb_hif (f : Glb → Glb) : (withGlb d f).hif = d.hif := rfl
@[simp] theorem withGlb_bus (f : Glb → Glb) : (withGlb d f).bus = d.bus := rfl
@[simp] theorem withGlb_pwr (f : Glb → Glb) : (withGlb d f).pwr = d.pwr := rfl
@[simp] theorem withGlb_flash (f : Glb → Glb) : (withGlb d f).flash = d.flash := rfl
@[simp] theorem withGlb_fpl (f : Glb → Glb) : (withGlb d f).fpl = d.fpl := rfl
@[simp] theorem withGlb_tik (f : Glb → Glb) : (withGlb d f).tik = d.tik := rfl
@[simp] theorem withGlb_join (f : Glb → Glb) : (withGlb d f).join = d.join := rfl
@[simp] theorem withGlb_mbx (f : Glb → Glb) : (withGlb d f).mbx = d.mbx := rfl
@[simp] theorem withGlb_nextMbx (f : Glb → Glb) : (withGlb d f).nextMbx = d.nextMbx := rfl
@[simp] theorem withGlb_latches (f : Glb → Glb) : (withGlb d f).latches = d.latches := rfl
@[simp] theorem withGlb_mem (f : Glb → Glb) : (withGlb d f).mem = d.mem := rfl
@[simp] theorem withGlb_bar2 (f : Glb → Glb) : (withGlb d f).bar2 = d.bar2 := rfl
@[simp] theorem withGlb_bar2Poison (f : Glb → Glb) : (withGlb d f).bar2Poison = d.bar2Poison := rfl
@[simp] theorem withGlb_poison (f : Glb → Glb) : (withGlb d f).poison = d.poison := rfl
@[simp] theorem withGlb_holds (f : Glb → Glb) : (withGlb d f).holds = d.holds := rfl
@[simp] theorem withGlb_allocs (f : Glb → Glb) : (withGlb d f).allocs = d.allocs := rfl
@[simp] theorem withGlb_descs (f : Glb → Glb) : (withGlb d f).descs = d.descs := rfl
@[simp] theorem withGlb_owners (f : Glb → Glb) : (withGlb d f).owners = d.owners := rfl
@[simp] theorem withGlb_trees (f : Glb → Glb) : (withGlb d f).trees = d.trees := rfl
@[simp] theorem withGlb_groups (f : Glb → Glb) : (withGlb d f).groups = d.groups := rfl
@[simp] theorem withGlb_buckets (f : Glb → Glb) : (withGlb d f).buckets = d.buckets := rfl
@[simp] theorem withGlb_streams (f : Glb → Glb) : (withGlb d f).streams = d.streams := rfl
@[simp] theorem withGlb_generations (f : Glb → Glb) : (withGlb d f).generations = d.generations := rfl
@[simp] theorem withGlb_incoming (f : Glb → Glb) : (withGlb d f).incoming = d.incoming := rfl
@[simp] theorem withGlb_resStores (f : Glb → Glb) : (withGlb d f).resStores = d.resStores := rfl
@[simp] theorem withGlb_resZero (f : Glb → Glb) : (withGlb d f).resZero = d.resZero := rfl
@[simp] theorem withGlb_bucketStores (f : Glb → Glb) : (withGlb d f).bucketStores = d.bucketStores := rfl
@[simp] theorem withGlb_exponents (f : Glb → Glb) : (withGlb d f).exponents = d.exponents := rfl
@[simp] theorem withGlb_lastExponents (f : Glb → Glb) : (withGlb d f).lastExponents = d.lastExponents := rfl
@[simp] theorem withGlb_seed (f : Glb → Glb) : (withGlb d f).seed = d.seed := rfl
@[simp] theorem withGlb_aesFail (f : Glb → Glb) : (withGlb d f).aesFail = d.aesFail := rfl
@[simp] theorem withGlb_running (f : Glb → Glb) : (withGlb d f).running = d.running := rfl
@[simp] theorem withGlb_nextId (f : Glb → Glb) : (withGlb d f).nextId = d.nextId := rfl
@[simp] theorem withGlb_work (f : Glb → Glb) : (withGlb d f).work = d.work := rfl
@[simp] theorem withGlb_plan (f : Glb → Glb) : (withGlb d f).plan = d.plan := rfl
@[simp] theorem withGlb_holdWork (f : Glb → Glb) : (withGlb d f).holdWork = d.holdWork := rfl
@[simp] theorem withGlb_ports (f : Glb → Glb) : (withGlb d f).ports = d.ports := rfl
@[simp] theorem withGlb_quads (f : Glb → Glb) : (withGlb d f).quads = d.quads := rfl
@[simp] theorem withGlb_tiles (f : Glb → Glb) : (withGlb d f).tiles = d.tiles := rfl
@[simp] theorem withGlb_phys (f : Glb → Glb) : (withGlb d f).phys = d.phys := rfl
@[simp] theorem withGlb_hbm (f : Glb → Glb) : (withGlb d f).hbm = d.hbm := rfl
@[simp] theorem withGlb_rpr (f : Glb → Glb) : (withGlb d f).rpr = d.rpr := rfl
@[simp] theorem withGlb_dbg (f : Glb → Glb) : (withGlb d f).dbg = d.dbg := rfl
@[simp] theorem withGlb_trc (f : Glb → Glb) : (withGlb d f).trc = d.trc := rfl
@[simp] theorem withGlb_annalsMiB (f : Glb → Glb) : (withGlb d f).annalsMiB = d.annalsMiB := rfl
@[simp] theorem withGlb_counters (f : Glb → Glb) : (withGlb d f).counters = d.counters := rfl
@[simp] theorem withGlb_kvs (f : Glb → Glb) : (withGlb d f).kvs = d.kvs := rfl
@[simp] theorem withGlb_met (f : Glb → Glb) : (withGlb d f).met = d.met := rfl
@[simp] theorem withGlb_freeCount (f : Glb → Glb) : (withGlb d f).freeCount = d.freeCount := rfl

/-! ### withHif -/

@[simp] theorem withHif_fuses (f : Hif → Hif) : (withHif d f).fuses = d.fuses := rfl
@[simp] theorem withHif_glb (f : Hif → Hif) : (withHif d f).glb = d.glb := rfl
@[simp] theorem withHif_hif (f : Hif → Hif) : (withHif d f).hif = f d.hif := rfl
@[simp] theorem withHif_bus (f : Hif → Hif) : (withHif d f).bus = d.bus := rfl
@[simp] theorem withHif_pwr (f : Hif → Hif) : (withHif d f).pwr = d.pwr := rfl
@[simp] theorem withHif_flash (f : Hif → Hif) : (withHif d f).flash = d.flash := rfl
@[simp] theorem withHif_fpl (f : Hif → Hif) : (withHif d f).fpl = d.fpl := rfl
@[simp] theorem withHif_tik (f : Hif → Hif) : (withHif d f).tik = d.tik := rfl
@[simp] theorem withHif_join (f : Hif → Hif) : (withHif d f).join = d.join := rfl
@[simp] theorem withHif_mbx (f : Hif → Hif) : (withHif d f).mbx = d.mbx := rfl
@[simp] theorem withHif_nextMbx (f : Hif → Hif) : (withHif d f).nextMbx = d.nextMbx := rfl
@[simp] theorem withHif_latches (f : Hif → Hif) : (withHif d f).latches = d.latches := rfl
@[simp] theorem withHif_mem (f : Hif → Hif) : (withHif d f).mem = d.mem := rfl
@[simp] theorem withHif_bar2 (f : Hif → Hif) : (withHif d f).bar2 = d.bar2 := rfl
@[simp] theorem withHif_bar2Poison (f : Hif → Hif) : (withHif d f).bar2Poison = d.bar2Poison := rfl
@[simp] theorem withHif_poison (f : Hif → Hif) : (withHif d f).poison = d.poison := rfl
@[simp] theorem withHif_holds (f : Hif → Hif) : (withHif d f).holds = d.holds := rfl
@[simp] theorem withHif_allocs (f : Hif → Hif) : (withHif d f).allocs = d.allocs := rfl
@[simp] theorem withHif_descs (f : Hif → Hif) : (withHif d f).descs = d.descs := rfl
@[simp] theorem withHif_owners (f : Hif → Hif) : (withHif d f).owners = d.owners := rfl
@[simp] theorem withHif_trees (f : Hif → Hif) : (withHif d f).trees = d.trees := rfl
@[simp] theorem withHif_groups (f : Hif → Hif) : (withHif d f).groups = d.groups := rfl
@[simp] theorem withHif_buckets (f : Hif → Hif) : (withHif d f).buckets = d.buckets := rfl
@[simp] theorem withHif_streams (f : Hif → Hif) : (withHif d f).streams = d.streams := rfl
@[simp] theorem withHif_generations (f : Hif → Hif) : (withHif d f).generations = d.generations := rfl
@[simp] theorem withHif_incoming (f : Hif → Hif) : (withHif d f).incoming = d.incoming := rfl
@[simp] theorem withHif_resStores (f : Hif → Hif) : (withHif d f).resStores = d.resStores := rfl
@[simp] theorem withHif_resZero (f : Hif → Hif) : (withHif d f).resZero = d.resZero := rfl
@[simp] theorem withHif_bucketStores (f : Hif → Hif) : (withHif d f).bucketStores = d.bucketStores := rfl
@[simp] theorem withHif_exponents (f : Hif → Hif) : (withHif d f).exponents = d.exponents := rfl
@[simp] theorem withHif_lastExponents (f : Hif → Hif) : (withHif d f).lastExponents = d.lastExponents := rfl
@[simp] theorem withHif_seed (f : Hif → Hif) : (withHif d f).seed = d.seed := rfl
@[simp] theorem withHif_aesFail (f : Hif → Hif) : (withHif d f).aesFail = d.aesFail := rfl
@[simp] theorem withHif_running (f : Hif → Hif) : (withHif d f).running = d.running := rfl
@[simp] theorem withHif_nextId (f : Hif → Hif) : (withHif d f).nextId = d.nextId := rfl
@[simp] theorem withHif_work (f : Hif → Hif) : (withHif d f).work = d.work := rfl
@[simp] theorem withHif_plan (f : Hif → Hif) : (withHif d f).plan = d.plan := rfl
@[simp] theorem withHif_holdWork (f : Hif → Hif) : (withHif d f).holdWork = d.holdWork := rfl
@[simp] theorem withHif_ports (f : Hif → Hif) : (withHif d f).ports = d.ports := rfl
@[simp] theorem withHif_quads (f : Hif → Hif) : (withHif d f).quads = d.quads := rfl
@[simp] theorem withHif_tiles (f : Hif → Hif) : (withHif d f).tiles = d.tiles := rfl
@[simp] theorem withHif_phys (f : Hif → Hif) : (withHif d f).phys = d.phys := rfl
@[simp] theorem withHif_hbm (f : Hif → Hif) : (withHif d f).hbm = d.hbm := rfl
@[simp] theorem withHif_rpr (f : Hif → Hif) : (withHif d f).rpr = d.rpr := rfl
@[simp] theorem withHif_dbg (f : Hif → Hif) : (withHif d f).dbg = d.dbg := rfl
@[simp] theorem withHif_trc (f : Hif → Hif) : (withHif d f).trc = d.trc := rfl
@[simp] theorem withHif_annalsMiB (f : Hif → Hif) : (withHif d f).annalsMiB = d.annalsMiB := rfl
@[simp] theorem withHif_counters (f : Hif → Hif) : (withHif d f).counters = d.counters := rfl
@[simp] theorem withHif_kvs (f : Hif → Hif) : (withHif d f).kvs = d.kvs := rfl
@[simp] theorem withHif_met (f : Hif → Hif) : (withHif d f).met = d.met := rfl
@[simp] theorem withHif_freeCount (f : Hif → Hif) : (withHif d f).freeCount = d.freeCount := rfl

/-! ### withFpl -/

@[simp] theorem withFpl_fuses (f : Fpl → Fpl) : (withFpl d f).fuses = d.fuses := rfl
@[simp] theorem withFpl_glb (f : Fpl → Fpl) : (withFpl d f).glb = d.glb := rfl
@[simp] theorem withFpl_hif (f : Fpl → Fpl) : (withFpl d f).hif = d.hif := rfl
@[simp] theorem withFpl_bus (f : Fpl → Fpl) : (withFpl d f).bus = d.bus := rfl
@[simp] theorem withFpl_pwr (f : Fpl → Fpl) : (withFpl d f).pwr = d.pwr := rfl
@[simp] theorem withFpl_flash (f : Fpl → Fpl) : (withFpl d f).flash = d.flash := rfl
@[simp] theorem withFpl_fpl (f : Fpl → Fpl) : (withFpl d f).fpl = f d.fpl := rfl
@[simp] theorem withFpl_tik (f : Fpl → Fpl) : (withFpl d f).tik = d.tik := rfl
@[simp] theorem withFpl_join (f : Fpl → Fpl) : (withFpl d f).join = d.join := rfl
@[simp] theorem withFpl_mbx (f : Fpl → Fpl) : (withFpl d f).mbx = d.mbx := rfl
@[simp] theorem withFpl_nextMbx (f : Fpl → Fpl) : (withFpl d f).nextMbx = d.nextMbx := rfl
@[simp] theorem withFpl_latches (f : Fpl → Fpl) : (withFpl d f).latches = d.latches := rfl
@[simp] theorem withFpl_mem (f : Fpl → Fpl) : (withFpl d f).mem = d.mem := rfl
@[simp] theorem withFpl_bar2 (f : Fpl → Fpl) : (withFpl d f).bar2 = d.bar2 := rfl
@[simp] theorem withFpl_bar2Poison (f : Fpl → Fpl) : (withFpl d f).bar2Poison = d.bar2Poison := rfl
@[simp] theorem withFpl_poison (f : Fpl → Fpl) : (withFpl d f).poison = d.poison := rfl
@[simp] theorem withFpl_holds (f : Fpl → Fpl) : (withFpl d f).holds = d.holds := rfl
@[simp] theorem withFpl_allocs (f : Fpl → Fpl) : (withFpl d f).allocs = d.allocs := rfl
@[simp] theorem withFpl_descs (f : Fpl → Fpl) : (withFpl d f).descs = d.descs := rfl
@[simp] theorem withFpl_owners (f : Fpl → Fpl) : (withFpl d f).owners = d.owners := rfl
@[simp] theorem withFpl_trees (f : Fpl → Fpl) : (withFpl d f).trees = d.trees := rfl
@[simp] theorem withFpl_groups (f : Fpl → Fpl) : (withFpl d f).groups = d.groups := rfl
@[simp] theorem withFpl_buckets (f : Fpl → Fpl) : (withFpl d f).buckets = d.buckets := rfl
@[simp] theorem withFpl_streams (f : Fpl → Fpl) : (withFpl d f).streams = d.streams := rfl
@[simp] theorem withFpl_generations (f : Fpl → Fpl) : (withFpl d f).generations = d.generations := rfl
@[simp] theorem withFpl_incoming (f : Fpl → Fpl) : (withFpl d f).incoming = d.incoming := rfl
@[simp] theorem withFpl_resStores (f : Fpl → Fpl) : (withFpl d f).resStores = d.resStores := rfl
@[simp] theorem withFpl_resZero (f : Fpl → Fpl) : (withFpl d f).resZero = d.resZero := rfl
@[simp] theorem withFpl_bucketStores (f : Fpl → Fpl) : (withFpl d f).bucketStores = d.bucketStores := rfl
@[simp] theorem withFpl_exponents (f : Fpl → Fpl) : (withFpl d f).exponents = d.exponents := rfl
@[simp] theorem withFpl_lastExponents (f : Fpl → Fpl) : (withFpl d f).lastExponents = d.lastExponents := rfl
@[simp] theorem withFpl_seed (f : Fpl → Fpl) : (withFpl d f).seed = d.seed := rfl
@[simp] theorem withFpl_aesFail (f : Fpl → Fpl) : (withFpl d f).aesFail = d.aesFail := rfl
@[simp] theorem withFpl_running (f : Fpl → Fpl) : (withFpl d f).running = d.running := rfl
@[simp] theorem withFpl_nextId (f : Fpl → Fpl) : (withFpl d f).nextId = d.nextId := rfl
@[simp] theorem withFpl_work (f : Fpl → Fpl) : (withFpl d f).work = d.work := rfl
@[simp] theorem withFpl_plan (f : Fpl → Fpl) : (withFpl d f).plan = d.plan := rfl
@[simp] theorem withFpl_holdWork (f : Fpl → Fpl) : (withFpl d f).holdWork = d.holdWork := rfl
@[simp] theorem withFpl_ports (f : Fpl → Fpl) : (withFpl d f).ports = d.ports := rfl
@[simp] theorem withFpl_quads (f : Fpl → Fpl) : (withFpl d f).quads = d.quads := rfl
@[simp] theorem withFpl_tiles (f : Fpl → Fpl) : (withFpl d f).tiles = d.tiles := rfl
@[simp] theorem withFpl_phys (f : Fpl → Fpl) : (withFpl d f).phys = d.phys := rfl
@[simp] theorem withFpl_hbm (f : Fpl → Fpl) : (withFpl d f).hbm = d.hbm := rfl
@[simp] theorem withFpl_rpr (f : Fpl → Fpl) : (withFpl d f).rpr = d.rpr := rfl
@[simp] theorem withFpl_dbg (f : Fpl → Fpl) : (withFpl d f).dbg = d.dbg := rfl
@[simp] theorem withFpl_trc (f : Fpl → Fpl) : (withFpl d f).trc = d.trc := rfl
@[simp] theorem withFpl_annalsMiB (f : Fpl → Fpl) : (withFpl d f).annalsMiB = d.annalsMiB := rfl
@[simp] theorem withFpl_counters (f : Fpl → Fpl) : (withFpl d f).counters = d.counters := rfl
@[simp] theorem withFpl_kvs (f : Fpl → Fpl) : (withFpl d f).kvs = d.kvs := rfl
@[simp] theorem withFpl_met (f : Fpl → Fpl) : (withFpl d f).met = d.met := rfl
@[simp] theorem withFpl_freeCount (f : Fpl → Fpl) : (withFpl d f).freeCount = d.freeCount := rfl

/-! ### withRpr -/

@[simp] theorem withRpr_fuses (f : Rpr → Rpr) : (withRpr d f).fuses = d.fuses := rfl
@[simp] theorem withRpr_glb (f : Rpr → Rpr) : (withRpr d f).glb = d.glb := rfl
@[simp] theorem withRpr_hif (f : Rpr → Rpr) : (withRpr d f).hif = d.hif := rfl
@[simp] theorem withRpr_bus (f : Rpr → Rpr) : (withRpr d f).bus = d.bus := rfl
@[simp] theorem withRpr_pwr (f : Rpr → Rpr) : (withRpr d f).pwr = d.pwr := rfl
@[simp] theorem withRpr_flash (f : Rpr → Rpr) : (withRpr d f).flash = d.flash := rfl
@[simp] theorem withRpr_fpl (f : Rpr → Rpr) : (withRpr d f).fpl = d.fpl := rfl
@[simp] theorem withRpr_tik (f : Rpr → Rpr) : (withRpr d f).tik = d.tik := rfl
@[simp] theorem withRpr_join (f : Rpr → Rpr) : (withRpr d f).join = d.join := rfl
@[simp] theorem withRpr_mbx (f : Rpr → Rpr) : (withRpr d f).mbx = d.mbx := rfl
@[simp] theorem withRpr_nextMbx (f : Rpr → Rpr) : (withRpr d f).nextMbx = d.nextMbx := rfl
@[simp] theorem withRpr_latches (f : Rpr → Rpr) : (withRpr d f).latches = d.latches := rfl
@[simp] theorem withRpr_mem (f : Rpr → Rpr) : (withRpr d f).mem = d.mem := rfl
@[simp] theorem withRpr_bar2 (f : Rpr → Rpr) : (withRpr d f).bar2 = d.bar2 := rfl
@[simp] theorem withRpr_bar2Poison (f : Rpr → Rpr) : (withRpr d f).bar2Poison = d.bar2Poison := rfl
@[simp] theorem withRpr_poison (f : Rpr → Rpr) : (withRpr d f).poison = d.poison := rfl
@[simp] theorem withRpr_holds (f : Rpr → Rpr) : (withRpr d f).holds = d.holds := rfl
@[simp] theorem withRpr_allocs (f : Rpr → Rpr) : (withRpr d f).allocs = d.allocs := rfl
@[simp] theorem withRpr_descs (f : Rpr → Rpr) : (withRpr d f).descs = d.descs := rfl
@[simp] theorem withRpr_owners (f : Rpr → Rpr) : (withRpr d f).owners = d.owners := rfl
@[simp] theorem withRpr_trees (f : Rpr → Rpr) : (withRpr d f).trees = d.trees := rfl
@[simp] theorem withRpr_groups (f : Rpr → Rpr) : (withRpr d f).groups = d.groups := rfl
@[simp] theorem withRpr_buckets (f : Rpr → Rpr) : (withRpr d f).buckets = d.buckets := rfl
@[simp] theorem withRpr_streams (f : Rpr → Rpr) : (withRpr d f).streams = d.streams := rfl
@[simp] theorem withRpr_generations (f : Rpr → Rpr) : (withRpr d f).generations = d.generations := rfl
@[simp] theorem withRpr_incoming (f : Rpr → Rpr) : (withRpr d f).incoming = d.incoming := rfl
@[simp] theorem withRpr_resStores (f : Rpr → Rpr) : (withRpr d f).resStores = d.resStores := rfl
@[simp] theorem withRpr_resZero (f : Rpr → Rpr) : (withRpr d f).resZero = d.resZero := rfl
@[simp] theorem withRpr_bucketStores (f : Rpr → Rpr) : (withRpr d f).bucketStores = d.bucketStores := rfl
@[simp] theorem withRpr_exponents (f : Rpr → Rpr) : (withRpr d f).exponents = d.exponents := rfl
@[simp] theorem withRpr_lastExponents (f : Rpr → Rpr) : (withRpr d f).lastExponents = d.lastExponents := rfl
@[simp] theorem withRpr_seed (f : Rpr → Rpr) : (withRpr d f).seed = d.seed := rfl
@[simp] theorem withRpr_aesFail (f : Rpr → Rpr) : (withRpr d f).aesFail = d.aesFail := rfl
@[simp] theorem withRpr_running (f : Rpr → Rpr) : (withRpr d f).running = d.running := rfl
@[simp] theorem withRpr_nextId (f : Rpr → Rpr) : (withRpr d f).nextId = d.nextId := rfl
@[simp] theorem withRpr_work (f : Rpr → Rpr) : (withRpr d f).work = d.work := rfl
@[simp] theorem withRpr_plan (f : Rpr → Rpr) : (withRpr d f).plan = d.plan := rfl
@[simp] theorem withRpr_holdWork (f : Rpr → Rpr) : (withRpr d f).holdWork = d.holdWork := rfl
@[simp] theorem withRpr_ports (f : Rpr → Rpr) : (withRpr d f).ports = d.ports := rfl
@[simp] theorem withRpr_quads (f : Rpr → Rpr) : (withRpr d f).quads = d.quads := rfl
@[simp] theorem withRpr_tiles (f : Rpr → Rpr) : (withRpr d f).tiles = d.tiles := rfl
@[simp] theorem withRpr_phys (f : Rpr → Rpr) : (withRpr d f).phys = d.phys := rfl
@[simp] theorem withRpr_hbm (f : Rpr → Rpr) : (withRpr d f).hbm = d.hbm := rfl
@[simp] theorem withRpr_rpr (f : Rpr → Rpr) : (withRpr d f).rpr = f d.rpr := rfl
@[simp] theorem withRpr_dbg (f : Rpr → Rpr) : (withRpr d f).dbg = d.dbg := rfl
@[simp] theorem withRpr_trc (f : Rpr → Rpr) : (withRpr d f).trc = d.trc := rfl
@[simp] theorem withRpr_annalsMiB (f : Rpr → Rpr) : (withRpr d f).annalsMiB = d.annalsMiB := rfl
@[simp] theorem withRpr_counters (f : Rpr → Rpr) : (withRpr d f).counters = d.counters := rfl
@[simp] theorem withRpr_kvs (f : Rpr → Rpr) : (withRpr d f).kvs = d.kvs := rfl
@[simp] theorem withRpr_met (f : Rpr → Rpr) : (withRpr d f).met = d.met := rfl
@[simp] theorem withRpr_freeCount (f : Rpr → Rpr) : (withRpr d f).freeCount = d.freeCount := rfl

/-! ### withDbg -/

@[simp] theorem withDbg_fuses (f : Dbg → Dbg) : (withDbg d f).fuses = d.fuses := rfl
@[simp] theorem withDbg_glb (f : Dbg → Dbg) : (withDbg d f).glb = d.glb := rfl
@[simp] theorem withDbg_hif (f : Dbg → Dbg) : (withDbg d f).hif = d.hif := rfl
@[simp] theorem withDbg_bus (f : Dbg → Dbg) : (withDbg d f).bus = d.bus := rfl
@[simp] theorem withDbg_pwr (f : Dbg → Dbg) : (withDbg d f).pwr = d.pwr := rfl
@[simp] theorem withDbg_flash (f : Dbg → Dbg) : (withDbg d f).flash = d.flash := rfl
@[simp] theorem withDbg_fpl (f : Dbg → Dbg) : (withDbg d f).fpl = d.fpl := rfl
@[simp] theorem withDbg_tik (f : Dbg → Dbg) : (withDbg d f).tik = d.tik := rfl
@[simp] theorem withDbg_join (f : Dbg → Dbg) : (withDbg d f).join = d.join := rfl
@[simp] theorem withDbg_mbx (f : Dbg → Dbg) : (withDbg d f).mbx = d.mbx := rfl
@[simp] theorem withDbg_nextMbx (f : Dbg → Dbg) : (withDbg d f).nextMbx = d.nextMbx := rfl
@[simp] theorem withDbg_latches (f : Dbg → Dbg) : (withDbg d f).latches = d.latches := rfl
@[simp] theorem withDbg_mem (f : Dbg → Dbg) : (withDbg d f).mem = d.mem := rfl
@[simp] theorem withDbg_bar2 (f : Dbg → Dbg) : (withDbg d f).bar2 = d.bar2 := rfl
@[simp] theorem withDbg_bar2Poison (f : Dbg → Dbg) : (withDbg d f).bar2Poison = d.bar2Poison := rfl
@[simp] theorem withDbg_poison (f : Dbg → Dbg) : (withDbg d f).poison = d.poison := rfl
@[simp] theorem withDbg_holds (f : Dbg → Dbg) : (withDbg d f).holds = d.holds := rfl
@[simp] theorem withDbg_allocs (f : Dbg → Dbg) : (withDbg d f).allocs = d.allocs := rfl
@[simp] theorem withDbg_descs (f : Dbg → Dbg) : (withDbg d f).descs = d.descs := rfl
@[simp] theorem withDbg_owners (f : Dbg → Dbg) : (withDbg d f).owners = d.owners := rfl
@[simp] theorem withDbg_trees (f : Dbg → Dbg) : (withDbg d f).trees = d.trees := rfl
@[simp] theorem withDbg_groups (f : Dbg → Dbg) : (withDbg d f).groups = d.groups := rfl
@[simp] theorem withDbg_buckets (f : Dbg → Dbg) : (withDbg d f).buckets = d.buckets := rfl
@[simp] theorem withDbg_streams (f : Dbg → Dbg) : (withDbg d f).streams = d.streams := rfl
@[simp] theorem withDbg_generations (f : Dbg → Dbg) : (withDbg d f).generations = d.generations := rfl
@[simp] theorem withDbg_incoming (f : Dbg → Dbg) : (withDbg d f).incoming = d.incoming := rfl
@[simp] theorem withDbg_resStores (f : Dbg → Dbg) : (withDbg d f).resStores = d.resStores := rfl
@[simp] theorem withDbg_resZero (f : Dbg → Dbg) : (withDbg d f).resZero = d.resZero := rfl
@[simp] theorem withDbg_bucketStores (f : Dbg → Dbg) : (withDbg d f).bucketStores = d.bucketStores := rfl
@[simp] theorem withDbg_exponents (f : Dbg → Dbg) : (withDbg d f).exponents = d.exponents := rfl
@[simp] theorem withDbg_lastExponents (f : Dbg → Dbg) : (withDbg d f).lastExponents = d.lastExponents := rfl
@[simp] theorem withDbg_seed (f : Dbg → Dbg) : (withDbg d f).seed = d.seed := rfl
@[simp] theorem withDbg_aesFail (f : Dbg → Dbg) : (withDbg d f).aesFail = d.aesFail := rfl
@[simp] theorem withDbg_running (f : Dbg → Dbg) : (withDbg d f).running = d.running := rfl
@[simp] theorem withDbg_nextId (f : Dbg → Dbg) : (withDbg d f).nextId = d.nextId := rfl
@[simp] theorem withDbg_work (f : Dbg → Dbg) : (withDbg d f).work = d.work := rfl
@[simp] theorem withDbg_plan (f : Dbg → Dbg) : (withDbg d f).plan = d.plan := rfl
@[simp] theorem withDbg_holdWork (f : Dbg → Dbg) : (withDbg d f).holdWork = d.holdWork := rfl
@[simp] theorem withDbg_ports (f : Dbg → Dbg) : (withDbg d f).ports = d.ports := rfl
@[simp] theorem withDbg_quads (f : Dbg → Dbg) : (withDbg d f).quads = d.quads := rfl
@[simp] theorem withDbg_tiles (f : Dbg → Dbg) : (withDbg d f).tiles = d.tiles := rfl
@[simp] theorem withDbg_phys (f : Dbg → Dbg) : (withDbg d f).phys = d.phys := rfl
@[simp] theorem withDbg_hbm (f : Dbg → Dbg) : (withDbg d f).hbm = d.hbm := rfl
@[simp] theorem withDbg_rpr (f : Dbg → Dbg) : (withDbg d f).rpr = d.rpr := rfl
@[simp] theorem withDbg_dbg (f : Dbg → Dbg) : (withDbg d f).dbg = f d.dbg := rfl
@[simp] theorem withDbg_trc (f : Dbg → Dbg) : (withDbg d f).trc = d.trc := rfl
@[simp] theorem withDbg_annalsMiB (f : Dbg → Dbg) : (withDbg d f).annalsMiB = d.annalsMiB := rfl
@[simp] theorem withDbg_counters (f : Dbg → Dbg) : (withDbg d f).counters = d.counters := rfl
@[simp] theorem withDbg_kvs (f : Dbg → Dbg) : (withDbg d f).kvs = d.kvs := rfl
@[simp] theorem withDbg_met (f : Dbg → Dbg) : (withDbg d f).met = d.met := rfl
@[simp] theorem withDbg_freeCount (f : Dbg → Dbg) : (withDbg d f).freeCount = d.freeCount := rfl

/-! ### withTrc -/

@[simp] theorem withTrc_fuses (f : Trc → Trc) : (withTrc d f).fuses = d.fuses := rfl
@[simp] theorem withTrc_glb (f : Trc → Trc) : (withTrc d f).glb = d.glb := rfl
@[simp] theorem withTrc_hif (f : Trc → Trc) : (withTrc d f).hif = d.hif := rfl
@[simp] theorem withTrc_bus (f : Trc → Trc) : (withTrc d f).bus = d.bus := rfl
@[simp] theorem withTrc_pwr (f : Trc → Trc) : (withTrc d f).pwr = d.pwr := rfl
@[simp] theorem withTrc_flash (f : Trc → Trc) : (withTrc d f).flash = d.flash := rfl
@[simp] theorem withTrc_fpl (f : Trc → Trc) : (withTrc d f).fpl = d.fpl := rfl
@[simp] theorem withTrc_tik (f : Trc → Trc) : (withTrc d f).tik = d.tik := rfl
@[simp] theorem withTrc_join (f : Trc → Trc) : (withTrc d f).join = d.join := rfl
@[simp] theorem withTrc_mbx (f : Trc → Trc) : (withTrc d f).mbx = d.mbx := rfl
@[simp] theorem withTrc_nextMbx (f : Trc → Trc) : (withTrc d f).nextMbx = d.nextMbx := rfl
@[simp] theorem withTrc_latches (f : Trc → Trc) : (withTrc d f).latches = d.latches := rfl
@[simp] theorem withTrc_mem (f : Trc → Trc) : (withTrc d f).mem = d.mem := rfl
@[simp] theorem withTrc_bar2 (f : Trc → Trc) : (withTrc d f).bar2 = d.bar2 := rfl
@[simp] theorem withTrc_bar2Poison (f : Trc → Trc) : (withTrc d f).bar2Poison = d.bar2Poison := rfl
@[simp] theorem withTrc_poison (f : Trc → Trc) : (withTrc d f).poison = d.poison := rfl
@[simp] theorem withTrc_holds (f : Trc → Trc) : (withTrc d f).holds = d.holds := rfl
@[simp] theorem withTrc_allocs (f : Trc → Trc) : (withTrc d f).allocs = d.allocs := rfl
@[simp] theorem withTrc_descs (f : Trc → Trc) : (withTrc d f).descs = d.descs := rfl
@[simp] theorem withTrc_owners (f : Trc → Trc) : (withTrc d f).owners = d.owners := rfl
@[simp] theorem withTrc_trees (f : Trc → Trc) : (withTrc d f).trees = d.trees := rfl
@[simp] theorem withTrc_groups (f : Trc → Trc) : (withTrc d f).groups = d.groups := rfl
@[simp] theorem withTrc_buckets (f : Trc → Trc) : (withTrc d f).buckets = d.buckets := rfl
@[simp] theorem withTrc_streams (f : Trc → Trc) : (withTrc d f).streams = d.streams := rfl
@[simp] theorem withTrc_generations (f : Trc → Trc) : (withTrc d f).generations = d.generations := rfl
@[simp] theorem withTrc_incoming (f : Trc → Trc) : (withTrc d f).incoming = d.incoming := rfl
@[simp] theorem withTrc_resStores (f : Trc → Trc) : (withTrc d f).resStores = d.resStores := rfl
@[simp] theorem withTrc_resZero (f : Trc → Trc) : (withTrc d f).resZero = d.resZero := rfl
@[simp] theorem withTrc_bucketStores (f : Trc → Trc) : (withTrc d f).bucketStores = d.bucketStores := rfl
@[simp] theorem withTrc_exponents (f : Trc → Trc) : (withTrc d f).exponents = d.exponents := rfl
@[simp] theorem withTrc_lastExponents (f : Trc → Trc) : (withTrc d f).lastExponents = d.lastExponents := rfl
@[simp] theorem withTrc_seed (f : Trc → Trc) : (withTrc d f).seed = d.seed := rfl
@[simp] theorem withTrc_aesFail (f : Trc → Trc) : (withTrc d f).aesFail = d.aesFail := rfl
@[simp] theorem withTrc_running (f : Trc → Trc) : (withTrc d f).running = d.running := rfl
@[simp] theorem withTrc_nextId (f : Trc → Trc) : (withTrc d f).nextId = d.nextId := rfl
@[simp] theorem withTrc_work (f : Trc → Trc) : (withTrc d f).work = d.work := rfl
@[simp] theorem withTrc_plan (f : Trc → Trc) : (withTrc d f).plan = d.plan := rfl
@[simp] theorem withTrc_holdWork (f : Trc → Trc) : (withTrc d f).holdWork = d.holdWork := rfl
@[simp] theorem withTrc_ports (f : Trc → Trc) : (withTrc d f).ports = d.ports := rfl
@[simp] theorem withTrc_quads (f : Trc → Trc) : (withTrc d f).quads = d.quads := rfl
@[simp] theorem withTrc_tiles (f : Trc → Trc) : (withTrc d f).tiles = d.tiles := rfl
@[simp] theorem withTrc_phys (f : Trc → Trc) : (withTrc d f).phys = d.phys := rfl
@[simp] theorem withTrc_hbm (f : Trc → Trc) : (withTrc d f).hbm = d.hbm := rfl
@[simp] theorem withTrc_rpr (f : Trc → Trc) : (withTrc d f).rpr = d.rpr := rfl
@[simp] theorem withTrc_dbg (f : Trc → Trc) : (withTrc d f).dbg = d.dbg := rfl
@[simp] theorem withTrc_trc (f : Trc → Trc) : (withTrc d f).trc = f d.trc := rfl
@[simp] theorem withTrc_annalsMiB (f : Trc → Trc) : (withTrc d f).annalsMiB = d.annalsMiB := rfl
@[simp] theorem withTrc_counters (f : Trc → Trc) : (withTrc d f).counters = d.counters := rfl
@[simp] theorem withTrc_kvs (f : Trc → Trc) : (withTrc d f).kvs = d.kvs := rfl
@[simp] theorem withTrc_met (f : Trc → Trc) : (withTrc d f).met = d.met := rfl
@[simp] theorem withTrc_freeCount (f : Trc → Trc) : (withTrc d f).freeCount = d.freeCount := rfl

/-! ### withKvs -/

@[simp] theorem withKvs_fuses (f : Kvs → Kvs) : (withKvs d f).fuses = d.fuses := rfl
@[simp] theorem withKvs_glb (f : Kvs → Kvs) : (withKvs d f).glb = d.glb := rfl
@[simp] theorem withKvs_hif (f : Kvs → Kvs) : (withKvs d f).hif = d.hif := rfl
@[simp] theorem withKvs_bus (f : Kvs → Kvs) : (withKvs d f).bus = d.bus := rfl
@[simp] theorem withKvs_pwr (f : Kvs → Kvs) : (withKvs d f).pwr = d.pwr := rfl
@[simp] theorem withKvs_flash (f : Kvs → Kvs) : (withKvs d f).flash = d.flash := rfl
@[simp] theorem withKvs_fpl (f : Kvs → Kvs) : (withKvs d f).fpl = d.fpl := rfl
@[simp] theorem withKvs_tik (f : Kvs → Kvs) : (withKvs d f).tik = d.tik := rfl
@[simp] theorem withKvs_join (f : Kvs → Kvs) : (withKvs d f).join = d.join := rfl
@[simp] theorem withKvs_mbx (f : Kvs → Kvs) : (withKvs d f).mbx = d.mbx := rfl
@[simp] theorem withKvs_nextMbx (f : Kvs → Kvs) : (withKvs d f).nextMbx = d.nextMbx := rfl
@[simp] theorem withKvs_latches (f : Kvs → Kvs) : (withKvs d f).latches = d.latches := rfl
@[simp] theorem withKvs_mem (f : Kvs → Kvs) : (withKvs d f).mem = d.mem := rfl
@[simp] theorem withKvs_bar2 (f : Kvs → Kvs) : (withKvs d f).bar2 = d.bar2 := rfl
@[simp] theorem withKvs_bar2Poison (f : Kvs → Kvs) : (withKvs d f).bar2Poison = d.bar2Poison := rfl
@[simp] theorem withKvs_poison (f : Kvs → Kvs) : (withKvs d f).poison = d.poison := rfl
@[simp] theorem withKvs_holds (f : Kvs → Kvs) : (withKvs d f).holds = d.holds := rfl
@[simp] theorem withKvs_allocs (f : Kvs → Kvs) : (withKvs d f).allocs = d.allocs := rfl
@[simp] theorem withKvs_descs (f : Kvs → Kvs) : (withKvs d f).descs = d.descs := rfl
@[simp] theorem withKvs_owners (f : Kvs → Kvs) : (withKvs d f).owners = d.owners := rfl
@[simp] theorem withKvs_trees (f : Kvs → Kvs) : (withKvs d f).trees = d.trees := rfl
@[simp] theorem withKvs_groups (f : Kvs → Kvs) : (withKvs d f).groups = d.groups := rfl
@[simp] theorem withKvs_buckets (f : Kvs → Kvs) : (withKvs d f).buckets = d.buckets := rfl
@[simp] theorem withKvs_streams (f : Kvs → Kvs) : (withKvs d f).streams = d.streams := rfl
@[simp] theorem withKvs_generations (f : Kvs → Kvs) : (withKvs d f).generations = d.generations := rfl
@[simp] theorem withKvs_incoming (f : Kvs → Kvs) : (withKvs d f).incoming = d.incoming := rfl
@[simp] theorem withKvs_resStores (f : Kvs → Kvs) : (withKvs d f).resStores = d.resStores := rfl
@[simp] theorem withKvs_resZero (f : Kvs → Kvs) : (withKvs d f).resZero = d.resZero := rfl
@[simp] theorem withKvs_bucketStores (f : Kvs → Kvs) : (withKvs d f).bucketStores = d.bucketStores := rfl
@[simp] theorem withKvs_exponents (f : Kvs → Kvs) : (withKvs d f).exponents = d.exponents := rfl
@[simp] theorem withKvs_lastExponents (f : Kvs → Kvs) : (withKvs d f).lastExponents = d.lastExponents := rfl
@[simp] theorem withKvs_seed (f : Kvs → Kvs) : (withKvs d f).seed = d.seed := rfl
@[simp] theorem withKvs_aesFail (f : Kvs → Kvs) : (withKvs d f).aesFail = d.aesFail := rfl
@[simp] theorem withKvs_running (f : Kvs → Kvs) : (withKvs d f).running = d.running := rfl
@[simp] theorem withKvs_nextId (f : Kvs → Kvs) : (withKvs d f).nextId = d.nextId := rfl
@[simp] theorem withKvs_work (f : Kvs → Kvs) : (withKvs d f).work = d.work := rfl
@[simp] theorem withKvs_plan (f : Kvs → Kvs) : (withKvs d f).plan = d.plan := rfl
@[simp] theorem withKvs_holdWork (f : Kvs → Kvs) : (withKvs d f).holdWork = d.holdWork := rfl
@[simp] theorem withKvs_ports (f : Kvs → Kvs) : (withKvs d f).ports = d.ports := rfl
@[simp] theorem withKvs_quads (f : Kvs → Kvs) : (withKvs d f).quads = d.quads := rfl
@[simp] theorem withKvs_tiles (f : Kvs → Kvs) : (withKvs d f).tiles = d.tiles := rfl
@[simp] theorem withKvs_phys (f : Kvs → Kvs) : (withKvs d f).phys = d.phys := rfl
@[simp] theorem withKvs_hbm (f : Kvs → Kvs) : (withKvs d f).hbm = d.hbm := rfl
@[simp] theorem withKvs_rpr (f : Kvs → Kvs) : (withKvs d f).rpr = d.rpr := rfl
@[simp] theorem withKvs_dbg (f : Kvs → Kvs) : (withKvs d f).dbg = d.dbg := rfl
@[simp] theorem withKvs_trc (f : Kvs → Kvs) : (withKvs d f).trc = d.trc := rfl
@[simp] theorem withKvs_annalsMiB (f : Kvs → Kvs) : (withKvs d f).annalsMiB = d.annalsMiB := rfl
@[simp] theorem withKvs_counters (f : Kvs → Kvs) : (withKvs d f).counters = d.counters := rfl
@[simp] theorem withKvs_kvs (f : Kvs → Kvs) : (withKvs d f).kvs = f d.kvs := rfl
@[simp] theorem withKvs_met (f : Kvs → Kvs) : (withKvs d f).met = d.met := rfl
@[simp] theorem withKvs_freeCount (f : Kvs → Kvs) : (withKvs d f).freeCount = d.freeCount := rfl

/-! ### withMet -/

@[simp] theorem withMet_fuses (f : Met → Met) : (withMet d f).fuses = d.fuses := rfl
@[simp] theorem withMet_glb (f : Met → Met) : (withMet d f).glb = d.glb := rfl
@[simp] theorem withMet_hif (f : Met → Met) : (withMet d f).hif = d.hif := rfl
@[simp] theorem withMet_bus (f : Met → Met) : (withMet d f).bus = d.bus := rfl
@[simp] theorem withMet_pwr (f : Met → Met) : (withMet d f).pwr = d.pwr := rfl
@[simp] theorem withMet_flash (f : Met → Met) : (withMet d f).flash = d.flash := rfl
@[simp] theorem withMet_fpl (f : Met → Met) : (withMet d f).fpl = d.fpl := rfl
@[simp] theorem withMet_tik (f : Met → Met) : (withMet d f).tik = d.tik := rfl
@[simp] theorem withMet_join (f : Met → Met) : (withMet d f).join = d.join := rfl
@[simp] theorem withMet_mbx (f : Met → Met) : (withMet d f).mbx = d.mbx := rfl
@[simp] theorem withMet_nextMbx (f : Met → Met) : (withMet d f).nextMbx = d.nextMbx := rfl
@[simp] theorem withMet_latches (f : Met → Met) : (withMet d f).latches = d.latches := rfl
@[simp] theorem withMet_mem (f : Met → Met) : (withMet d f).mem = d.mem := rfl
@[simp] theorem withMet_bar2 (f : Met → Met) : (withMet d f).bar2 = d.bar2 := rfl
@[simp] theorem withMet_bar2Poison (f : Met → Met) : (withMet d f).bar2Poison = d.bar2Poison := rfl
@[simp] theorem withMet_poison (f : Met → Met) : (withMet d f).poison = d.poison := rfl
@[simp] theorem withMet_holds (f : Met → Met) : (withMet d f).holds = d.holds := rfl
@[simp] theorem withMet_allocs (f : Met → Met) : (withMet d f).allocs = d.allocs := rfl
@[simp] theorem withMet_descs (f : Met → Met) : (withMet d f).descs = d.descs := rfl
@[simp] theorem withMet_owners (f : Met → Met) : (withMet d f).owners = d.owners := rfl
@[simp] theorem withMet_trees (f : Met → Met) : (withMet d f).trees = d.trees := rfl
@[simp] theorem withMet_groups (f : Met → Met) : (withMet d f).groups = d.groups := rfl
@[simp] theorem withMet_buckets (f : Met → Met) : (withMet d f).buckets = d.buckets := rfl
@[simp] theorem withMet_streams (f : Met → Met) : (withMet d f).streams = d.streams := rfl
@[simp] theorem withMet_generations (f : Met → Met) : (withMet d f).generations = d.generations := rfl
@[simp] theorem withMet_incoming (f : Met → Met) : (withMet d f).incoming = d.incoming := rfl
@[simp] theorem withMet_resStores (f : Met → Met) : (withMet d f).resStores = d.resStores := rfl
@[simp] theorem withMet_resZero (f : Met → Met) : (withMet d f).resZero = d.resZero := rfl
@[simp] theorem withMet_bucketStores (f : Met → Met) : (withMet d f).bucketStores = d.bucketStores := rfl
@[simp] theorem withMet_exponents (f : Met → Met) : (withMet d f).exponents = d.exponents := rfl
@[simp] theorem withMet_lastExponents (f : Met → Met) : (withMet d f).lastExponents = d.lastExponents := rfl
@[simp] theorem withMet_seed (f : Met → Met) : (withMet d f).seed = d.seed := rfl
@[simp] theorem withMet_aesFail (f : Met → Met) : (withMet d f).aesFail = d.aesFail := rfl
@[simp] theorem withMet_running (f : Met → Met) : (withMet d f).running = d.running := rfl
@[simp] theorem withMet_nextId (f : Met → Met) : (withMet d f).nextId = d.nextId := rfl
@[simp] theorem withMet_work (f : Met → Met) : (withMet d f).work = d.work := rfl
@[simp] theorem withMet_plan (f : Met → Met) : (withMet d f).plan = d.plan := rfl
@[simp] theorem withMet_holdWork (f : Met → Met) : (withMet d f).holdWork = d.holdWork := rfl
@[simp] theorem withMet_ports (f : Met → Met) : (withMet d f).ports = d.ports := rfl
@[simp] theorem withMet_quads (f : Met → Met) : (withMet d f).quads = d.quads := rfl
@[simp] theorem withMet_tiles (f : Met → Met) : (withMet d f).tiles = d.tiles := rfl
@[simp] theorem withMet_phys (f : Met → Met) : (withMet d f).phys = d.phys := rfl
@[simp] theorem withMet_hbm (f : Met → Met) : (withMet d f).hbm = d.hbm := rfl
@[simp] theorem withMet_rpr (f : Met → Met) : (withMet d f).rpr = d.rpr := rfl
@[simp] theorem withMet_dbg (f : Met → Met) : (withMet d f).dbg = d.dbg := rfl
@[simp] theorem withMet_trc (f : Met → Met) : (withMet d f).trc = d.trc := rfl
@[simp] theorem withMet_annalsMiB (f : Met → Met) : (withMet d f).annalsMiB = d.annalsMiB := rfl
@[simp] theorem withMet_counters (f : Met → Met) : (withMet d f).counters = d.counters := rfl
@[simp] theorem withMet_kvs (f : Met → Met) : (withMet d f).kvs = d.kvs := rfl
@[simp] theorem withMet_met (f : Met → Met) : (withMet d f).met = f d.met := rfl
@[simp] theorem withMet_freeCount (f : Met → Met) : (withMet d f).freeCount = d.freeCount := rfl

/-! ### withPlan -/

@[simp] theorem withPlan_fuses (f : Plan → Plan) : (withPlan d f).fuses = d.fuses := rfl
@[simp] theorem withPlan_glb (f : Plan → Plan) : (withPlan d f).glb = d.glb := rfl
@[simp] theorem withPlan_hif (f : Plan → Plan) : (withPlan d f).hif = d.hif := rfl
@[simp] theorem withPlan_bus (f : Plan → Plan) : (withPlan d f).bus = d.bus := rfl
@[simp] theorem withPlan_pwr (f : Plan → Plan) : (withPlan d f).pwr = d.pwr := rfl
@[simp] theorem withPlan_flash (f : Plan → Plan) : (withPlan d f).flash = d.flash := rfl
@[simp] theorem withPlan_fpl (f : Plan → Plan) : (withPlan d f).fpl = d.fpl := rfl
@[simp] theorem withPlan_tik (f : Plan → Plan) : (withPlan d f).tik = d.tik := rfl
@[simp] theorem withPlan_join (f : Plan → Plan) : (withPlan d f).join = d.join := rfl
@[simp] theorem withPlan_mbx (f : Plan → Plan) : (withPlan d f).mbx = d.mbx := rfl
@[simp] theorem withPlan_nextMbx (f : Plan → Plan) : (withPlan d f).nextMbx = d.nextMbx := rfl
@[simp] theorem withPlan_latches (f : Plan → Plan) : (withPlan d f).latches = d.latches := rfl
@[simp] theorem withPlan_mem (f : Plan → Plan) : (withPlan d f).mem = d.mem := rfl
@[simp] theorem withPlan_bar2 (f : Plan → Plan) : (withPlan d f).bar2 = d.bar2 := rfl
@[simp] theorem withPlan_bar2Poison (f : Plan → Plan) : (withPlan d f).bar2Poison = d.bar2Poison := rfl
@[simp] theorem withPlan_poison (f : Plan → Plan) : (withPlan d f).poison = d.poison := rfl
@[simp] theorem withPlan_holds (f : Plan → Plan) : (withPlan d f).holds = d.holds := rfl
@[simp] theorem withPlan_allocs (f : Plan → Plan) : (withPlan d f).allocs = d.allocs := rfl
@[simp] theorem withPlan_descs (f : Plan → Plan) : (withPlan d f).descs = d.descs := rfl
@[simp] theorem withPlan_owners (f : Plan → Plan) : (withPlan d f).owners = d.owners := rfl
@[simp] theorem withPlan_trees (f : Plan → Plan) : (withPlan d f).trees = d.trees := rfl
@[simp] theorem withPlan_groups (f : Plan → Plan) : (withPlan d f).groups = d.groups := rfl
@[simp] theorem withPlan_buckets (f : Plan → Plan) : (withPlan d f).buckets = d.buckets := rfl
@[simp] theorem withPlan_streams (f : Plan → Plan) : (withPlan d f).streams = d.streams := rfl
@[simp] theorem withPlan_generations (f : Plan → Plan) : (withPlan d f).generations = d.generations := rfl
@[simp] theorem withPlan_incoming (f : Plan → Plan) : (withPlan d f).incoming = d.incoming := rfl
@[simp] theorem withPlan_resStores (f : Plan → Plan) : (withPlan d f).resStores = d.resStores := rfl
@[simp] theorem withPlan_resZero (f : Plan → Plan) : (withPlan d f).resZero = d.resZero := rfl
@[simp] theorem withPlan_bucketStores (f : Plan → Plan) : (withPlan d f).bucketStores = d.bucketStores := rfl
@[simp] theorem withPlan_exponents (f : Plan → Plan) : (withPlan d f).exponents = d.exponents := rfl
@[simp] theorem withPlan_lastExponents (f : Plan → Plan) : (withPlan d f).lastExponents = d.lastExponents := rfl
@[simp] theorem withPlan_seed (f : Plan → Plan) : (withPlan d f).seed = d.seed := rfl
@[simp] theorem withPlan_aesFail (f : Plan → Plan) : (withPlan d f).aesFail = d.aesFail := rfl
@[simp] theorem withPlan_running (f : Plan → Plan) : (withPlan d f).running = d.running := rfl
@[simp] theorem withPlan_nextId (f : Plan → Plan) : (withPlan d f).nextId = d.nextId := rfl
@[simp] theorem withPlan_work (f : Plan → Plan) : (withPlan d f).work = d.work := rfl
@[simp] theorem withPlan_plan (f : Plan → Plan) : (withPlan d f).plan = f d.plan := rfl
@[simp] theorem withPlan_holdWork (f : Plan → Plan) : (withPlan d f).holdWork = d.holdWork := rfl
@[simp] theorem withPlan_ports (f : Plan → Plan) : (withPlan d f).ports = d.ports := rfl
@[simp] theorem withPlan_quads (f : Plan → Plan) : (withPlan d f).quads = d.quads := rfl
@[simp] theorem withPlan_tiles (f : Plan → Plan) : (withPlan d f).tiles = d.tiles := rfl
@[simp] theorem withPlan_phys (f : Plan → Plan) : (withPlan d f).phys = d.phys := rfl
@[simp] theorem withPlan_hbm (f : Plan → Plan) : (withPlan d f).hbm = d.hbm := rfl
@[simp] theorem withPlan_rpr (f : Plan → Plan) : (withPlan d f).rpr = d.rpr := rfl
@[simp] theorem withPlan_dbg (f : Plan → Plan) : (withPlan d f).dbg = d.dbg := rfl
@[simp] theorem withPlan_trc (f : Plan → Plan) : (withPlan d f).trc = d.trc := rfl
@[simp] theorem withPlan_annalsMiB (f : Plan → Plan) : (withPlan d f).annalsMiB = d.annalsMiB := rfl
@[simp] theorem withPlan_counters (f : Plan → Plan) : (withPlan d f).counters = d.counters := rfl
@[simp] theorem withPlan_kvs (f : Plan → Plan) : (withPlan d f).kvs = d.kvs := rfl
@[simp] theorem withPlan_met (f : Plan → Plan) : (withPlan d f).met = d.met := rfl
@[simp] theorem withPlan_freeCount (f : Plan → Plan) : (withPlan d f).freeCount = d.freeCount := rfl

/-! ### withFlash -/

@[simp] theorem withFlash_fuses (f : Flash → Flash) : (withFlash d f).fuses = d.fuses := rfl
@[simp] theorem withFlash_glb (f : Flash → Flash) : (withFlash d f).glb = d.glb := rfl
@[simp] theorem withFlash_hif (f : Flash → Flash) : (withFlash d f).hif = d.hif := rfl
@[simp] theorem withFlash_bus (f : Flash → Flash) : (withFlash d f).bus = d.bus := rfl
@[simp] theorem withFlash_pwr (f : Flash → Flash) : (withFlash d f).pwr = d.pwr := rfl
@[simp] theorem withFlash_flash (f : Flash → Flash) : (withFlash d f).flash = f d.flash := rfl
@[simp] theorem withFlash_fpl (f : Flash → Flash) : (withFlash d f).fpl = d.fpl := rfl
@[simp] theorem withFlash_tik (f : Flash → Flash) : (withFlash d f).tik = d.tik := rfl
@[simp] theorem withFlash_join (f : Flash → Flash) : (withFlash d f).join = d.join := rfl
@[simp] theorem withFlash_mbx (f : Flash → Flash) : (withFlash d f).mbx = d.mbx := rfl
@[simp] theorem withFlash_nextMbx (f : Flash → Flash) : (withFlash d f).nextMbx = d.nextMbx := rfl
@[simp] theorem withFlash_latches (f : Flash → Flash) : (withFlash d f).latches = d.latches := rfl
@[simp] theorem withFlash_mem (f : Flash → Flash) : (withFlash d f).mem = d.mem := rfl
@[simp] theorem withFlash_bar2 (f : Flash → Flash) : (withFlash d f).bar2 = d.bar2 := rfl
@[simp] theorem withFlash_bar2Poison (f : Flash → Flash) : (withFlash d f).bar2Poison = d.bar2Poison := rfl
@[simp] theorem withFlash_poison (f : Flash → Flash) : (withFlash d f).poison = d.poison := rfl
@[simp] theorem withFlash_holds (f : Flash → Flash) : (withFlash d f).holds = d.holds := rfl
@[simp] theorem withFlash_allocs (f : Flash → Flash) : (withFlash d f).allocs = d.allocs := rfl
@[simp] theorem withFlash_descs (f : Flash → Flash) : (withFlash d f).descs = d.descs := rfl
@[simp] theorem withFlash_owners (f : Flash → Flash) : (withFlash d f).owners = d.owners := rfl
@[simp] theorem withFlash_trees (f : Flash → Flash) : (withFlash d f).trees = d.trees := rfl
@[simp] theorem withFlash_groups (f : Flash → Flash) : (withFlash d f).groups = d.groups := rfl
@[simp] theorem withFlash_buckets (f : Flash → Flash) : (withFlash d f).buckets = d.buckets := rfl
@[simp] theorem withFlash_streams (f : Flash → Flash) : (withFlash d f).streams = d.streams := rfl
@[simp] theorem withFlash_generations (f : Flash → Flash) : (withFlash d f).generations = d.generations := rfl
@[simp] theorem withFlash_incoming (f : Flash → Flash) : (withFlash d f).incoming = d.incoming := rfl
@[simp] theorem withFlash_resStores (f : Flash → Flash) : (withFlash d f).resStores = d.resStores := rfl
@[simp] theorem withFlash_resZero (f : Flash → Flash) : (withFlash d f).resZero = d.resZero := rfl
@[simp] theorem withFlash_bucketStores (f : Flash → Flash) : (withFlash d f).bucketStores = d.bucketStores := rfl
@[simp] theorem withFlash_exponents (f : Flash → Flash) : (withFlash d f).exponents = d.exponents := rfl
@[simp] theorem withFlash_lastExponents (f : Flash → Flash) : (withFlash d f).lastExponents = d.lastExponents := rfl
@[simp] theorem withFlash_seed (f : Flash → Flash) : (withFlash d f).seed = d.seed := rfl
@[simp] theorem withFlash_aesFail (f : Flash → Flash) : (withFlash d f).aesFail = d.aesFail := rfl
@[simp] theorem withFlash_running (f : Flash → Flash) : (withFlash d f).running = d.running := rfl
@[simp] theorem withFlash_nextId (f : Flash → Flash) : (withFlash d f).nextId = d.nextId := rfl
@[simp] theorem withFlash_work (f : Flash → Flash) : (withFlash d f).work = d.work := rfl
@[simp] theorem withFlash_plan (f : Flash → Flash) : (withFlash d f).plan = d.plan := rfl
@[simp] theorem withFlash_holdWork (f : Flash → Flash) : (withFlash d f).holdWork = d.holdWork := rfl
@[simp] theorem withFlash_ports (f : Flash → Flash) : (withFlash d f).ports = d.ports := rfl
@[simp] theorem withFlash_quads (f : Flash → Flash) : (withFlash d f).quads = d.quads := rfl
@[simp] theorem withFlash_tiles (f : Flash → Flash) : (withFlash d f).tiles = d.tiles := rfl
@[simp] theorem withFlash_phys (f : Flash → Flash) : (withFlash d f).phys = d.phys := rfl
@[simp] theorem withFlash_hbm (f : Flash → Flash) : (withFlash d f).hbm = d.hbm := rfl
@[simp] theorem withFlash_rpr (f : Flash → Flash) : (withFlash d f).rpr = d.rpr := rfl
@[simp] theorem withFlash_dbg (f : Flash → Flash) : (withFlash d f).dbg = d.dbg := rfl
@[simp] theorem withFlash_trc (f : Flash → Flash) : (withFlash d f).trc = d.trc := rfl
@[simp] theorem withFlash_annalsMiB (f : Flash → Flash) : (withFlash d f).annalsMiB = d.annalsMiB := rfl
@[simp] theorem withFlash_counters (f : Flash → Flash) : (withFlash d f).counters = d.counters := rfl
@[simp] theorem withFlash_kvs (f : Flash → Flash) : (withFlash d f).kvs = d.kvs := rfl
@[simp] theorem withFlash_met (f : Flash → Flash) : (withFlash d f).met = d.met := rfl
@[simp] theorem withFlash_freeCount (f : Flash → Flash) : (withFlash d f).freeCount = d.freeCount := rfl

/-! ### withMbx -/

@[simp] theorem withMbx_fuses (n : Mbx) (f : Mailbox → Mailbox) : (withMbx d n f).fuses = d.fuses := rfl
@[simp] theorem withMbx_glb (n : Mbx) (f : Mailbox → Mailbox) : (withMbx d n f).glb = d.glb := rfl
@[simp] theorem withMbx_hif (n : Mbx) (f : Mailbox → Mailbox) : (withMbx d n f).hif = d.hif := rfl
@[simp] theorem withMbx_bus (n : Mbx) (f : Mailbox → Mailbox) : (withMbx d n f).bus = d.bus := rfl
@[simp] theorem withMbx_pwr (n : Mbx) (f : Mailbox → Mailbox) : (withMbx d n f).pwr = d.pwr := rfl
@[simp] theorem withMbx_flash (n : Mbx) (f : Mailbox → Mailbox) : (withMbx d n f).flash = d.flash := rfl
@[simp] theorem withMbx_fpl (n : Mbx) (f : Mailbox → Mailbox) : (withMbx d n f).fpl = d.fpl := rfl
@[simp] theorem withMbx_tik (n : Mbx) (f : Mailbox → Mailbox) : (withMbx d n f).tik = d.tik := rfl
@[simp] theorem withMbx_join (n : Mbx) (f : Mailbox → Mailbox) : (withMbx d n f).join = d.join := rfl
@[simp] theorem withMbx_mbx (n : Mbx) (f : Mailbox → Mailbox) : (withMbx d n f).mbx = vmod d.mbx n f := rfl
@[simp] theorem withMbx_nextMbx (n : Mbx) (f : Mailbox → Mailbox) : (withMbx d n f).nextMbx = d.nextMbx := rfl
@[simp] theorem withMbx_latches (n : Mbx) (f : Mailbox → Mailbox) : (withMbx d n f).latches = d.latches := rfl
@[simp] theorem withMbx_mem (n : Mbx) (f : Mailbox → Mailbox) : (withMbx d n f).mem = d.mem := rfl
@[simp] theorem withMbx_bar2 (n : Mbx) (f : Mailbox → Mailbox) : (withMbx d n f).bar2 = d.bar2 := rfl
@[simp] theorem withMbx_bar2Poison (n : Mbx) (f : Mailbox → Mailbox) : (withMbx d n f).bar2Poison = d.bar2Poison := rfl
@[simp] theorem withMbx_poison (n : Mbx) (f : Mailbox → Mailbox) : (withMbx d n f).poison = d.poison := rfl
@[simp] theorem withMbx_holds (n : Mbx) (f : Mailbox → Mailbox) : (withMbx d n f).holds = d.holds := rfl
@[simp] theorem withMbx_allocs (n : Mbx) (f : Mailbox → Mailbox) : (withMbx d n f).allocs = d.allocs := rfl
@[simp] theorem withMbx_descs (n : Mbx) (f : Mailbox → Mailbox) : (withMbx d n f).descs = d.descs := rfl
@[simp] theorem withMbx_owners (n : Mbx) (f : Mailbox → Mailbox) : (withMbx d n f).owners = d.owners := rfl
@[simp] theorem withMbx_trees (n : Mbx) (f : Mailbox → Mailbox) : (withMbx d n f).trees = d.trees := rfl
@[simp] theorem withMbx_groups (n : Mbx) (f : Mailbox → Mailbox) : (withMbx d n f).groups = d.groups := rfl
@[simp] theorem withMbx_buckets (n : Mbx) (f : Mailbox → Mailbox) : (withMbx d n f).buckets = d.buckets := rfl
@[simp] theorem withMbx_streams (n : Mbx) (f : Mailbox → Mailbox) : (withMbx d n f).streams = d.streams := rfl
@[simp] theorem withMbx_generations (n : Mbx) (f : Mailbox → Mailbox) : (withMbx d n f).generations = d.generations := rfl
@[simp] theorem withMbx_incoming (n : Mbx) (f : Mailbox → Mailbox) : (withMbx d n f).incoming = d.incoming := rfl
@[simp] theorem withMbx_resStores (n : Mbx) (f : Mailbox → Mailbox) : (withMbx d n f).resStores = d.resStores := rfl
@[simp] theorem withMbx_resZero (n : Mbx) (f : Mailbox → Mailbox) : (withMbx d n f).resZero = d.resZero := rfl
@[simp] theorem withMbx_bucketStores (n : Mbx) (f : Mailbox → Mailbox) : (withMbx d n f).bucketStores = d.bucketStores := rfl
@[simp] theorem withMbx_exponents (n : Mbx) (f : Mailbox → Mailbox) : (withMbx d n f).exponents = d.exponents := rfl
@[simp] theorem withMbx_lastExponents (n : Mbx) (f : Mailbox → Mailbox) : (withMbx d n f).lastExponents = d.lastExponents := rfl
@[simp] theorem withMbx_seed (n : Mbx) (f : Mailbox → Mailbox) : (withMbx d n f).seed = d.seed := rfl
@[simp] theorem withMbx_aesFail (n : Mbx) (f : Mailbox → Mailbox) : (withMbx d n f).aesFail = d.aesFail := rfl
@[simp] theorem withMbx_running (n : Mbx) (f : Mailbox → Mailbox) : (withMbx d n f).running = d.running := rfl
@[simp] theorem withMbx_nextId (n : Mbx) (f : Mailbox → Mailbox) : (withMbx d n f).nextId = d.nextId := rfl
@[simp] theorem withMbx_work (n : Mbx) (f : Mailbox → Mailbox) : (withMbx d n f).work = d.work := rfl
@[simp] theorem withMbx_plan (n : Mbx) (f : Mailbox → Mailbox) : (withMbx d n f).plan = d.plan := rfl
@[simp] theorem withMbx_holdWork (n : Mbx) (f : Mailbox → Mailbox) : (withMbx d n f).holdWork = d.holdWork := rfl
@[simp] theorem withMbx_ports (n : Mbx) (f : Mailbox → Mailbox) : (withMbx d n f).ports = d.ports := rfl
@[simp] theorem withMbx_quads (n : Mbx) (f : Mailbox → Mailbox) : (withMbx d n f).quads = d.quads := rfl
@[simp] theorem withMbx_tiles (n : Mbx) (f : Mailbox → Mailbox) : (withMbx d n f).tiles = d.tiles := rfl
@[simp] theorem withMbx_phys (n : Mbx) (f : Mailbox → Mailbox) : (withMbx d n f).phys = d.phys := rfl
@[simp] theorem withMbx_hbm (n : Mbx) (f : Mailbox → Mailbox) : (withMbx d n f).hbm = d.hbm := rfl
@[simp] theorem withMbx_rpr (n : Mbx) (f : Mailbox → Mailbox) : (withMbx d n f).rpr = d.rpr := rfl
@[simp] theorem withMbx_dbg (n : Mbx) (f : Mailbox → Mailbox) : (withMbx d n f).dbg = d.dbg := rfl
@[simp] theorem withMbx_trc (n : Mbx) (f : Mailbox → Mailbox) : (withMbx d n f).trc = d.trc := rfl
@[simp] theorem withMbx_annalsMiB (n : Mbx) (f : Mailbox → Mailbox) : (withMbx d n f).annalsMiB = d.annalsMiB := rfl
@[simp] theorem withMbx_counters (n : Mbx) (f : Mailbox → Mailbox) : (withMbx d n f).counters = d.counters := rfl
@[simp] theorem withMbx_kvs (n : Mbx) (f : Mailbox → Mailbox) : (withMbx d n f).kvs = d.kvs := rfl
@[simp] theorem withMbx_met (n : Mbx) (f : Mailbox → Mailbox) : (withMbx d n f).met = d.met := rfl
@[simp] theorem withMbx_freeCount (n : Mbx) (f : Mailbox → Mailbox) : (withMbx d n f).freeCount = d.freeCount := rfl

/-! ### withPort -/

@[simp] theorem withPort_fuses (p : Port) (f : PortSt → PortSt) : (withPort d p f).fuses = d.fuses := rfl
@[simp] theorem withPort_glb (p : Port) (f : PortSt → PortSt) : (withPort d p f).glb = d.glb := rfl
@[simp] theorem withPort_hif (p : Port) (f : PortSt → PortSt) : (withPort d p f).hif = d.hif := rfl
@[simp] theorem withPort_bus (p : Port) (f : PortSt → PortSt) : (withPort d p f).bus = d.bus := rfl
@[simp] theorem withPort_pwr (p : Port) (f : PortSt → PortSt) : (withPort d p f).pwr = d.pwr := rfl
@[simp] theorem withPort_flash (p : Port) (f : PortSt → PortSt) : (withPort d p f).flash = d.flash := rfl
@[simp] theorem withPort_fpl (p : Port) (f : PortSt → PortSt) : (withPort d p f).fpl = d.fpl := rfl
@[simp] theorem withPort_tik (p : Port) (f : PortSt → PortSt) : (withPort d p f).tik = d.tik := rfl
@[simp] theorem withPort_join (p : Port) (f : PortSt → PortSt) : (withPort d p f).join = d.join := rfl
@[simp] theorem withPort_mbx (p : Port) (f : PortSt → PortSt) : (withPort d p f).mbx = d.mbx := rfl
@[simp] theorem withPort_nextMbx (p : Port) (f : PortSt → PortSt) : (withPort d p f).nextMbx = d.nextMbx := rfl
@[simp] theorem withPort_latches (p : Port) (f : PortSt → PortSt) : (withPort d p f).latches = d.latches := rfl
@[simp] theorem withPort_mem (p : Port) (f : PortSt → PortSt) : (withPort d p f).mem = d.mem := rfl
@[simp] theorem withPort_bar2 (p : Port) (f : PortSt → PortSt) : (withPort d p f).bar2 = d.bar2 := rfl
@[simp] theorem withPort_bar2Poison (p : Port) (f : PortSt → PortSt) : (withPort d p f).bar2Poison = d.bar2Poison := rfl
@[simp] theorem withPort_poison (p : Port) (f : PortSt → PortSt) : (withPort d p f).poison = d.poison := rfl
@[simp] theorem withPort_holds (p : Port) (f : PortSt → PortSt) : (withPort d p f).holds = d.holds := rfl
@[simp] theorem withPort_allocs (p : Port) (f : PortSt → PortSt) : (withPort d p f).allocs = d.allocs := rfl
@[simp] theorem withPort_descs (p : Port) (f : PortSt → PortSt) : (withPort d p f).descs = d.descs := rfl
@[simp] theorem withPort_owners (p : Port) (f : PortSt → PortSt) : (withPort d p f).owners = d.owners := rfl
@[simp] theorem withPort_trees (p : Port) (f : PortSt → PortSt) : (withPort d p f).trees = d.trees := rfl
@[simp] theorem withPort_groups (p : Port) (f : PortSt → PortSt) : (withPort d p f).groups = d.groups := rfl
@[simp] theorem withPort_buckets (p : Port) (f : PortSt → PortSt) : (withPort d p f).buckets = d.buckets := rfl
@[simp] theorem withPort_streams (p : Port) (f : PortSt → PortSt) : (withPort d p f).streams = d.streams := rfl
@[simp] theorem withPort_generations (p : Port) (f : PortSt → PortSt) : (withPort d p f).generations = d.generations := rfl
@[simp] theorem withPort_incoming (p : Port) (f : PortSt → PortSt) : (withPort d p f).incoming = d.incoming := rfl
@[simp] theorem withPort_resStores (p : Port) (f : PortSt → PortSt) : (withPort d p f).resStores = d.resStores := rfl
@[simp] theorem withPort_resZero (p : Port) (f : PortSt → PortSt) : (withPort d p f).resZero = d.resZero := rfl
@[simp] theorem withPort_bucketStores (p : Port) (f : PortSt → PortSt) : (withPort d p f).bucketStores = d.bucketStores := rfl
@[simp] theorem withPort_exponents (p : Port) (f : PortSt → PortSt) : (withPort d p f).exponents = d.exponents := rfl
@[simp] theorem withPort_lastExponents (p : Port) (f : PortSt → PortSt) : (withPort d p f).lastExponents = d.lastExponents := rfl
@[simp] theorem withPort_seed (p : Port) (f : PortSt → PortSt) : (withPort d p f).seed = d.seed := rfl
@[simp] theorem withPort_aesFail (p : Port) (f : PortSt → PortSt) : (withPort d p f).aesFail = d.aesFail := rfl
@[simp] theorem withPort_running (p : Port) (f : PortSt → PortSt) : (withPort d p f).running = d.running := rfl
@[simp] theorem withPort_nextId (p : Port) (f : PortSt → PortSt) : (withPort d p f).nextId = d.nextId := rfl
@[simp] theorem withPort_work (p : Port) (f : PortSt → PortSt) : (withPort d p f).work = d.work := rfl
@[simp] theorem withPort_plan (p : Port) (f : PortSt → PortSt) : (withPort d p f).plan = d.plan := rfl
@[simp] theorem withPort_holdWork (p : Port) (f : PortSt → PortSt) : (withPort d p f).holdWork = d.holdWork := rfl
@[simp] theorem withPort_ports (p : Port) (f : PortSt → PortSt) : (withPort d p f).ports = vmod d.ports p f := rfl
@[simp] theorem withPort_quads (p : Port) (f : PortSt → PortSt) : (withPort d p f).quads = d.quads := rfl
@[simp] theorem withPort_tiles (p : Port) (f : PortSt → PortSt) : (withPort d p f).tiles = d.tiles := rfl
@[simp] theorem withPort_phys (p : Port) (f : PortSt → PortSt) : (withPort d p f).phys = d.phys := rfl
@[simp] theorem withPort_hbm (p : Port) (f : PortSt → PortSt) : (withPort d p f).hbm = d.hbm := rfl
@[simp] theorem withPort_rpr (p : Port) (f : PortSt → PortSt) : (withPort d p f).rpr = d.rpr := rfl
@[simp] theorem withPort_dbg (p : Port) (f : PortSt → PortSt) : (withPort d p f).dbg = d.dbg := rfl
@[simp] theorem withPort_trc (p : Port) (f : PortSt → PortSt) : (withPort d p f).trc = d.trc := rfl
@[simp] theorem withPort_annalsMiB (p : Port) (f : PortSt → PortSt) : (withPort d p f).annalsMiB = d.annalsMiB := rfl
@[simp] theorem withPort_counters (p : Port) (f : PortSt → PortSt) : (withPort d p f).counters = d.counters := rfl
@[simp] theorem withPort_kvs (p : Port) (f : PortSt → PortSt) : (withPort d p f).kvs = d.kvs := rfl
@[simp] theorem withPort_met (p : Port) (f : PortSt → PortSt) : (withPort d p f).met = d.met := rfl
@[simp] theorem withPort_freeCount (p : Port) (f : PortSt → PortSt) : (withPort d p f).freeCount = d.freeCount := rfl

/-! ### withQuad -/

@[simp] theorem withQuad_fuses (q : Quad) (f : QuadSt → QuadSt) : (withQuad d q f).fuses = d.fuses := rfl
@[simp] theorem withQuad_glb (q : Quad) (f : QuadSt → QuadSt) : (withQuad d q f).glb = d.glb := rfl
@[simp] theorem withQuad_hif (q : Quad) (f : QuadSt → QuadSt) : (withQuad d q f).hif = d.hif := rfl
@[simp] theorem withQuad_bus (q : Quad) (f : QuadSt → QuadSt) : (withQuad d q f).bus = d.bus := rfl
@[simp] theorem withQuad_pwr (q : Quad) (f : QuadSt → QuadSt) : (withQuad d q f).pwr = d.pwr := rfl
@[simp] theorem withQuad_flash (q : Quad) (f : QuadSt → QuadSt) : (withQuad d q f).flash = d.flash := rfl
@[simp] theorem withQuad_fpl (q : Quad) (f : QuadSt → QuadSt) : (withQuad d q f).fpl = d.fpl := rfl
@[simp] theorem withQuad_tik (q : Quad) (f : QuadSt → QuadSt) : (withQuad d q f).tik = d.tik := rfl
@[simp] theorem withQuad_join (q : Quad) (f : QuadSt → QuadSt) : (withQuad d q f).join = d.join := rfl
@[simp] theorem withQuad_mbx (q : Quad) (f : QuadSt → QuadSt) : (withQuad d q f).mbx = d.mbx := rfl
@[simp] theorem withQuad_nextMbx (q : Quad) (f : QuadSt → QuadSt) : (withQuad d q f).nextMbx = d.nextMbx := rfl
@[simp] theorem withQuad_latches (q : Quad) (f : QuadSt → QuadSt) : (withQuad d q f).latches = d.latches := rfl
@[simp] theorem withQuad_mem (q : Quad) (f : QuadSt → QuadSt) : (withQuad d q f).mem = d.mem := rfl
@[simp] theorem withQuad_bar2 (q : Quad) (f : QuadSt → QuadSt) : (withQuad d q f).bar2 = d.bar2 := rfl
@[simp] theorem withQuad_bar2Poison (q : Quad) (f : QuadSt → QuadSt) : (withQuad d q f).bar2Poison = d.bar2Poison := rfl
@[simp] theorem withQuad_poison (q : Quad) (f : QuadSt → QuadSt) : (withQuad d q f).poison = d.poison := rfl
@[simp] theorem withQuad_holds (q : Quad) (f : QuadSt → QuadSt) : (withQuad d q f).holds = d.holds := rfl
@[simp] theorem withQuad_allocs (q : Quad) (f : QuadSt → QuadSt) : (withQuad d q f).allocs = d.allocs := rfl
@[simp] theorem withQuad_descs (q : Quad) (f : QuadSt → QuadSt) : (withQuad d q f).descs = d.descs := rfl
@[simp] theorem withQuad_owners (q : Quad) (f : QuadSt → QuadSt) : (withQuad d q f).owners = d.owners := rfl
@[simp] theorem withQuad_trees (q : Quad) (f : QuadSt → QuadSt) : (withQuad d q f).trees = d.trees := rfl
@[simp] theorem withQuad_groups (q : Quad) (f : QuadSt → QuadSt) : (withQuad d q f).groups = d.groups := rfl
@[simp] theorem withQuad_buckets (q : Quad) (f : QuadSt → QuadSt) : (withQuad d q f).buckets = d.buckets := rfl
@[simp] theorem withQuad_streams (q : Quad) (f : QuadSt → QuadSt) : (withQuad d q f).streams = d.streams := rfl
@[simp] theorem withQuad_generations (q : Quad) (f : QuadSt → QuadSt) : (withQuad d q f).generations = d.generations := rfl
@[simp] theorem withQuad_incoming (q : Quad) (f : QuadSt → QuadSt) : (withQuad d q f).incoming = d.incoming := rfl
@[simp] theorem withQuad_resStores (q : Quad) (f : QuadSt → QuadSt) : (withQuad d q f).resStores = d.resStores := rfl
@[simp] theorem withQuad_resZero (q : Quad) (f : QuadSt → QuadSt) : (withQuad d q f).resZero = d.resZero := rfl
@[simp] theorem withQuad_bucketStores (q : Quad) (f : QuadSt → QuadSt) : (withQuad d q f).bucketStores = d.bucketStores := rfl
@[simp] theorem withQuad_exponents (q : Quad) (f : QuadSt → QuadSt) : (withQuad d q f).exponents = d.exponents := rfl
@[simp] theorem withQuad_lastExponents (q : Quad) (f : QuadSt → QuadSt) : (withQuad d q f).lastExponents = d.lastExponents := rfl
@[simp] theorem withQuad_seed (q : Quad) (f : QuadSt → QuadSt) : (withQuad d q f).seed = d.seed := rfl
@[simp] theorem withQuad_aesFail (q : Quad) (f : QuadSt → QuadSt) : (withQuad d q f).aesFail = d.aesFail := rfl
@[simp] theorem withQuad_running (q : Quad) (f : QuadSt → QuadSt) : (withQuad d q f).running = d.running := rfl
@[simp] theorem withQuad_nextId (q : Quad) (f : QuadSt → QuadSt) : (withQuad d q f).nextId = d.nextId := rfl
@[simp] theorem withQuad_work (q : Quad) (f : QuadSt → QuadSt) : (withQuad d q f).work = d.work := rfl
@[simp] theorem withQuad_plan (q : Quad) (f : QuadSt → QuadSt) : (withQuad d q f).plan = d.plan := rfl
@[simp] theorem withQuad_holdWork (q : Quad) (f : QuadSt → QuadSt) : (withQuad d q f).holdWork = d.holdWork := rfl
@[simp] theorem withQuad_ports (q : Quad) (f : QuadSt → QuadSt) : (withQuad d q f).ports = d.ports := rfl
@[simp] theorem withQuad_quads (q : Quad) (f : QuadSt → QuadSt) : (withQuad d q f).quads = vmod d.quads q f := rfl
@[simp] theorem withQuad_tiles (q : Quad) (f : QuadSt → QuadSt) : (withQuad d q f).tiles = d.tiles := rfl
@[simp] theorem withQuad_phys (q : Quad) (f : QuadSt → QuadSt) : (withQuad d q f).phys = d.phys := rfl
@[simp] theorem withQuad_hbm (q : Quad) (f : QuadSt → QuadSt) : (withQuad d q f).hbm = d.hbm := rfl
@[simp] theorem withQuad_rpr (q : Quad) (f : QuadSt → QuadSt) : (withQuad d q f).rpr = d.rpr := rfl
@[simp] theorem withQuad_dbg (q : Quad) (f : QuadSt → QuadSt) : (withQuad d q f).dbg = d.dbg := rfl
@[simp] theorem withQuad_trc (q : Quad) (f : QuadSt → QuadSt) : (withQuad d q f).trc = d.trc := rfl
@[simp] theorem withQuad_annalsMiB (q : Quad) (f : QuadSt → QuadSt) : (withQuad d q f).annalsMiB = d.annalsMiB := rfl
@[simp] theorem withQuad_counters (q : Quad) (f : QuadSt → QuadSt) : (withQuad d q f).counters = d.counters := rfl
@[simp] theorem withQuad_kvs (q : Quad) (f : QuadSt → QuadSt) : (withQuad d q f).kvs = d.kvs := rfl
@[simp] theorem withQuad_met (q : Quad) (f : QuadSt → QuadSt) : (withQuad d q f).met = d.met := rfl
@[simp] theorem withQuad_freeCount (q : Quad) (f : QuadSt → QuadSt) : (withQuad d q f).freeCount = d.freeCount := rfl

/-! ### withTile -/

@[simp] theorem withTile_fuses (t : Tile) (f : TileRegs → TileRegs) : (withTile d t f).fuses = d.fuses := rfl
@[simp] theorem withTile_glb (t : Tile) (f : TileRegs → TileRegs) : (withTile d t f).glb = d.glb := rfl
@[simp] theorem withTile_hif (t : Tile) (f : TileRegs → TileRegs) : (withTile d t f).hif = d.hif := rfl
@[simp] theorem withTile_bus (t : Tile) (f : TileRegs → TileRegs) : (withTile d t f).bus = d.bus := rfl
@[simp] theorem withTile_pwr (t : Tile) (f : TileRegs → TileRegs) : (withTile d t f).pwr = d.pwr := rfl
@[simp] theorem withTile_flash (t : Tile) (f : TileRegs → TileRegs) : (withTile d t f).flash = d.flash := rfl
@[simp] theorem withTile_fpl (t : Tile) (f : TileRegs → TileRegs) : (withTile d t f).fpl = d.fpl := rfl
@[simp] theorem withTile_tik (t : Tile) (f : TileRegs → TileRegs) : (withTile d t f).tik = d.tik := rfl
@[simp] theorem withTile_join (t : Tile) (f : TileRegs → TileRegs) : (withTile d t f).join = d.join := rfl
@[simp] theorem withTile_mbx (t : Tile) (f : TileRegs → TileRegs) : (withTile d t f).mbx = d.mbx := rfl
@[simp] theorem withTile_nextMbx (t : Tile) (f : TileRegs → TileRegs) : (withTile d t f).nextMbx = d.nextMbx := rfl
@[simp] theorem withTile_latches (t : Tile) (f : TileRegs → TileRegs) : (withTile d t f).latches = d.latches := rfl
@[simp] theorem withTile_mem (t : Tile) (f : TileRegs → TileRegs) : (withTile d t f).mem = d.mem := rfl
@[simp] theorem withTile_bar2 (t : Tile) (f : TileRegs → TileRegs) : (withTile d t f).bar2 = d.bar2 := rfl
@[simp] theorem withTile_bar2Poison (t : Tile) (f : TileRegs → TileRegs) : (withTile d t f).bar2Poison = d.bar2Poison := rfl
@[simp] theorem withTile_poison (t : Tile) (f : TileRegs → TileRegs) : (withTile d t f).poison = d.poison := rfl
@[simp] theorem withTile_holds (t : Tile) (f : TileRegs → TileRegs) : (withTile d t f).holds = d.holds := rfl
@[simp] theorem withTile_allocs (t : Tile) (f : TileRegs → TileRegs) : (withTile d t f).allocs = d.allocs := rfl
@[simp] theorem withTile_descs (t : Tile) (f : TileRegs → TileRegs) : (withTile d t f).descs = d.descs := rfl
@[simp] theorem withTile_owners (t : Tile) (f : TileRegs → TileRegs) : (withTile d t f).owners = d.owners := rfl
@[simp] theorem withTile_trees (t : Tile) (f : TileRegs → TileRegs) : (withTile d t f).trees = d.trees := rfl
@[simp] theorem withTile_groups (t : Tile) (f : TileRegs → TileRegs) : (withTile d t f).groups = d.groups := rfl
@[simp] theorem withTile_buckets (t : Tile) (f : TileRegs → TileRegs) : (withTile d t f).buckets = d.buckets := rfl
@[simp] theorem withTile_streams (t : Tile) (f : TileRegs → TileRegs) : (withTile d t f).streams = d.streams := rfl
@[simp] theorem withTile_generations (t : Tile) (f : TileRegs → TileRegs) : (withTile d t f).generations = d.generations := rfl
@[simp] theorem withTile_incoming (t : Tile) (f : TileRegs → TileRegs) : (withTile d t f).incoming = d.incoming := rfl
@[simp] theorem withTile_resStores (t : Tile) (f : TileRegs → TileRegs) : (withTile d t f).resStores = d.resStores := rfl
@[simp] theorem withTile_resZero (t : Tile) (f : TileRegs → TileRegs) : (withTile d t f).resZero = d.resZero := rfl
@[simp] theorem withTile_bucketStores (t : Tile) (f : TileRegs → TileRegs) : (withTile d t f).bucketStores = d.bucketStores := rfl
@[simp] theorem withTile_exponents (t : Tile) (f : TileRegs → TileRegs) : (withTile d t f).exponents = d.exponents := rfl
@[simp] theorem withTile_lastExponents (t : Tile) (f : TileRegs → TileRegs) : (withTile d t f).lastExponents = d.lastExponents := rfl
@[simp] theorem withTile_seed (t : Tile) (f : TileRegs → TileRegs) : (withTile d t f).seed = d.seed := rfl
@[simp] theorem withTile_aesFail (t : Tile) (f : TileRegs → TileRegs) : (withTile d t f).aesFail = d.aesFail := rfl
@[simp] theorem withTile_running (t : Tile) (f : TileRegs → TileRegs) : (withTile d t f).running = d.running := rfl
@[simp] theorem withTile_nextId (t : Tile) (f : TileRegs → TileRegs) : (withTile d t f).nextId = d.nextId := rfl
@[simp] theorem withTile_work (t : Tile) (f : TileRegs → TileRegs) : (withTile d t f).work = d.work := rfl
@[simp] theorem withTile_plan (t : Tile) (f : TileRegs → TileRegs) : (withTile d t f).plan = d.plan := rfl
@[simp] theorem withTile_holdWork (t : Tile) (f : TileRegs → TileRegs) : (withTile d t f).holdWork = d.holdWork := rfl
@[simp] theorem withTile_ports (t : Tile) (f : TileRegs → TileRegs) : (withTile d t f).ports = d.ports := rfl
@[simp] theorem withTile_quads (t : Tile) (f : TileRegs → TileRegs) : (withTile d t f).quads = d.quads := rfl
@[simp] theorem withTile_tiles (t : Tile) (f : TileRegs → TileRegs) : (withTile d t f).tiles = vmod d.tiles t f := rfl
@[simp] theorem withTile_phys (t : Tile) (f : TileRegs → TileRegs) : (withTile d t f).phys = d.phys := rfl
@[simp] theorem withTile_hbm (t : Tile) (f : TileRegs → TileRegs) : (withTile d t f).hbm = d.hbm := rfl
@[simp] theorem withTile_rpr (t : Tile) (f : TileRegs → TileRegs) : (withTile d t f).rpr = d.rpr := rfl
@[simp] theorem withTile_dbg (t : Tile) (f : TileRegs → TileRegs) : (withTile d t f).dbg = d.dbg := rfl
@[simp] theorem withTile_trc (t : Tile) (f : TileRegs → TileRegs) : (withTile d t f).trc = d.trc := rfl
@[simp] theorem withTile_annalsMiB (t : Tile) (f : TileRegs → TileRegs) : (withTile d t f).annalsMiB = d.annalsMiB := rfl
@[simp] theorem withTile_counters (t : Tile) (f : TileRegs → TileRegs) : (withTile d t f).counters = d.counters := rfl
@[simp] theorem withTile_kvs (t : Tile) (f : TileRegs → TileRegs) : (withTile d t f).kvs = d.kvs := rfl
@[simp] theorem withTile_met (t : Tile) (f : TileRegs → TileRegs) : (withTile d t f).met = d.met := rfl
@[simp] theorem withTile_freeCount (t : Tile) (f : TileRegs → TileRegs) : (withTile d t f).freeCount = d.freeCount := rfl

/-! ### withPhys -/

@[simp] theorem withPhys_fuses (t : Tile) (f : Phys → Phys) : (withPhys d t f).fuses = d.fuses := rfl
@[simp] theorem withPhys_glb (t : Tile) (f : Phys → Phys) : (withPhys d t f).glb = d.glb := rfl
@[simp] theorem withPhys_hif (t : Tile) (f : Phys → Phys) : (withPhys d t f).hif = d.hif := rfl
@[simp] theorem withPhys_bus (t : Tile) (f : Phys → Phys) : (withPhys d t f).bus = d.bus := rfl
@[simp] theorem withPhys_pwr (t : Tile) (f : Phys → Phys) : (withPhys d t f).pwr = d.pwr := rfl
@[simp] theorem withPhys_flash (t : Tile) (f : Phys → Phys) : (withPhys d t f).flash = d.flash := rfl
@[simp] theorem withPhys_fpl (t : Tile) (f : Phys → Phys) : (withPhys d t f).fpl = d.fpl := rfl
@[simp] theorem withPhys_tik (t : Tile) (f : Phys → Phys) : (withPhys d t f).tik = d.tik := rfl
@[simp] theorem withPhys_join (t : Tile) (f : Phys → Phys) : (withPhys d t f).join = d.join := rfl
@[simp] theorem withPhys_mbx (t : Tile) (f : Phys → Phys) : (withPhys d t f).mbx = d.mbx := rfl
@[simp] theorem withPhys_nextMbx (t : Tile) (f : Phys → Phys) : (withPhys d t f).nextMbx = d.nextMbx := rfl
@[simp] theorem withPhys_latches (t : Tile) (f : Phys → Phys) : (withPhys d t f).latches = d.latches := rfl
@[simp] theorem withPhys_mem (t : Tile) (f : Phys → Phys) : (withPhys d t f).mem = d.mem := rfl
@[simp] theorem withPhys_bar2 (t : Tile) (f : Phys → Phys) : (withPhys d t f).bar2 = d.bar2 := rfl
@[simp] theorem withPhys_bar2Poison (t : Tile) (f : Phys → Phys) : (withPhys d t f).bar2Poison = d.bar2Poison := rfl
@[simp] theorem withPhys_poison (t : Tile) (f : Phys → Phys) : (withPhys d t f).poison = d.poison := rfl
@[simp] theorem withPhys_holds (t : Tile) (f : Phys → Phys) : (withPhys d t f).holds = d.holds := rfl
@[simp] theorem withPhys_allocs (t : Tile) (f : Phys → Phys) : (withPhys d t f).allocs = d.allocs := rfl
@[simp] theorem withPhys_descs (t : Tile) (f : Phys → Phys) : (withPhys d t f).descs = d.descs := rfl
@[simp] theorem withPhys_owners (t : Tile) (f : Phys → Phys) : (withPhys d t f).owners = d.owners := rfl
@[simp] theorem withPhys_trees (t : Tile) (f : Phys → Phys) : (withPhys d t f).trees = d.trees := rfl
@[simp] theorem withPhys_groups (t : Tile) (f : Phys → Phys) : (withPhys d t f).groups = d.groups := rfl
@[simp] theorem withPhys_buckets (t : Tile) (f : Phys → Phys) : (withPhys d t f).buckets = d.buckets := rfl
@[simp] theorem withPhys_streams (t : Tile) (f : Phys → Phys) : (withPhys d t f).streams = d.streams := rfl
@[simp] theorem withPhys_generations (t : Tile) (f : Phys → Phys) : (withPhys d t f).generations = d.generations := rfl
@[simp] theorem withPhys_incoming (t : Tile) (f : Phys → Phys) : (withPhys d t f).incoming = d.incoming := rfl
@[simp] theorem withPhys_resStores (t : Tile) (f : Phys → Phys) : (withPhys d t f).resStores = d.resStores := rfl
@[simp] theorem withPhys_resZero (t : Tile) (f : Phys → Phys) : (withPhys d t f).resZero = d.resZero := rfl
@[simp] theorem withPhys_bucketStores (t : Tile) (f : Phys → Phys) : (withPhys d t f).bucketStores = d.bucketStores := rfl
@[simp] theorem withPhys_exponents (t : Tile) (f : Phys → Phys) : (withPhys d t f).exponents = d.exponents := rfl
@[simp] theorem withPhys_lastExponents (t : Tile) (f : Phys → Phys) : (withPhys d t f).lastExponents = d.lastExponents := rfl
@[simp] theorem withPhys_seed (t : Tile) (f : Phys → Phys) : (withPhys d t f).seed = d.seed := rfl
@[simp] theorem withPhys_aesFail (t : Tile) (f : Phys → Phys) : (withPhys d t f).aesFail = d.aesFail := rfl
@[simp] theorem withPhys_running (t : Tile) (f : Phys → Phys) : (withPhys d t f).running = d.running := rfl
@[simp] theorem withPhys_nextId (t : Tile) (f : Phys → Phys) : (withPhys d t f).nextId = d.nextId := rfl
@[simp] theorem withPhys_work (t : Tile) (f : Phys → Phys) : (withPhys d t f).work = d.work := rfl
@[simp] theorem withPhys_plan (t : Tile) (f : Phys → Phys) : (withPhys d t f).plan = d.plan := rfl
@[simp] theorem withPhys_holdWork (t : Tile) (f : Phys → Phys) : (withPhys d t f).holdWork = d.holdWork := rfl
@[simp] theorem withPhys_ports (t : Tile) (f : Phys → Phys) : (withPhys d t f).ports = d.ports := rfl
@[simp] theorem withPhys_quads (t : Tile) (f : Phys → Phys) : (withPhys d t f).quads = d.quads := rfl
@[simp] theorem withPhys_tiles (t : Tile) (f : Phys → Phys) : (withPhys d t f).tiles = d.tiles := rfl
@[simp] theorem withPhys_phys (t : Tile) (f : Phys → Phys) : (withPhys d t f).phys = vmod d.phys t f := rfl
@[simp] theorem withPhys_hbm (t : Tile) (f : Phys → Phys) : (withPhys d t f).hbm = d.hbm := rfl
@[simp] theorem withPhys_rpr (t : Tile) (f : Phys → Phys) : (withPhys d t f).rpr = d.rpr := rfl
@[simp] theorem withPhys_dbg (t : Tile) (f : Phys → Phys) : (withPhys d t f).dbg = d.dbg := rfl
@[simp] theorem withPhys_trc (t : Tile) (f : Phys → Phys) : (withPhys d t f).trc = d.trc := rfl
@[simp] theorem withPhys_annalsMiB (t : Tile) (f : Phys → Phys) : (withPhys d t f).annalsMiB = d.annalsMiB := rfl
@[simp] theorem withPhys_counters (t : Tile) (f : Phys → Phys) : (withPhys d t f).counters = d.counters := rfl
@[simp] theorem withPhys_kvs (t : Tile) (f : Phys → Phys) : (withPhys d t f).kvs = d.kvs := rfl
@[simp] theorem withPhys_met (t : Tile) (f : Phys → Phys) : (withPhys d t f).met = d.met := rfl
@[simp] theorem withPhys_freeCount (t : Tile) (f : Phys → Phys) : (withPhys d t f).freeCount = d.freeCount := rfl

/-! ### withStack -/

@[simp] theorem withStack_fuses (k : Stack) (f : HbmSt → HbmSt) : (withStack d k f).fuses = d.fuses := rfl
@[simp] theorem withStack_glb (k : Stack) (f : HbmSt → HbmSt) : (withStack d k f).glb = d.glb := rfl
@[simp] theorem withStack_hif (k : Stack) (f : HbmSt → HbmSt) : (withStack d k f).hif = d.hif := rfl
@[simp] theorem withStack_bus (k : Stack) (f : HbmSt → HbmSt) : (withStack d k f).bus = d.bus := rfl
@[simp] theorem withStack_pwr (k : Stack) (f : HbmSt → HbmSt) : (withStack d k f).pwr = d.pwr := rfl
@[simp] theorem withStack_flash (k : Stack) (f : HbmSt → HbmSt) : (withStack d k f).flash = d.flash := rfl
@[simp] theorem withStack_fpl (k : Stack) (f : HbmSt → HbmSt) : (withStack d k f).fpl = d.fpl := rfl
@[simp] theorem withStack_tik (k : Stack) (f : HbmSt → HbmSt) : (withStack d k f).tik = d.tik := rfl
@[simp] theorem withStack_join (k : Stack) (f : HbmSt → HbmSt) : (withStack d k f).join = d.join := rfl
@[simp] theorem withStack_mbx (k : Stack) (f : HbmSt → HbmSt) : (withStack d k f).mbx = d.mbx := rfl
@[simp] theorem withStack_nextMbx (k : Stack) (f : HbmSt → HbmSt) : (withStack d k f).nextMbx = d.nextMbx := rfl
@[simp] theorem withStack_latches (k : Stack) (f : HbmSt → HbmSt) : (withStack d k f).latches = d.latches := rfl
@[simp] theorem withStack_mem (k : Stack) (f : HbmSt → HbmSt) : (withStack d k f).mem = d.mem := rfl
@[simp] theorem withStack_bar2 (k : Stack) (f : HbmSt → HbmSt) : (withStack d k f).bar2 = d.bar2 := rfl
@[simp] theorem withStack_bar2Poison (k : Stack) (f : HbmSt → HbmSt) : (withStack d k f).bar2Poison = d.bar2Poison := rfl
@[simp] theorem withStack_poison (k : Stack) (f : HbmSt → HbmSt) : (withStack d k f).poison = d.poison := rfl
@[simp] theorem withStack_holds (k : Stack) (f : HbmSt → HbmSt) : (withStack d k f).holds = d.holds := rfl
@[simp] theorem withStack_allocs (k : Stack) (f : HbmSt → HbmSt) : (withStack d k f).allocs = d.allocs := rfl
@[simp] theorem withStack_descs (k : Stack) (f : HbmSt → HbmSt) : (withStack d k f).descs = d.descs := rfl
@[simp] theorem withStack_owners (k : Stack) (f : HbmSt → HbmSt) : (withStack d k f).owners = d.owners := rfl
@[simp] theorem withStack_trees (k : Stack) (f : HbmSt → HbmSt) : (withStack d k f).trees = d.trees := rfl
@[simp] theorem withStack_groups (k : Stack) (f : HbmSt → HbmSt) : (withStack d k f).groups = d.groups := rfl
@[simp] theorem withStack_buckets (k : Stack) (f : HbmSt → HbmSt) : (withStack d k f).buckets = d.buckets := rfl
@[simp] theorem withStack_streams (k : Stack) (f : HbmSt → HbmSt) : (withStack d k f).streams = d.streams := rfl
@[simp] theorem withStack_generations (k : Stack) (f : HbmSt → HbmSt) : (withStack d k f).generations = d.generations := rfl
@[simp] theorem withStack_incoming (k : Stack) (f : HbmSt → HbmSt) : (withStack d k f).incoming = d.incoming := rfl
@[simp] theorem withStack_resStores (k : Stack) (f : HbmSt → HbmSt) : (withStack d k f).resStores = d.resStores := rfl
@[simp] theorem withStack_resZero (k : Stack) (f : HbmSt → HbmSt) : (withStack d k f).resZero = d.resZero := rfl
@[simp] theorem withStack_bucketStores (k : Stack) (f : HbmSt → HbmSt) : (withStack d k f).bucketStores = d.bucketStores := rfl
@[simp] theorem withStack_exponents (k : Stack) (f : HbmSt → HbmSt) : (withStack d k f).exponents = d.exponents := rfl
@[simp] theorem withStack_lastExponents (k : Stack) (f : HbmSt → HbmSt) : (withStack d k f).lastExponents = d.lastExponents := rfl
@[simp] theorem withStack_seed (k : Stack) (f : HbmSt → HbmSt) : (withStack d k f).seed = d.seed := rfl
@[simp] theorem withStack_aesFail (k : Stack) (f : HbmSt → HbmSt) : (withStack d k f).aesFail = d.aesFail := rfl
@[simp] theorem withStack_running (k : Stack) (f : HbmSt → HbmSt) : (withStack d k f).running = d.running := rfl
@[simp] theorem withStack_nextId (k : Stack) (f : HbmSt → HbmSt) : (withStack d k f).nextId = d.nextId := rfl
@[simp] theorem withStack_work (k : Stack) (f : HbmSt → HbmSt) : (withStack d k f).work = d.work := rfl
@[simp] theorem withStack_plan (k : Stack) (f : HbmSt → HbmSt) : (withStack d k f).plan = d.plan := rfl
@[simp] theorem withStack_holdWork (k : Stack) (f : HbmSt → HbmSt) : (withStack d k f).holdWork = d.holdWork := rfl
@[simp] theorem withStack_ports (k : Stack) (f : HbmSt → HbmSt) : (withStack d k f).ports = d.ports := rfl
@[simp] theorem withStack_quads (k : Stack) (f : HbmSt → HbmSt) : (withStack d k f).quads = d.quads := rfl
@[simp] theorem withStack_tiles (k : Stack) (f : HbmSt → HbmSt) : (withStack d k f).tiles = d.tiles := rfl
@[simp] theorem withStack_phys (k : Stack) (f : HbmSt → HbmSt) : (withStack d k f).phys = d.phys := rfl
@[simp] theorem withStack_hbm (k : Stack) (f : HbmSt → HbmSt) : (withStack d k f).hbm = vmod d.hbm k f := rfl
@[simp] theorem withStack_rpr (k : Stack) (f : HbmSt → HbmSt) : (withStack d k f).rpr = d.rpr := rfl
@[simp] theorem withStack_dbg (k : Stack) (f : HbmSt → HbmSt) : (withStack d k f).dbg = d.dbg := rfl
@[simp] theorem withStack_trc (k : Stack) (f : HbmSt → HbmSt) : (withStack d k f).trc = d.trc := rfl
@[simp] theorem withStack_annalsMiB (k : Stack) (f : HbmSt → HbmSt) : (withStack d k f).annalsMiB = d.annalsMiB := rfl
@[simp] theorem withStack_counters (k : Stack) (f : HbmSt → HbmSt) : (withStack d k f).counters = d.counters := rfl
@[simp] theorem withStack_kvs (k : Stack) (f : HbmSt → HbmSt) : (withStack d k f).kvs = d.kvs := rfl
@[simp] theorem withStack_met (k : Stack) (f : HbmSt → HbmSt) : (withStack d k f).met = d.met := rfl
@[simp] theorem withStack_freeCount (k : Stack) (f : HbmSt → HbmSt) : (withStack d k f).freeCount = d.freeCount := rfl

/-! ### withDesc -/

@[simp] theorem withDesc_fuses (h : BitVec 16) (f : Desc → Desc) : (withDesc d h f).fuses = d.fuses := rfl
@[simp] theorem withDesc_glb (h : BitVec 16) (f : Desc → Desc) : (withDesc d h f).glb = d.glb := rfl
@[simp] theorem withDesc_hif (h : BitVec 16) (f : Desc → Desc) : (withDesc d h f).hif = d.hif := rfl
@[simp] theorem withDesc_bus (h : BitVec 16) (f : Desc → Desc) : (withDesc d h f).bus = d.bus := rfl
@[simp] theorem withDesc_pwr (h : BitVec 16) (f : Desc → Desc) : (withDesc d h f).pwr = d.pwr := rfl
@[simp] theorem withDesc_flash (h : BitVec 16) (f : Desc → Desc) : (withDesc d h f).flash = d.flash := rfl
@[simp] theorem withDesc_fpl (h : BitVec 16) (f : Desc → Desc) : (withDesc d h f).fpl = d.fpl := rfl
@[simp] theorem withDesc_tik (h : BitVec 16) (f : Desc → Desc) : (withDesc d h f).tik = d.tik := rfl
@[simp] theorem withDesc_join (h : BitVec 16) (f : Desc → Desc) : (withDesc d h f).join = d.join := rfl
@[simp] theorem withDesc_mbx (h : BitVec 16) (f : Desc → Desc) : (withDesc d h f).mbx = d.mbx := rfl
@[simp] theorem withDesc_nextMbx (h : BitVec 16) (f : Desc → Desc) : (withDesc d h f).nextMbx = d.nextMbx := rfl
@[simp] theorem withDesc_latches (h : BitVec 16) (f : Desc → Desc) : (withDesc d h f).latches = d.latches := rfl
@[simp] theorem withDesc_mem (h : BitVec 16) (f : Desc → Desc) : (withDesc d h f).mem = d.mem := rfl
@[simp] theorem withDesc_bar2 (h : BitVec 16) (f : Desc → Desc) : (withDesc d h f).bar2 = d.bar2 := rfl
@[simp] theorem withDesc_bar2Poison (h : BitVec 16) (f : Desc → Desc) : (withDesc d h f).bar2Poison = d.bar2Poison := rfl
@[simp] theorem withDesc_poison (h : BitVec 16) (f : Desc → Desc) : (withDesc d h f).poison = d.poison := rfl
@[simp] theorem withDesc_holds (h : BitVec 16) (f : Desc → Desc) : (withDesc d h f).holds = d.holds := rfl
@[simp] theorem withDesc_allocs (h : BitVec 16) (f : Desc → Desc) : (withDesc d h f).allocs = d.allocs := rfl
@[simp] theorem withDesc_descs (h : BitVec 16) (f : Desc → Desc) : (withDesc d h f).descs = assocMod h.toNat f d.descs := rfl
@[simp] theorem withDesc_owners (h : BitVec 16) (f : Desc → Desc) : (withDesc d h f).owners = d.owners := rfl
@[simp] theorem withDesc_trees (h : BitVec 16) (f : Desc → Desc) : (withDesc d h f).trees = d.trees := rfl
@[simp] theorem withDesc_groups (h : BitVec 16) (f : Desc → Desc) : (withDesc d h f).groups = d.groups := rfl
@[simp] theorem withDesc_buckets (h : BitVec 16) (f : Desc → Desc) : (withDesc d h f).buckets = d.buckets := rfl
@[simp] theorem withDesc_streams (h : BitVec 16) (f : Desc → Desc) : (withDesc d h f).streams = d.streams := rfl
@[simp] theorem withDesc_generations (h : BitVec 16) (f : Desc → Desc) : (withDesc d h f).generations = d.generations := rfl
@[simp] theorem withDesc_incoming (h : BitVec 16) (f : Desc → Desc) : (withDesc d h f).incoming = d.incoming := rfl
@[simp] theorem withDesc_resStores (h : BitVec 16) (f : Desc → Desc) : (withDesc d h f).resStores = d.resStores := rfl
@[simp] theorem withDesc_resZero (h : BitVec 16) (f : Desc → Desc) : (withDesc d h f).resZero = d.resZero := rfl
@[simp] theorem withDesc_bucketStores (h : BitVec 16) (f : Desc → Desc) : (withDesc d h f).bucketStores = d.bucketStores := rfl
@[simp] theorem withDesc_exponents (h : BitVec 16) (f : Desc → Desc) : (withDesc d h f).exponents = d.exponents := rfl
@[simp] theorem withDesc_lastExponents (h : BitVec 16) (f : Desc → Desc) : (withDesc d h f).lastExponents = d.lastExponents := rfl
@[simp] theorem withDesc_seed (h : BitVec 16) (f : Desc → Desc) : (withDesc d h f).seed = d.seed := rfl
@[simp] theorem withDesc_aesFail (h : BitVec 16) (f : Desc → Desc) : (withDesc d h f).aesFail = d.aesFail := rfl
@[simp] theorem withDesc_running (h : BitVec 16) (f : Desc → Desc) : (withDesc d h f).running = d.running := rfl
@[simp] theorem withDesc_nextId (h : BitVec 16) (f : Desc → Desc) : (withDesc d h f).nextId = d.nextId := rfl
@[simp] theorem withDesc_work (h : BitVec 16) (f : Desc → Desc) : (withDesc d h f).work = d.work := rfl
@[simp] theorem withDesc_plan (h : BitVec 16) (f : Desc → Desc) : (withDesc d h f).plan = d.plan := rfl
@[simp] theorem withDesc_holdWork (h : BitVec 16) (f : Desc → Desc) : (withDesc d h f).holdWork = d.holdWork := rfl
@[simp] theorem withDesc_ports (h : BitVec 16) (f : Desc → Desc) : (withDesc d h f).ports = d.ports := rfl
@[simp] theorem withDesc_quads (h : BitVec 16) (f : Desc → Desc) : (withDesc d h f).quads = d.quads := rfl
@[simp] theorem withDesc_tiles (h : BitVec 16) (f : Desc → Desc) : (withDesc d h f).tiles = d.tiles := rfl
@[simp] theorem withDesc_phys (h : BitVec 16) (f : Desc → Desc) : (withDesc d h f).phys = d.phys := rfl
@[simp] theorem withDesc_hbm (h : BitVec 16) (f : Desc → Desc) : (withDesc d h f).hbm = d.hbm := rfl
@[simp] theorem withDesc_rpr (h : BitVec 16) (f : Desc → Desc) : (withDesc d h f).rpr = d.rpr := rfl
@[simp] theorem withDesc_dbg (h : BitVec 16) (f : Desc → Desc) : (withDesc d h f).dbg = d.dbg := rfl
@[simp] theorem withDesc_trc (h : BitVec 16) (f : Desc → Desc) : (withDesc d h f).trc = d.trc := rfl
@[simp] theorem withDesc_annalsMiB (h : BitVec 16) (f : Desc → Desc) : (withDesc d h f).annalsMiB = d.annalsMiB := rfl
@[simp] theorem withDesc_counters (h : BitVec 16) (f : Desc → Desc) : (withDesc d h f).counters = d.counters := rfl
@[simp] theorem withDesc_kvs (h : BitVec 16) (f : Desc → Desc) : (withDesc d h f).kvs = d.kvs := rfl
@[simp] theorem withDesc_met (h : BitVec 16) (f : Desc → Desc) : (withDesc d h f).met = d.met := rfl
@[simp] theorem withDesc_freeCount (h : BitVec 16) (f : Desc → Desc) : (withDesc d h f).freeCount = d.freeCount := rfl

/-! ### withGroup -/

@[simp] theorem withGroup_fuses (h : Nat) (f : Group → Group) : (withGroup d h f).fuses = d.fuses := rfl
@[simp] theorem withGroup_glb (h : Nat) (f : Group → Group) : (withGroup d h f).glb = d.glb := rfl
@[simp] theorem withGroup_hif (h : Nat) (f : Group → Group) : (withGroup d h f).hif = d.hif := rfl
@[simp] theorem withGroup_bus (h : Nat) (f : Group → Group) : (withGroup d h f).bus = d.bus := rfl
@[simp] theorem withGroup_pwr (h : Nat) (f : Group → Group) : (withGroup d h f).pwr = d.pwr := rfl
@[simp] theorem withGroup_flash (h : Nat) (f : Group → Group) : (withGroup d h f).flash = d.flash := rfl
@[simp] theorem withGroup_fpl (h : Nat) (f : Group → Group) : (withGroup d h f).fpl = d.fpl := rfl
@[simp] theorem withGroup_tik (h : Nat) (f : Group → Group) : (withGroup d h f).tik = d.tik := rfl
@[simp] theorem withGroup_join (h : Nat) (f : Group → Group) : (withGroup d h f).join = d.join := rfl
@[simp] theorem withGroup_mbx (h : Nat) (f : Group → Group) : (withGroup d h f).mbx = d.mbx := rfl
@[simp] theorem withGroup_nextMbx (h : Nat) (f : Group → Group) : (withGroup d h f).nextMbx = d.nextMbx := rfl
@[simp] theorem withGroup_latches (h : Nat) (f : Group → Group) : (withGroup d h f).latches = d.latches := rfl
@[simp] theorem withGroup_mem (h : Nat) (f : Group → Group) : (withGroup d h f).mem = d.mem := rfl
@[simp] theorem withGroup_bar2 (h : Nat) (f : Group → Group) : (withGroup d h f).bar2 = d.bar2 := rfl
@[simp] theorem withGroup_bar2Poison (h : Nat) (f : Group → Group) : (withGroup d h f).bar2Poison = d.bar2Poison := rfl
@[simp] theorem withGroup_poison (h : Nat) (f : Group → Group) : (withGroup d h f).poison = d.poison := rfl
@[simp] theorem withGroup_holds (h : Nat) (f : Group → Group) : (withGroup d h f).holds = d.holds := rfl
@[simp] theorem withGroup_allocs (h : Nat) (f : Group → Group) : (withGroup d h f).allocs = d.allocs := rfl
@[simp] theorem withGroup_descs (h : Nat) (f : Group → Group) : (withGroup d h f).descs = d.descs := rfl
@[simp] theorem withGroup_owners (h : Nat) (f : Group → Group) : (withGroup d h f).owners = d.owners := rfl
@[simp] theorem withGroup_trees (h : Nat) (f : Group → Group) : (withGroup d h f).trees = d.trees := rfl
@[simp] theorem withGroup_groups (h : Nat) (f : Group → Group) : (withGroup d h f).groups = assocMod h f d.groups := rfl
@[simp] theorem withGroup_buckets (h : Nat) (f : Group → Group) : (withGroup d h f).buckets = d.buckets := rfl
@[simp] theorem withGroup_streams (h : Nat) (f : Group → Group) : (withGroup d h f).streams = d.streams := rfl
@[simp] theorem withGroup_generations (h : Nat) (f : Group → Group) : (withGroup d h f).generations = d.generations := rfl
@[simp] theorem withGroup_incoming (h : Nat) (f : Group → Group) : (withGroup d h f).incoming = d.incoming := rfl
@[simp] theorem withGroup_resStores (h : Nat) (f : Group → Group) : (withGroup d h f).resStores = d.resStores := rfl
@[simp] theorem withGroup_resZero (h : Nat) (f : Group → Group) : (withGroup d h f).resZero = d.resZero := rfl
@[simp] theorem withGroup_bucketStores (h : Nat) (f : Group → Group) : (withGroup d h f).bucketStores = d.bucketStores := rfl
@[simp] theorem withGroup_exponents (h : Nat) (f : Group → Group) : (withGroup d h f).exponents = d.exponents := rfl
@[simp] theorem withGroup_lastExponents (h : Nat) (f : Group → Group) : (withGroup d h f).lastExponents = d.lastExponents := rfl
@[simp] theorem withGroup_seed (h : Nat) (f : Group → Group) : (withGroup d h f).seed = d.seed := rfl
@[simp] theorem withGroup_aesFail (h : Nat) (f : Group → Group) : (withGroup d h f).aesFail = d.aesFail := rfl
@[simp] theorem withGroup_running (h : Nat) (f : Group → Group) : (withGroup d h f).running = d.running := rfl
@[simp] theorem withGroup_nextId (h : Nat) (f : Group → Group) : (withGroup d h f).nextId = d.nextId := rfl
@[simp] theorem withGroup_work (h : Nat) (f : Group → Group) : (withGroup d h f).work = d.work := rfl
@[simp] theorem withGroup_plan (h : Nat) (f : Group → Group) : (withGroup d h f).plan = d.plan := rfl
@[simp] theorem withGroup_holdWork (h : Nat) (f : Group → Group) : (withGroup d h f).holdWork = d.holdWork := rfl
@[simp] theorem withGroup_ports (h : Nat) (f : Group → Group) : (withGroup d h f).ports = d.ports := rfl
@[simp] theorem withGroup_quads (h : Nat) (f : Group → Group) : (withGroup d h f).quads = d.quads := rfl
@[simp] theorem withGroup_tiles (h : Nat) (f : Group → Group) : (withGroup d h f).tiles = d.tiles := rfl
@[simp] theorem withGroup_phys (h : Nat) (f : Group → Group) : (withGroup d h f).phys = d.phys := rfl
@[simp] theorem withGroup_hbm (h : Nat) (f : Group → Group) : (withGroup d h f).hbm = d.hbm := rfl
@[simp] theorem withGroup_rpr (h : Nat) (f : Group → Group) : (withGroup d h f).rpr = d.rpr := rfl
@[simp] theorem withGroup_dbg (h : Nat) (f : Group → Group) : (withGroup d h f).dbg = d.dbg := rfl
@[simp] theorem withGroup_trc (h : Nat) (f : Group → Group) : (withGroup d h f).trc = d.trc := rfl
@[simp] theorem withGroup_annalsMiB (h : Nat) (f : Group → Group) : (withGroup d h f).annalsMiB = d.annalsMiB := rfl
@[simp] theorem withGroup_counters (h : Nat) (f : Group → Group) : (withGroup d h f).counters = d.counters := rfl
@[simp] theorem withGroup_kvs (h : Nat) (f : Group → Group) : (withGroup d h f).kvs = d.kvs := rfl
@[simp] theorem withGroup_met (h : Nat) (f : Group → Group) : (withGroup d h f).met = d.met := rfl
@[simp] theorem withGroup_freeCount (h : Nat) (f : Group → Group) : (withGroup d h f).freeCount = d.freeCount := rfl

/-! ### withBucket -/

@[simp] theorem withBucket_fuses (b : Nat) (f : Bucket → Bucket) : (withBucket d b f).fuses = d.fuses := rfl
@[simp] theorem withBucket_glb (b : Nat) (f : Bucket → Bucket) : (withBucket d b f).glb = d.glb := rfl
@[simp] theorem withBucket_hif (b : Nat) (f : Bucket → Bucket) : (withBucket d b f).hif = d.hif := rfl
@[simp] theorem withBucket_bus (b : Nat) (f : Bucket → Bucket) : (withBucket d b f).bus = d.bus := rfl
@[simp] theorem withBucket_pwr (b : Nat) (f : Bucket → Bucket) : (withBucket d b f).pwr = d.pwr := rfl
@[simp] theorem withBucket_flash (b : Nat) (f : Bucket → Bucket) : (withBucket d b f).flash = d.flash := rfl
@[simp] theorem withBucket_fpl (b : Nat) (f : Bucket → Bucket) : (withBucket d b f).fpl = d.fpl := rfl
@[simp] theorem withBucket_tik (b : Nat) (f : Bucket → Bucket) : (withBucket d b f).tik = d.tik := rfl
@[simp] theorem withBucket_join (b : Nat) (f : Bucket → Bucket) : (withBucket d b f).join = d.join := rfl
@[simp] theorem withBucket_mbx (b : Nat) (f : Bucket → Bucket) : (withBucket d b f).mbx = d.mbx := rfl
@[simp] theorem withBucket_nextMbx (b : Nat) (f : Bucket → Bucket) : (withBucket d b f).nextMbx = d.nextMbx := rfl
@[simp] theorem withBucket_latches (b : Nat) (f : Bucket → Bucket) : (withBucket d b f).latches = d.latches := rfl
@[simp] theorem withBucket_mem (b : Nat) (f : Bucket → Bucket) : (withBucket d b f).mem = d.mem := rfl
@[simp] theorem withBucket_bar2 (b : Nat) (f : Bucket → Bucket) : (withBucket d b f).bar2 = d.bar2 := rfl
@[simp] theorem withBucket_bar2Poison (b : Nat) (f : Bucket → Bucket) : (withBucket d b f).bar2Poison = d.bar2Poison := rfl
@[simp] theorem withBucket_poison (b : Nat) (f : Bucket → Bucket) : (withBucket d b f).poison = d.poison := rfl
@[simp] theorem withBucket_holds (b : Nat) (f : Bucket → Bucket) : (withBucket d b f).holds = d.holds := rfl
@[simp] theorem withBucket_allocs (b : Nat) (f : Bucket → Bucket) : (withBucket d b f).allocs = d.allocs := rfl
@[simp] theorem withBucket_descs (b : Nat) (f : Bucket → Bucket) : (withBucket d b f).descs = d.descs := rfl
@[simp] theorem withBucket_owners (b : Nat) (f : Bucket → Bucket) : (withBucket d b f).owners = d.owners := rfl
@[simp] theorem withBucket_trees (b : Nat) (f : Bucket → Bucket) : (withBucket d b f).trees = d.trees := rfl
@[simp] theorem withBucket_groups (b : Nat) (f : Bucket → Bucket) : (withBucket d b f).groups = d.groups := rfl
@[simp] theorem withBucket_buckets (b : Nat) (f : Bucket → Bucket) : (withBucket d b f).buckets = assocMod b f d.buckets := rfl
@[simp] theorem withBucket_streams (b : Nat) (f : Bucket → Bucket) : (withBucket d b f).streams = d.streams := rfl
@[simp] theorem withBucket_generations (b : Nat) (f : Bucket → Bucket) : (withBucket d b f).generations = d.generations := rfl
@[simp] theorem withBucket_incoming (b : Nat) (f : Bucket → Bucket) : (withBucket d b f).incoming = d.incoming := rfl
@[simp] theorem withBucket_resStores (b : Nat) (f : Bucket → Bucket) : (withBucket d b f).resStores = d.resStores := rfl
@[simp] theorem withBucket_resZero (b : Nat) (f : Bucket → Bucket) : (withBucket d b f).resZero = d.resZero := rfl
@[simp] theorem withBucket_bucketStores (b : Nat) (f : Bucket → Bucket) : (withBucket d b f).bucketStores = d.bucketStores := rfl
@[simp] theorem withBucket_exponents (b : Nat) (f : Bucket → Bucket) : (withBucket d b f).exponents = d.exponents := rfl
@[simp] theorem withBucket_lastExponents (b : Nat) (f : Bucket → Bucket) : (withBucket d b f).lastExponents = d.lastExponents := rfl
@[simp] theorem withBucket_seed (b : Nat) (f : Bucket → Bucket) : (withBucket d b f).seed = d.seed := rfl
@[simp] theorem withBucket_aesFail (b : Nat) (f : Bucket → Bucket) : (withBucket d b f).aesFail = d.aesFail := rfl
@[simp] theorem withBucket_running (b : Nat) (f : Bucket → Bucket) : (withBucket d b f).running = d.running := rfl
@[simp] theorem withBucket_nextId (b : Nat) (f : Bucket → Bucket) : (withBucket d b f).nextId = d.nextId := rfl
@[simp] theorem withBucket_work (b : Nat) (f : Bucket → Bucket) : (withBucket d b f).work = d.work := rfl
@[simp] theorem withBucket_plan (b : Nat) (f : Bucket → Bucket) : (withBucket d b f).plan = d.plan := rfl
@[simp] theorem withBucket_holdWork (b : Nat) (f : Bucket → Bucket) : (withBucket d b f).holdWork = d.holdWork := rfl
@[simp] theorem withBucket_ports (b : Nat) (f : Bucket → Bucket) : (withBucket d b f).ports = d.ports := rfl
@[simp] theorem withBucket_quads (b : Nat) (f : Bucket → Bucket) : (withBucket d b f).quads = d.quads := rfl
@[simp] theorem withBucket_tiles (b : Nat) (f : Bucket → Bucket) : (withBucket d b f).tiles = d.tiles := rfl
@[simp] theorem withBucket_phys (b : Nat) (f : Bucket → Bucket) : (withBucket d b f).phys = d.phys := rfl
@[simp] theorem withBucket_hbm (b : Nat) (f : Bucket → Bucket) : (withBucket d b f).hbm = d.hbm := rfl
@[simp] theorem withBucket_rpr (b : Nat) (f : Bucket → Bucket) : (withBucket d b f).rpr = d.rpr := rfl
@[simp] theorem withBucket_dbg (b : Nat) (f : Bucket → Bucket) : (withBucket d b f).dbg = d.dbg := rfl
@[simp] theorem withBucket_trc (b : Nat) (f : Bucket → Bucket) : (withBucket d b f).trc = d.trc := rfl
@[simp] theorem withBucket_annalsMiB (b : Nat) (f : Bucket → Bucket) : (withBucket d b f).annalsMiB = d.annalsMiB := rfl
@[simp] theorem withBucket_counters (b : Nat) (f : Bucket → Bucket) : (withBucket d b f).counters = d.counters := rfl
@[simp] theorem withBucket_kvs (b : Nat) (f : Bucket → Bucket) : (withBucket d b f).kvs = d.kvs := rfl
@[simp] theorem withBucket_met (b : Nat) (f : Bucket → Bucket) : (withBucket d b f).met = d.met := rfl
@[simp] theorem withBucket_freeCount (b : Nat) (f : Bucket → Bucket) : (withBucket d b f).freeCount = d.freeCount := rfl

/-! ### withStream -/

@[simp] theorem withStream_fuses (h : Nat) (f : Stream → Stream) : (withStream d h f).fuses = d.fuses := rfl
@[simp] theorem withStream_glb (h : Nat) (f : Stream → Stream) : (withStream d h f).glb = d.glb := rfl
@[simp] theorem withStream_hif (h : Nat) (f : Stream → Stream) : (withStream d h f).hif = d.hif := rfl
@[simp] theorem withStream_bus (h : Nat) (f : Stream → Stream) : (withStream d h f).bus = d.bus := rfl
@[simp] theorem withStream_pwr (h : Nat) (f : Stream → Stream) : (withStream d h f).pwr = d.pwr := rfl
@[simp] theorem withStream_flash (h : Nat) (f : Stream → Stream) : (withStream d h f).flash = d.flash := rfl
@[simp] theorem withStream_fpl (h : Nat) (f : Stream → Stream) : (withStream d h f).fpl = d.fpl := rfl
@[simp] theorem withStream_tik (h : Nat) (f : Stream → Stream) : (withStream d h f).tik = d.tik := rfl
@[simp] theorem withStream_join (h : Nat) (f : Stream → Stream) : (withStream d h f).join = d.join := rfl
@[simp] theorem withStream_mbx (h : Nat) (f : Stream → Stream) : (withStream d h f).mbx = d.mbx := rfl
@[simp] theorem withStream_nextMbx (h : Nat) (f : Stream → Stream) : (withStream d h f).nextMbx = d.nextMbx := rfl
@[simp] theorem withStream_latches (h : Nat) (f : Stream → Stream) : (withStream d h f).latches = d.latches := rfl
@[simp] theorem withStream_mem (h : Nat) (f : Stream → Stream) : (withStream d h f).mem = d.mem := rfl
@[simp] theorem withStream_bar2 (h : Nat) (f : Stream → Stream) : (withStream d h f).bar2 = d.bar2 := rfl
@[simp] theorem withStream_bar2Poison (h : Nat) (f : Stream → Stream) : (withStream d h f).bar2Poison = d.bar2Poison := rfl
@[simp] theorem withStream_poison (h : Nat) (f : Stream → Stream) : (withStream d h f).poison = d.poison := rfl
@[simp] theorem withStream_holds (h : Nat) (f : Stream → Stream) : (withStream d h f).holds = d.holds := rfl
@[simp] theorem withStream_allocs (h : Nat) (f : Stream → Stream) : (withStream d h f).allocs = d.allocs := rfl
@[simp] theorem withStream_descs (h : Nat) (f : Stream → Stream) : (withStream d h f).descs = d.descs := rfl
@[simp] theorem withStream_owners (h : Nat) (f : Stream → Stream) : (withStream d h f).owners = d.owners := rfl
@[simp] theorem withStream_trees (h : Nat) (f : Stream → Stream) : (withStream d h f).trees = d.trees := rfl
@[simp] theorem withStream_groups (h : Nat) (f : Stream → Stream) : (withStream d h f).groups = d.groups := rfl
@[simp] theorem withStream_buckets (h : Nat) (f : Stream → Stream) : (withStream d h f).buckets = d.buckets := rfl
@[simp] theorem withStream_streams (h : Nat) (f : Stream → Stream) : (withStream d h f).streams = assocMod h f d.streams := rfl
@[simp] theorem withStream_generations (h : Nat) (f : Stream → Stream) : (withStream d h f).generations = d.generations := rfl
@[simp] theorem withStream_incoming (h : Nat) (f : Stream → Stream) : (withStream d h f).incoming = d.incoming := rfl
@[simp] theorem withStream_resStores (h : Nat) (f : Stream → Stream) : (withStream d h f).resStores = d.resStores := rfl
@[simp] theorem withStream_resZero (h : Nat) (f : Stream → Stream) : (withStream d h f).resZero = d.resZero := rfl
@[simp] theorem withStream_bucketStores (h : Nat) (f : Stream → Stream) : (withStream d h f).bucketStores = d.bucketStores := rfl
@[simp] theorem withStream_exponents (h : Nat) (f : Stream → Stream) : (withStream d h f).exponents = d.exponents := rfl
@[simp] theorem withStream_lastExponents (h : Nat) (f : Stream → Stream) : (withStream d h f).lastExponents = d.lastExponents := rfl
@[simp] theorem withStream_seed (h : Nat) (f : Stream → Stream) : (withStream d h f).seed = d.seed := rfl
@[simp] theorem withStream_aesFail (h : Nat) (f : Stream → Stream) : (withStream d h f).aesFail = d.aesFail := rfl
@[simp] theorem withStream_running (h : Nat) (f : Stream → Stream) : (withStream d h f).running = d.running := rfl
@[simp] theorem withStream_nextId (h : Nat) (f : Stream → Stream) : (withStream d h f).nextId = d.nextId := rfl
@[simp] theorem withStream_work (h : Nat) (f : Stream → Stream) : (withStream d h f).work = d.work := rfl
@[simp] theorem withStream_plan (h : Nat) (f : Stream → Stream) : (withStream d h f).plan = d.plan := rfl
@[simp] theorem withStream_holdWork (h : Nat) (f : Stream → Stream) : (withStream d h f).holdWork = d.holdWork := rfl
@[simp] theorem withStream_ports (h : Nat) (f : Stream → Stream) : (withStream d h f).ports = d.ports := rfl
@[simp] theorem withStream_quads (h : Nat) (f : Stream → Stream) : (withStream d h f).quads = d.quads := rfl
@[simp] theorem withStream_tiles (h : Nat) (f : Stream → Stream) : (withStream d h f).tiles = d.tiles := rfl
@[simp] theorem withStream_phys (h : Nat) (f : Stream → Stream) : (withStream d h f).phys = d.phys := rfl
@[simp] theorem withStream_hbm (h : Nat) (f : Stream → Stream) : (withStream d h f).hbm = d.hbm := rfl
@[simp] theorem withStream_rpr (h : Nat) (f : Stream → Stream) : (withStream d h f).rpr = d.rpr := rfl
@[simp] theorem withStream_dbg (h : Nat) (f : Stream → Stream) : (withStream d h f).dbg = d.dbg := rfl
@[simp] theorem withStream_trc (h : Nat) (f : Stream → Stream) : (withStream d h f).trc = d.trc := rfl
@[simp] theorem withStream_annalsMiB (h : Nat) (f : Stream → Stream) : (withStream d h f).annalsMiB = d.annalsMiB := rfl
@[simp] theorem withStream_counters (h : Nat) (f : Stream → Stream) : (withStream d h f).counters = d.counters := rfl
@[simp] theorem withStream_kvs (h : Nat) (f : Stream → Stream) : (withStream d h f).kvs = d.kvs := rfl
@[simp] theorem withStream_met (h : Nat) (f : Stream → Stream) : (withStream d h f).met = d.met := rfl
@[simp] theorem withStream_freeCount (h : Nat) (f : Stream → Stream) : (withStream d h f).freeCount = d.freeCount := rfl

end Sys2Proof.Machine
end

