-- ==== Sys2Proof/Laws/Mailbox.lean ====
section
/-!
SUPPORT. What the start of a command of the opcode tables comes to, what follows from an effect on a device
with nothing in progress, and what a received frame that is taken does.
-/
namespace Sys2Proof.Machine

/-! ### The end of a command's meaning -/

theorem finish_eq (s : State) (d : Dev) : finish s d = .next (settled s d) := rfl

@[simp] theorem settled_pending (s : State) (d : Dev) : (settled s d).pending = s.pending := rfl

/-! ### Nothing in progress -/

/-- With nothing in progress, only readiness can follow from an effect. -/
theorem wake_quiet (d : Dev) (h : Quiet d) : wake d = checkReady d := by
  obtain ⟨hr, hw, hg, hc, hh⟩ := h
  simp [wake, hr, wakeLoop, wakePass, settleArrivals, hg, advanceAll, hw, grantAll, dropCopying, hc, scheduleHeld, hh]

/-! ### Issuing a command -/

@[simp] theorem vmod_get_same {α : Type} {n : Nat} (v : Vector α n) (i : Fin n) (f : α → α) : (vmod v i f)[i] = f v[i] :=
  Vector.getElem_set_self _

@[simp] theorem mailbox_withMbx (d : Dev) (n : Mbx) (f : Mailbox → Mailbox) : mailbox (withMbx d n f) n = f (mailbox d n) :=
  vmod_get_same _ _ _

theorem withMbx_withMbx (d : Dev) (n : Mbx) (f g : Mailbox → Mailbox) :
    withMbx (withMbx d n f) n g = withMbx d n fun m => g (f m) := by
  simp [withMbx, vmod]

/-- What holds a command back does not depend on the heads of the ring (R36, R244, R249). -/
theorem heldBack_withMbx (d : Dev) (n : Mbx) (f : Mailbox → Mailbox) (x : Fetched) (h : ∀ m, (f m).ready = m.ready) :
    heldBack (withMbx d n f) n x = heldBack d n x := by
  have e : mbxBusy (withMbx d n f) n = mbxBusy d n := by simp [mbxBusy, h]
  have p : pendingFn (withMbx d n f) = pendingFn d := rfl
  unfold heldBack
  rw [e, p]
  rfl

theorem takeEntry_eq (d : Dev) (n : Mbx) (x : Fetched) :
    takeEntry (withMbx d n fun m => { m with sqTail := m.next m.sqTail }) n x
      = withMbx d n fun m => { m with sqTail := m.next m.sqTail, sqHead := m.next m.sqHead, fetched := m.fetched ++ [x] } := by
  rw [takeEntry, withMbx_withMbx]
  rfl

/-- An entry behind no other starts as soon as nothing holds it back. -/
theorem startHeld_single (d : Dev) (n : Mbx) (x : Fetched) (hf : (mailbox d n).fetched = [x]) (hb : heldBack d n x = false) :
    startHeld d n = startReady n 0 (startOne (withMbx d n fun m => { m with fetched := [] }) n x) := by
  rw [startHeld, hf]
  simp only [List.length_singleton, startReady, hf, hb, Bool.false_eq_true, if_false]

/-- A command that can be fetched and is not held back is taken and judged at once. -/
theorem issue_taken (s : State) (n : Mbx) (h : Hdr) (c : Cmd) (g : Fetchable s.dev n h c) :
    issue n h c s = .next (settled s (startOne (taken s.dev n) n ⟨h, c, cmdReserved h c, inGuard s.dev⟩)) := by
  obtain ⟨hc, hf, hb⟩ := g
  rw [issue, if_pos hc, finish_eq, takeEntry_eq, startHeld_single _ n ⟨h, c, cmdReserved h c, inGuard s.dev⟩]
  · rw [withMbx_withMbx, startReady]
    rfl
  · rw [mailbox_withMbx]
    simp [hf]
  · refine Eq.trans ?_ hb
    apply heldBack_withMbx
    intro m
    rfl

theorem mailbox_taken_label (d : Dev) (n : Mbx) : (mailbox (taken d n) n).label = (mailbox d n).label := by
  simp [taken]

theorem mbxCaller_taken (d : Dev) (n : Mbx) (h : Hdr) : mbxCaller (taken d n) n h = mbxCaller d n h := by
  rw [mbxCaller, mailbox_taken_label]
  rfl

/-- A command that fails a check of R242 completes with that status and has no effect. -/
theorem issue_refused (s : State) (n : Mbx) (h : Hdr) (c : Cmd) (st : Status) (g : Fetchable s.dev n h c)
    (e : startCheck s.dev n h c = some st) : issue n h c s = .next (settled s (refused s.dev n h c st)) := by
  rw [startCheck, mbxCaller_taken] at e
  rw [issue_taken s n h c g, startOne, mbxCaller_taken, e]
  rfl

/-- What a command's own start comes to, as the device that follows. -/
def begunTo (d : Dev) (n : Mbx) (h : Hdr) (c : Cmd) : Begin → Dev
  | .fail st => refused d n h c st
  | .done e res => completed d e n h c res
  | .ended e st res => ended d e n h c st res
  | .go e r => started d e r

/-- A command that passes the checks of R242 is decided by its own start. -/
theorem startOne_issued (d : Dev) (n : Mbx) (h : Hdr) (c : Cmd) (k : startCheck d n h c = none) :
    startOne (taken d n) n ⟨h, c, cmdReserved h c, inGuard d⟩
      = begunTo d n h c (startCmd (begun d n h c) (mbxCaller d n h) c) := by
  rw [startCheck, mbxCaller_taken] at k
  rw [startOne, mbxCaller_taken, k]
  simp only [begun, mbxCaller, ← show (taken d n).nextId = d.nextId from rfl]
  generalize startCmd _ _ c = b
  cases b <;> rfl

/-- A started command that ends at once with success. -/
theorem issue_done {s : State} {n : Mbx} {h : Hdr} {c : Cmd} {x : Dev} {e : Dev} {res : BitVec 96} (g : Begins s.dev n h c x)
    (b : startCmd x (mbxCaller s.dev n h) c = .done e res) :
    issue n h c s = .next (settled s (completed s.dev e n h c res)) := by
  rw [issue_taken s n h c g.1.1, startOne_issued s.dev n h c g.1.2, ← g.2, b]
  rfl

/-- A started command that ends at once with another status, its effect kept. -/
theorem issue_ended {s : State} {n : Mbx} {h : Hdr} {c : Cmd} {x : Dev} {e : Dev} {st : Status} {res : BitVec 96} (g : Begins s.dev n h c x)
    (b : startCmd x (mbxCaller s.dev n h) c = .ended e st res) :
    issue n h c s = .next (settled s (ended s.dev e n h c st res)) := by
  rw [issue_taken s n h c g.1.1, startOne_issued s.dev n h c g.1.2, ← g.2, b]
  rfl

/-- A started command that its own checks refuse. -/
theorem issue_fail {s : State} {n : Mbx} {h : Hdr} {c : Cmd} {x : Dev} {st : Status} (g : Begins s.dev n h c x)
    (b : startCmd x (mbxCaller s.dev n h) c = .fail st) :
    issue n h c s = .next (settled s (refused s.dev n h c st)) := by
  rw [issue_taken s n h c g.1.1, startOne_issued s.dev n h c g.1.2, ← g.2, b]
  rfl

/-- A started command that goes on. -/
theorem issue_go {s : State} {n : Mbx} {h : Hdr} {c : Cmd} {x : Dev} {e : Dev} {r : Running} (g : Begins s.dev n h c x)
    (b : startCmd x (mbxCaller s.dev n h) c = .go e r) :
    issue n h c s = .next (settled s (started s.dev e r)) := by
  rw [issue_taken s n h c g.1.1, startOne_issued s.dev n h c g.1.2, ← g.2, b]
  rfl

end Sys2Proof.Machine
end

