-- ==== Sys2Proof/Laws/Links.lean ====
section
/-!
SUPPORT. The common course of a received frame, and what sending does to the other ports.
-/
namespace Sys2Proof.Machine

/-- A frame that is accepted has arrived, and nothing more. -/
theorem receive_accepted {d : Dev} {p : Port} {vc : BitVec 2} {type : Byte} {h : LysHdr} (a : Accepted d p vc type h) :
    receive d p vc type h = (true, arrive d p vc type h) := by
  obtain ⟨h1, h2, h3, h4, h5⟩ := a
  have e : (takesCredit type && !notPast ((portAt d p).received[vcFin vc] + BitVec.ofNat 30 (frameUnits h.length.toNat))
      (portAt d p).advertised[vcFin vc]) = false := by
    cases t : takesCredit type
    · rfl
    · rw [h4 t]
      rfl
  have f : (((vc = 1 || vc = 2) : Bool) && !eraAccepted (arrive d p vc type h) h.era) = false := by
    by_cases g : vc = 1 ∨ vc = 2
    · rw [h5 g]
      simp
    · simp only [not_or] at g
      simp only [g.1, g.2, decide_false, Bool.or_self, Bool.false_and]
  have g : ((portAt d p).state != 2 && (portAt d p).state != 3
      && !((portAt d p).state = 1 && !takesCredit type)) = false := by
    rcases h1 with h | h <;> simp [h]
  unfold receive
  simp only [g, h2, show ¬ 8192 < h.length.toNat by omega, e, f]
  rfl

/-- The same for a discovery frame whose counts are in range (R537). -/
theorem receiveDisc_accepted {d : Dev} {p : Port} {h : LysHdr} {good : Bool} (a : Accepted d p 3 0x33 h) (g : good = true) :
    receiveDisc d p h good = (true, arrive d p 3 0x33 h) := by
  rw [receiveDisc, receive_accepted a, g]
  rfl

@[simp] theorem portAt_withPort_same (d : Dev) (p : Port) (f : PortSt → PortSt) : portAt (withPort d p f) p = f (portAt d p) :=
  vmod_get_same _ _ _

@[simp] theorem portAt_withPort_other (d : Dev) {p q : Port} (f : PortSt → PortSt) (h : q ≠ p) :
    portAt (withPort d p f) q = portAt d q := by
  have e : p.val ≠ q.val := fun x => h (Fin.ext x.symm)
  show (d.ports.set p (f d.ports[p]))[q] = d.ports[q]
  simp [e]

end Sys2Proof.Machine
end

