-- ==== Sys2Proof/Laws/Plan.lean ====
section
/-!
SUPPORT. What the end of a plan entry leaves alone: the device's work.
-/
namespace Sys2Proof.Machine

@[simp] theorem bump_work (d : Dev) (a b c n : Nat) : (bump d a b c n).work = d.work := by
  unfold bump; split <;> rfl

@[simp] theorem trace_work (d : Dev) (k u : Nat) (l : Option Byte) (a b : BitVec 16) (n : Nat) (bs : List Byte) :
    (trace d k u l a b n bs).work = d.work := by
  unfold trace
  split
  · rfl
  · dsimp only
    split
    · rw [bump_work]
    · rfl

theorem noteBusy_work (d : Dev) (x : RunEntry) : (noteBusy d x).work = d.work := by
  unfold noteBusy
  split
  · exact bump_work _ _ _ _ _
  · rfl

theorem clearSuspect_work (d : Dev) (r : BitVec 16) : (clearSuspect d r).work = d.work := by
  unfold clearSuspect
  split
  · rfl
  · split <;> rfl

theorem endEntry_work (d : Dev) (x : RunEntry) : (endEntry d x).work = d.work := by
  unfold endEntry
  rw [bump_work, clearSuspect_work, noteBusy_work]
  unfold traceEntry
  rw [trace_work]
  rfl

/-- The pending pages of a stream depend on the device's work alone. -/
theorem pendingPages_congr {d e : Dev} (h : d.work = e.work) (k : BitVec 16) (q : BitVec 32) :
    pendingPages d k q = pendingPages e k q := by
  unfold pendingPages
  rw [h]

/-- The work that an entry names depends on the device's work alone. -/
theorem entryWork_congr {d e : Dev} (h : d.work = e.work) (x : PlanEntry) : entryWork d x = entryWork e x := by
  unfold entryWork findHandoff findWork
  rw [h, pendingPages_congr h]

end Sys2Proof.Machine
end

