-- ==== Sys2Proof/Tests/Slice0.lean ====
section
/-!
SUPPORT. The model's own tests: terms that `Instr.wf` refuses, and for every clause of every obligation a state and
operands that meet all its hypotheses together. The small device `tDev` is one that start-up, the host link and the
host's first writes have brought to readiness.
-/
namespace Sys2Proof.Tests

open Sys2Proof.Machine

set_option Elab.async false

def tHdr : Hdr := ⟨0, 0, 0xFFFF, 0xFFFF, 0, 0⟩

/-- A mailbox that is enabled with rings of 16 entries in the ring area of BAR2. -/
def tBox (base : Nat) : Mailbox :=
  { Mailbox.reset with
    enable := true, enabled := true, bound := true, cqDev := true, sqDev := true
    sqBase := ⟨BitVec.ofNat 64 (0x10_0000 + base), 0⟩
    cqBase := ⟨BitVec.ofNat 64 (0x10_1000 + base), 0⟩ }

def tPhys (i : Nat) : Phys := if i < 64 then { Phys.reset with logical := BitVec.ofNat 6 i } else { Phys.reset with state := 1 }

/-- A port that is up, its peer known and its limits wide. -/
def tPort (p : Nat) : PortSt :=
  { PortSt.reset p with
    state := 2, peer := BitVec.ofNat 12 (p + 1), peerValid := true, macLearned := true
    limit := #v[1000000, 1000000, 1000000, 1000000], advertised := #v[1000000, 1000000, 1000000, 1000000] }

def tMembers : List (BitVec 12) := [0, 1, 2]

def tDev : Dev :=
  { Dev.reset with
    glb := { Glb.reset with ready := true, initialised := true }
    hif := { Hif.reset with linkUp := true, cxl := true, hdm := true }
    pwr := { Pwr.reset 750 with inReset := false, stage := 9, lock := 0x1FFFFFF }
    mbx := (mailboxesReset.set 64 (tBox 0)).set 0 (tBox 0x2000)
    tik := { Tik.reset 0 with era := 3, tick := 1000, eraValid := true, period := 100, locked := true }
    join := { Join.reset 0 0 1 with topoValid := true, members := tMembers, parent := some 0, master := some (⟨2, 9, 3, 0⟩, 1) }
    phys := Vector.ofFn fun (i : Fin 68) => tPhys i.val
    ports := Vector.ofFn fun (p : Fin 16) => if p.val < 2 then tPort p.val else PortSt.reset p.val }

def at0 (d : Dev) : State := ⟨[], d⟩

/-! ### Ill-formed commands, one for each check -/

theorem test_wf_known_opcode_is_not_unknown : (Instr.unknownOpcode 0 tHdr 0x0101).wf = false := by decide +kernel
theorem test_wf_undefined_opcode_is_unknown : (Instr.unknownOpcode 0 tHdr 0x0110).wf = true := by decide +kernel
theorem test_wf_store_outside_ring_area : (Instr.submissionTailDoorbell 0 0 [⟨true, 0x100_0000, 0, false⟩]).wf = false := by decide +kernel
theorem test_wf_store_above_host_memory : (Instr.submissionTailDoorbell 0 0 [⟨false, deviceTop, 0, false⟩]).wf = false := by decide +kernel
theorem test_wf_latch_read_of_single_word : (Instr.loReadLatch 0).wf = false := by decide +kernel
theorem test_wf_clear_read_of_plain_register : (Instr.rcCounterRead 0).wf = false := by decide +kernel
theorem test_wf_aligned_word_is_not_misaligned : (Instr.bar0Misaligned false 4 4).wf = false := by decide +kernel
theorem test_wf_misaligned_size : (Instr.bar0Misaligned false 4 3).wf = false := by decide +kernel
theorem test_wf_record_store_offset : (Instr.metRecRead 2).wf = false := by decide +kernel
theorem test_wf_empty_read : (Instr.bar4Read 0 0).wf = false := by decide +kernel
theorem test_wf_empty_write : (Instr.bar4Write 0 []).wf = false := by decide +kernel
theorem test_wf_empty_window_write : (Instr.windowWrite 0 []).wf = false := by decide +kernel
theorem test_wf_short_dirty_line : (Instr.birsp 0 (some [0])).wf = false := by decide +kernel
theorem test_wf_long_segment (h : LysHdr) : (Instr.chunkSegment 0 h (List.replicate 16384 0)).wf = false := by
  show decide ((List.replicate 16384 (0 : Byte)).length < 16384) = false
  rw [List.length_replicate]; rfl
theorem test_wf_boot_names_seventh_stack :
    (Instr.startup ⟨0, 0, true, true, true, [6], [], [], true, true⟩).wf = false := by decide +kernel
theorem test_wf_entry_of_known_opcode : (Cmd.unknown 0x0501).wf = false := by decide +kernel


/-! ### Commands that start and frames that are taken -/

def begins (d : Dev) (n : Mbx) (h : Hdr) (c : Cmd) : Bool :=
  canIssue d n && (mailbox d n).fetched = [] && !heldBack d n ⟨h, c, cmdReserved h c, none⟩ && startCheck d n h c = none

theorem begins_begun {d : Dev} {n : Mbx} {h : Hdr} {c : Cmd} (k : begins d n h c = true) : Begins d n h c (begun d n h c) := by
  simp only [begins, Bool.and_eq_true, decide_eq_true_eq, Bool.not_eq_true'] at k
  exact ⟨⟨⟨k.1.1.1, k.1.1.2, k.1.2⟩, k.2⟩, rfl⟩

def accepts (d : Dev) (p : Port) (vc : BitVec 2) (type : Byte) (h : LysHdr) : Bool :=
  ((portAt d p).state = 2 || (portAt d p).state = 3) && h.malformed = false && h.length.toNat ≤ 8192
    && (!takesCredit type || notPast ((portAt d p).received[vcFin vc] + BitVec.ofNat 30 (frameUnits h.length.toNat)) (portAt d p).advertised[vcFin vc])
    && (!(vc = 1 || vc = 2) || eraAccepted (arrive d p vc type h) h.era)

theorem accepted_of {d : Dev} {p : Port} {vc : BitVec 2} {type : Byte} {h : LysHdr} (k : accepts d p vc type h = true) :
    Accepted d p vc type h := by
  simp only [accepts, Bool.and_eq_true, Bool.or_eq_true, decide_eq_true_eq, Bool.not_eq_true'] at k
  obtain ⟨⟨⟨⟨k1, k2⟩, k3⟩, k4⟩, k5⟩ := k
  refine ⟨k1, k2, k3, fun t => ?_, fun t => ?_⟩
  · rcases k4 with k4 | k4
    · rw [k4] at t; exact absurd t (by decide)
    · exact k4
  · rcases k5 with k5 | k5
    · have : (decide (vc = 1) || decide (vc = 2)) = true := by rcases t with t | t <;> simp [t]
      rw [k5] at this; exact absurd this (by decide)
    · exact k5

/-! ### The queue and the step -/

theorem witness_StepRunsFrontCommand :
    (⟨[.portDown 5], tDev⟩ : State).pending = .portDown 5 :: [] ∧ (at0 tDev).pending = [] := ⟨rfl, rfl⟩
theorem witness_QueueIsFirstInFirstOut :
    QueueWf ⟨[.portDown 5], tDev⟩ ∧ step ⟨[.portDown 5], tDev⟩ = .next (at0 tDev)
    ∧ exec (.portDown 5) (at0 tDev) = .next (at0 tDev) :=
  ⟨fun c h => by rw [List.mem_singleton.mp h]; rfl, rfl, rfl⟩
theorem witness_EveryCommandCompletes_reserved :
    bar0Open tDev = true ∧ (0x070_0000 : BitVec 26).toNat % 4 = 0 ∧ regOfOffset (0x070_0000 : BitVec 26).toNat = none
    ∧ (0x07F_FFFC : BitVec 26).toNat % 4 = 0 ∧ regOfOffset (0x07F_FFFC : BitVec 26).toNat = none := by decide +kernel
theorem witness_EntryRoundTrip : Cmd.closeGroup.wf = true := rfl
theorem test_entry_unknown_round_trip :
    decodeEntry (encodeEntry ⟨5, 6, 7, 8, 9, 10⟩ (.unknown 0x0110)) = ⟨⟨5, 6, 7, 8, 9, 10⟩, .unknown 0x0110, false, none⟩ := by decide +kernel
theorem witness_QuietEffectIsAll : Quiet tDev := ⟨rfl, rfl, rfl, rfl, rfl⟩
theorem witness_MemoriesStayCanonical :
    MemoriesWf tDev ∧ step ⟨[.portDown 5], tDev⟩ = .next (at0 tDev) := ⟨⟨rfl, rfl, rfl⟩, rfl⟩

/-! ### Settings and device commands -/

theorem witness_setSeed : Begins tDev 64 tHdr (.setSeed 5) (begun tDev 64 tHdr (.setSeed 5)) := begins_begun (by decide +kernel)
theorem witness_setPlacement :
    Begins tDev 64 tHdr (.setPlacement 1 1) (begun tDev 64 tHdr (.setPlacement 1 1)) := begins_begun (by decide +kernel)

def tMaster : Dev := withTik tDev fun x => { x with isMaster := true }

theorem witness_setTick_least :
    Begins tMaster 64 tHdr (.setTick 2 0 0) (begun tMaster 64 tHdr (.setTick 2 0 0))
    ∧ 2 ≤ (2 : BitVec 16).toNat ∧ (2 : BitVec 16).toNat ≤ 1000 ∧ (0 : BitVec 8).toNat ≤ 8 ∧ (0 : BitVec 8).toNat ≤ 6 :=
  ⟨begins_begun (by decide +kernel), by decide⟩
theorem witness_setTick_most :
    Begins tMaster 64 tHdr (.setTick 1000 8 6) (begun tMaster 64 tHdr (.setTick 1000 8 6))
    ∧ 2 ≤ (1000 : BitVec 16).toNat ∧ (1000 : BitVec 16).toNat ≤ 1000 ∧ (8 : BitVec 8).toNat ≤ 8 ∧ (6 : BitVec 8).toNat ≤ 6 :=
  ⟨begins_begun (by decide +kernel), by decide⟩

def tNew : Dev := withGlb tDev fun g => { g with initialised := false }

theorem witness_init :
    Begins tNew 64 tHdr (.init 256) (begun tNew 64 tHdr (.init 256))
    ∧ (begun tNew 64 tHdr (.init 256)).glb.initialised = false ∧ annalsSize 256 = some 256
    ∧ 32 ≤ activeCount (placeAnnals (begun tNew 64 tHdr (.init 256)) 256) := ⟨begins_begun (by decide +kernel), by decide +kernel⟩

/-- A host address. -/
def tHost : BitVec 48 := 0x80_0000_0000

theorem witness_fwUpdate :
    Begins tDev 64 tHdr (.fwUpdate tHost 1) (begun tDev 64 tHdr (.fwUpdate tHost 1))
    ∧ 0 < (1 : Word).toNat ∧ (1 : Word).toNat ≤ 15 * mib ∧ sourceFault (begun tDev 64 tHdr (.fwUpdate tHost 1)) tHost.toNat 1 = none :=
  ⟨begins_begun (by decide +kernel), by decide +kernel⟩
theorem witness_fwUpdate_longest :
    Begins tDev 64 tHdr (.fwUpdate tHost 0xF0_0000) (begun tDev 64 tHdr (.fwUpdate tHost 0xF0_0000))
    ∧ 0 < (0xF0_0000 : Word).toNat ∧ (0xF0_0000 : Word).toNat ≤ 15 * mib
    ∧ sourceFault (begun tDev 64 tHdr (.fwUpdate tHost 0xF0_0000)) tHost.toNat 0xF0_0000 = none :=
  ⟨begins_begun (by decide +kernel), by decide +kernel⟩

def tReq : RepairReq := ⟨7, 2, 3, 9⟩
def tAsked : Dev :=
  { tDev with
    fpl := ⟨0x80, 0x80, 0, 0, false⟩
    rpr := { Rpr.reset with posted := (Vector.replicate 16 none).set 0 (some tReq) } }

theorem witness_repairApprove :
    Begins tAsked 64 tHdr (.repairApprove 7 1) (begun tAsked 64 tHdr (.repairApprove 7 1))
    ∧ hostMode (begun tAsked 64 tHdr (.repairApprove 7 1)) 7 = true ∧ (1 : BitVec 8).toNat ≤ 1
    ∧ (begun tAsked 64 tHdr (.repairApprove 7 1)).rpr.posted[(0 : Fin 16)] = some tReq ∧ tReq.id = 7
    ∧ ((List.range 16).all fun j => (vget (begun tAsked 64 tHdr (.repairApprove 7 1)).rpr.posted j none).all fun p => p.id != 7 || p = tReq) = true :=
  ⟨begins_begun (by decide +kernel), by decide +kernel⟩

/-! ### Tenancy -/

theorem witness_bindTenant :
    Begins tDev 64 tHdr (.bindTenant 63 4 false) (begun tDev 64 tHdr (.bindTenant 63 4 false))
    ∧ (63 : BitVec 8).toNat = (63 : Mbx).val ∧ (63 : Mbx).val < 64 ∧ (begun tDev 64 tHdr (.bindTenant 63 4 false)).mbx[(63 : Mbx)].enabled = false
    ∧ (false = true ∨ openRefuses (begun tDev 64 tHdr (.bindTenant 63 4 false)) 4 = false) := ⟨begins_begun (by decide +kernel), by decide +kernel⟩
theorem witness_bindTenant_admin :
    Begins tDev 64 tHdr (.bindTenant 64 4 false) (begun tDev 64 tHdr (.bindTenant 64 4 false)) := begins_begun (by decide +kernel)
theorem witness_alloc :
    Begins tDev 64 tHdr (.alloc 0 1 65536) (begun tDev 64 tHdr (.alloc 0 1 65536)) ∧ (1 : BitVec 8).toNat ≤ 1
    ∧ 0 < (65536 : BitVec 64).toNat ∧ (65536 : BitVec 64).toNat % 65536 = 0
    ∧ lowestRun (busyRanges (begun tDev 64 tHdr (.alloc 0 1 65536)) true) true 65536 65536 = some hbmBase
    ∧ lowestFree (begun tDev 64 tHdr (.alloc 0 1 65536)).allocs 0 ((begun tDev 64 tHdr (.alloc 0 1 65536)).allocs.length + 1) = some 0 :=
  ⟨begins_begun (by decide +kernel), by decide +kernel⟩

def tAlloc : Alloc := ⟨0, true, 0x14_0000_0000, 0x100_0000⟩

theorem witness_free :
    Begins { tDev with allocs := [(0, tAlloc)] } 64 tHdr (.free 0) (begun { tDev with allocs := [(0, tAlloc)] } 64 tHdr (.free 0))
    ∧ assoc (0 : Word).toNat (begun { tDev with allocs := [(0, tAlloc)] } 64 tHdr (.free 0)).allocs = some tAlloc
    ∧ allocHeld (begun { tDev with allocs := [(0, tAlloc)] } 64 tHdr (.free 0)) 0 tAlloc = false :=
  ⟨begins_begun (by decide +kernel), by decide +kernel⟩

/-! ### Descriptors and owner tables -/

/-- The image of a descriptor of rank 1 of `n` elements at the start of allocation 0 (Table 4-1). -/
def tImage (format : Byte) (n : Nat) : List Byte :=
  [format, 1, 0, 0] ++ zeros 9 ++ leBytes 3 (n - 1) ++ zeros 48

def tDesc (format : Byte) (n : Nat) : Desc := { imageDesc (tImage format n) 0 0 [] 1 with start := 0x14_0000_0000 }

/-- Descriptors 0 (INT8), 1 and 2 (L48), 3 (BF16, 64 elements), 4 (INT8, 65536 elements). -/
def tData : Dev :=
  { tDev with
    allocs := [(0, tAlloc)]
    seed := some 1
    descs := [(0, tDesc 3 64), (1, tDesc 6 64), (2, tDesc 6 64), (3, tDesc 0 64), (4, tDesc 3 65536)] }

def tImaged : Dev := store tData tHost.toNat (tImage 3 64)

theorem witness_createDesc :
    Begins tImaged 0 tHdr (.createDesc tHost) (begun tImaged 0 tHdr (.createDesc tHost))
    ∧ (let e := begun tImaged 0 tHdr (.createDesc tHost)
      let cl := mbxCaller tImaged 0 tHdr
      let bs := load e tHost.toNat 64
      let k := imageMade e cl.label bs
      sourceFault e tHost.toNat 64 = none ∧ lowestFree e.descs 0 65536 = some 5 ∧ fmtDefined k.fmt = true ∧ 1 ≤ k.rk ∧ k.rk ≤ 6
      ∧ encodingOk bs k = true ∧ k.count ≤ 2 ^ 40 ∧ stridesOk k = true ∧ (k.transpose = true → 2 ≤ k.rk ∧ mayTranspose k.fmt = true)
      ∧ k.ownerValid = false ∧ assoc k.allocation.toNat e.allocs = some tAlloc ∧ cl.may tAlloc.label = true
      ∧ k.base.toNat + k.reach ≤ tAlloc.size) := ⟨begins_begun (by decide +kernel), by decide +kernel⟩
theorem witness_destroyDesc :
    Begins tData 0 tHdr (.destroyDesc 0) (begun tData 0 tHdr (.destroyDesc 0))
    ∧ bucketHolds (begun tData 0 tHdr (.destroyDesc 0)) 0 = false
    ∧ descOf (begun tData 0 tHdr (.destroyDesc 0)) 0 = some (tDesc 3 64) := ⟨begins_begun (by decide +kernel), by decide +kernel⟩

/-- An owner table image of one entry, blocks of 64 elements. -/
def tOwners : Dev := store tData tHost.toNat (leBytes 4 1 ++ leBytes 4 64 ++ zeros 8 ++ leBytes 2 2)

theorem witness_loadOwners :
    Begins tOwners 0 tHdr (.loadOwners 1023 tHost) (begun tOwners 0 tHdr (.loadOwners 1023 tHost))
    ∧ (let e := begun tOwners 0 tHdr (.loadOwners 1023 tHost)
      let a := tHost.toNat
      let head := load e a 16
      let count := field head 0 4
      (1023 : BitVec 16).toNat < 1024 ∧ assoc 1023 e.owners = none ∧ sourceFault e a 16 = none ∧ count ≤ 65536 ∧ 1 ≤ field head 4 4
      ∧ field head 4 4 ≤ 2 ^ 24 ∧ field head 8 8 = 0 ∧ (0 < count → sourceFault e (a + 16) (2 * count) = none)
      ∧ (∀ x ∈ (List.range count).map fun i => field (load e (a + 16 + 2 * i) 2) 0 2, x < 4096)
      ∧ ownerEntries e 1023 + count ≤ 0x10_0000 ∧ (e.descs.any fun x => x.2.ownerValid && x.2.owner.toNat = 1023) = false) :=
  ⟨begins_begun (by decide +kernel), by decide +kernel⟩

/-! ### Compression -/

/-- A factor of rank 2: 64 rows of one INT8 element. -/
def tFactor : Desc := { imageDesc ([3, 2, 0, 0] ++ zeros 12 ++ leBytes 3 63 ++ zeros 12 ++ leBytes 5 64 ++ zeros 28) 0 0 [] 1 with start := 0x14_0000_0000 }

def tData2 : Dev := { tData with descs := tData.descs ++ [(5, tFactor)] }

/-- BF16 input 3, output 4, residual 1. -/
def tOps (comp : Byte) (parameter : Word) (auxA : BitVec 16) : CompressOps := ⟨0, comp, 3, 4, 1, 0xFFFF, auxA, 0xFFFF, 0, 0, 0, parameter, 0⟩

theorem witness_topk :
    Begins tData2 0 tHdr (.topk (tOps 1 8 unused)) (begun tData2 0 tHdr (.topk (tOps 1 8 unused)))
    ∧ (tOps 1 8 unused).compressor.toNat = cTopk
    ∧ compressFault (begun tData2 0 tHdr (.topk (tOps 1 8 unused))) (.topk (tOps 1 8 unused)) tHdr cTopk (tOps 1 8 unused) standaloneSize = none
    ∧ OutputHolds (begun tData2 0 tHdr (.topk (tOps 1 8 unused))) cTopk (tOps 1 8 unused) :=
  ⟨begins_begun (by decide +kernel), by decide +kernel, by decide +kernel, fun k h g => by
    have : k = tDesc 3 65536 := (Option.some.inj h).symm
    subst this; exact absurd g (by decide +kernel)⟩
theorem witness_quant :
    Begins tData2 0 tHdr (.quant (tOps 2 8 unused)) (begun tData2 0 tHdr (.quant (tOps 2 8 unused)))
    ∧ (tOps 2 8 unused).compressor.toNat = cQuant
    ∧ compressFault (begun tData2 0 tHdr (.quant (tOps 2 8 unused))) (.quant (tOps 2 8 unused)) tHdr cQuant (tOps 2 8 unused) standaloneSize = none
    ∧ OutputHolds (begun tData2 0 tHdr (.quant (tOps 2 8 unused))) cQuant (tOps 2 8 unused) :=
  ⟨begins_begun (by decide +kernel), by decide +kernel, by decide +kernel, fun k h g => by
    have : k = tDesc 3 65536 := (Option.some.inj h).symm
    subst this; exact absurd g (by decide +kernel)⟩
theorem witness_lowrank :
    Begins tData2 0 tHdr (.lowrank (tOps 3 1 5)) (begun tData2 0 tHdr (.lowrank (tOps 3 1 5)))
    ∧ (tOps 3 1 5).compressor.toNat = cLowrank
    ∧ compressFault (begun tData2 0 tHdr (.lowrank (tOps 3 1 5))) (.lowrank (tOps 3 1 5)) tHdr cLowrank (tOps 3 1 5) standaloneSize = none
    ∧ OutputHolds (begun tData2 0 tHdr (.lowrank (tOps 3 1 5))) cLowrank (tOps 3 1 5) :=
  ⟨begins_begun (by decide +kernel), by decide +kernel, by decide +kernel, fun k h g => by
    have : k = tDesc 3 65536 := (Option.some.inj h).symm
    subst this; exact absurd g (by decide +kernel)⟩
theorem witness_residualFlush :
    Begins tData2 0 tHdr (.residualFlush 0 false 1 2) (begun tData2 0 tHdr (.residualFlush 0 false 1 2))
    ∧ (let e := begun tData2 0 tHdr (.residualFlush 0 false 1 2)
      (if false then assoc (0 : Byte).toNat e.bucketStores = some 1 else (1 : BitVec 16) = 1) ∧ descOf e 1 = some (tDesc 6 64)
      ∧ descOf e 2 = some (tDesc 6 64) ∧ (tDesc 6 64).lowView = false ∧ resFormat (tDesc 6 64) = true ∧ (tDesc 6 64).fmt = (tDesc 6 64).fmt
      ∧ (tDesc 6 64).count = (tDesc 6 64).count ∧ errorOob (tDesc 6 64) = false) := ⟨begins_begun (by decide +kernel), by decide +kernel⟩
theorem witness_maskGen :
    Begins tData2 0 tHdr (.maskGen 0 5 6 unused) (begun tData2 0 tHdr (.maskGen 0 5 6 unused))
    ∧ (let e := begun tData2 0 tHdr (.maskGen 0 5 6 unused)
      descOf e 0 = some (tDesc 3 64) ∧ lowFault e (.maskGen 0 5 6 unused) = none ∧ (tDesc 3 64).fmt = fINT8 ∧ oobFault e (.maskGen 0 5 6 unused) = none
      ∧ drawFault e (optDesc e unused) (some (8 * (tDesc 3 64).count)) = none) := ⟨begins_begun (by decide +kernel), by decide +kernel⟩
theorem witness_residualFlush_bucket :
    Begins { tData2 with bucketStores := [(7, 1)] } 0 tHdr (.residualFlush 7 true unused 2)
      (begun { tData2 with bucketStores := [(7, 1)] } 0 tHdr (.residualFlush 7 true unused 2))
    ∧ assoc 7 (begun { tData2 with bucketStores := [(7, 1)] } 0 tHdr (.residualFlush 7 true unused 2)).bucketStores = some 1 :=
  ⟨begins_begun (by decide +kernel), by decide +kernel⟩

/-! ### Groups -/

/-- A tree of this device, the root, and member 1, as LOAD_TREE reads it. -/
def tTree : List TreeEntry := [⟨0, 0, true, 0, false⟩, ⟨1, 0, false, 0, false⟩]

/-- Group 0 is open on the tree, with member 1 on port 0. -/
def tGroup : Machine.Group where
  label := 0
  opener := 0
  slotsS := 4
  sizeCode := 0
  tree := tTree
  derived := true
  level := 0
  parent := none
  children := [⟨1, 0, 100, none⟩]
  nextSeq := 0
  slots := []
  slip := 0
  stalled := false
  faulted := none
  received := []
  slipSeen := []
  adopting := none
  granted := 4

def tGrouped : Dev := { tData2 with groups := [(0, tGroup)], nextId := 1 }

theorem witness_closeGroup :
    Begins tGrouped 0 tHdr .closeGroup (begun tGrouped 0 tHdr .closeGroup)
    ∧ bucketOn (begun tGrouped 0 tHdr .closeGroup) tHdr.handle.toNat = false :=
  ⟨begins_begun (by decide +kernel), by decide +kernel⟩

/-- Two tree entries in host memory: root 0 and its child 1. -/
def tTreed : Dev := store tData2 tHost.toNat ([0, 0, 0, 0x80] ++ zeros 4 ++ [1, 0, 0, 0] ++ zeros 4)

theorem witness_loadTree :
    Begins tTreed 64 tHdr (.loadTree tHost 2) (begun tTreed 64 tHdr (.loadTree tHost 2))
    ∧ (let e := begun tTreed 64 tHdr (.loadTree tHost 2)
      let raw := (List.range 2).map fun i => load e (tHost.toNat + 8 * i) 8
      tHdr.handle.toNat < 256 ∧ 2 ≤ (2 : BitVec 16).toNat ∧ (2 : BitVec 16).toNat ≤ 4096 ∧ groupOf e 0 = none
      ∧ sourceFault e tHost.toNat (8 * 2) = none ∧ raw.any treeReserved = false ∧ raw.map treeEntryOf = tTree ∧ treeOk (raw.map treeEntryOf) = true
      ∧ ((e.trees.filter fun x => x.1 != 0).map fun x => x.2.length).foldl (· + ·) 0 + 2 ≤ treeStoreSize) :=
  ⟨begins_begun (by decide +kernel), by decide +kernel⟩

/-- The tree of group 0 is loaded and GROUP is host-assisted. -/
def tPlanned : Dev := { tData2 with fpl := ⟨8, 8, 0, 0, false⟩, trees := [(0, tTree)] }

theorem witness_openGroup :
    Begins tPlanned 0 tHdr (.openGroup 2 2 0) (begun tPlanned 0 tHdr (.openGroup 2 2 0))
    ∧ (let e := begun tPlanned 0 tHdr (.openGroup 2 2 0)
      tHdr.handle.toNat < 256 ∧ 2 ≤ (2 : BitVec 16).toNat ∧ (2 : BitVec 16).toNat ≤ 4096 ∧ 2 ≤ (2 : Byte).toNat ∧ (2 : Byte).toNat ≤ 16
      ∧ (0 : Byte).toNat ≤ 6 ∧ groupOf e 0 = none ∧ e.groups.length < 256 ∧ treeFor e 0 2 = some tTree
      ∧ treeFind tTree e.join.member = some ⟨0, 0, true, 0, false⟩ ∧ tTree.length = (2 : BitVec 16).toNat ∧ (∀ x ∈ tTree, x.member ∈ e.join.members)
      ∧ nbrsOf e ([] ++ childrenOf tTree e.join.member) = some [⟨1, 0, 0, none⟩]
      ∧ (holdRun e 0 false (2 * ((childrenOf tTree e.join.member).length + 1) * (4096 * 2 ^ 0)) 64).isSome = true) :=
  ⟨begins_begun (by decide +kernel), by decide +kernel⟩
theorem witness_openGroup_most :
    Begins tPlanned 0 tHdr (.openGroup 2 16 6) (begun tPlanned 0 tHdr (.openGroup 2 16 6))
    ∧ (let e := begun tPlanned 0 tHdr (.openGroup 2 16 6)
      (16 : Byte).toNat ≤ 16 ∧ (6 : Byte).toNat ≤ 6
      ∧ (holdRun e 0 false (16 * ((childrenOf tTree e.join.member).length + 1) * (4096 * 2 ^ 6)) 64).isSome = true) :=
  ⟨begins_begun (by decide +kernel), by decide +kernel⟩

/-! ### Collectives -/

theorem witness_bcast :
    Begins tGrouped 0 tHdr (.bcast 4 unused false) (begun tGrouped 0 tHdr (.bcast 4 unused false))
    ∧ groupOf (begun tGrouped 0 tHdr (.bcast 4 unused false)) tHdr.handle.toNat = some tGroup ∧ tGroup.faulted = none
    ∧ BcastFits (begun tGrouped 0 tHdr (.bcast 4 unused false)) tGroup 4 unused false := by
  refine ⟨begins_begun (by decide +kernel), by decide +kernel, rfl, by decide, ?_, ?_, ?_, by decide +kernel⟩
  · intro s t _ h; exact nomatch h
  · intro _ _ s h
    have : s = tDesc 3 65536 := (Option.some.inj h).symm
    subst this; decide +kernel
  · intro t h; exact nomatch h

def tReduceOps : CompressOps := { tOps 2 8 unused with output := 0 }

theorem witness_reduceToOne :
    Begins tGrouped 0 tHdr (.reduceToOne tReduceOps) (begun tGrouped 0 tHdr (.reduceToOne tReduceOps))
    ∧ groupOf (begun tGrouped 0 tHdr (.reduceToOne tReduceOps)) tHdr.handle.toNat = some tGroup ∧ tGroup.faulted = none
    ∧ outputMatches tGroup tReduceOps = true
    ∧ compressFault (begun tGrouped 0 tHdr (.reduceToOne tReduceOps)) (.reduceToOne tReduceOps) tHdr tReduceOps.compressor.toNat
        tReduceOps (chunkSizeOf tGroup) = none
    ∧ ReduceShapes (begun tGrouped 0 tHdr (.reduceToOne tReduceOps)) tReduceOps :=
  ⟨begins_begun (by decide +kernel), by decide +kernel, rfl, by decide +kernel, by decide +kernel, tDesc 0 64, rfl, fun k h => by
    have : k = tDesc 3 64 := (Option.some.inj h).symm
    subst this; decide +kernel⟩

/-! ### Buckets -/

/-- BUCKET_OPEN names no input; output 6 is a one-row tensor. -/
def tBucketOps : CompressOps := ⟨0, 2, unused, 4, 1, 0xFFFF, 0xFFFF, 0xFFFF, 0, 0, 0, 8, 0⟩

theorem witness_bucketOpen :
    Begins tGrouped 0 tHdr (.bucketOpen tBucketOps) (begun tGrouped 0 tHdr (.bucketOpen tBucketOps))
    ∧ (let e := begun tGrouped 0 tHdr (.bucketOpen tBucketOps)
      bucketWait e e.nextId (.bucketOpen tBucketOps) = false ∧ groupOf e tHdr.handle.toNat = some tGroup ∧ tBucketOps.bucket.toNat < 64
      ∧ assoc tBucketOps.bucket.toNat e.buckets = none ∧ tGroup.faulted = none ∧ e.buckets.length < 64 ∧ outputMatches tGroup tBucketOps = true
      ∧ bucketFault e tBucketOps (chunkSizeOf tGroup) = none ∧ stepExponent e tHdr.handle.toNat tBucketOps.bucket.toNat tBucketOps.exponent = some 0
      ∧ mustWait e e.nextId tHdr (.bucketOpen tBucketOps) = false ∧ tableFault e tBucketOps = none
      ∧ mustRescale e tHdr.handle.toNat tBucketOps.bucket.toNat 0 = false ∧ (recordRun e tBucketOps.bucket.toNat).isSome = true) :=
  ⟨begins_begun (by decide +kernel), by decide +kernel⟩

/-- Bucket 0 is open on group 0. -/
def tBucket : Bucket := newBucket tGrouped (mbxCaller tGrouped 0 tHdr) tBucketOps none tGroup 0 0 0 0 0
def tFilling : Dev := { tGrouped with buckets := [(0, tBucket)] }

theorem witness_bucketAdd :
    Begins tFilling 0 tHdr (.bucketAdd 0 3) (begun tFilling 0 tHdr (.bucketAdd 0 3))
    ∧ (let e := begun tFilling 0 tHdr (.bucketAdd 0 3)
      bucketWait e e.nextId (.bucketAdd 0 3) = false ∧ mustWait e e.nextId tHdr (.bucketAdd 0 3) = false ∧ assoc (0 : Byte).toNat e.buckets = some tBucket ∧ tBucket.sealing = false
      ∧ groupOf e tBucket.group.toNat = some tGroup ∧ groupFaulted e tBucket.group.toNat = false ∧ descOf e 3 = some (tDesc 0 64)
      ∧ (tDesc 0 64).lowView = false ∧ errorOob (tDesc 0 64) = false ∧ rowSplit e tGroup tBucket (tDesc 0 64) = some [(0, 64)])
    ∧ AddFits (begun tFilling 0 tHdr (.bucketAdd 0 3)) tBucket 3 (tDesc 0 64) := by
  refine ⟨begins_begun (by decide +kernel), by decide +kernel, by decide +kernel, ?_, ?_, ?_, ?_, ?_, by decide +kernel⟩
  · intro r h
    have : r = tDesc 6 64 := (Option.some.inj h).symm
    subst this; decide +kernel
  · intro r h; exact nomatch h
  · intro r h
    have : r = tDesc 3 65536 := (Option.some.inj h).symm
    subst this; decide +kernel
  · intro h; exact absurd h (by decide +kernel)
  · intro h; exact absurd h (by decide +kernel)
theorem witness_bucketSeal :
    Begins tFilling 0 tHdr (.bucketSeal 0) (begun tFilling 0 tHdr (.bucketSeal 0))
    ∧ (let e := begun tFilling 0 tHdr (.bucketSeal 0)
      bucketWait e e.nextId (.bucketSeal 0) = false ∧ mustWait e e.nextId tHdr (.bucketSeal 0) = false ∧ assoc (0 : Byte).toNat e.buckets = some tBucket ∧ tBucket.sealing = false) :=
  ⟨begins_begun (by decide +kernel), by decide +kernel⟩

/-! ### Streams -/

def tStreamOps (pageList : BitVec 48) : StreamOps := ⟨1, 0, 0, 32, 128, pageList, 0⟩

theorem witness_streamOpen :
    Begins tData2 0 tHdr (.streamOpen (tStreamOps 0)) (begun tData2 0 tHdr (.streamOpen (tStreamOps 0)))
    ∧ (let e := begun tData2 0 tHdr (.streamOpen (tStreamOps 0))
      hostMode e 8 = false ∧ (tStreamOps 0).pageList = 0 ∧ lowestFree e.streams 0 4096 = some 0
      ∧ (takeTails (roundUp (16 * (tStreamOps 0).bpp.toNat) 4096) e (tStreamOps 0).layers.toNat []).isSome = true)
    ∧ StreamInRange (tStreamOps 0) :=
  ⟨begins_begun (by decide +kernel), by decide +kernel, by decide, by decide, by decide, by decide, by decide, by decide, by decide, by decide, by decide⟩
theorem witness_StreamInRange_most : StreamInRange ⟨256, 1, 4, 1048576, 16256, 0, 0⟩ :=
  ⟨by decide, by decide, by decide, by decide, by decide, by decide, by decide, by decide, by decide⟩

/-- STREAM is host-assisted and the page list holds two pages of allocation 0. -/
def tListed : Dev :=
  { store tData2 tHost.toNat (leBytes 8 0x14_0000_0000 ++ leBytes 8 0x14_0001_0000) with fpl := ⟨0x100, 0x100, 0, 0, false⟩ }

theorem witness_streamOpen_listed :
    Begins tListed 0 tHdr (.streamOpen (tStreamOps tHost)) (begun tListed 0 tHdr (.streamOpen (tStreamOps tHost)))
    ∧ (let e := begun tListed 0 tHdr (.streamOpen (tStreamOps tHost))
      let o := tStreamOps tHost
      let count := o.layers.toNat * ceilDiv o.maxPositions.toNat 16
      let pages := (List.range count).map fun i => field (load e (o.pageList.toNat + 8 * i) 8) 0 8
      let span := ceilDiv (16 * o.bpp.toNat) 65536 * 16 + 16 * o.bpp.toNat
      hostMode e 8 = true ∧ o.pageList ≠ 0 ∧ lowestFree e.streams 0 4096 = some 0 ∧ sourceFault e o.pageList.toNat (8 * count) = none
      ∧ (∀ p ∈ pages, pageEntryOk e (mailbox tListed 0).label span p = true))
    ∧ StreamInRange (tStreamOps tHost) :=
  ⟨begins_begun (by decide +kernel), by decide +kernel, by decide, by decide, by decide, by decide, by decide, by decide, by decide, by decide, by decide⟩

/-- Stream 0: two layers of up to 64 positions of 128 bytes; prefill. -/
def tStream (c g : Nat) : Stream :=
  { label := 0, opener := 0, decode := false, format := 0, bpp := 128, maxPositions := 64, coding := 0, generation := 1
    layers := [⟨c, g, false, 0x14_0080_0000, []⟩, ⟨c, g, false, 0x14_0080_1000, []⟩]
    pageList := [], nextPageSeq := 0, nextChunkSeq := 0, staged := [] }

/-- Descriptor 6: one page of INT8 data. -/
def tStreamed (c g : Nat) : Dev :=
  { tData2 with streams := [(0, tStream c g)], descs := tData2.descs ++ [(6, tDesc 3 2048)], fuses := { Fuses.reset with variant := 2 } }

theorem witness_streamClose : Begins (tStreamed 16 16) 0 tHdr .streamClose (begun (tStreamed 16 16) 0 tHdr .streamClose) :=
  begins_begun (by decide +kernel)
theorem witness_kvPut :
    Begins (tStreamed 16 16) 0 tHdr (.kvPut 0 16 16 6) (begun (tStreamed 16 16) 0 tHdr (.kvPut 0 16 16 6)) := begins_begun (by decide +kernel)

def tHandoffOps : HandoffOps := ⟨1, 5, 0, 16, 0, 2⟩

theorem witness_kvHandoff :
    Begins (tStreamed 16 16) 0 tHdr (.kvHandoff tHandoffOps) (begun (tStreamed 16 16) 0 tHdr (.kvHandoff tHandoffOps)) :=
  begins_begun (by decide +kernel)
theorem witness_kvStage :
    Begins (tStreamed 16 16) 0 tHdr (.kvStage 0 0 16) (begun (tStreamed 16 16) 0 tHdr (.kvStage 0 0 16)) := begins_begun (by decide +kernel)
theorem witness_kvCommit :
    Begins (tStreamed 16 16) 0 tHdr (.kvCommit 16) (begun (tStreamed 16 16) 0 tHdr (.kvCommit 16)) := begins_begun (by decide +kernel)
theorem witness_kvEvict :
    Begins (tStreamed 16 16) 0 tHdr (.kvEvict 0 2) (begun (tStreamed 16 16) 0 tHdr (.kvEvict 0 2)) := begins_begun (by decide +kernel)

/-! ### The turn of a stream command -/

/-- The stream command in progress as command 0. -/
def tRun (c g : Nat) (cmd : Cmd) : Running := { newRunning (tStreamed c g) (mbxCaller (tStreamed c g) 0 tHdr) cmd .turn with cs := [c, c] }
def tTurn (c g : Nat) (cmd : Cmd) : Dev := { tStreamed c g with running := [tRun c g cmd], nextId := 1 }

theorem witness_turn_put :
    HasTurn (tTurn 16 16 (.kvPut 0 16 16 6)) (tRun 16 16 (.kvPut 0 16 16 6)) (tStream 16 16)
    ∧ (let d := tTurn 16 16 (.kvPut 0 16 16 6)
      let s := tStream 16 16
      let y := layerOf s 0
      s.decode = false ∧ (0 : BitVec 16).toNat < s.layers.length ∧ y.evicted = false ∧ (16 : Word).toNat = y.g ∧ y.c ≤ y.g
      ∧ 0 < (16 : Word).toNat ∧ (16 : Word).toNat % 16 = 0 ∧ (16 : Word).toNat + (16 : Word).toNat ≤ s.maxPositions ∧ descOf d 6 = some (tDesc 3 2048)
      ∧ (tDesc 3 2048).imageLen = (16 : Word).toNat * s.bpp ∧ errorOob (tDesc 3 2048) = false
      ∧ (reservePages d s (((List.range 1).map (1 + ·)).map (pageTag 0 0))).isSome = true) :=
  ⟨⟨by decide +kernel, rfl, by decide +kernel, by decide +kernel⟩, by decide +kernel⟩
/-- Only the first of its layers fills a page at 16 positions. -/
def tMixed : Stream := { tStream 0 0 with layers := [⟨0, 0, false, 0x14_0080_0000, []⟩, ⟨0, 16, false, 0x14_0080_1000, []⟩] }
def tCommitting : Dev := { tTurn 0 0 (.kvCommit 16) with streams := [(0, tMixed)] }

theorem witness_turn_commit :
    HasTurn tCommitting (tRun 0 0 (.kvCommit 16)) tMixed
    ∧ (let c := (layerOf tMixed 0).c
      0 < (16 : Word).toNat ∧ (∀ y ∈ tMixed.layers, y.c = c ∧ y.evicted = false ∧ c + (16 : Word).toNat ≤ y.g + 16)
      ∧ tCommitting.pwr.hold = false ∧ retiring tMixed (c + 16) = [0]
      ∧ (reservePages tCommitting tMixed ((retiring tMixed (c + 16)).map fun l => pageTag 0 l ((layerOf tMixed l).g / 16))).isSome = true
      ∧ (noIsland tCommitting = true ∨ commitTapFree tCommitting ≠ 0)) :=
  ⟨⟨by decide +kernel, rfl, by decide +kernel, by decide +kernel⟩, by decide +kernel⟩
/-- The stream command in progress as the hold begins. -/
def tTurnHeld : Dev := withPwr (tTurn 16 16 (.kvCommit 16)) fun p => { p with hold := true }

theorem witness_turn_commit_held :
    HasTurn tTurnHeld (tRun 16 16 (.kvCommit 16)) (tStream 16 16) ∧ tTurnHeld.pwr.hold = true :=
  ⟨⟨by decide +kernel, rfl, by decide +kernel, by decide +kernel⟩, rfl⟩
theorem witness_turn_stage_release :
    HasTurn (tTurn 16 16 (.kvStage 0 0 0)) (tRun 16 16 (.kvStage 0 0 0)) (tStream 16 16) :=
  ⟨by decide +kernel, rfl, by decide +kernel, by decide +kernel⟩
theorem witness_turn_stage :
    HasTurn (tTurn 16 16 (.kvStage 1 0 16)) (tRun 16 16 (.kvStage 1 0 16)) (tStream 16 16)
    ∧ 0 < (16 : Word).toNat ∧ (0 : Word).toNat % 16 = 0 ∧ (1 : BitVec 16).toNat < (tStream 16 16).layers.length ∧ (layerOf (tStream 16 16) 1).evicted = false
    ∧ (0 : Word).toNat + (16 : Word).toNat ≤ (tRun 16 16 (.kvStage 1 0 16)).cs.getD 1 0
    ∧ (0 : Word).toNat + (16 : Word).toNat ≤ (layerOf (tStream 16 16) (1 : BitVec 16).toNat).c :=
  ⟨⟨by decide +kernel, rfl, by decide +kernel, by decide +kernel⟩, by decide +kernel⟩
/-- Positions 16 to 31 are still to come by an incoming handoff. -/
def tRunComing : Running := { tRun 16 16 (.kvStage 1 16 16) with cs := [32, 32] }
def tComing : Dev := { tTurn 16 16 (.kvStage 1 16 16) with incoming := [⟨0, 0, 1, 16, 16, 0, 2, 8, 0, [], []⟩], running := [tRunComing] }

theorem witness_turn_stage_incoming :
    HasTurn tComing tRunComing (tStream 16 16) ∧ (layerOf (tStream 16 16) 1).c < (16 : Word).toNat + (16 : Word).toNat
    ∧ (16 : Word).toNat + (16 : Word).toNat ≤ tRunComing.cs.getD 1 0 ∧ (incomingFor tComing 0 1 16 16).isSome = true :=
  ⟨⟨by decide +kernel, rfl, by decide +kernel, by decide +kernel⟩, by decide +kernel⟩
theorem witness_turn_handoff :
    HasTurn (tTurn 16 16 (.kvHandoff tHandoffOps)) (tRun 16 16 (.kvHandoff tHandoffOps)) (tStream 16 16)
    ∧ (let s := tStream 16 16
      let o := tHandoffOps
      s.decode = false ∧ o.positions ≠ 0 ∧ o.layerCount ≠ 0 ∧ o.destMember.toNat < 4096 ∧ o.destStream.toNat < 4096 ∧ o.first.toNat % 16 = 0
      ∧ o.first.toNat + o.positions.toNat ≤ (tRun 16 16 (.kvHandoff o)).cs.foldl min ((tRun 16 16 (.kvHandoff o)).cs.headD 0)
      ∧ o.firstLayer.toNat + o.layerCount.toNat ≤ s.layers.length ∧ (∀ l ∈ (List.range o.layerCount.toNat).map (o.firstLayer.toNat + ·), (layerOf s l).evicted = false)
      ∧ portTo (tTurn 16 16 (.kvHandoff o)) (o.destMember.truncate 12) = some 0) :=
  ⟨⟨by decide +kernel, rfl, by decide +kernel, by decide +kernel⟩, by decide +kernel⟩
theorem witness_turn_evict :
    HasTurn (tTurn 16 16 (.kvEvict 1 1)) (tRun 16 16 (.kvEvict 1 1)) (tStream 16 16)
    ∧ ((1 : BitVec 16) = 0 ∨ (1 : BitVec 16).toNat + (1 : BitVec 16).toNat ≤ (tStream 16 16).layers.length) :=
  ⟨⟨by decide +kernel, rfl, by decide +kernel, by decide +kernel⟩, by decide⟩
theorem witness_turn_close :
    HasTurn (tTurn 16 16 .streamClose) (tRun 16 16 .streamClose) (tStream 16 16) := ⟨by decide +kernel, rfl, by decide +kernel, by decide +kernel⟩

/-! ### Observation -/

theorem witness_traceStart :
    Begins tDev 64 tHdr (.traceStart 2 0 false) (begun tDev 64 tHdr (.traceStart 2 0 false))
    ∧ (begun tDev 64 tHdr (.traceStart 2 0 false)).trc.stopped = false := ⟨begins_begun (by decide +kernel), by decide +kernel⟩

def tSession : Session := ⟨0, 0, false, 0, false⟩
def tTraced : Dev := withTrc tDev fun t => { t with session := some tSession }

theorem witness_traceStop :
    Begins tTraced 64 tHdr .traceStop (begun tTraced 64 tHdr .traceStop)
    ∧ (begun tTraced 64 tHdr .traceStop).trc.session = some tSession := ⟨begins_begun (by decide +kernel), by decide +kernel⟩
theorem witness_countersSnapshot :
    Begins tDev 64 tHdr (.countersSnapshot 2 tHost) (begun tDev 64 tHdr (.countersSnapshot 2 tHost)) ∧ (2 : Byte).toNat ≤ 2
    ∧ (begun tDev 64 tHdr (.countersSnapshot 2 tHost)).trc.stopped = false := ⟨begins_begun (by decide +kernel), by decide +kernel⟩
theorem witness_countersSnapshot_room :
    snapshotFault (begun tDev 64 tHdr (.countersSnapshot 2 tHost)) (mbxCaller tDev 64 tHdr) tHost.toNat
      (snapshotBytes (begun tDev 64 tHdr (.countersSnapshot 2 tHost)) (mbxCaller tDev 64 tHdr) 2).length = none := by decide +kernel
theorem witness_watchTensor :
    Begins tData2 64 tHdr (.watchTensor 0 0xFFFF 0xFFFF 0 1) (begun tData2 64 tHdr (.watchTensor 0 0xFFFF 0xFFFF 0 1)) ∧ (1 : Byte).toNat ≤ 1
    ∧ (begun tData2 64 tHdr (.watchTensor 0 0xFFFF 0xFFFF 0 1)).dbg.watches[(0 : Fin 16)] = none ∧ ¬∃ j : Fin 16, j < 0 :=
  ⟨begins_begun (by decide +kernel), by decide +kernel⟩
theorem witness_breakSet :
    Begins tDev 64 tHdr (.breakSet 3 2 0 0) (begun tDev 64 tHdr (.breakSet 3 2 0 0)) ∧ (3 : Byte).toNat ≤ 3 ∧ 1 ≤ (2 : Byte).toNat ∧ (2 : Byte).toNat ≤ 2
    ∧ (12 : Fin 16).val = 4 * (3 : Byte).toNat + (0 : Fin 4).val ∧ (begun tDev 64 tHdr (.breakSet 3 2 0 0)).dbg.breaks[(12 : Fin 16)] = none
    ∧ ¬∃ j : Fin 16, 4 * (3 : Byte).toNat ≤ j.val ∧ j < 12 := ⟨begins_begun (by decide +kernel), by decide +kernel⟩

def tBroken : Dev := withDbg tDev fun x => { x with breaks := x.breaks.set 12 (some ⟨false, 0, 1, false⟩) }

theorem witness_breakSet_clear :
    Begins tBroken 64 tHdr (.breakSet 3 0 12 0) (begun tBroken 64 tHdr (.breakSet 3 0 12 0)) ∧ (3 : Byte).toNat ≤ 3
    ∧ (12 : Word).toNat % 256 = (12 : Fin 16).val ∧ (begun tBroken 64 tHdr (.breakSet 3 0 12 0)).dbg.breaks[(12 : Fin 16)] = some ⟨false, 0, 1, false⟩ :=
  ⟨begins_begun (by decide +kernel), by decide +kernel⟩

/-! ### Checks, doorbells, enabling -/

theorem witness_refused :
    Fetchable tDev 0 tHdr (.setSeed 5) ∧ startCheck tDev 0 tHdr (.setSeed 5) = some 0x0601 ∧ adminOnly (.setSeed 5) = true ∧ (0 : Mbx) ≠ adminBox
    ∧ tDev.rpr.failed = false := ⟨⟨by decide +kernel, rfl, by decide +kernel⟩, by decide +kernel⟩
theorem witness_unknown_fetchable : Fetchable tDev 0 tHdr (.unknown 0x0110) := ⟨by decide +kernel, rfl, by decide +kernel⟩

/-- A command with the fence bit waits for the one in progress. -/
def tFence : Hdr := { tHdr with flags := 1 }
def tBusy : Dev := { tDev with running := [newRunning tDev (mbxCaller tDev 0 tHdr) .traceStop .traceDrain], nextId := 1 }

theorem witness_held_back :
    canIssue tBusy 0 = true ∧ (mailbox tBusy 0).fetched = [] ∧ heldBack tBusy 0 ⟨tFence, .closeGroup, cmdReserved tFence .closeGroup, inGuard tBusy⟩ = true := by
  decide +kernel
theorem witness_cannot_issue : canIssue tDev 1 = false := by decide +kernel

theorem witness_tailDoorbell :
    tDev = [].foldl hostStore tDev ∧ tDev.hif.linkUp = true ∧ (mailbox tDev 0).enabled = true ∧ (mailbox tDev 0).enable = true
    ∧ (15 : Word).toNat < (mailbox tDev 0).ringDepth ∧ (mailbox tDev 0).ringDepth ≤ (16 : Word).toNat := ⟨rfl, by decide +kernel⟩
theorem witness_stopped :
    (mailbox (withMbx tDev 0 fun m => { m with stopped := true }) 0).stopped = true
    ∧ (mailbox (withMbx tDev 0 fun m => { m with stopped := true }) 0).enable = true := by decide +kernel

/-- A stopped mailbox that is disabled, its rings still set. -/
def tOff : Dev := withMbx tDev 0 fun m => { m with enable := false, enabled := false, stopped := true }

theorem witness_reenabled :
    (mailbox tOff 0).stopped = true ∧ (mailbox tOff 0).enable = false ∧ (mailbox tOff 0).enabled = false
    ∧ (mailbox (writeMbxCtrl tOff 0 (6 ||| 1)) 0).enabled = true := by decide +kernel
theorem witness_mailboxEnable : mbxWritable tOff 0 = true ∧ (mailbox tOff 0).enable = false := by decide +kernel
theorem witness_mailboxDisable : mbxWritable tDev 0 = true ∧ (mailbox tDev 0).enable = true := by decide +kernel
theorem test_enable_clears_ring :
    (mailbox (writeMbxCtrl tOff 0 (6 ||| 1)) 0).sqTail = 0 ∧ (mailbox (writeMbxCtrl tOff 0 (6 ||| 1)) 0).phase = true := by decide +kernel

/-! ### Registers -/

theorem witness_HostServed : HostServed tDev := ⟨rfl, rfl, rfl⟩

def tPending : Dev := { tDev with fpl := ⟨1, 0, 0, 0, false⟩ }

theorem witness_placementTakesEffect :
    pendingFn tPending (0 : MovFn).val = true ∧ functionIdle tPending (0 : MovFn).val = true ∧ tPending.pwr.hold = false := by decide +kernel

/-- Eras are host-assisted. -/
def tEraHost : Dev := { tDev with fpl := ⟨0x10, 0x10, 0, 0, false⟩ }

theorem witness_designateMaster :
    HostServed tEraHost ∧ eraHost tEraHost = true ∧ 8 ≤ tEraHost.pwr.stage.toNat ∧ (tEraHost.join.designate && tEraHost.tik.isMaster) = false :=
  ⟨⟨rfl, rfl, rfl⟩, by decide +kernel⟩
theorem witness_undesignateMaster :
    HostServed (withTik tEraHost fun x => { x with isMaster := true }) ∧ eraHost (withTik tEraHost fun x => { x with isMaster := true }) = true
    ∧ (withTik tEraHost fun x => { x with isMaster := true }).tik.isMaster = true := ⟨⟨rfl, rfl, rfl⟩, by decide +kernel⟩

/-- Start-up has stopped with boot code 4: the recovery mapping is there. -/
def tRecovery : Dev := withPwr (withGlb tDev fun g => { g with ready := false }) fun p => { p with bootCode := 4, stage := 5 }

theorem witness_recoverGo : bar0Open tRecovery = true ∧ tRecovery.pwr.bootCode = 4 ∧ tRecovery.pwr.hold = false := by decide +kernel
theorem witness_recoverGo_held :
    bar0Open (withPwr tRecovery fun p => { p with hold := true }) = true ∧ (withPwr tRecovery fun p => { p with hold := true }).pwr.bootCode = 4
    ∧ (withPwr tRecovery fun p => { p with hold := true }).pwr.hold = true := by decide +kernel
theorem witness_halt : HostServed tDev ∧ tDev.dbg.halted = false := ⟨⟨rfl, rfl, rfl⟩, rfl⟩

def tHalted : Dev := withDbg tDev fun x => { x with halted := true }

theorem witness_resume : HostServed tHalted ∧ tHalted.dbg.halted = true := ⟨⟨rfl, rfl, rfl⟩, rfl⟩
theorem witness_openSetting :
    HostServed tDev ∧ (1 : Word).getLsbD 0 = true ∧ tDev.dbg.openSet = false
    ∧ (∀ i j : Mbx, i.val < 64 → j.val < 64 → (mailbox tDev i).bound = true → (mailbox tDev j).bound = true →
      (mailbox tDev i).label = (mailbox tDev j).label) := by
  refine ⟨⟨rfl, rfl, rfl⟩, by decide, rfl, ?_⟩
  have h : ((List.range 64).all fun i => i = 0 || !(vget tDev.mbx i Mailbox.reset).bound) = true := by decide +kernel
  have only : ∀ i : Mbx, i.val < 64 → (mailbox tDev i).bound = true → i = 0 := by decide +kernel
  intro i j hi hj bi bj
  rw [only i hi bi, only j hj bj]

def tTwoLabels : Dev := withMbx tDev 1 fun m => { m with bound := true, label := 3 }

theorem witness_openSetting_refused :
    HostServed tTwoLabels ∧ (mailbox tTwoLabels 0).bound = true ∧ (mailbox tTwoLabels 1).bound = true
    ∧ (mailbox tTwoLabels 0).label ≠ (mailbox tTwoLabels 1).label := ⟨⟨rfl, rfl, rfl⟩, by decide +kernel⟩
theorem witness_loReadLatch :
    bar0Open tDev = true ∧ regOfOffset (0x8 : BitVec 26).toNat = some .glbSerialLo
    ∧ latchOf .glbSerialLo = some .glbSerialHi ∧ isRc .glbSerialLo = false := by decide +kernel
theorem witness_rcCounterRead :
    regOfOffset (BitVec.ofNat 26 (Reg.offset .pwrBrownCount)).toNat = some .pwrBrownCount
    ∧ isRc .pwrBrownCount = true := by decide +kernel
theorem witness_registerWrite :
    regOfOffset (BitVec.ofNat 26 (Reg.offset .fplMode)).toNat = some .fplMode := by
  decide +kernel
theorem witness_reserved_offset :
    bar0Open tDev = true ∧ (0x3FF_FFFC : BitVec 26).toNat % 4 = 0
    ∧ regOfOffset (0x3FF_FFFC : BitVec 26).toNat = none := by decide +kernel
theorem witness_misaligned : bar0Open tDev = true ∧ ¬((2 : Nat) = 4 ∧ (4 : BitVec 26).toNat % 4 = 0) ∧ (2 : BitVec 26).toNat % 4 ≠ 0 := by decide +kernel

/-- The island is ready and holds one record of two bytes, one of them read. -/
def tCollected (read : List Nat) : Dev :=
  withMet tDev fun m => { m with powered := true, ready := true, records := [⟨5, 0, [1, 2]⟩], readBytes := read }
def tReadyIsland : Dev := withMet tDev fun m => { m with powered := true, ready := true }

theorem witness_OldestRecordCollected (read : List Nat) :
    bar0Open (tCollected read) = true ∧ (tCollected read).met.ready = true
    ∧ assoc (Reg.offset .metCollect) (tCollected read).latches = none ∧ (tCollected read).met.records = ⟨5, 0, [1, 2]⟩ :: [] := ⟨rfl, rfl, rfl, rfl⟩
theorem witness_record_read : ∀ i, i < ([1, 2] : List Byte).length → i ∈ (tCollected [1, 0]).met.readBytes := by decide +kernel
theorem witness_record_unread : ∃ i, i < ([1, 2] : List Byte).length ∧ i ∉ (tCollected [0]).met.readBytes := ⟨1, by decide +kernel⟩
theorem witness_no_record :
    bar0Open tReadyIsland = true ∧ tReadyIsland.met.ready = true ∧ assoc (Reg.offset .metCollect) tReadyIsland.latches = none ∧ tReadyIsland.met.records = [] :=
  ⟨rfl, rfl, rfl, rfl⟩
theorem test_collect_waits_for_last_byte :
    oldestRead (tCollected [0]) = false ∧ oldestRead (tCollected [1, 0]) = true := by decide +kernel

/-! ### BAR4 and the window -/

theorem witness_bar4 : bar0Open tData = true ∧ oneRequest 0xFF8 8 = true ∧ oneRequest 0xFF9 8 = false := by decide +kernel
theorem witness_bar4_frame : ∃ t, Quiet tData ∧ exec (.bar4Write 0x4000_0000 [1, 2]) (at0 tData) = .next t := ⟨_, ⟨rfl, rfl, rfl, rfl, rfl⟩, rfl⟩
theorem witness_store :
    rangeOk tData 0x14_0000_0000 ([1, 2, 3] : List Byte).length = true
    ∧ ∀ i, i < ([1, 2, 3] : List Byte).length → redirect tData (0x14_0000_0000 + i) = 0x14_0000_0000 + i := by decide +kernel
theorem witness_window : windowOpen tDev = true ∧ 0 < ([1] : List Byte).length ∧ (63 : BitVec 40).toNat % 64 + ([1] : List Byte).length ≤ 64 := by decide +kernel
theorem witness_birsp : windowOpen (withKvs tDev fun k => { k with snoops := [64] }) = true ∧ winLine (70 : BitVec 40).toNat ∈ [64] := by decide +kernel
theorem witness_held_read :
    findIdx (fun (x : Nat × Bool) => x.1 = winLine (70 : BitVec 40).toNat) (withKvs tDev fun k => { k with heldReads := [(64, true)] }).kvs.heldReads 0
      = some (0, (64, true)) := by decide +kernel

/-! ### The tick -/

theorem witness_tickBoundary : tDev.pwr.inReset = false ∧ atEraEnd tDev = none ∧ atLastTick tDev = false := by decide +kernel

def tEnding : Dev := withTik tDev fun x => { x with change := some ⟨1000, 50, 2, 0⟩ }

theorem witness_eraBoundary : tEnding.pwr.inReset = false ∧ atEraEnd tEnding = some ⟨1000, 50, 2, 0⟩ := by decide +kernel
theorem witness_tickWrap : tMaster.tik.isMaster = true ∧ tMaster.tik.eraValid = true ∧ tMaster.tik.starting = 0 := by decide +kernel
theorem witness_tick_last_ns :
    (withTik tDev fun x => { x with offset := 99998 }).pwr.inReset = false
    ∧ (withTik tDev fun x => { x with offset := 99998 }).tik.offset.toNat + 1 < stretched (withTik tDev fun x => { x with offset := 99998 }) := by
  decide +kernel
theorem witness_tick_starting : (withTik tDev fun x => { x with starting := 3 }).tik.starting ≠ 0 ∧ tDev.tik.starting = 0 := by decide +kernel
theorem test_tick_length : stretched tDev = 100000 := by decide +kernel
theorem test_idle_step_counts : (idleTick tDev).tik.offset = 1 := by decide +kernel

/-! ### Plan entries -/

def tEntry (resource : BitVec 16) (cls : BitVec 8) : PlanEntry := ⟨resource, 0, 0, 100, cls⟩
def tRunEntry (resource : BitVec 16) (cls : BitVec 8) : RunEntry := ⟨tEntry resource cls, false, false, false, false, false⟩

/-- Chunk 0 of group 0, late, at this stage. -/
def tWork (stage : Stage) : Work := { newWork tGrouped 0 groupClass 0 0 (.reduce [⟨0, 0, 64⟩] 0) stage with late := true, deadline := some 999 }

def tSent : SentChunk := ⟨false, 0, 0, 0, 0, zeros 128, [0], true⟩
def tAtWork (resource : BitVec 16) (stage : Stage) : Dev :=
  { tGrouped with
    groups := [(0, { tGroup with nextSeq := 1 })]
    work := [tWork stage]
    plan := { Plan.empty with valid := true, running := [tRunEntry resource groupClass] }
    ports := tGrouped.ports.set 0 { tPort 0 with held := [tSent] } }

def tValid : Dev := { tDev with plan := { Plan.empty with valid := true } }

theorem witness_planEntryStart :
    planStopped tValid = false ∧ tValid.plan.valid = true ∧ runningOn tValid 1 = none ∧ carriedOn (appendPlan tValid []) 1 = none
    ∧ (appendPlan tValid []).plan.entries.find? (fun e => e.resource = 1) = none := by decide +kernel

def tPlan : Dev := { tDev with plan := { Plan.empty with valid := true, entries := [tEntry 1 groupClass], carried := [tRunEntry 2 groupClass] } }

theorem witness_planEntryStart_planned :
    planStopped tPlan = false ∧ tPlan.plan.valid = true ∧ runningOn tPlan 1 = none ∧ carriedOn (appendPlan tPlan []) 1 = none
    ∧ (appendPlan tPlan []).plan.entries.find? (fun e => e.resource = 1) = some (tEntry 1 groupClass) := by decide +kernel
theorem witness_planEntryStart_carried :
    planStopped tPlan = false ∧ tPlan.plan.valid = true ∧ runningOn tPlan 2 = none ∧ carriedOn (appendPlan tPlan []) 2 = some (tRunEntry 2 groupClass) := by decide +kernel
theorem witness_compressEntryDone :
    runningOn (tAtWork 1 .engine) 1 = some (tRunEntry 1 groupClass) ∧ isEngine 1 = true ∧ engineKind 1 ≠ 3
    ∧ entryPaused (tAtWork 1 .engine) (tEntry 1 groupClass) = false
    ∧ entryWork (endEntry (tAtWork 1 .engine) (tRunEntry 1 groupClass)) (tRunEntry 1 groupClass).entry = some (tWork .engine)
    ∧ (tWork .engine).stage = .engine := by
  rw [entryWork_congr (endEntry_work _ _)]; decide +kernel
theorem witness_codecEntryDone :
    runningOn (tAtWork 3 .codec) 3 = some (tRunEntry 3 groupClass) ∧ isEngine 3 = true ∧ engineKind 3 = 3
    ∧ entryPaused (tAtWork 3 .codec) (tEntry 3 groupClass) = false
    ∧ entryWork (endEntry (tAtWork 3 .codec) (tRunEntry 3 groupClass)) (tRunEntry 3 groupClass).entry = some (tWork .codec) := by
  rw [entryWork_congr (endEntry_work _ _)]; decide +kernel
theorem witness_transmitEntryDone :
    runningOn (tAtWork 256 (.send [0])) (txResource 0) = some (tRunEntry 256 groupClass)
    ∧ sentChunk (tAtWork 256 (.send [0])) 0 ((tRunEntry 256 groupClass).entry.cls = streamClass) 0 0 = some tSent
    ∧ canLaunch (tAtWork 256 (.send [0])) 0 tSent = true ∧ entryPaused (tAtWork 256 (.send [0])) (tEntry 256 groupClass) = false
    ∧ entryWork (tAtWork 256 (.send [0])) (tRunEntry 256 groupClass).entry = some (tWork (.send [0])) := by decide +kernel
theorem witness_entryOverrun :
    runningOn (tAtWork 1 .engine) 1 = some (tRunEntry 1 groupClass) ∧ isEngine 1 = true
    ∧ physOf (tAtWork 1 .engine) ((1 : BitVec 16).toNat / 4) = some (0 : Tile).val := by decide +kernel
theorem witness_endEntry :
    runningOn (tAtWork 1 .engine) (tRunEntry 1 groupClass).entry.resource = some (tRunEntry 1 groupClass)
    ∧ (∀ y ∈ (tAtWork 1 .engine).plan.running, y.entry.resource = (tRunEntry 1 groupClass).entry.resource → y = tRunEntry 1 groupClass)
    ∧ (tAtWork 1 .engine).plan.running.Nodup := by decide +kernel

/-! ### Groups that slip -/

theorem witness_groupSlip :
    groupOf (tAtWork 1 .engine) (0 : Fin 256).val = some { tGroup with nextSeq := 1 }
    ∧ oldestIncomplete (tAtWork 1 .engine) (0 : Fin 256).val = some (tWork .engine) ∧ tGroup.faulted = none ∧ (tWork .engine).late = true
    ∧ slipOf tGroup (tAtWork 1 .engine).tik.ended = none := by decide +kernel

/-- A notice for the tick that ended came first. -/
def tNoticed : Dev := { tAtWork 1 .engine with groups := [(0, { tGroup with nextSeq := 1, slipSeen := [(tDev.tik.ended, 2)] })] }

theorem witness_groupSlip_noticed :
    groupOf tNoticed (0 : Fin 256).val = some { tGroup with nextSeq := 1, slipSeen := [(tDev.tik.ended, 2)] }
    ∧ oldestIncomplete tNoticed (0 : Fin 256).val = some (tWork .engine) ∧ tGroup.faulted = none ∧ (tWork .engine).late = true
    ∧ slipOf { tGroup with nextSeq := 1, slipSeen := [(tDev.tik.ended, 2)] } tNoticed.tik.ended = some 2 ∧ (tWork .engine).deadline = some 999 := by decide +kernel

def tStalling : Dev := { tDev with groups := [(0, { tGroup with slip := 17 })] }

theorem witness_groupStalled :
    groupOf tStalling (0 : Fin 256).val = some { tGroup with slip := 17 } ∧ tGroup.faulted = none ∧ tGroup.stalled = false
    ∧ tStalling.tik.slipForce.toNat < 17 := by decide +kernel

/-- The header of a frame from the peer, of the era in force. -/
def tFrame (stream : Bool) (length : BitVec 14) : LysHdr :=
  { era := 3, tick := 1000, source := 1, dest := 0, first := true, last := true, credit := false, isLocal := false, attempt := 0
    stream := stream, handle := 0, seq := 0, offset := 0, length := length, creditVc := 0, creditLimit := 0, chunkLength := 0, malformed := false, mac := 0 }

theorem witness_slipNotice :
    Accepted tGrouped 0 1 0x12 (tFrame false 16)
    ∧ groupOf (arrive tGrouped 0 1 0x12 (tFrame false 16)) (0 : BitVec 16).toNat = some tGroup ∧ tGroup.faulted = none ∧ nbrOn tGroup 0 ≠ none :=
  ⟨accepted_of (by decide +kernel), by decide +kernel⟩

/-! ### The Almanac -/

theorem witness_tickLock :
    (withTik tDev fun x => { x with locked := false, lockRun := 16 }).tik.eraValid = true
    ∧ (withTik tDev fun x => { x with locked := false, lockRun := 16 }).tik.locked = false
    ∧ 16 ≤ (withTik tDev fun x => { x with locked := false, lockRun := 16 }).tik.lockRun := by decide +kernel
theorem witness_cableFault : (withTik tDev fun x => { x with source := 1 }).tik.source = 1 := rfl
theorem witness_cableFault_tested :
    cableTested (withJoin (withTik tDev fun x => { x with source := 2 }) fun j => { j with position := 1 }) = true := by decide +kernel
theorem witness_holdoverEntry :
    (withTik tDev fun x => { x with sinceFrame := 8 }).tik.eraValid = true ∧ (withTik tDev fun x => { x with sinceFrame := 8 }).tik.isMaster = false
    ∧ (withTik tDev fun x => { x with sinceFrame := 8 }).tik.holdover = false ∧ 8 ≤ (withTik tDev fun x => { x with sinceFrame := 8 }).tik.sinceFrame := by
  decide +kernel
theorem witness_almanacLost :
    (withTik tDev fun x => { x with holdover := true, holdoverTicks := 64 }).tik.holdover = true
    ∧ (withTik tDev fun x => { x with holdover := true, holdoverTicks := 64 }).tik.almanacLost = false
    ∧ (withTik tDev fun x => { x with holdover := true, holdoverTicks := 64 }).tik.holdoverLimit.toNat
      ≤ (withTik tDev fun x => { x with holdover := true, holdoverTicks := 64 }).tik.holdoverTicks := by decide +kernel

def tTick (era : BitVec 16) (tick : BitVec 48) : TickBody :=
  { tick := tick, era := era, period := 100, leap := 0, announced := 15, holiday := 2, announcedAt := 0, master := 1, origin := ⟨0, 0⟩, correction := 0
    eraChange := false, leapFloor := 0, newLeapFloor := 0, lastTick := 0, newPeriod := 0, newHoliday := 0 }

theorem witness_tickFrame :
    Accepted tDev 0 0 0x01 (tFrame false 64)
    ∧ (let d := seeEra (arrive tDev 0 0 0x01 (tFrame false 64)) (tTick 3 1000).era
      d.join.parent = some 0 ∧ d.tik.isMaster = false ∧ d.tik.eraValid = true ∧ (tTick 3 1000).era = d.tik.era) :=
  ⟨accepted_of (by decide +kernel), by decide +kernel⟩

def tWaiting : Dev := withTik tDev fun x => { x with eraValid := false }

theorem witness_tickFrame_adopted :
    Accepted tWaiting 0 0 0x01 (tFrame false 64)
    ∧ (let d := seeEra (arrive tWaiting 0 0 0x01 (tFrame false 64)) (tTick 3 1000).era
      d.join.parent = some 0 ∧ d.tik.isMaster = false ∧ d.tik.eraValid = false ∧ d.join.master = some (⟨2, 9, 3, 0⟩, 1)
      ∧ (tTick 3 1000).master.toNat = (1 : BitVec 12).toNat) := ⟨accepted_of (by decide +kernel), by decide +kernel⟩
theorem witness_tickFrame_next_era :
    Accepted tEnding 0 0 0x01 (tFrame false 64)
    ∧ (let d := seeEra (arrive tEnding 0 0 0x01 (tFrame false 64)) (tTick 4 0).era
      d.join.parent = some 0 ∧ d.tik.isMaster = false ∧ d.tik.eraValid = true ∧ (tTick 4 0).era ≠ d.tik.era
      ∧ (tTick 4 0).era = nextEra d.tik.era ∧ (tTick 4 0).tick = 0 ∧ (atEraEnd d).isSome = true) :=
  ⟨accepted_of (by decide +kernel), by decide +kernel⟩
theorem witness_tickFrame_behind :
    Accepted tDev 0 0 0x01 (tFrame false 64)
    ∧ (let d := seeEra (arrive tDev 0 0 0x01 (tFrame false 64)) (tTick 4 7).era
      d.join.parent = some 0 ∧ d.tik.isMaster = false ∧ d.tik.eraValid = true ∧ (tTick 4 7).era ≠ d.tik.era
      ∧ ¬((tTick 4 7).era = nextEra d.tik.era ∧ (tTick 4 7).tick = 0 ∧ (atEraEnd d).isSome = true) ∧ fellBehind d (tTick 4 7) = true) :=
  ⟨accepted_of (by decide +kernel), by decide +kernel⟩

/-! ### Tick reports and peer delay -/

/-- The first tick of a window. -/
def tWindow (master : Bool) : Dev := withTik tDev fun x => { x with tick := 1008, isMaster := master }

theorem witness_tickReportSend :
    isMember (tWindow false) = true ∧ (tWindow false).tik.starting = 0 ∧ (tWindow false).tik.tick.toNat % 16 = 0 ∧ 16 ≤ (tWindow false).tik.tick.toNat
    ∧ (tWindow false).tik.lastReport ≠ (tWindow false).tik.tick ∧ (tWindow false).tik.isMaster = false ∧ (tWindow false).join.parent = some 0 := by
  decide +kernel
theorem witness_tickReportSend_master :
    isMember (tWindow true) = true ∧ (tWindow true).tik.starting = 0 ∧ (tWindow true).tik.tick.toNat % 16 = 0 ∧ 16 ≤ (tWindow true).tik.tick.toNat
    ∧ (tWindow true).tik.lastReport ≠ (tWindow true).tik.tick ∧ (tWindow true).tik.isMaster = true := by decide +kernel

def tParent : Dev := withJoin tDev fun j => { j with children := [1] }

theorem witness_tickReport :
    Accepted tParent 1 0 0x04 (tFrame false 8)
    ∧ (let d := arrive tParent 1 0 0x04 (tFrame false 8)
      isMember d = true ∧ (1 : Port) ∈ d.join.children ∧ (tFrame false 8).era = d.tik.era ∧ (992 : BitVec 48).toNat ≤ d.tik.tick.toNat
      ∧ d.tik.lastReport.toNat ≤ (992 : BitVec 48).toNat) := ⟨accepted_of (by decide +kernel), by decide +kernel⟩

/-- The device has reported the window that tick 992 begins, as the master or as a member. -/
def tReported (master : Bool) : Dev :=
  withTik (withJoin (tWindow master) fun j => { j with children := [1] }) fun x => { x with lastReport := 1008 }

theorem witness_tickReport_late :
    Accepted (tReported false) 1 0 0x04 (tFrame false 8)
    ∧ (let d := arrive (tReported false) 1 0 0x04 (tFrame false 8)
      isMember d = true ∧ (1 : Port) ∈ d.join.children ∧ (tFrame false 8).era = d.tik.era ∧ (992 : BitVec 48).toNat ≤ d.tik.tick.toNat
      ∧ (992 : BitVec 48).toNat < d.tik.lastReport.toNat ∧ d.tik.isMaster = false ∧ d.join.parent = some 0) :=
  ⟨accepted_of (by decide +kernel), by decide +kernel⟩
theorem witness_tickReport_master :
    Accepted (tReported true) 1 0 0x04 (tFrame false 8)
    ∧ (let d := arrive (tReported true) 1 0 0x04 (tFrame false 8)
      isMember d = true ∧ (1 : Port) ∈ d.join.children ∧ (tFrame false 8).era = d.tik.era ∧ (992 : BitVec 48).toNat ≤ d.tik.tick.toNat
      ∧ (992 : BitVec 48).toNat + 16 = d.tik.lastReport.toNat ∧ d.tik.isMaster = true) := ⟨accepted_of (by decide +kernel), by decide +kernel⟩

def tLeaping : Dev := withTik tMaster fun x => { x with leap := 3, zeroTicks := 256 }

theorem witness_leapLower :
    tLeaping.tik.isMaster = true ∧ tLeaping.tik.eraValid = true ∧ 256 ≤ tLeaping.tik.zeroTicks ∧ tLeaping.tik.leapNext = none
    ∧ (effectiveFloor tLeaping tLeaping.tik.period.toNat tLeaping.tik.leapFloor).toNat < tLeaping.tik.leap.toNat
    ∧ tLeaping.tik.leap.toNat ≤ leapCap tLeaping tLeaping.tik.period.toNat := by decide +kernel

def tCapped : Dev := withTik tMaster fun x => { x with leap := 5, leapMax := 4 }

theorem witness_leapLower_cap :
    tCapped.tik.isMaster = true ∧ tCapped.tik.eraValid = true ∧ tCapped.tik.leapNext = none
    ∧ leapCap tCapped tCapped.tik.period.toNat < tCapped.tik.leap.toNat := by decide +kernel
theorem witness_link_stands : portUpNow tDev 0 = true ∧ linkStands tDev 0 = true := by decide +kernel
theorem witness_peerDelayRequest : Accepted tDev 0 0 0x05 (tFrame false 2) := accepted_of (by decide +kernel)

def tDelay : Dev := withPort tDev 0 fun x => { x with delayNumber := 1, delaySent := some ⟨1000, 0⟩ }

theorem witness_peerDelayResponse :
    Accepted tDelay 0 0 0x06 (tFrame false 18)
    ∧ (portAt (arrive tDelay 0 0 0x06 (tFrame false 18)) 0).delaySent = some ⟨1000, 0⟩
    ∧ (0 : BitVec 16) + 1 = (portAt (arrive tDelay 0 0 0x06 (tFrame false 18)) 0).delayNumber := ⟨accepted_of (by decide +kernel), by decide +kernel⟩

/-! ### Eras and membership -/

/-- No era is held, start-up is at its last step, and the device is a candidate. -/
def tCandidate : Dev :=
  withPwr (withJoin (withTik tDev fun x => { x with eraValid := false, locked := false }) fun j => { j with master := none }) fun p => { p with stage := 8 }

theorem witness_electionStart :
    eraHost tCandidate = false ∧ tCandidate.join.masterPri ≠ 0 ∧ tCandidate.tik.eraValid = false ∧ tCandidate.join.electing = false
    ∧ tCandidate.join.master = none ∧ tCandidate.pwr.stage = 8 ∧ upPorts tCandidate ≠ [] := by decide +kernel

def tElecting : Dev := withJoin tCandidate fun j => { j with electing := true, best := some ⟨1, 0, 1, 0⟩ }

theorem witness_proclamationSend :
    tElecting.join.best = some ⟨1, 0, 1, 0⟩ ∧ tElecting.join.electing = true ∧ bestIsOwn tElecting = true ∧ pendingFn tElecting 4 = false
    ∧ eraHost tElecting = false := by decide +kernel
theorem witness_proclamation_member :
    Accepted tDev 0 0 0x02 (tFrame false 16)
    ∧ (let d := arrive tDev 0 0 0x02 (tFrame false 16)
      d.tik.eraValid = true ∧ d.tik.almanacLost = false ∧ isMember d = true) := ⟨accepted_of (by decide +kernel), by decide +kernel⟩
theorem witness_proclamation_candidate :
    Accepted tCandidate 0 0 0x02 (tFrame false 16)
    ∧ (let d := arrive tCandidate 0 0 0x02 (tFrame false 16)
      d.tik.eraValid = false ∧ eraHost d = false ∧ d.join.master = none) := ⟨accepted_of (by decide +kernel), by decide +kernel⟩
theorem witness_proclamation_lost :
    Accepted (withTik tDev fun x => { x with almanacLost := true }) 0 0 0x02 (tFrame false 16)
    ∧ (let d := arrive (withTik tDev fun x => { x with almanacLost := true }) 0 0 0x02 (tFrame false 16)
      d.tik.eraValid = true ∧ d.tik.almanacLost = true ∧ eraHost d = false) := ⟨accepted_of (by decide +kernel), by decide +kernel⟩

def tProc : ProcBody := ⟨2, 1, 3, 9, 1⟩

theorem witness_eraFrame :
    Accepted tDev 0 0 0x03 (tFrame false 18)
    ∧ (seeEra (arrive tDev 0 0 0x03 (tFrame false 18)) tProc.era).join.master = some (⟨2, 9, 3, 0⟩, 1) := ⟨accepted_of (by decide +kernel), by decide +kernel⟩
theorem witness_eraFrame_accepted :
    Accepted tCandidate 0 0 0x03 (tFrame false 18)
    ∧ (seeEra (arrive tCandidate 0 0 0x03 (tFrame false 18)) tProc.era).join.master = none
    ∧ (seeEra (arrive tCandidate 0 0 0x03 (tFrame false 18)) tProc.era).join.best = none := ⟨accepted_of (by decide +kernel), by decide +kernel⟩
theorem witness_eraFramePeriodic :
    tMaster.join.master = some (⟨2, 9, 3, 0⟩, 1) ∧ tMaster.tik.isMaster = true ∧ tMaster.tik.eraValid = true ∧ tMaster.tik.silent = false := by decide +kernel

def tUnformed (master : Bool) : Dev :=
  withJoin (withTik tDev fun x => { x with isMaster := master }) fun j => { j with topoValid := false }

theorem witness_topologyForm :
    (tUnformed true).tik.isMaster = true ∧ (tUnformed true).tik.eraValid = true ∧ (tUnformed true).tik.starting = 0
    ∧ 64 ≤ (tUnformed true).tik.tick.toNat ∧ (tUnformed true).join.topoValid = false ∧ (tUnformed true).join.duplicate = false := by decide +kernel
theorem witness_topologyMissing :
    (tUnformed false).tik.eraValid = true ∧ (tUnformed false).tik.isMaster = false ∧ (tUnformed false).join.topoValid = false
    ∧ (tUnformed false).join.duplicate = false ∧ tDev.join.topoValid = true ∧ tDev.join.topoEra ≠ tDev.tik.era := by decide +kernel

def tTopo : TopoBody := ⟨0, 1, 3, 1010, [(0, 1), (1, 2)]⟩

theorem witness_topologySegment :
    Accepted tDev 0 3 0x33 (tFrame false 32) ∧ 1 ≤ tTopo.edges.length ∧ tTopo.edges.length ≤ 2040 ∧ tTopo.index.toNat < tTopo.count.toNat ∧ tTopo.count.toNat ≤ 17
    ∧ (let d := arrive tDev 0 3 0x33 (tFrame false 32)
      d.join.parent = some 0 ∧ d.tik.isMaster = false
      ∧ (tTopo.era = (sendDown d (segmentBody tTopo)).tik.era ∨ tTopo.era = nextEra (sendDown d (segmentBody tTopo)).tik.era)) :=
  ⟨accepted_of (by decide +kernel), by decide +kernel⟩

def tReport : ReportBody := ⟨1, 9, List.replicate 16 (2, 0)⟩
def tJoining : Dev := withJoin tMaster fun j => { j with firstJoin := some 984, joins := [tReport] }

theorem witness_joinAnnounce :
    tJoining.tik.isMaster = true ∧ tJoining.tik.eraValid = true ∧ tJoining.tik.starting = 0 ∧ tJoining.join.firstJoin = some 984
    ∧ (984 : BitVec 48).toNat + 16 ≤ tJoining.tik.tick.toNat ∧ tJoining.tik.change = none := by decide +kernel
theorem witness_linkReport : Accepted tDev 0 3 0x33 (tFrame false 48) ∧ tReport.links.length ≤ 16 := ⟨accepted_of (by decide +kernel), by decide +kernel⟩
theorem witness_hello : Accepted tDev 0 3 0x33 (tFrame false 24) ∧ (15 : Byte).toNat < 16 := ⟨accepted_of (by decide +kernel), by decide⟩
theorem witness_childAttach :
    Accepted tDev 1 3 0x33 (tFrame false 8)
    ∧ (let d := arrive tDev 1 3 0x33 (tFrame false 8)
      d.join.master ≠ none ∧ d.join.parent ≠ some 1 ∧ (1 : Port) ∉ d.join.children) := ⟨accepted_of (by decide +kernel), by decide +kernel⟩
theorem witness_memberLost :
    Accepted tDev 0 3 0x33 (tFrame false 8) ∧ (arrive tDev 0 3 0x33 (tFrame false 8)).join.parent = some 0 := ⟨accepted_of (by decide +kernel), by decide +kernel⟩

/-! ### Chunks on the links -/

/-- A segment that is a whole chunk of 64 bytes. -/
def tSegment (stream : Bool) : LysHdr := { tFrame stream 64 with chunkLength := 64 }
def tAcked : Dev := withPort tGrouped 0 fun x => { x with acked := [⟨false, 0, 0, [0]⟩] }

theorem witness_chunkSegment_unfit : Accepted tGrouped 0 2 0x20 (tSegment false) ∧ segmentFits (tSegment false) [1] = false :=
  ⟨accepted_of (by decide +kernel), by decide +kernel⟩
theorem witness_chunkSegment_acked :
    Accepted tAcked 0 2 0x20 (tSegment false) ∧ segmentFits (tSegment false) (zeros 64) = true
    ∧ ((portAt (arrive tAcked 0 2 0x20 (tSegment false)) 0).acked.find? fun a => a.stream = false && a.handle = 0 && a.seq = 0) = some ⟨false, 0, 0, [0]⟩ :=
  ⟨accepted_of (by decide +kernel), by decide +kernel⟩
theorem witness_chunkSegment_unwanted :
    Accepted tDev 0 2 0x20 (tSegment false) ∧ segmentFits (tSegment false) (zeros 64) = true
    ∧ ((portAt (arrive tDev 0 2 0x20 (tSegment false)) 0).acked.find? fun a => a.stream = false && a.handle = 0 && a.seq = 0) = none
    ∧ segmentWanted (arrive tDev 0 2 0x20 (tSegment false)) 0 (tSegment false) = false := ⟨accepted_of (by decide +kernel), by decide +kernel⟩
theorem witness_chunkSegment :
    Accepted tGrouped 0 2 0x20 (tSegment false) ∧ segmentFits (tSegment false) (zeros 64) = true
    ∧ ((portAt (arrive tGrouped 0 2 0x20 (tSegment false)) 0).acked.find? fun a => a.stream = false && a.handle = 0 && a.seq = 0) = none
    ∧ segmentWanted (arrive tGrouped 0 2 0x20 (tSegment false)) 0 (tSegment false) = true
    ∧ groupOf (arrive tGrouped 0 2 0x20 (tSegment false)) 0 = some tGroup ∧ rxOf tGroup 0 0 = none := ⟨accepted_of (by decide +kernel), by decide +kernel⟩

/-- Chunk 0 of port 0 is held and waits for its check. -/
def tRx : RxChunk := ⟨0, true, 0, zeros 64, zeros 64, true, some 0⟩
def tUnchecked : Dev := { tGrouped with groups := [(0, { tGroup with received := [tRx] })] }

theorem witness_chunkSegment_held :
    Accepted tUnchecked 0 2 0x20 (tSegment false) ∧ segmentFits (tSegment false) (zeros 64) = true
    ∧ ((portAt (arrive tUnchecked 0 2 0x20 (tSegment false)) 0).acked.find? fun a => a.stream = false && a.handle = 0 && a.seq = 0) = none
    ∧ segmentWanted (arrive tUnchecked 0 2 0x20 (tSegment false)) 0 (tSegment false) = true
    ∧ groupOf (arrive tUnchecked 0 2 0x20 (tSegment false)) 0 = some { tGroup with received := [tRx] }
    ∧ rxOf { tGroup with received := [tRx] } 0 0 ≠ none := ⟨accepted_of (by decide +kernel), by decide +kernel⟩

/-- A chunk of group 0 is held on port 0, its last segment gone. -/
def tHolding : Dev := withPort tGrouped 0 fun x => { x with held := [tSent] }

theorem witness_ack :
    Accepted tHolding 0 1 0x10 (tFrame false 0)
    ∧ wireChunk (arrive tHolding 0 1 0x10 (tFrame false 0)) 0 false 0 0 = some tSent ∧ (tSent.left = true ∨ tSent.attempt ≠ 0) :=
  ⟨accepted_of (by decide +kernel), by decide +kernel⟩
theorem witness_reAsk :
    Accepted tHolding 0 1 0x11 (tFrame false 8) ∧ (3 : Byte) ≠ 0 ∧ (3 : Byte).toNat ≤ 3
    ∧ wireChunk (bumpPort (arrive tHolding 0 1 0x11 (tFrame false 8)) 0 5 1) 0 false 0 0 = some tSent ∧ (tFrame false 8).attempt = tSent.attempt
    ∧ tSent.left = true := ⟨accepted_of (by decide +kernel), by decide +kernel⟩
theorem witness_reAsk_least : Accepted tHolding 0 1 0x11 (tFrame false 8) ∧ (1 : Byte) ≠ 0 ∧ (1 : Byte).toNat ≤ 3 :=
  ⟨accepted_of (by decide +kernel), by decide⟩

def tPartial : Partial := ⟨false, 0, 0, 0, 16384, [(0, zeros 8)]⟩

theorem witness_reasmTimeout :
    (portAt (withPort tGrouped 0 fun x => { x with partials := [tPartial] }) 0).partials.find? (samePartial false 0 0) = some tPartial := by decide +kernel
theorem witness_ackTimeout : sentChunk tHolding 0 false 0 0 = some tSent ∧ tSent.left = true := by decide +kernel

/-! ### Frames about a group -/

/-- The group with its root on port 0. -/
def tChild : Machine.Group := { tGroup with parent := some ⟨1, 0, 100, none⟩, children := [], level := 1 }
def tLeaf : Dev := { tDev with groups := [(0, tChild)] }

theorem witness_exponentNotice :
    Accepted tLeaf 0 1 0x13 (tFrame false 8) ∧ groupOf (arrive tLeaf 0 1 0x13 (tFrame false 8)) (0 : BitVec 16).toNat = some tChild
    ∧ (tChild.parent.any fun x => x.port = 0) = true := ⟨accepted_of (by decide +kernel), by decide +kernel⟩
theorem witness_grant :
    Accepted tGrouped 0 1 0x14 (tFrame false 16) ∧ (tFrame false 16).stream = false
    ∧ groupOf (arrive tGrouped 0 1 0x14 (tFrame false 16)) 0 = some tGroup ∧ nbrOn tGroup 0 = some ⟨1, 0, 100, none⟩
    ∧ seqBefore 100 101 = true ∧ seqBefore 100 100 = false ∧ assoc 0 (portAt (arrive tGrouped 0 1 0x14 (tFrame false 16)) 0).grants = none := ⟨accepted_of (by decide +kernel), by decide +kernel⟩
theorem witness_grant_early :
    Accepted tDev 0 1 0x14 (tFrame false 16) ∧ groupOf (arrive tDev 0 1 0x14 (tFrame false 16)) 0 = none :=
  ⟨accepted_of (by decide +kernel), by decide +kernel⟩
theorem witness_adopt :
    Accepted tGrouped 1 1 0x14 (tFrame false 16) ∧ groupOf (arrive tGrouped 1 1 0x14 (tFrame false 16)) 0 = some tGroup
    ∧ mayAdopt (arrive tGrouped 1 1 0x14 (tFrame false 16)) 0 tGroup 0 = true ∧ nbrOn tGroup 1 = none := ⟨accepted_of (by decide +kernel), by decide +kernel⟩

def tOrphan : Dev := { tDev with groups := [(0, { tChild with adopting := some 0 })] }

theorem witness_adoptReply :
    Accepted tOrphan 1 1 0x14 (tFrame false 16) ∧ groupOf (arrive tOrphan 1 1 0x14 (tFrame false 16)) 0 = some { tChild with adopting := some 0 }
    ∧ tChild.faulted = none := ⟨accepted_of (by decide +kernel), by decide +kernel⟩
theorem witness_abort :
    Accepted tGrouped 0 1 0x14 (tFrame false 16) ∧ groupOf (arrive tGrouped 0 1 0x14 (tFrame false 16)) 0 = some tGroup ∧ nbrOn tGroup 0 ≠ none :=
  ⟨accepted_of (by decide +kernel), by decide +kernel⟩

/-! ### Handoffs -/

/-- Stream 0 is a decode stream of the same shape, with host-supplied pages. -/
def tReceiver : Dev := { tStreamed 0 0 with streams := [(0, { tStream 0 0 with
    decode := true, layers := [⟨0, 0, false, 0, []⟩], pageList := [0x14_0090_0000, 0x14_0091_0000, 0x14_0092_0000, 0x14_0093_0000] })] }

def refusal : Except Status Dev → Option Status
  | .error st => some st
  | .ok _ => none

theorem witness_handoffBegin_refused :
    Accepted tReceiver 0 1 0x14 (tFrame true 16) ∧ (tFrame true 16).stream = true
    ∧ refusal (handoffRoom (arrive tReceiver 0 1 0x14 (tFrame true 16)) 0 0 16 0 1 2 0) = some 0x0104 := ⟨accepted_of (by decide +kernel), rfl, by decide +kernel⟩
theorem witness_handoffBegin :
    Accepted tReceiver 0 1 0x14 (tFrame true 16) ∧ (tFrame true 16).stream = true
    ∧ refusal (handoffRoom (arrive tReceiver 0 1 0x14 (tFrame true 16)) 0 0 16 0 1 1 0) = none := ⟨accepted_of (by decide +kernel), rfl, by decide +kernel⟩

/-- KV_HANDOFF of stream 0 to stream 5 of member 1, waiting. -/
def tSending (w : Wait) : Dev :=
  { tStreamed 16 16 with running := [{ tRun 16 16 (.kvHandoff tHandoffOps) with wait := w }], nextId := 1 }
def tToFive : LysHdr := { tFrame true 16 with handle := 5 }

theorem witness_handoffReply :
    Accepted (tSending .handoffReply) 0 1 0x14 tToFive ∧ tToFive.stream = true
    ∧ handoffTo (arrive (tSending .handoffReply) 0 1 0x14 tToFive) 0 tToFive .handoffReply
      = some ({ tRun 16 16 (.kvHandoff tHandoffOps) with wait := .handoffReply }, tHandoffOps) ∧ (0x0205 : BitVec 16) ≠ 0
    ∧ streamOf (arrive (tSending .handoffReply) 0 1 0x14 tToFive) 0 = some (tStream 16 16) := ⟨accepted_of (by decide +kernel), by decide +kernel⟩
theorem witness_handoffDone :
    Accepted (tSending .handoffDone) 0 1 0x14 tToFive ∧ tToFive.stream = true
    ∧ handoffTo (arrive (tSending .handoffDone) 0 1 0x14 tToFive) 0 tToFive .handoffDone
      = some ({ tRun 16 16 (.kvHandoff tHandoffOps) with wait := .handoffDone }, tHandoffOps) := ⟨accepted_of (by decide +kernel), by decide +kernel⟩

/-! ### Credits, lanes and ports -/

def tOne : Frame := ⟨0, 0x02, tFrame false 16, zeros 16, []⟩

theorem witness_credit : Accepted tDev 0 3 0x30 (tFrame false 16) := accepted_of (by decide +kernel)
theorem witness_creditSync : Accepted tDev 0 3 0x31 (tFrame false 16) := accepted_of (by decide +kernel)
theorem witness_creditSend : takesFrame tDev 0 0x30 = true := by decide +kernel
theorem witness_creditSyncSend :
    takesFrame (tWindow false) 0 0x31 = true ∧ (tWindow false).tik.tick.toNat % 16 = 0 ∧ (tWindow false).tik.offset = 0 := by decide +kernel
theorem witness_frame_to_down_port : takesFrame tDev 5 0x02 = false := by decide +kernel
theorem witness_frame_leaves :
    takesFrame tDev 0 tOne.type = true ∧ mayDepart tDev 0 tOne = true ∧ ∀ g ∈ (portAt tDev 0).queue, g.vc ≠ tOne.vc := by decide +kernel

def tNoCredit : Dev := withPort tDev 0 fun x => { x with limit := #v[0, 0, 0, 0] }

theorem witness_frame_waits : takesFrame tNoCredit 0 tOne.type = true ∧ mayDepart tNoCredit 0 tOne = false := by decide +kernel
theorem witness_other_port : (1 : Port) ≠ 0 ∧ (1 : Mbx) ≠ 0 := by decide
theorem test_departure_spends_units :
    (portAt (depart tDev 0 tOne) 0).sent[(0 : Fin 4)] = BitVec.ofNat 30 (frameUnits 16) ∧ (portAt (depart tDev 0 tOne) 0).sent[(1 : Fin 4)] = 0 := by
  decide +kernel
theorem witness_laneSwap_request :
    Accepted tDev 0 3 0x32 (tFrame false 8) ∧ (3 : Byte).toNat ≤ 3 ∧ ownStands (arrive tDev 0 3 0x32 (tFrame false 8)) 0 1100 = false :=
  ⟨accepted_of (by decide +kernel), by decide +kernel⟩

def tSwapping : Dev := withPort tDev 0 fun x => { x with swap := some ⟨3, 1000, false, true, true⟩ }

theorem witness_laneSwap_answer :
    Accepted tSwapping 0 3 0x32 (tFrame false 8) ∧ (3 : Byte).toNat ≤ 3
    ∧ (portAt (arrive tSwapping 0 3 0x32 (tFrame false 8)) 0).swap = some ⟨3, 1000, false, true, true⟩ ∧ (3 : Byte).truncate 2 = (3 : BitVec 2) :=
  ⟨accepted_of (by decide +kernel), by decide +kernel⟩

def tAgreed : Dev := withPort tDev 0 fun x => { x with swap := some ⟨3, 1000, true, true, true⟩ }

theorem witness_laneSwapExecute :
    (portAt tAgreed 0).swap = some ⟨3, 1000, true, true, true⟩ ∧ (1000 : BitVec 48).toNat ≤ tAgreed.tik.tick.toNat ∧ spareFree tAgreed (quadOf 0) = true := by
  decide +kernel
theorem witness_laneDegraded :
    portUpNow tDev 0 = true
    ∧ (let d := portEvent (withPort tDev 0 fun x => { x with degraded := some (BitVec.ofNat 2 (3 : Fin 4).val) }) 0 2
      repairKnown d 3 (quadOf 0).val (BitVec.ofNat 32 ((0 : Port).val + (3 : Fin 4).val * 256)) = false ∧ (portAt d 0).swap = none
      ∧ spareFree d (quadOf 0) = true) := by decide +kernel
theorem witness_laneSignalLoss : portAlive (portAt tDev 0) = true ∧ quadCarries tDev 0 = true := by decide +kernel

def tTraining : Dev := withPort tDev 2 fun x => { x with state := 1 }

theorem witness_portUp :
    (portAt tTraining 2).state = 1 ∧ (portAt tTraining 2).ctrl.getLsbD 0 = true ∧ (0 : BitVec 2) = tTraining.quads[quadOf 2].rateActive
    ∧ tTraining.rpr.failed = false ∧ tTraining.pwr.inReset = false := by decide +kernel
theorem witness_quadSettled : (withQuad tDev 0 fun x => { x with settling := true }).quads[(0 : Quad)].settling = true := by decide +kernel

/-! ### The island -/

/-- A commit of stream 0 with label 7, with the crc of its bytes. -/
def tTap (handle : BitVec 16) (kind : BitVec 16) (n spare : Word) : TapEntry :=
  let e : TapEntry := ⟨handle, 1, 7, 1, kind, n, ⟨3, 1000⟩, 0, spare, 0⟩
  { e with crc := crc32c (tapBody e) }
def tIsland : Dev := withMet tDev fun m => { m with powered := true, ready := true, tap := [tTap 0 1 4 0] }

theorem witness_tapEntryTake :
    tIsland.met.tap = tTap 0 1 4 0 :: [] ∧ tIsland.met.ready = true := ⟨rfl, rfl⟩
theorem test_tap_entry_counted :
    rejectCause tIsland.met (tTap 0 1 4 0) = 0
    ∧ rejectCause tIsland.met (tTap 0 1 0 0) = 4
    ∧ rejectCause tIsland.met (tTap 0 1 1048577 0) = 4 ∧ rejectCause tIsland.met (tTap 0 1 4 1) = 2
    ∧ rejectCause tIsland.met (tTap 4096 1 4 0) = 2 ∧ rejectCause tIsland.met { tTap 0 1 4 0 with crc := 0 } = 1 := by decide +kernel
theorem witness_tap_entry_rejected :
    tIsland.met.ready = true ∧ tIsland.met.log.length < 1023 ∧ rejectCause tIsland.met (tTap 0 3 4 0) ≠ 0 := by decide +kernel
theorem witness_intervalEnd :
    (withMet tIsland fun m => { m with time := 6000000000 }).met.ready = true ∧ (withMet tIsland fun m => { m with time := 6000000000 }).met.extended = false
    ∧ (withMet tIsland fun m => { m with time := 6000000000 }).met.start.toNat + intervalSteps (withMet tIsland fun m => { m with time := 6000000000 }).met
      ≤ (withMet tIsland fun m => { m with time := 6000000000 }).met.time.toNat := by decide +kernel
theorem witness_islandBoot : tDev.met.powered = false ∧ tDev.fuses.variant = 1 ∧ tDev.fuses.metCrystal = true := by decide +kernel
theorem witness_islandSupplyLoss : tIsland.met.powered = true := rfl

def tSealed : Dev := withMet tIsland fun m => { m with sealState := 2, portOpen := false }

theorem witness_islandDebugAccess : tSealed.met.sealState = 2 := rfl
theorem witness_sealFuseBlow : tIsland.met.sealState = 1 ∧ tIsland.met.portOpen = true ∧ tIsland.fuses.variant = 1 := ⟨rfl, rfl, rfl⟩
theorem witness_clockAnomaly : tIsland.met.ready = true ∧ 20 < (21 : BitVec 16).toNat := by decide +kernel
theorem witness_seal_kept : ∃ t, exec (.portDown 5) (at0 tSealed) = .next t ∧ (at0 tSealed).dev.met.portOpen = false := ⟨_, rfl, rfl⟩
theorem witness_seal_blown :
    ∃ t, exec .sealFuseBlow (at0 tIsland) = .next t ∧ t.dev.met.sealState ≠ (at0 tIsland).dev.met.sealState := ⟨_, rfl, by decide +kernel⟩

/-! ### Power, clocks and resets -/

theorem witness_brownHoldEntry : (689 : BitVec 12).toNat < vwarnMv tDev ∧ tDev.pwr.inReset = false ∧ tDev.pwr.hold = false := by decide +kernel

def tHeld : Dev := withBus (withPwr tDev fun p => { p with hold := true, requal := true }) fun b => { b with brownLow := true }

theorem witness_requalification : tHeld.bus.brownLow = true ∧ tHeld.pwr.requalDone = false ∧ tHeld.pwr.requal = true := ⟨rfl, rfl, rfl⟩
theorem witness_brownHoldResume :
    (withPwr tHeld fun p => { p with requalDone := true }).pwr.hold = true ∧ (withPwr tHeld fun p => { p with requalDone := true }).pwr.requalDone = true
    ∧ (withPwr tHeld fun p => { p with requalDone := true }).pwr.inReset = false
    ∧ ((withPwr tHeld fun p => { p with requalDone := true }).tik.eraValid = false ∨ (withPwr tHeld fun p => { p with requalDone := true }).tik.offset = 0) := by
  decide +kernel
theorem witness_resets :
    ¬(tDev.pwr.inReset = true ∧ tDev.pwr.kind = 0) ∧ tDev.hif.linkUp = true ∧ tDev.pwr.inReset = false ∧ tDev.bus.thermTripLow = false := by decide +kernel
theorem witness_reset_keeps_hbm : 0x14_0000_0000 < hbmTop ∧ hbmBase ≤ 0x14_0000_0000 ∧ tDev.resStores = [] ∧ 0 < scratchTop := by decide +kernel
theorem witness_startup :
    Dev.reset.pwr.inReset = true ∧ Dev.reset.pwr.heldForPowerCycle = false ∧ Dev.reset.bus.brownLow = false
    ∧ (⟨1, 0, true, true, true, [], [], [], true, true⟩ : BootInputs).refclkAon = true := ⟨rfl, rfl, rfl, rfl⟩
theorem witness_startup_fails :
    (⟨1, 0, false, true, true, [], [], [], true, true⟩ : BootInputs).fusesOk = false ∧ (⟨1, 0, true, false, true, [], [], [], true, true⟩ : BootInputs).maskRomOk = false
    ∧ (⟨1, 0, true, true, false, [], [], [], true, true⟩ : BootInputs).pllsLock = false := ⟨rfl, rfl, rfl⟩
theorem witness_thermalCompare : tDev.pwr.inReset = false ∧ ([(0, 50)] : List (Nat × Nat)) ≠ [] := ⟨rfl, by decide⟩
theorem witness_clockLockLoss :
    tDev.pwr.inReset = false ∧ tDev.pwr.lock.getLsbD (0 : Fin 25).val = true ∧ tDev.pwr.lock.getLsbD (24 : Fin 25).val = true := by decide +kernel

def tUnlocked : Dev := withPwr tDev fun p => { p with lock := 0 }

theorem witness_clockLockRegained :
    tUnlocked.pwr.inReset = false ∧ tUnlocked.pwr.lock.getLsbD (0 : Fin 25).val = false ∧ sdsQuad 0 = none ∧ (0 : Fin 25).val ≠ 24
    ∧ ((List.range 25).any fun i => (sdsQuad i).isSome) = true ∧ tUnlocked.pwr.lock.getLsbD (24 : Fin 25).val = false := by decide +kernel
theorem witness_hostLinkUp : (withHif tDev fun h => { h with linkUp := false }).hif.linkUp = false ∧ tDev.pwr.inReset = false := ⟨rfl, rfl⟩

/-! ### Errors and repair -/

theorem witness_tileFailure : tDev.pwr.inReset = false ∧ ((physAt tDev (0 : Tile).val).state = 0 ∨ (physAt tDev (0 : Tile).val).state = 2) := by decide +kernel

/-- Slice 5 is copied to the spare 64, whose holiday is the tick in force. -/
def tCopied (complete : Bool) : Dev :=
  { withTik tDev (fun x => { x with tick := 1024 }) with rpr := { Rpr.reset with copies := [⟨5, 5, 64, complete⟩] } }

theorem witness_tileCopyDone : (tCopied false).pwr.hold = false ∧ copyOf (tCopied false) (BitVec.ofNat 6 (5 : Fin 64).val) ≠ none := by decide +kernel
theorem witness_tileSwitch :
    copyOf (tCopied true) (BitVec.ofNat 6 (5 : Fin 64).val) = some ⟨5, 5, 64, true⟩ ∧ onHoliday (tCopied true) 64 = true ∧ (tCopied true).pwr.hold = false := by
  decide +kernel

/-- A tick in which units 0 and 16 and so on are on holiday. -/
def tHoliday (tick : BitVec 48) : Dev := withTik tDev fun x => { x with tick := tick }

theorem witness_bankRepair :
    (tHoliday 1024).pwr.inReset = false ∧ (tHoliday 1024).pwr.hold = false ∧ (physAt (tHoliday 1024) (0 : Tile).val).state = 0
    ∧ onHoliday (tHoliday 1024) (0 : Tile).val = true ∧ spareBank (physAt (tHoliday 1024) (0 : Tile).val) = some (0 : Fin 2).val := by decide +kernel
theorem witness_hbmRowRepair :
    (tHoliday 1108).pwr.inReset = false ∧ (tHoliday 1108).pwr.hold = false ∧ onHoliday (tHoliday 1108) (84 + (0 : Stack).val) = true := by decide +kernel
theorem witness_pageRetire :
    (tHoliday 1108).pwr.inReset = false ∧ (tHoliday 1108).pwr.hold = false ∧ onHoliday (tHoliday 1108) (84 + (0 : Stack).val) = true
    ∧ isHbm ((0x10_0001 : Word).toNat * 65536) = true ∧ stackOf ((0x10_0001 : Word).toNat * 65536) = (0 : Stack).val
    ∧ ((tHoliday 1108).hbm[(0 : Stack)].retired.any fun e => e.1 = (0x10_0001 : Word).toNat) = false
    ∧ repairMayRun (tHoliday 1108) 5 (0 : Stack).val (· = (0x10_0001 : Word)) = true ∧ (tHoliday 1108).hbm[(0 : Stack)].retired.length < 4096
    ∧ (takeReplacement (tHoliday 1108) (0 : Stack).val (0x10_0001 : Word).toNat).isSome = true := by decide +kernel
theorem witness_uncorrectableEcc : tDev.pwr.inReset = false := rfl
theorem witness_uncorrectableEcc_island :
    (withPwr tIsland fun p => { p with inReset := true }).met.powered = true ∧ hbmTop ≤ (BitVec.ofNat 48 hbmTop : DevAddr).toNat
    ∧ (BitVec.ofNat 48 hbmTop : DevAddr).toNat < hostBase := by decide +kernel
theorem test_page_in_first_stack : stackOf hbmBase = 0 ∧ stackOf (hbmBase + stackSize) = 1 ∧ isHbm hbmTop = false := by decide +kernel
theorem witness_backgroundTask : (tHoliday 1024).pwr.inReset = false ∧ onHoliday (tHoliday 1024) (0 : Fin 90).val = true := by decide +kernel


/-! ### The header on the wire, and tasks that holidays come too seldom for -/

def tWide : LysHdr :=
  { tFrame true 8192 with era := 0xA5C3, tick := 0x0FED, source := 0xABC, dest := 0x123, attempt := 2, handle := 0x8001, seq := 0xFEDC_BA98
                          offset := 0x12_3456, creditVc := 3, creditLimit := 0x2AAA_AAAA, chunkLength := 0x65_4321, mac := 7 }

theorem test_header_is_32_bytes : (lysHdrBytes 2 0x20 tWide).length = 32 := by decide +kernel
theorem test_header_reads_back : readLysHdr 7 (lysHdrBytes 2 0x20 tWide) = (2, 0x20, tWide) := by decide +kernel
theorem test_header_version_and_members :
    (lysHdrBytes 2 0x20 tWide).take 9 = [0x18, 0x20, 0xA5, 0xC3, 0x0F, 0xED, 0xAB, 0xC1, 0x23] := by decide +kernel
theorem test_task_always_overdue :
    alwaysOverdue tDev 4 = false ∧ alwaysOverdue (withTik tDev fun x => { x with period := 1000, holidayForce := 6 }) 0 = true := by decide +kernel

/-! ### The functions that other standards define: the example of each standard -/

theorem test_sha256_abc : (sha256 [0x61, 0x62, 0x63]).take 4 = [0xBA, 0x78, 0x16, 0xBF] := by decide +kernel
theorem test_crc32c_nine_digits : crc32c [0x31, 0x32, 0x33, 0x34, 0x35, 0x36, 0x37, 0x38, 0x39] = 0xE306_9283 := by decide +kernel
/-- The base point doubled, as it follows from the curve's equations in FIPS 186. -/
theorem test_curve_double :
    (pointAdd (some curveBase) (some curveBase)).map (·.1) = some 0x7CF27B188D034F7E8A52380304B51AC3C08969E277F21B35A60B48FC47669978 := by decide +kernel
theorem test_aes128_fips_197 :
    (aes128 ((List.range 16).map (BitVec.ofNat 8 ·)) ((List.range 16).map fun i => BitVec.ofNat 8 (17 * i))).take 4 = [0x69, 0xC4, 0xE0, 0xD8] := by
  decide +kernel

/-! The peer's hello ends the sending of hellos (R510); an island in FAULT stays in it (Table 11-4). -/
def tGreeted : Dev := withPort tDev 0 fun x => { x with helloSent := true, helloHeard := true }
theorem witness_helloSend_done : linkStands tGreeted 0 = true
    ∧ ((portAt tGreeted 0).helloSent && (portAt tGreeted 0).helloHeard) = true := by decide +kernel
theorem test_hello_not_repeated : exec (.helloSend 0) (at0 tGreeted) = .next (at0 tGreeted) := rfl
def tFaulted : Dev := withMet { tDev with fuses := { tDev.fuses with variant := 1, metCrystal := true } } fun m =>
  { m with powered := false, ready := false, sealState := 4, taken := 9 }
theorem test_fault_stays : ∃ t, exec (.islandBoot true) (at0 tFaulted) = .next t
    ∧ t.dev.met.ready = false ∧ t.dev.met.sealState = 4 ∧ t.dev.met.taken = 0 := ⟨_, rfl, by decide +kernel⟩

end Sys2Proof.Tests
end

section
/-!
SUPPORT. Accesses of BAR0 that are not naturally aligned and 32 bits wide (R14): what each row that can make one
comes to, and the bit of the fault summary that it sets.
-/
namespace Sys2Proof.Machine

/-! ### The fault summary (Table 16-5) -/

theorem bitAt_mod_two_of_ne_zero (b : Bool) {i : Nat} (hi : i ≠ 0) : bitAt b i % 2 = 0 := by
  cases b
  · rfl
  · exact Nat.mod_eq_zero_of_dvd (dvd_pow_self 2 hi)

/-- The access error is bit 0 of GLB_FAULT: the other sources stand at higher bits. -/
theorem faultBits_mod_two (d : Dev) : faultBits d % 2 = bitAt d.glb.accessError 0 := by
  have memory := bitAt_mod_two_of_ne_zero d.glb.memoryFault (i := 5) (by decide)
  have firmware := bitAt_mod_two_of_ne_zero d.glb.firmwareFault (i := 4) (by decide)
  have repair := bitAt_mod_two_of_ne_zero d.rpr.failed (i := 3) (by decide)
  have link := bitAt_mod_two_of_ne_zero d.glb.hostLink (i := 2) (by decide)
  have tick := bitAt_mod_two_of_ne_zero d.glb.tickFault (i := 1) (by decide)
  have access : bitAt d.glb.accessError 0 < 2 := by cases d.glb.accessError <;> decide
  unfold faultBits
  omega

@[simp] theorem accessError_glb_accessError (d : Dev) : (accessError d).glb.accessError = true := rfl

theorem faultBits_accessError_mod_two (d : Dev) : faultBits (accessError d) % 2 = 1 := by
  rw [faultBits_mod_two, accessError_glb_accessError]
  rfl

/-! ### The refused access -/

/-- What a refused read of `n` bytes makes of the device: the access error, and `n` bytes of ones. -/
def refuseRead (d : Dev) (n : Nat) : Dev := putRead (accessError d) (List.replicate n 0xFF) false

section
variable {s : State} {offset : BitVec 26} (hopen : bar0Open s.dev = true)
include hopen

theorem hostRead_misaligned {o : Nat} (ho : o % 4 ≠ 0) : hostRead s o = .next (settled s (refuseRead s.dev 4)) := by
  simp [hostRead, hopen, ho, refuseRead, finish_eq]

theorem execBar0Misaligned_refused {size : Nat} (h : ¬(size = 4 ∧ offset.toNat % 4 = 0)) (write : Bool) :
    execBar0Misaligned write offset size s
      = .next (settled s (if write then accessError s.dev else refuseRead s.dev size)) := by
  have refusedAccess : (!bar0Open s.dev || (size = 4 && offset.toNat % 4 = 0)) = false := by simpa [hopen] using h
  rw [execBar0Misaligned, refusedAccess]
  rfl

theorem execRegisterWrite_misaligned (ho : offset.toNat % 4 ≠ 0) (w : Word) :
    execRegisterWrite offset w s = .next (settled s (accessError s.dev)) := by
  simp [execRegisterWrite, hopen, ho, finish_eq]

end

/-- Settles O59: a refused read or write of each of the four rows, and bit 0 of GLB_FAULT (R14). -/
theorem misalignedAccessRefused : Obligations.MisalignedAccessRefused := by
  intro s hopen
  refine ⟨fun o size h => ⟨?read, ?write⟩, fun o w ho => ⟨?registerWrite, ?latchRead, ?counterRead⟩, ?fault⟩
  case read => exact execBar0Misaligned_refused hopen h false
  case write => exact execBar0Misaligned_refused hopen h true
  case registerWrite => exact execRegisterWrite_misaligned hopen ho w
  case latchRead => exact hostRead_misaligned hopen ho
  case counterRead => exact hostRead_misaligned hopen ho
  case fault => exact faultBits_accessError_mod_two s.dev

end Sys2Proof.Machine
end

section
/-!
SUPPORT. Doorbells outside the ring and stopped mailboxes (R219): what a stop keeps from being fetched, and which
writes of MBX_CTRL end it.
-/
namespace Sys2Proof.Machine

/-! ### A stopped mailbox fetches nothing -/

/-- Every row of the opcode tables is the fetch of one entry. -/
theorem exec_issued (n : Mbx) (h : Hdr) (c : Cmd) (s : State) : exec (issued n h c) s = issue n h c s := by
  cases c <;> rfl

section
variable {d : Dev} {n : Mbx} (hstop : (mailbox d n).stopped = true)
include hstop

theorem mayFetch_of_stopped : mayFetch d n = false := by
  simp [mayFetch, hstop]

theorem fetchOne_of_stopped : fetchOne d n = d := by
  simp [fetchOne, wantsFetch, mayFetch_of_stopped hstop]

theorem canIssue_of_stopped : canIssue d n = false := by
  simp [canIssue, mayFetch_of_stopped hstop]

end

theorem issue_of_not_canIssue {s : State} {n : Mbx} (hc : canIssue s.dev n = false) (h : Hdr) (c : Cmd) :
    issue n h c s = .next s := by
  simp [issue, hc]

/-! ### Writes of MBX_CTRL with enable = 1 -/

@[simp] theorem writeCtrlFields_enable (m : Mailbox) (w : Word) : (writeCtrlFields m w).enable = m.enable := by
  cases on : m.enabled <;> simp [writeCtrlFields, on]

@[simp] theorem writeCtrlFields_enabled (m : Mailbox) (w : Word) : (writeCtrlFields m w).enabled = m.enabled := by
  cases on : m.enabled <;> simp [writeCtrlFields, on]

@[simp] theorem writeCtrlFields_stopped (m : Mailbox) (w : Word) : (writeCtrlFields m w).stopped = m.stopped := by
  cases on : m.enabled <;> simp [writeCtrlFields, on]

section
variable (d : Dev) (n : Mbx) {w : Word} (hw : w.getLsbD 0 = true)
include hw

/-- Enabling a mailbox whose enable bit is 1 already writes the other fields only. -/
theorem writeMbxCtrl_of_enable (he : (mailbox d n).enable = true) :
    writeMbxCtrl d n w = withMbx d n fun m => writeCtrlFields m w := by
  simp [writeMbxCtrl, hw, he]

/-- Enabling a mailbox whose enable bit is 0 starts it afresh, or is refused (R259). -/
theorem mailbox_writeMbxCtrl_of_not_enable (he : (mailbox d n).enable = false) :
    mailbox (writeMbxCtrl d n w) n = enabledMailbox (writeCtrlFields (mailbox d n) w)
    ∨ mailbox (writeMbxCtrl d n w) n = { writeCtrlFields (mailbox d n) w with configError := true } := by
  have off : (mailbox (withMbx d n fun m => writeCtrlFields m w) n).enable = false := by simp [he]
  simp only [writeMbxCtrl, hw, off, if_true, Bool.false_eq_true, if_false]
  split
  case isTrue => exact .inl (by simp only [mailbox_withMbx])
  case isFalse => exact .inr (by simp only [mailbox_withMbx])

theorem stopped_writeMbxCtrl_of_enable (he : (mailbox d n).enable = true) :
    (mailbox (writeMbxCtrl d n w) n).stopped = (mailbox d n).stopped := by
  rw [writeMbxCtrl_of_enable d n hw he, mailbox_withMbx, writeCtrlFields_stopped]

/-- A mailbox that a write of MBX_CTRL takes from disabled to enabled is not stopped. -/
theorem not_stopped_writeMbxCtrl_of_enabled (he : (mailbox d n).enable = false) (hwas : (mailbox d n).enabled = false)
    (hnow : (mailbox (writeMbxCtrl d n w) n).enabled = true) : (mailbox (writeMbxCtrl d n w) n).stopped = false := by
  obtain afresh | refused := mailbox_writeMbxCtrl_of_not_enable d n hw he
  · rw [afresh]
    rfl
  · rw [refused] at hnow
    simp [hwas] at hnow

end

/-! ### A doorbell outside the ring -/

section
variable {s : State} {n : Mbx} {v : Word} (hheard : doorbellHeard s.dev n = true)
  (hout : (mailbox s.dev n).ringDepth ≤ v.toNat)
include hheard hout

theorem execCompletionHeadDoorbell_outside :
    execCompletionHeadDoorbell n v s = .next (settled s (doorbellError s.dev n)) := by
  simp [execCompletionHeadDoorbell, hheard, hout, finish_eq]

theorem execSubmissionTailDoorbell_outside (he : (mailbox s.dev n).enable = true) :
    execSubmissionTailDoorbell n v [] s = .next (settled s (doorbellError s.dev n)) := by
  simp [execSubmissionTailDoorbell, hheard, hout, he, finish_eq]

end

/-- Settles O55: a doorbell outside the ring stops the mailbox, a stopped mailbox fetches nothing, and only an enable
that takes the mailbox from disabled to enabled ends the stop (R219). -/
theorem badDoorbellStopsMailbox : Obligations.BadDoorbellStopsMailbox := by
  refine ⟨fun s n v hlink hon hout => ?doorbell, fun s n hstop => ⟨?fetch, fun h c => ?issue⟩,
    fun d n v hstop => ⟨fun he => ?keepsStop, fun he hnow hwas => ?clearsStop⟩⟩
  case doorbell =>
    have hheard : doorbellHeard s.dev n = true := by simp [doorbellHeard, hlink, hon]
    exact ⟨execCompletionHeadDoorbell_outside hheard hout, execSubmissionTailDoorbell_outside hheard hout⟩
  case fetch => exact fetchOne_of_stopped hstop
  case issue => rw [exec_issued, issue_of_not_canIssue (canIssue_of_stopped hstop)]
  case keepsStop => rw [stopped_writeMbxCtrl_of_enable d n (by simp) he, hstop]
  case clearsStop => exact not_stopped_writeMbxCtrl_of_enabled d n (by simp) he hwas hnow

end Sys2Proof.Machine
end

section
/-!
SUPPORT. The island's record store towards the host (R486): what a read of MET_COLLECT returns and releases.
-/
namespace Sys2Proof.Machine

/-! ### When the oldest record has been read -/

theorem oldestRead_of_empty {d : Dev} (hnone : d.met.records = []) : oldestRead d = false := by
  simp [oldestRead, hnone]

theorem oldestRead_cons_iff {d : Dev} {r : MetRecord} {rest : List MetRecord} (hready : d.met.ready = true)
    (hr : d.met.records = r :: rest) : oldestRead d = true ↔ ∀ i, i < r.bytes.length → i ∈ d.met.readBytes := by
  simp [oldestRead, hr, metReady, hready]

/-! ### The value and the effect of the read -/

theorem regValue_metCollect {d : Dev} (hready : d.met.ready = true) :
    regValue d .metCollect = match d.met.records with
      | r :: _ => if oldestRead d then r.interval.toNat else 0
      | [] => 0 := by
  show (if !metReady d then 0 else _) = _
  rw [metReady, hready]
  rfl

theorem regValue_metCollect_of_read {d : Dev} {r : MetRecord} {rest : List MetRecord} (hready : d.met.ready = true)
    (hr : d.met.records = r :: rest) (hread : oldestRead d = true) : regValue d .metCollect = r.interval.toNat := by
  simp [regValue_metCollect hready, hr, hread]

theorem regValue_metCollect_of_not_read {d : Dev} (hready : d.met.ready = true) (hread : oldestRead d = false) :
    regValue d .metCollect = 0 := by
  rw [regValue_metCollect hready, hread]
  cases d.met.records <;> rfl

theorem collect_cons {d : Dev} {r : MetRecord} {rest : List MetRecord} (hr : d.met.records = r :: rest) :
    collect d = endExtension { d with met := { d.met with records := rest, readBytes := [] } } := by
  rw [collect, withMet, hr, List.drop_one, List.tail_cons]

theorem readEffect_metCollect (d : Dev) : readEffect d .metCollect = if oldestRead d then collect d else d := rfl

@[simp] theorem oldestRead_putRead (d : Dev) (bs : List Byte) (poison : Bool) :
    oldestRead (putRead d bs poison) = oldestRead d := rfl

theorem regOfOffset_metCollect : regOfOffset (Reg.offset .metCollect) = some .metCollect := by decide +kernel

/-- The bus carries the value from before the release. -/
theorem exec_metCollectRead {s : State} (hopen : bar0Open s.dev = true)
    (hlatch : assoc (Reg.offset .metCollect) s.dev.latches = none) :
    exec .metCollectRead s = .next (settled s (readEffect
      (putRead s.dev (leBytes 4 (BitVec.ofNat 32 (regValue s.dev .metCollect)).toNat) false) .metCollect)) := by
  have value : readReg s.dev .metCollect = BitVec.ofNat 32 (regValue s.dev .metCollect) := by rw [readReg, hlatch]
  have aligned : Reg.offset .metCollect % 4 = 0 := rfl
  show hostRead s (Reg.offset .metCollect) = _
  simp [hostRead, hopen, aligned, readWord, regOfOffset_metCollect, value, finish_eq]

section
variable {s : State} (hopen : bar0Open s.dev = true) (hready : s.dev.met.ready = true)
  (hlatch : assoc (Reg.offset .metCollect) s.dev.latches = none)
include hopen hready hlatch

theorem exec_metCollectRead_of_read {r : MetRecord} {rest : List MetRecord} (hr : s.dev.met.records = r :: rest)
    (hread : oldestRead s.dev = true) :
    exec .metCollectRead s = .next (settled s (collect (putRead s.dev (leBytes 4 r.interval.toNat) false))) := by
  simp [exec_metCollectRead hopen hlatch, regValue_metCollect_of_read hready hr hread, readEffect_metCollect, hread]

theorem exec_metCollectRead_of_not_read (hread : oldestRead s.dev = false) :
    exec .metCollectRead s = .next (settled s (putRead s.dev (leBytes 4 0) false)) := by
  simp [exec_metCollectRead hopen hlatch, regValue_metCollect_of_not_read hready hread, readEffect_metCollect, hread]

end

/-- Settles O58: the three cases of a read of MET_COLLECT (R486). -/
theorem oldestRecordCollected : Obligations.OldestRecordCollected := by
  intro s hopen hready hlatch
  refine ⟨fun r rest hr hread => ?released, fun r rest hr hunread => ?unread, fun hnone => ?noRecord⟩
  case released =>
    rw [exec_metCollectRead_of_read hopen hready hlatch hr ((oldestRead_cons_iff hready hr).mpr hread),
      collect_cons (d := putRead s.dev _ false) hr]
    rfl
  case unread =>
    obtain ⟨i, hi, hmissing⟩ := hunread
    have waits : oldestRead s.dev = false := by
      rw [← Bool.not_eq_true, oldestRead_cons_iff hready hr]
      exact fun h => hmissing (h i hi)
    exact exec_metCollectRead_of_not_read hopen hready hlatch waits
  case noRecord => exact exec_metCollectRead_of_not_read hopen hready hlatch (oldestRead_of_empty hnone)

end Sys2Proof.Machine
end

section
/-!
SUPPORT. The island's side of the tap (R478): which entries it rejects, and what a rejection leaves.
-/
namespace Sys2Proof.Machine

/-! ### The causes of a rejection -/

theorem ite_ne_zero_iff {c : Prop} [Decidable c] {k n : Nat} (hk : k ≠ 0) : (if c then k else n) ≠ 0 ↔ c ∨ n ≠ 0 := by
  by_cases h : c <;> simp [h, hk]

/-- The test of `n`, which runs where the kind is defined (Table 11-1). -/
theorem nOutOfRange_iff {e : TapEntry} (hkind : e.kind = 1 ∨ e.kind = 2) :
    (if e.kind = 1 then decide (e.n.toNat = 0) || decide (1048576 < e.n.toNat) else decide (65536 ≤ e.n.toNat)) = true
      ↔ (e.kind = 1 ∧ (e.n = 0 ∨ 1048576 < e.n.toNat)) ∨ (e.kind = 2 ∧ 65536 ≤ e.n.toNat) := by
  have zero : e.n.toNat = 0 ↔ e.n = 0 := by simp [← BitVec.toNat_inj]
  obtain h | h := hkind <;> simp [h, zero]

theorem rejectCause_ne_zero_iff (m : Met) (e : TapEntry) : rejectCause m e ≠ 0 ↔
    (e.crc ≠ crc32c (tapBody e) ∨ 4096 ≤ e.handle.toNat ∨ 1 < e.role.toNat ∨ e.spare ≠ 0 ∨ (e.kind ≠ 1 ∧ e.kind ≠ 2)
      ∨ (e.kind = 1 ∧ (e.n = 0 ∨ 1048576 < e.n.toNat)) ∨ (e.kind = 2 ∧ 65536 ≤ e.n.toNat)
      ∨ (∃ q, m.lastSeq = some q ∧ e.sequence ≠ q + 1)) := by
  unfold rejectCause
  rw [ite_ne_zero_iff (by decide), ite_ne_zero_iff (by decide), ite_ne_zero_iff (by decide), ite_ne_zero_iff (by decide)]
  by_cases hkind : e.kind = 1 ∨ e.kind = 2
  · rw [nOutOfRange_iff hkind]
    cases m.lastSeq <;> simp [or_assoc]
  · have undefined : e.kind ≠ 1 ∧ e.kind ≠ 2 := not_or.mp hkind
    exact iff_of_true (.inr (.inr (.inl (by simpa using undefined)))) (.inr (.inr (.inr (.inr (.inl undefined)))))

/-! ### What a rejection leaves (R478, R483) -/

/-- An interval that the new log entry does not fill goes on (R483). -/
theorem metLog_eq {d : Dev} (hready : d.met.ready = true) (hroom : d.met.log.length < 1023) (kind : Byte) (detail : Nat) :
    metLog d kind detail = withMet d fun m => addLog m kind detail := by
  have notFull : ¬ 1024 ≤ (addLog d.met kind detail).log.length := by simp [addLog]; omega
  simp [metLog, hready, withMet, closeFull, notFull]

/-- The interval takes note of an entry of the tap, whether it is then rejected or not. -/
def noteTap (m : Met) (e : TapEntry) : Met :=
  { m with
    tap := m.tap.drop 1
    taken := m.taken + 1
    seqFirst := if m.events = 0 then e.sequence else m.seqFirst
    firstEvent := if m.events = 0 then e.stamp else m.firstEvent
    lastEvent := e.stamp
    events := m.events + 1 }

theorem rejectCause_noteTap (m : Met) (e x : TapEntry) : rejectCause (noteTap m x) e = rejectCause m e := rfl

/-- The rejected entry's mark on the record, before the log entry. -/
def noteRejected (d : Dev) (e : TapEntry) : Dev :=
  withMet d fun m => { noteTap m e with lastSeq := some e.sequence, rejected := true }

theorem takeTap_of_rejected {d : Dev} {e : TapEntry} (hrejected : rejectCause d.met e ≠ 0) :
    takeTap d e = metLog (noteRejected d e) 0x06 (rejectCause d.met e + e.sequence.toNat * 2 ^ 16) := by
  have rejected : (rejectCause d.met e != 0) = true := by simpa using hrejected
  show (if rejectCause (noteTap d.met e) e != 0 then _ else _) = _
  rw [rejectCause_noteTap, if_pos rejected]
  rfl

/-- Settles O60: the causes of R478, and the rejection of an entry in an interval with room in its log. -/
theorem tapEntriesRejected : Obligations.TapEntriesRejected := by
  refine ⟨rejectCause_ne_zero_iff, fun d e hready hroom hrejected => ?_⟩
  rw [takeTap_of_rejected hrejected, metLog_eq (d := noteRejected d e) hready hroom]
  exact ⟨rfl, rfl, rfl, rfl, rfl⟩

end Sys2Proof.Machine
end

section
/-!
SUPPORT. Frame of the Reckoner island's state: the rules for it, and what memory, the registers and the links leave.
-/
namespace Sys2Proof.Machine

/-! ### General rules -/

@[simp] theorem ite_met {c : Prop} [Decidable c] (d e : Dev) : (if c then d else e).met = if c then d.met else e.met :=
  apply_ite Dev.met c d e

@[simp] theorem foldl_met {α : Type} {f : Dev → α → Dev} (h : ∀ d x, (f d x).met = d.met) (l : List α) (d : Dev) :
    (l.foldl f d).met = d.met := by
  induction l generalizing d with
  | nil => rfl
  | cons x t ih => rw [List.foldl_cons, ih, h]

@[simp] theorem foldl_fst_met {α β : Type} {f : Dev × β → α → Dev × β} (h : ∀ a x, (f a x).1.met = a.1.met) (l : List α)
    (a : Dev × β) : (l.foldl f a).1.met = a.1.met := by
  induction l generalizing a with
  | nil => rfl
  | cons x t ih => rw [List.foldl_cons, ih, h]

/-- What a command's start leaves of the island's state. -/
def Begin.KeepsMet (d : Dev) : Begin → Prop
  | .fail _ => True
  | .done e _ => e.met = d.met
  | .ended e _ _ => e.met = d.met
  | .go e _ => e.met = d.met

section
variable (d e : Dev)
@[simp] theorem Begin.keepsMet_fail (st : Status) : (Begin.fail st).KeepsMet d := trivial
@[simp] theorem Begin.keepsMet_done (res : BitVec 96) : (Begin.done e res).KeepsMet d ↔ e.met = d.met := Iff.rfl
@[simp] theorem Begin.keepsMet_ended (st : Status) (res : BitVec 96) : (Begin.ended e st res).KeepsMet d ↔ e.met = d.met := Iff.rfl
@[simp] theorem Begin.keepsMet_go (r : Running) : (Begin.go e r).KeepsMet d ↔ e.met = d.met := Iff.rfl
@[simp] theorem Begin.keepsMet_ite {c : Prop} [Decidable c] (a b : Begin) :
    (if c then a else b).KeepsMet d ↔ if c then a.KeepsMet d else b.KeepsMet d := by
  split <;> rfl
end

variable (d : Dev)

/-! ### Memory, draws, trace records and completions -/

@[simp] theorem poisonLine_met (a) : (poisonLine d a).met = d.met := by simp [poisonLine]

@[simp] theorem hostLine_met (a bad) : (hostLine d a bad).met = d.met := rfl

@[simp] theorem unpoison_met (a n) : (unpoison d a n).met = d.met := rfl

@[simp] theorem storeBytes_met (a : Nat) (bs : List Byte) : (storeBytes d a bs).met = d.met := by
  induction bs generalizing d a with
  | nil => rfl
  | cons b bs ih => rw [storeBytes, ih]

@[simp] theorem draw_met : (draw d).2.met = d.met := rfl

@[simp] theorem drawN_met (n) : (drawN d n).2.met = d.met := rfl

@[simp] theorem choose_met {α : Type} (d : Dev) (l : List α) : (choose d l).2.met = d.met := rfl

@[simp] theorem bump_met (set scope idx n) : (bump d set scope idx n).met = d.met := by simp [bump]

@[simp] theorem store_met (a bs) : (store d a bs).met = d.met := by simp [store]

@[simp] theorem trace_met (kind unit label layer operator detail body) :
    (trace d kind unit label layer operator detail body).met = d.met := by
  simp [trace]

@[simp] theorem traceDevice_met (kind unit detail) : (traceDevice d kind unit detail).met = d.met := by simp [traceDevice]

@[simp] theorem sendMsi_met (v) : (sendMsi d v).met = d.met := by simp [sendMsi]

@[simp] theorem ringStore_met (dev a bs) : (ringStore d dev a bs).met = d.met := by simp [ringStore]

@[simp] theorem writeCompletion_met (n c) : (writeCompletion d n c).met = d.met := by simp [writeCompletion]

@[simp] theorem settle_met (n) : (settle d n).met = d.met := by simp [settle]

@[simp] theorem post_met (n c) : (post d n c).met = d.met := by simp [post]

@[simp] theorem drainReady_met (n : Mbx) (fuel : Nat) : (drainReady d n fuel).met = d.met := by
  induction fuel generalizing d with
  | zero => exact settle_met d n
  | succ fuel ih => unfold drainReady; split <;> simp [ih]

@[simp] theorem postEvent_met (n c) : (postEvent d n c).met = d.met := by simp [postEvent]

@[simp] theorem eventTo_met (n status l) : (eventTo d n status l).met = d.met := by simp [eventTo]

@[simp] theorem endCommand_met (n label h c status res) : (endCommand d n label h c status res).met = d.met := by
  simp [endCommand]

@[simp] theorem finishRunning_met (r status res) : (finishRunning d r status res).met = d.met := by simp [finishRunning]

@[simp] theorem updRunning_met (id f) : (updRunning d id f).met = d.met := rfl

@[simp] theorem raiseInts_met (old d : Dev) : (raiseInts old d).met = d.met := foldl_met (fun d _ => sendMsi_met d _) _ _

/-! ### Reads and plain writes of the registers -/

@[simp] theorem clearRc_met (r) : (clearRc d r).met = d.met := by
  unfold clearRc
  split <;> simp

@[simp] theorem latchHalf_met (r) : (latchHalf d r).met = d.met := by
  unfold latchHalf
  split <;> simp

@[simp] theorem putRead_met (bs poison) : (putRead d bs poison).met = d.met := rfl

@[simp] theorem writeLys_met (p r w) : (writeLys d p r w).met = d.met := by
  unfold writeLys
  split <;> simp

@[simp] theorem writeTile_met (p r w) : (writeTile d p r w).met = d.met := by
  unfold writeTile
  split <;> simp

@[simp] theorem writeTikCtrl_met (w) : (writeTikCtrl d w).met = d.met := rfl

@[simp] theorem writePlanBaseHi_met (w) : (writePlanBaseHi d w).met = d.met := by
  unfold writePlanBaseHi
  extract_lets v
  split
  · rw [withTik_met]
  · rfl

@[simp] theorem writeMbxBase_met (n r w) : (writeMbxBase d n r w).met = d.met := by
  unfold writeMbxBase
  repeat' split
  all_goals simp

@[simp] theorem writeMbxStatus_met (n w) : (writeMbxStatus d n w).met = d.met := rfl

@[simp] theorem ackInts_met (mask) : (ackInts d mask).met = d.met := by simp [ackInts]

@[simp] theorem writeMsix_met (i w) : (writeMsix d i w).met = d.met := by simp [writeMsix]

@[simp] theorem writePlain_met (r w) : (writePlain d r w).met = d.met := by
  cases r
  case tikPlanBaseHi => exact writePlanBaseHi_met d w
  case mbx n r =>
    cases r
    case status => exact writeMbxStatus_met d n w
    all_goals exact writeMbxBase_met d n _ w
  case msixTable i => exact writeMsix_met d i w
  case lys p r => exact writeLys_met d p r w
  case tile p r => exact writeTile_met d p r w
  all_goals rfl

/-! ### Tensors in memory -/

@[simp] theorem pokes_met (as : List Nat) (bs : List Byte) : (pokes d as bs).met = d.met := by
  induction as generalizing d bs with
  | nil => rfl
  | cons a as ih => cases bs <;> simp [pokes, ih]

@[simp] theorem writeElem_met (k j raw) : (writeElem d k j raw).met = d.met := by
  unfold writeElem
  dsimp only
  repeat' split
  all_goals simp

@[simp] theorem writeElems_met (k : Desc) (j : Nat) (vs : List Nat) : (writeElems d k j vs).met = d.met := by
  induction vs generalizing d j with
  | nil => rfl
  | cons v t ih => rw [writeElems, ih, writeElem_met]

@[simp] theorem clearPad_met (k g) : (clearPad k d g).met = d.met := by simp [clearPad]

@[simp] theorem coverLines_met (as) : (coverLines d as).met = d.met := rfl

@[simp] theorem padElems_met (k js as) : (padElems d k js as).met = d.met := by simp [padElems]

@[simp] theorem padRun_met (k first n) : (padRun d k first n).met = d.met := by simp [padRun]

@[simp] theorem writeImageByte_met (k i x) : (writeImageByte d k i x).met = d.met := by
  unfold writeImageByte
  dsimp only
  repeat' split
  all_goals simp

@[simp] theorem writeImage_met (k : Desc) (i : Nat) (bs : List Byte) : (writeImage d k i bs).met = d.met := by
  induction bs generalizing d i with
  | nil => rfl
  | cons b t ih => rw [writeImage, ih, writeImageByte_met]

@[simp] theorem putImage_met (k i bs) : (putImage d k i bs).met = d.met := by simp [putImage]

@[simp] theorem noteOob_met (h filled dropped) : (noteOob d h filled dropped).met = d.met := by
  unfold noteOob
  dsimp only
  repeat' split
  all_goals simp

/-! ### Frames that leave and arrive -/

@[simp] theorem bumpPort_met (p i n) : (bumpPort d p i n).met = d.met := rfl

@[simp] theorem portEvent_met (p b) : (portEvent d p b).met = d.met := rfl

@[simp] theorem depart_met (p f) : (depart d p f).met = d.met := by
  unfold depart
  dsimp only
  repeat' split
  all_goals simp

@[simp] theorem flushChannel_met (p : Port) (v : BitVec 2) (blocked : Bool) (d : Dev) (fs : List Frame) :
    (flushChannel p v blocked d fs).1.met = d.met := by
  induction fs generalizing blocked d with
  | nil => rfl
  | cons f t ih => unfold flushChannel; split <;> simp [ih]

@[simp] theorem flushPort_met (p) : (flushPort d p).met = d.met := by
  unfold flushPort
  exact foldl_met (by simp) _ _

@[simp] theorem sendFrame_met (p f) : (sendFrame d p f).met = d.met := by simp [sendFrame]

@[simp] theorem sendCtl_met (p vc type body) : (sendCtl d p vc type body).met = d.met := by simp [sendCtl]

@[simp] theorem sendVc1_met (p type stream handle seq attempt body) :
    (sendVc1 d p type stream handle seq attempt body).met = d.met := by
  simp [sendVc1]

@[simp] theorem sendRequest_met (p stream handle code ops) : (sendRequest d p stream handle code ops).met = d.met := by
  simp [sendRequest]

@[simp] theorem seeEra_met (e) : (seeEra d e).met = d.met := rfl

@[simp] theorem dropFrame_met (p) : (dropFrame d p).met = d.met := rfl

@[simp] theorem arrive_met (p vc type h) : (arrive d p vc type h).met = d.met := by simp [arrive]

@[simp] theorem receive_met (p vc type h) : (receive d p vc type h).2.met = d.met := by
  unfold receive
  dsimp only
  repeat' split
  all_goals simp

@[simp] theorem withSent_met (p c f) : (withSent d p c f).met = d.met := rfl

@[simp] theorem launchSegments_met (p c) : (launchSegments d p c).met = d.met := by simp [launchSegments]

end Sys2Proof.Machine
end

section
/-!
SUPPORT. Frame of the Reckoner island's state: tensors, work, memory and streams.
-/
namespace Sys2Proof.Machine

variable (d : Dev)

/-! ### Descriptors and owner tables -/

theorem startCreateDesc_keepsMet (c address) : (startCreateDesc d c address).KeepsMet d := by
  unfold startCreateDesc
  split
  · trivial
  extract_lets bs
  split
  · trivial
  split
  extract_lets k
  split
  · trivial
  clear_value *
  repeat' split
  all_goals trivial

@[simp] theorem dropDesc_met (h) : (dropDesc d h).met = d.met := rfl

theorem startDestroyDesc_keepsMet (c h) : (startDestroyDesc d c h).KeepsMet d := by simp [startDestroyDesc]

theorem startLoadOwners_keepsMet (c table source) : (startLoadOwners d c table source).KeepsMet d := by
  unfold startLoadOwners
  dsimp only
  repeat' split
  all_goals simp

/-! ### The forming of chunks -/

@[simp] theorem writeRes_met (k j vs) : (writeRes d k j vs).met = d.met := by simp [writeRes]

@[simp] theorem keepStore_met (k) : (keepStore d k).met = d.met := rfl

@[simp] theorem scrubRes_met (k first count) : (scrubRes d k first count).met = d.met := by simp [scrubRes]

@[simp] theorem writeResult_met (k j e vs) : (writeResult d k j e vs).1.met = d.met := by
  unfold writeResult
  split
  · refine foldl_fst_met (fun a g => ?_) _ _
    dsimp only
    split <;> simp
  · simp

@[simp] theorem noteReads_met (h first n) (acc : Dev × Nat) : (noteReads h first n acc).1.met = acc.1.met := by
  unfold noteReads
  split <;> simp

@[simp] theorem noteWrites_met (h first n) (acc : Dev × Nat) : (noteWrites h first n acc).1.met = acc.1.met := by
  unfold noteWrites
  split <;> simp

@[simp] theorem recordReads_met (c root s r picked) : (recordReads d c root s r picked).1.met = d.met := by
  unfold recordReads
  dsimp only
  repeat' split
  all_goals simp

@[simp] theorem putResiduals_met (c first vs) : (putResiduals d c first vs).met = d.met := by
  unfold putResiduals
  split <;> simp

/-- What the forming of a chunk leaves of the island's state, whether it fails or not. -/
def ChunkKeepsMet (d : Dev) : Except ChunkFault Formed → Prop
  | .error x => x.dev.met = d.met
  | .ok f => f.dev.met = d.met

@[simp] theorem chunkKeepsMet_error (x : ChunkFault) : ChunkKeepsMet d (.error x) ↔ x.dev.met = d.met := Iff.rfl
@[simp] theorem chunkKeepsMet_ok (f : Formed) : ChunkKeepsMet d (.ok f) ↔ f.dev.met = d.met := Iff.rfl

theorem formPiece_keepsMet {start : Dev} {f : Formed} (hf : f.dev.met = start.met) (c hop factor r) :
    ChunkKeepsMet start (formPiece c hop factor start f r) := by
  unfold formPiece
  dsimp only
  repeat' split
  all_goals simp [hf]

theorem formPieces_keepsMet {start : Dev} {f : Formed} (hf : f.dev.met = start.met) (c hop factor recs) :
    ChunkKeepsMet start (formPieces c hop factor start f recs) := by
  induction recs generalizing f with
  | nil => exact hf
  | cons r t ih =>
    have piece := formPiece_keepsMet hf c hop factor r
    unfold formPieces
    split
    next e he => rwa [he] at piece
    next g hg =>
      rw [hg] at piece
      exact ih piece

theorem formChunk_keepsMet (c hop recs) : ChunkKeepsMet d (formChunk d c hop recs) := by
  have pieces := formPieces_keepsMet (start := d) (f := Formed.start d c) rfl c hop (factorOf d c) recs
  unfold formChunk
  split
  next e he => rwa [he] at pieces
  next f hf =>
    rw [hf] at pieces
    split
    · exact pieces
    · rw [chunkKeepsMet_ok] at pieces ⊢
      dsimp only
      rw [noteReads_met, pieces]

/-! ### Work in progress and groups -/

@[simp] theorem putWork_met (w) : (putWork d w).met = d.met := rfl

@[simp] theorem dropWorks_met (p) : (dropWorks d p).met = d.met := rfl

@[simp] theorem stampNew_met (e rung) : (stampNew d e rung).met = e.met := by
  unfold stampNew
  split <;> rfl

@[simp] theorem setSlot_met (h seq st) : (setSlot d h seq st).met = d.met := rfl

@[simp] theorem sendGrants_met (h) : (sendGrants d h).met = d.met := by
  unfold sendGrants
  split <;> simp

@[simp] theorem grantAll_met : (grantAll d).met = d.met := by simp [grantAll]

@[simp] theorem setTikEvent_met (b) : (setTikEvent d b).met = d.met := rfl

@[simp] theorem resumeGroup_met (h) : (resumeGroup d h).met = d.met := by
  unfold resumeGroup
  split <;> simp

@[simp] theorem toStage_met (w st) : (toStage d w st).met = d.met := by simp [toStage]

@[simp] theorem failBucket_met (b st) : (failBucket b st d).met = d.met := rfl

@[simp] theorem abandonWorks_met (owner) : (abandonWorks d owner).met = d.met := rfl

@[simp] theorem failOwner_met (owner st) : (failOwner d owner st).met = d.met := by
  unfold failOwner
  repeat' split
  all_goals simp

@[simp] theorem dropBucket_met (b) : (dropBucket d b).met = d.met := rfl

@[simp] theorem endGroupCmd_met (st r) : (endGroupCmd st d r).met = d.met := by
  unfold endGroupCmd
  dsimp only
  repeat' split
  all_goals simp

@[simp] theorem forgetOnPorts_met (stream h) : (forgetOnPorts d stream h).met = d.met := by simp [forgetOnPorts]

@[simp] theorem endGroup_met (h g st) : (endGroup d h g st).met = d.met := by simp [endGroup]

@[simp] theorem sendAborts_met (h g status origin) : (sendAborts d h g status origin).met = d.met := by simp [sendAborts]

@[simp] theorem faultGroup_met (h status origin) : (faultGroup d h status origin).met = d.met := by
  unfold faultGroup
  split <;> simp

@[simp] theorem endGroupOfEra_met (h) : (endGroupOfEra d h).met = d.met := by
  unfold endGroupOfEra
  split <;> simp

@[simp] theorem onTile_met (resource f) : (onTile d resource f).met = d.met := by
  unfold onTile
  split <;> simp

@[simp] theorem noteRange_met (passes) : (noteRange d passes).met = d.met := by
  have chosen := choose_met d (activeTiles d)
  unfold noteRange
  split
  all_goals
    next heq =>
      rw [heq] at chosen
      simpa using chosen

@[simp] theorem noteFormed_met (resource engine recs f) : (noteFormed d resource engine recs f).met = d.met := by
  simp [noteFormed]

@[simp] theorem noteEncoded_met (resource bs) : (noteEncoded d resource bs).met = d.met := by simp [noteEncoded]

@[simp] theorem noteDecoded_met (resource n) : (noteDecoded d resource n).met = d.met := by simp [noteDecoded]

@[simp] theorem noteFormat_met (resource) : (noteFormat d resource).met = d.met := by simp [noteFormat]

/-! ### The compression commands -/

@[simp] theorem zeroStore_met (k) : (zeroStore d k).met = d.met := by simp [zeroStore]

@[simp] theorem freshStore_met (h) : (freshStore d h).met = d.met := by
  unfold freshStore
  split <;> simp

@[simp] theorem touchStore_met (modes h) : (touchStore d modes h).met = d.met := by simp [touchStore]

@[simp] theorem standaloneWorks_met (n owner jobs) : (standaloneWorks d n owner jobs).met = d.met := rfl

theorem startCompress_keepsMet (c cmd comp o) : (startCompress d c cmd comp o).KeepsMet d := by
  unfold startCompress
  dsimp only
  repeat' split
  all_goals simp

theorem startResidualFlush_keepsMet (c b fromBucket source destination) :
    (startResidualFlush d c b fromBucket source destination).KeepsMet d := by
  unfold startResidualFlush
  dsimp only
  repeat' split
  all_goals simp

theorem startMaskGen_keepsMet (c output threshold step random) :
    (startMaskGen d c output threshold step random).KeepsMet d := by
  unfold startMaskGen
  dsimp only
  repeat' split
  all_goals simp

@[simp] theorem addOob_met (owner filled dropped) : (addOob d owner filled dropped).met = d.met := rfl

@[simp] theorem runMask_met (r output threshold step random first count) :
    (runMask d r output threshold step random first count).met = d.met := by
  unfold runMask
  dsimp only
  repeat' split
  all_goals simp

@[simp] theorem runFlush_met (r source destination) : (runFlush d r source destination).met = d.met := by
  unfold runFlush
  split <;> simp

@[simp] theorem writeParcel_met (h bs) : (writeParcel d h bs).1.met = d.met := by
  unfold writeParcel
  split <;> simp

/-! ### Runs of memory -/

@[simp] theorem takeRun_met (hbm n align) : (takeRun d hbm n align).2.met = d.met := by
  unfold takeRun
  dsimp only
  split <;> rfl

theorem holdRun_met {d : Dev} {tag n align : Nat} {hbm : Bool} {x : Nat × Dev} (h : holdRun d tag hbm n align = some x) :
    x.2.met = d.met := by
  have run := takeRun_met d hbm n align
  unfold holdRun at h
  split at h
  next a e heq =>
    rw [heq] at run
    cases h
    exact run
  next => cases h

@[simp] theorem releaseRun_met (tag) : (releaseRun d tag).met = d.met := rfl

theorem holdRuns_met {d e : Dev} {hbm : Bool} {n align : Nat} {tags : List Nat} (h : holdRuns hbm n align d tags = some e) :
    e.met = d.met := by
  induction tags generalizing d with
  | nil => cases h; rfl
  | cons t ts ih =>
    unfold holdRuns at h
    split at h
    next held => rw [ih h, holdRun_met held]
    next => cases h

@[simp] theorem releaseRuns_met (tags) : (releaseRuns d tags).met = d.met := rfl

/-! ### Groups, collectives and buckets -/

theorem startLoadTree_keepsMet (c source count) : (startLoadTree d c source count).KeepsMet d := by
  unfold startLoadTree
  dsimp only
  repeat' split
  all_goals simp

@[simp] theorem forgetGrants_met (h) : (forgetGrants d h).met = d.met := by simp [forgetGrants]

theorem startOpenGroup_keepsMet (c members slots sizeCode) : (startOpenGroup d c members slots sizeCode).KeepsMet d := by
  unfold startOpenGroup
  dsimp only
  repeat' split
  all_goals simp
  all_goals
    next held _ => exact holdRun_met held

@[simp] theorem closeGroup_met (h) : (closeGroup d h).met = d.met := rfl

theorem startCloseGroup_keepsMet (c) : (startCloseGroup d c).KeepsMet d := by simp [startCloseGroup]

@[simp] theorem groupWorks_met (h owner jobs) : (groupWorks d h owner jobs).met = d.met := by
  unfold groupWorks
  split <;> simp

theorem startReduce_keepsMet (c o) : (startReduce d c o).KeepsMet d := by
  unfold startReduce
  dsimp only
  repeat' split
  all_goals simp

@[simp] theorem bcastWrite_met (dst offset bs) : (bcastWrite d dst offset bs).met = d.met := by
  unfold bcastWrite
  split <;> simp

@[simp] theorem originate_met (owner r src dst g w) : (originate d owner r src dst g w).met = d.met := by
  unfold originate
  split <;> simp

theorem startBcast_keepsMet (c src dst fromOwners) : (startBcast d c src dst fromOwners).KeepsMet d := by
  unfold startBcast
  dsimp only
  repeat' split
  all_goals simp

@[simp] theorem rescaleStore_met (k e e') : (rescaleStore d k e e').1.met = d.met := by simp [rescaleStore]

@[simp] theorem writeRecord_met (b) : (writeRecord d b).met = d.met := by
  unfold writeRecord
  split <;> simp

theorem recordRun_met {d : Dev} {b : Nat} {x : Nat × Dev} (h : recordRun d b = some x) : x.2.met = d.met := by
  unfold recordRun at h
  split at h
  · cases h; rfl
  · exact holdRun_met h

@[simp] theorem rescaleBucket_met (h b o e) : (rescaleBucket d h b o e).1.met = d.met := by
  unfold rescaleBucket
  dsimp only
  repeat' split
  all_goals simp

theorem lostStore_met {d e : Dev} {h : BitVec 16} (hlost : lostStore d h = some e) : e.met = d.met := by
  obtain ⟨k, -, hk⟩ := Option.bind_eq_some_iff.mp hlost
  split at hk
  · cases hk; simp
  · cases hk

@[simp] theorem openBucket_met (c o table g e addr) : (openBucket d c o table g e addr).met = d.met := by simp [openBucket]

theorem startBucketOpen_keepsMet (c o held) : (startBucketOpen d c o held).KeepsMet d := by
  unfold startBucketOpen
  dsimp only
  repeat' split
  all_goals simp
  · next lost =>
    split at lost
    · exact lostStore_met lost
    · cases lost
  · next run => exact recordRun_met run

@[simp] theorem cutBucket_met (b more all) : (cutBucket d b more all).met = d.met := by
  unfold cutBucket
  dsimp only
  repeat' split
  all_goals simp

@[simp] theorem addToBucket_met (b k h x rs) : (addToBucket d b k h x rs).met = d.met := by simp [addToBucket]

theorem startBucketAdd_keepsMet (c b h) : (startBucketAdd d c b h).KeepsMet d := by
  unfold startBucketAdd
  dsimp only
  repeat' split
  all_goals simp

theorem startBucketSeal_keepsMet (c b) : (startBucketSeal d c b).KeepsMet d := by
  unfold startBucketSeal
  split <;> simp

@[simp] theorem sendExponent_met (h b e) : (sendExponent d h b e).met = d.met := by
  unfold sendExponent
  split <;> simp

@[simp] theorem sealEnd_met (b r) : (sealEnd d b r).met = d.met := by
  unfold sealEnd
  dsimp only
  repeat' split
  all_goals simp

@[simp] theorem forwardBcast_met (w x g r dst fromOwners) : (forwardBcast d w x g r dst fromOwners).met = d.met := by
  unfold forwardBcast
  split <;> simp

@[simp] theorem advanceWork_met (w) : (advanceWork d w).met = d.met := by
  unfold advanceWork
  dsimp only
  repeat' split
  all_goals simp

@[simp] theorem advanceAll_met : (advanceAll d).met = d.met := by simp [advanceAll]

/-! ### Streams and their pages -/

@[simp] theorem withLayer_met (h l f) : (withLayer d h l f).met = d.met := rfl

@[simp] theorem tailWrite_met (h l off bs) : (tailWrite d h l off bs).met = d.met := by
  unfold tailWrite
  repeat' split
  all_goals simp

@[simp] theorem zeroTail_met (h l) : (zeroTail d h l).met = d.met := by
  unfold zeroTail
  split <;> simp

@[simp] theorem storePage_met (h l k bs) : (storePage d h l k bs).met = d.met := by
  unfold storePage
  dsimp only
  repeat' split
  all_goals simp

theorem reservePages_met {d e : Dev} {s : Stream} {tags : List Nat} (h : reservePages d s tags = some e) : e.met = d.met := by
  unfold reservePages at h
  split at h
  · cases h; rfl
  · exact holdRuns_met h

@[simp] theorem kvEvent_met (b) : (kvEvent d b).met = d.met := rfl

@[simp] theorem snoop_met (lines) : (snoop d lines).met = d.met := rfl

@[simp] theorem grantLine_met (line) : (grantLine d line).met = d.met := by simp [grantLine]

@[simp] theorem awaitRoom_met (line) : (awaitRoom d line).met = d.met := by
  unfold awaitRoom
  split <;> simp

@[simp] theorem serveStage_met (o cached) : (serveStage d o cached).met = d.met := by simp [serveStage]

@[simp] theorem serveHeld_met : (serveHeld d).met = d.met := by simp [serveHeld]

@[simp] theorem releaseSet_met (h t) : (releaseSet d h t).met = d.met := by simp [releaseSet]

@[simp] theorem releaseSets_met (h p) : (releaseSets d h p).met = d.met := by
  unfold releaseSets
  split <;> simp

@[simp] theorem fillSet_met (h slot off bs) : (fillSet d h slot off bs).met = d.met := by simp [fillSet]

theorem takeTails_met {size n : Nat} {d : Dev} {acc : List Nat} {x : Dev × List Nat} (h : takeTails size d n acc = some x) :
    x.1.met = d.met := by
  induction n generalizing d acc with
  | zero => cases h; rfl
  | succ n ih =>
    unfold takeTails at h
    split at h
    next held => rw [ih h, holdRun_met held]
    next => cases h

theorem startStreamOpen_keepsMet (c o) : (startStreamOpen d c o).KeepsMet d := by
  unfold startStreamOpen
  dsimp only
  repeat' split
  all_goals simp
  · next given => cases given; rfl
  · next taken => exact takeTails_met taken

theorem startOnStream_keepsMet (c cmd) : (startOnStream d c cmd).KeepsMet d := rfl

@[simp] theorem turnEnd_met (r st res) : (turnEnd d r st res).met = d.met := by simp [turnEnd]

@[simp] theorem putRunning_met (r) : (putRunning d r).met = d.met := rfl

@[simp] theorem pageWorks_met (h s owner jobs) : (pageWorks d h s owner jobs).met = d.met := rfl

@[simp] theorem turnPut_met (r h s layer first n src) : (turnPut d r h s layer first n src).met = d.met := by
  unfold turnPut
  dsimp only
  repeat' split
  all_goals simp
  next reserved => exact reservePages_met reserved

@[simp] theorem storeOverTail_met (r h layer) : (storeOverTail d r h layer).met = d.met := by
  unfold storeOverTail
  dsimp only
  repeat' split
  all_goals simp

@[simp] theorem endPut_met (r h layer n) : (endPut d r h layer n).met = d.met := by simp [endPut]

@[simp] theorem failPut_met (h layer first n) : (failPut d h layer first n).met = d.met := rfl

@[simp] theorem stageTake_met (r h s layer first n) : (stageTake d r h s layer first n).met = d.met := by
  unfold stageTake
  extract_lets g e cnt
  have kept : e.met = d.met := by
    unfold e
    split <;> simp
  dsimp only
  split
  · simp
  split
  · simp
  next f held =>
    have same : f.met = d.met := (holdRun_met held).trans kept
    repeat' split
    all_goals simp [same]

@[simp] theorem turnStage_met (r h s layer first n) : (turnStage d r h s layer first n).met = d.met := by simp [turnStage]

@[simp] theorem endStage_met (r) : (endStage d r).met = d.met := by
  unfold endStage
  dsimp only
  repeat' split
  all_goals simp

@[simp] theorem failStage_met (r) : (failStage d r).met = d.met := by simp [failStage]

@[simp] theorem evictLayer_met (h l) : (evictLayer d h l).1.met = d.met := by
  unfold evictLayer
  split <;> simp

@[simp] theorem evictLayers_met (h ls) : (evictLayers d h ls).1.met = d.met := by
  unfold evictLayers
  dsimp only
  repeat' split
  all_goals simp

@[simp] theorem turnEvict_met (r h s first count) : (turnEvict d r h s first count).met = d.met := by simp [turnEvict]

@[simp] theorem endIncoming_met (i) : (endIncoming d i).met = d.met := rfl

@[simp] theorem dropIncoming_met (i) : (dropIncoming d i).met = d.met := by simp [dropIncoming]

@[simp] theorem sendStream_met (p h seq code ops) : (sendStream d p h seq code ops).met = d.met := by simp [sendStream]

@[simp] theorem sendDone_met (p h st) : (sendDone d p h st).met = d.met := by simp [sendDone]

@[simp] theorem turnClose_met (r h s) : (turnClose d r h s).met = d.met := by simp [turnClose]

@[simp] theorem notePut_met (w s r) : (notePut d w s r).met = d.met := by
  unfold notePut
  dsimp only
  repeat' split
  all_goals simp

@[simp] theorem pageEncoded_met (w bs) : (pageEncoded d w bs).met = d.met := by
  unfold pageEncoded
  dsimp only
  repeat' split
  all_goals simp

@[simp] theorem pageDecoded_met (w r bs) : (pageDecoded d w r bs).met = d.met := by
  unfold pageDecoded
  split <;> simp

/-! ### Handoffs -/

@[simp] theorem turnHandoff_met (r h s o) : (turnHandoff d r h s o).met = d.met := by
  unfold turnHandoff
  dsimp only
  repeat' split
  all_goals simp

@[simp] theorem handoffAccepted_met (r s o limit) : (handoffAccepted d r s o limit).met = d.met := rfl

@[simp] theorem handoffFail_met (r o st) : (handoffFail d r o st).met = d.met := by
  unfold handoffFail
  split <;> simp

@[simp] theorem failPages_met (r st) : (failPages d r st).met = d.met := by
  unfold failPages
  split <;> simp

@[simp] theorem formHandoff_met (r o) : (formHandoff d r o).met = d.met := by
  unfold formHandoff
  dsimp only
  repeat' split
  all_goals simp

@[simp] theorem putIncoming_met (i) : (putIncoming d i).met = d.met := rfl

theorem handoffRoom_met {d e : Dev} {h : BitVec 16} {first n l0 layers bppUnits format : Nat}
    (hroom : handoffRoom d h first n l0 layers bppUnits format = .ok e) : e.met = d.met := by
  unfold handoffRoom at hroom
  repeat' split at hroom
  all_goals cases hroom
  next reserved _ _ held =>
    rw [holdRun_met held, reservePages_met reserved]

theorem storeIncoming_met {d : Dev} {i : Incoming} {e : (Nat × Nat × Nat) × List Byte} {x : Dev × Incoming}
    (h : storeIncoming d i e = some x) : x.1.met = d.met := by
  unfold storeIncoming at h
  dsimp only at h
  repeat' split at h
  · cases h
  · cases h
  · cases h; simp
  · obtain ⟨bs, -, rfl⟩ := Option.map_eq_some_iff.mp h
    simp

theorem storeAll_met {d : Dev} {i : Incoming} {es : List ((Nat × Nat × Nat) × List Byte)} {x : Dev × Incoming}
    (h : storeAll d i es = some x) : x.1.met = d.met := by
  induction es generalizing d i with
  | nil => cases h; rfl
  | cons e t ih =>
    unfold storeAll at h
    split at h
    next stored => rw [ih h, storeIncoming_met stored]
    next => cases h

@[simp] theorem commitIncoming_met (i) : (commitIncoming d i).met = d.met := by simp [commitIncoming]

end Sys2Proof.Machine
end

section
/-!
SUPPORT. Frame of the Reckoner island's state: observation, eras, repairs and the mailboxes.
-/
namespace Sys2Proof.Machine

variable (d : Dev)

/-! ### Trace, watches and breakpoints -/

@[simp] theorem updateControl_met : (updateControl d).met = d.met := by simp [updateControl]

@[simp] theorem dropRecord_met (r) : (dropRecord d r).met = d.met := rfl

@[simp] theorem ringPut_met (bs) : (ringPut d bs).met = d.met := by
  unfold ringPut
  rw [bump_met, withTrc_met, store_met]

@[simp] theorem ringWrap_met (r pad) : (ringWrap d r pad).met = d.met := by
  unfold ringWrap
  rw [withTrc_met, ringPut_met]

@[simp] theorem noteLeft_met (written) : (noteLeft written d).met = d.met := rfl

@[simp] theorem writeTrace_met (r) : (writeTrace d r).met = d.met := by
  generalize he : writeTrace d r = e
  unfold writeTrace at he
  extract_lets len pad past wrapped flags f g at he
  have kept : wrapped.met = d.met := by
    unfold wrapped
    split
    · rfl
    · exact ringWrap_met d r pad
  split at he
  · rw [← he, noteLeft_met, withTrc_met, dropRecord_met]
  · rw [← he, noteLeft_met, updateControl_met, withTrc_met, ringPut_met, kept]

@[simp] theorem drainTrace_met (fuel : Nat) : (drainTrace fuel d).met = d.met := by
  induction fuel generalizing d with
  | zero => rfl
  | succ fuel ih =>
    unfold drainTrace
    split
    · rfl
    · simp [ih]

@[simp] theorem runWriter_met (ns) : (runWriter d ns).met = d.met := by simp [runWriter]

theorem startTraceStart_keepsMet (c mask label all) : (startTraceStart d c mask label all).KeepsMet d := by
  simp [startTraceStart]

theorem startTraceStop_keepsMet (c) : (startTraceStop d c).KeepsMet d := by
  unfold startTraceStop
  split <;> simp

theorem startSnapshot_keepsMet (c set dest) : (startSnapshot d c set dest).KeepsMet d := by
  unfold startSnapshot
  dsimp only
  repeat' split
  all_goals simp

@[simp] theorem freePcs_met : (freePcs d).met = d.met := by
  unfold freePcs
  exact foldl_met (by simp) _ _

@[simp] theorem haltDevice_met (cause id core pc) : (haltDevice d cause id core pc).met = d.met := by
  unfold haltDevice
  split <;> simp

@[simp] theorem releaseEvents_met : (releaseEvents d).met = d.met := by simp [releaseEvents]

theorem startWatch_keepsMet (c k layer operator step action) : (startWatch d c k layer operator step action).KeepsMet d := by
  unfold startWatch
  dsimp only
  repeat' split
  all_goals simp

@[simp] theorem matchWatches_met (id h c) : (matchWatches d id h c).met = d.met := by
  unfold matchWatches
  refine foldl_met (fun d i => ?_) _ _
  split
  · rfl
  · extract_lets free
    repeat' split
    all_goals simp

@[simp] theorem fireWatches_met (owner) : (fireWatches d owner).met = d.met := by simp [fireWatches]

@[simp] theorem traceRun_met (unit label h w r) : (traceRun unit label h w d r).met = d.met := by simp [traceRun]

@[simp] theorem copyElems_met (unit owner handle label h j n) : (copyElems d unit owner handle label h j n).met = d.met := by
  unfold copyElems
  split <;> simp

theorem startBreak_keepsMet (c core kind address hits) : (startBreak d c core kind address hits).KeepsMet d := by
  unfold startBreak
  dsimp only
  repeat' split
  all_goals simp

@[simp] theorem hitBreak_met (core slot pc) : (hitBreak d core slot pc).met = d.met := by
  unfold hitBreak
  dsimp only
  repeat' split
  all_goals simp

@[simp] theorem writeOpen_met (set) : (writeOpen d set).met = d.met := by simp [writeOpen]

/-! ### Eras and the topology -/

@[simp] theorem sendDisc_met (p body) : (sendDisc d p body).met = d.met := by simp [sendDisc]

@[simp] theorem sendUp_met (body) : (sendUp d body).met = d.met := by
  unfold sendUp
  split <;> simp

@[simp] theorem sendDown_met (body) : (sendDown d body).met = d.met := by simp [sendDown]

@[simp] theorem loseMember_met (m) : (loseMember d m).met = d.met := by simp [loseMember]

@[simp] theorem endAllGroups_met : (endAllGroups d).met = d.met := by simp [endAllGroups]

@[simp] theorem endHandoffs_met (st) : (endHandoffs d st).met = d.met := by simp [endHandoffs]

@[simp] theorem sendSegments_met (ss) : (sendSegments d ss).met = d.met := by simp [sendSegments]

@[simp] theorem applyTopology_met : (applyTopology d).met = d.met := by
  unfold applyTopology
  dsimp only
  repeat' split
  all_goals simp

@[simp] theorem announce_met (c) : (announce d c).met = d.met := rfl

@[simp] theorem requestChange_met (c) : (requestChange d c).1.met = d.met := by
  unfold requestChange
  split <;> simp

@[simp] theorem failSetTicks_met : (failSetTicks d).met = d.met := by simp [failSetTicks]

@[simp] theorem traceAlmanac_met (event) : (traceAlmanac d event).met = d.met := by simp [traceAlmanac]

@[simp] theorem setLocked_met (b) : (setLocked d b).met = d.met := by simp [setLocked]

@[simp] theorem sendProclamations_met (b except) : (sendProclamations d b except).met = d.met := by simp [sendProclamations]

@[simp] theorem copyProclamation_met (b p) : (copyProclamation d b p).met = d.met := by simp [copyProclamation]

@[simp] theorem releaseProclamation_met : (releaseProclamation d).met = d.met := by
  unfold releaseProclamation
  dsimp only
  repeat' split
  all_goals simp

@[simp] theorem switchPlacement_met (mask) : (switchPlacement d mask).met = d.met := rfl

@[simp] theorem eraPlacement_met : (eraPlacement d).met = d.met := by simp [eraPlacement]

@[simp] theorem dropPlan_met : (dropPlan d).met = d.met := rfl

@[simp] theorem sendEraFrames_met (p master hops except) : (sendEraFrames d p master hops except).met = d.met := by
  simp [sendEraFrames]

@[simp] theorem establishEra_met (e priority) : (establishEra d e priority).met = d.met := by simp [establishEra]

@[simp] theorem leaveEra_met : (leaveEra d).met = d.met := by simp [leaveEra]

@[simp] theorem attachTo_met (p) : (attachTo d p).met = d.met := by simp [attachTo]

@[simp] theorem excludeDuplicate_met (s) : (excludeDuplicate d s).met = d.met := by simp [excludeDuplicate]

@[simp] theorem recordJoin_met (b) : (recordJoin d b).met = d.met := rfl

@[simp] theorem markLost_met (m) : (markLost d m).met = d.met := by simp [markLost]

@[simp] theorem linkChanges_met (b) : (linkChanges d b).met = d.met := by simp [linkChanges]

@[simp] theorem keepReport_met (b joining) : (keepReport d b joining).met = d.met := by simp [keepReport]

@[simp] theorem masterReport_met (b joining) : (masterReport d b joining).met = d.met := by
  unfold masterReport
  split <;> simp

@[simp] theorem reportLinks_met : (reportLinks d).met = d.met := by simp [reportLinks]

/-! ### The loss of a port -/

@[simp] theorem traceFault_met (status unit) : (traceFault d status unit).met = d.met := by simp [traceFault]

@[simp] theorem groupWorksMap_met (h f) : (groupWorksMap d h f).met = d.met := by simp [groupWorksMap]

@[simp] theorem orphanGroup_met (h g p) : (orphanGroup d h g p).met = d.met := by
  unfold orphanGroup
  dsimp only
  repeat' split
  all_goals simp

@[simp] theorem dropChild_met (h g n) : (dropChild d h g n).met = d.met := by simp [dropChild]

@[simp] theorem groupLosesPort_met (p h) : (groupLosesPort p d h).met = d.met := by
  unfold groupLosesPort
  repeat' split
  all_goals simp

@[simp] theorem handoffLosesPort_met (p r) : (handoffLosesPort p d r).met = d.met := by
  unfold handoffLosesPort
  split <;> simp

@[simp] theorem failWaitingStages_met (h st) : (failWaitingStages d h st).met = d.met := by simp [failWaitingStages]

@[simp] theorem incomingLosesPort_met (p i) : (incomingLosesPort p d i).met = d.met := by
  unfold incomingLosesPort
  repeat' split
  all_goals simp

@[simp] theorem treeLosesPort_met (p) : (treeLosesPort d p).met = d.met := by
  unfold treeLosesPort
  dsimp only
  repeat' split
  all_goals simp

@[simp] theorem losePort_met (p final) : (losePort d p final).met = d.met := by simp [losePort]

@[simp] theorem failDevice_met : (failDevice d).met = d.met := by simp [failDevice]

/-! ### Repairs -/

@[simp] theorem setRprEvent_met (b) : (setRprEvent d b).met = d.met := rfl

@[simp] theorem setPhys_met (p f) : (setPhys d p f).met = d.met := rfl

@[simp] theorem startCopy_met (source) : (startCopy d source).met = d.met := by
  unfold startCopy
  split <;> simp

@[simp] theorem proposeSwap_met (p lane approved) : (proposeSwap d p lane approved).met = d.met := by simp [proposeSwap]

@[simp] theorem approveSwap_met (p lane) : (approveSwap d p lane).met = d.met := by
  unfold approveSwap
  split <;> simp

@[simp] theorem scheduleRepair_met (q) : (scheduleRepair d q).met = d.met := by
  unfold scheduleRepair
  repeat' split
  all_goals simp

@[simp] theorem postRequests_met (fuel : Nat) : (postRequests fuel d).met = d.met := by
  induction fuel generalizing d with
  | zero => rfl
  | succ fuel ih =>
    unfold postRequests
    split <;> simp [ih]

@[simp] theorem requestRepair_met (kind unit detail) : (requestRepair d kind unit detail).met = d.met := by
  unfold requestRepair
  dsimp only
  repeat' split
  all_goals simp

theorem startRepairApprove_keepsMet (request decision) : (startRepairApprove d request decision).KeepsMet d := by
  unfold startRepairApprove
  dsimp only
  repeat' split
  all_goals simp

@[simp] theorem scheduleDeclined_met : (scheduleDeclined d).met = d.met := by simp [scheduleDeclined]

@[simp] theorem releaseRepairs_met : (releaseRepairs d).met = d.met := by simp [releaseRepairs]

@[simp] theorem putMapEntry_met (kind unit detail) : (putMapEntry d kind unit detail).met = d.met := by simp [putMapEntry]

@[simp] theorem appendMap_met (kind unit detail) : (appendMap d kind unit detail).met = d.met := by simp [appendMap]

/-! ### The administrative commands -/

@[simp] theorem placeAnnals_met (s) : (placeAnnals d s).met = d.met := by simp [placeAnnals]

theorem startInit_keepsMet (annals) : (startInit d annals).KeepsMet d := by
  generalize hb : startInit d annals = b
  unfold startInit at hb
  split at hb
  · subst hb; trivial
  split at hb
  · subst hb; trivial
  extract_lets e at hb
  have kept : e.met = d.met := placeAnnals_met _ _
  split at hb
  · rw [← hb, Begin.keepsMet_ended, failDevice_met, kept]
  · rw [← hb, Begin.keepsMet_done, postRequests_met, withGlb_met, kept]

@[simp] theorem writeMode_met (mode) : (writeMode d mode).met = d.met := by simp [writeMode]

theorem startSetPlacement_keepsMet (c mask value) : (startSetPlacement d c mask value).KeepsMet d := by
  simp [startSetPlacement]

theorem startSetTick_keepsMet (c period floor holiday) : (startSetTick d c period floor holiday).KeepsMet d := by
  simp [startSetTick]

theorem startBindTenant_keepsMet (mailbox label unbind) : (startBindTenant d mailbox label unbind).KeepsMet d := by
  unfold startBindTenant
  split <;> simp

theorem startAlloc_keepsMet (label memory size) : (startAlloc d label memory size).KeepsMet d := by
  unfold startAlloc
  dsimp only
  repeat' split
  all_goals simp

theorem startFree_keepsMet (allocation) : (startFree d allocation).KeepsMet d := by
  unfold startFree
  split <;> simp

theorem startFwUpdate_keepsMet (address length) : (startFwUpdate d address length).KeepsMet d := by
  unfold startFwUpdate
  dsimp only
  repeat' split
  all_goals simp

/-! ### What follows from an effect -/

@[simp] theorem clearWorks_met (r) : (clearWorks d r).met = d.met := rfl

@[simp] theorem endCompress_met (r o) : (endCompress d r o).met = d.met := by simp [endCompress]

@[simp] theorem finishOwner_met (r) : (finishOwner d r).met = d.met := by
  unfold finishOwner
  repeat' split
  all_goals simp

theorem bucketTurn_keepsMet (r) : (bucketTurn d r).KeepsMet d := by
  unfold bucketTurn
  split
  · exact startBucketOpen_keepsMet d _ _ _
  · exact startBucketAdd_keepsMet d _ _ _
  · exact startBucketSeal_keepsMet d _ _
  · exact startResidualFlush_keepsMet d _ _ _ _ _
  · trivial

@[simp] theorem rerunBucket_met (r) : (rerunBucket d r).met = d.met := by
  unfold rerunBucket
  extract_lets next seed active back e
  have same : e.met = d.met := rfl
  have kept := bucketTurn_keepsMet e r
  split
  next => simp
  all_goals
    next heq =>
      rw [heq] at kept
      simpa [back, same] using kept

@[simp] theorem sealIfReady_met (r) : (sealIfReady d r).met = d.met := by
  unfold sealIfReady
  split <;> simp

@[simp] theorem formIfReady_met (r) : (formIfReady d r).met = d.met := by
  unfold formIfReady
  split <;> simp

@[simp] theorem stageIfReady_met (r) : (stageIfReady d r).met = d.met := by
  unfold stageIfReady
  split <;> simp

@[simp] theorem destroyIfReady_met (r k) : (destroyIfReady d r k).met = d.met := by simp [destroyIfReady]

@[simp] theorem traceChunk_met (event cls handle seq p label) : (traceChunk d event cls handle seq p label).met = d.met := by
  simp [traceChunk]

@[simp] theorem traceGot_met (event stream h seq p) : (traceGot d event stream h seq p).met = d.met := by simp [traceGot]

@[simp] theorem holdItem_met (i) : (holdItem d i).met = d.met := rfl

@[simp] theorem ackChunk_met (p stream h seq attempt pages) : (ackChunk d p stream h seq attempt pages).met = d.met := by
  simp [ackChunk]

@[simp] theorem sendReAsk_met (p stream h seq attempt reason missing) :
    (sendReAsk d p stream h seq attempt reason missing).met = d.met := by
  simp [sendReAsk]

@[simp] theorem askGroup_met (p h seq attempt reason missing) : (askGroup d p h seq attempt reason missing).met = d.met := by
  simp [askGroup]

@[simp] theorem settleArrival_met (h x) : (settleArrival d h x).met = d.met := by
  unfold settleArrival
  dsimp only
  repeat' split
  all_goals simp

@[simp] theorem settleArrivals_met : (settleArrivals d).met = d.met := by simp [settleArrivals]

@[simp] theorem checkReady_met : (checkReady d).met = d.met := by simp [checkReady]

@[simp] theorem dropCopying_met : (dropCopying d).met = d.met := by simp [dropCopying]

@[simp] theorem scheduleHeld_met : (scheduleHeld d).met = d.met := by simp [scheduleHeld]

/-! ### Start of the commands and the mailboxes -/

theorem queueOpen_keepsMet (c o) : (queueOpen d c o).KeepsMet d := by
  unfold queueOpen
  split <;> simp

theorem queueFlush_keepsMet (c cmd) : (queueFlush d c cmd).KeepsMet d := rfl

theorem startCmd_keepsMet (c cmd) : (startCmd d c cmd).KeepsMet d := by
  cases cmd
  case init => exact startInit_keepsMet ..
  case setPlacement => exact startSetPlacement_keepsMet ..
  case setSeed => rfl
  case loadTree => exact startLoadTree_keepsMet ..
  case openGroup => exact startOpenGroup_keepsMet ..
  case closeGroup => exact startCloseGroup_keepsMet ..
  case setTick => exact startSetTick_keepsMet ..
  case repairApprove => exact startRepairApprove_keepsMet ..
  case bindTenant => exact startBindTenant_keepsMet ..
  case alloc => exact startAlloc_keepsMet ..
  case free => exact startFree_keepsMet ..
  case fwUpdate => exact startFwUpdate_keepsMet ..
  case createDesc => exact startCreateDesc_keepsMet ..
  case destroyDesc => exact startDestroyDesc_keepsMet ..
  case loadOwners => exact startLoadOwners_keepsMet ..
  case topk => exact startCompress_keepsMet ..
  case quant => exact startCompress_keepsMet ..
  case lowrank => exact startCompress_keepsMet ..
  case residualFlush => simp [startCmd, queueFlush_keepsMet, startResidualFlush_keepsMet]
  case maskGen => exact startMaskGen_keepsMet ..
  case bcast => exact startBcast_keepsMet ..
  case reduceToOne => exact startReduce_keepsMet ..
  case bucketOpen => simp [startCmd, queueOpen_keepsMet, startBucketOpen_keepsMet]
  case bucketAdd => simp [startCmd, startBucketAdd_keepsMet]
  case bucketSeal => simp [startCmd, startBucketSeal_keepsMet]
  case streamOpen => exact startStreamOpen_keepsMet ..
  case traceStart => exact startTraceStart_keepsMet ..
  case traceStop => exact startTraceStop_keepsMet ..
  case watchTensor => exact startWatch_keepsMet ..
  case breakSet => exact startBreak_keepsMet ..
  case countersSnapshot => exact startSnapshot_keepsMet ..
  case unknown => trivial
  all_goals exact startOnStream_keepsMet ..

@[simp] theorem traceBegin_met (n label h cmd) : (traceBegin d n label h cmd).met = d.met := by simp [traceBegin]

@[simp] theorem startOne_met (n f) : (startOne d n f).met = d.met := by
  unfold startOne
  extract_lets c e
  have kept : e.met = d.met := by simp [e]
  have started := startCmd_keepsMet e c f.cmd
  split
  · simp
  split
  next => simp
  all_goals
    next heq =>
      rw [heq] at started
      simpa [kept] using started

@[simp] theorem startReady_met (n : Mbx) (fuel : Nat) : (startReady n fuel d).met = d.met := by
  induction fuel generalizing d with
  | zero => rfl
  | succ fuel ih =>
    unfold startReady
    split <;> simp [ih]

@[simp] theorem startHeld_met (n) : (startHeld d n).met = d.met := by simp [startHeld]

@[simp] theorem takeEntry_met (n f) : (takeEntry d n f).met = d.met := rfl

@[simp] theorem fetchOne_met (n) : (fetchOne d n).met = d.met := by simp [fetchOne]

@[simp] theorem fetchTurn_met : (fetchTurn d).met = d.met := by
  unfold fetchTurn
  dsimp only
  repeat' split
  all_goals simp

@[simp] theorem fetchMany_met (fuel : Nat) : (fetchMany fuel d).met = d.met := by
  induction fuel generalizing d with
  | zero => rfl
  | succ fuel ih => simp [fetchMany, ih]

@[simp] theorem fetchTurns_met : (fetchTurns d).met = d.met := by simp [fetchTurns]

@[simp] theorem hostStore_met (x) : (hostStore d x).met = d.met := by
  unfold hostStore
  dsimp only
  repeat' split
  all_goals simp

@[simp] theorem doorbellError_met (n) : (doorbellError d n).met = d.met := rfl

@[simp] theorem cancelFetched_met (n) : (cancelFetched d n).met = d.met := by simp [cancelFetched]

@[simp] theorem writeMbxCtrl_met (n w) : (writeMbxCtrl d n w).met = d.met := by simp [writeMbxCtrl]

@[simp] theorem giveUpNext_met (n) : (giveUpNext d n).met = d.met := by
  unfold giveUpNext
  split <;> simp

end Sys2Proof.Machine
end

section
/-!
SUPPORT. Frame of the Reckoner island's state: the plan, the Almanac and the frames of the neighbours.
-/
namespace Sys2Proof.Machine

variable (d : Dev)

/-! ### The plan and its entries -/

@[simp] theorem writePlan_met (lo es) : (writePlan d lo es).met = d.met := by simp [writePlan]

@[simp] theorem markPlanned_met (e) : (markPlanned d e).met = d.met := by
  unfold markPlanned
  dsimp only
  repeat' split
  all_goals simp

@[simp] theorem addPlanned_met (e) : (addPlanned d e).met = d.met := rfl

@[simp] theorem planOne_met (boundary e) : (planOne boundary d e).met = d.met := by simp [planOne]

@[simp] theorem planWork_met (boundary d w) : (planWork boundary d w).met = d.met := by
  unfold planWork
  dsimp only
  split
  · rfl
  split
  · rfl
  have chosen := choose_met d ((stepEntries d w).filter fun e =>
    entryOk d e && !stepPlanned d e && (planOne boundary d e).plan.taken != d.plan.taken)
  split
  all_goals
    next heq =>
      rw [heq] at chosen
      simpa using chosen

@[simp] theorem planFirmware_met (boundary es) : (planFirmware boundary d es).met = d.met := by simp [planFirmware]

@[simp] theorem traceEntry_met (kind x w) : (traceEntry d kind x w).met = d.met := by simp [traceEntry]

@[simp] theorem queueChunk_met (p w) : (queueChunk d p w).met = d.met := by simp [queueChunk]

@[simp] theorem beginEntry_met (x) : (beginEntry d x).met = d.met := by
  unfold beginEntry
  dsimp only
  repeat' split
  all_goals simp

@[simp] theorem assign_met (r n) : (assign d r n).met = d.met := rfl

@[simp] theorem startPlanned_met (e) : (startPlanned d e).met = d.met := by
  unfold startPlanned
  split <;> simp

@[simp] theorem startCarried_met (x) : (startCarried d x).met = d.met := by
  unfold startCarried
  dsimp only
  repeat' split
  all_goals simp

@[simp] theorem startAlone_met : (startAlone d).met = d.met := by simp [startAlone]

@[simp] theorem keepDisplaced_met : (keepDisplaced d).met = d.met := rfl

@[simp] theorem takePlan_met (firmware again) : (takePlan d firmware again).met = d.met := by
  unfold takePlan
  dsimp only
  repeat' split
  all_goals simp

@[simp] theorem appendPlan_met (firmware) : (appendPlan d firmware).met = d.met := by
  unfold appendPlan
  dsimp only
  repeat' split
  all_goals simp

@[simp] theorem noteBusy_met (x) : (noteBusy d x).met = d.met := by simp [noteBusy]

@[simp] theorem clearSuspect_met (r) : (clearSuspect d r).met = d.met := by
  unfold clearSuspect
  repeat' split
  all_goals simp

@[simp] theorem endEntry_met (x) : (endEntry d x).met = d.met := by simp [endEntry]

@[simp] theorem noteBytes_met (w read written) : (noteBytes d w read written).met = d.met := by
  unfold noteBytes
  split <;> simp

@[simp] theorem noteSums_met (w f change lost bmax) : (noteSums d w f change lost bmax).met = d.met := by simp [noteSums]

@[simp] theorem copyRecords_met (unit w c recs) : (copyRecords d unit w c recs).met = d.met := by
  unfold copyRecords
  split
  · rfl
  refine foldl_met (fun d r => ?_) _ _
  split <;> simp

@[simp] theorem damageRecords_met (k) : (damageRecords d k).met = d.met := by simp [damageRecords]

@[simp] theorem failEntry_met (w c x) : (failEntry w c x).met = x.dev.met := by
  unfold failEntry
  dsimp only
  repeat' split
  all_goals simp

@[simp] theorem noteLostProof_met (w resource c hop recs) : (noteLostProof d w resource c hop recs).met = d.met := by
  unfold noteLostProof
  split <;> simp

@[simp] theorem bufferLost_met (h) : (bufferLost d h).2.met = d.met := by
  unfold bufferLost
  dsimp only
  repeat' split
  all_goals simp

@[simp] theorem sendToParent_met (w chunk) : (sendToParent d w chunk).met = d.met := by
  unfold sendToParent
  split <;> simp

@[simp] theorem runReduce_met (x w c recs index engineFault) : (runReduce d x w c recs index engineFault).met = d.met := by
  unfold runReduce
  extract_lets h
  split
  · rfl
  next g hg =>
  extract_lets root kids covered
  have kept : (if kids.isEmpty = true then (false, d) else bufferLost d h).2.met = d.met := by split <;> simp
  split
  next lost e he =>
  rw [he] at kept
  dsimp only at kept
  split
  · simp [kept]
  split
  · simp [kept]
  split
  · simp [kept]
  · simp [kept]
  next ls rs _ _ =>
  extract_lets hop
  have formed := formChunk_keepsMet e c hop recs
  split
  · simp [kept]
  split
  · simp [kept]
  split
  next heq =>
    rw [heq] at formed
    simpa [kept] using formed
  next heq =>
    rw [heq] at formed
    simpa [kept] using formed

@[simp] theorem noteFailedEntry_met (x w) : (noteFailedEntry d x w).met = d.met := by
  unfold noteFailedEntry
  repeat' split
  all_goals simp

@[simp] theorem runCompress_met (x w c recs engineFault) : (runCompress d x w c recs engineFault).met = d.met := by
  have formed := formChunk_keepsMet d c .leaf recs
  unfold runCompress
  split
  · simp
  split
  next heq => rw [heq] at formed; simpa using formed
  next heq => rw [heq] at formed; simpa using formed

@[simp] theorem runOther_met (w r) : (runOther d w r).met = d.met := by
  unfold runOther
  dsimp only
  repeat' split
  all_goals simp

@[simp] theorem runEngine_met (x w engineFault) : (runEngine d x w engineFault).met = d.met := by
  unfold runEngine
  repeat' split
  all_goals simp

@[simp] theorem encodeParcel_met (x w c) : (encodeParcel d x w c).met = d.met := by
  unfold encodeParcel
  split <;> simp

@[simp] theorem decodeChunk_met (x w) : (decodeChunk d x w).met = d.met := by
  unfold decodeChunk
  dsimp only
  repeat' split
  all_goals simp

@[simp] theorem encodeStep_met (x w s bs) : (encodeStep d x w s bs).1.met = d.met := by simp [encodeStep]

@[simp] theorem encodePage_met (x : RunEntry) (s : Stream) (bs : List Byte) (fuel : Nat) (w : Work) (u : CodecRun) :
    (encodePage x s bs fuel d w u).1.met = d.met := by
  induction fuel generalizing d w u with
  | zero => rfl
  | succ fuel ih =>
    unfold encodePage
    dsimp only
    repeat' split
    all_goals simp [ih]

theorem decodePage_met {x : RunEntry} {fuel : Nat} {d : Dev} {w : Work} {bs : List Byte} {u : CodecRun}
    {y : Dev × Work × CodecRun × Bool} (h : decodePage x fuel d w bs u = some y) : y.1.met = d.met := by
  induction fuel generalizing d w bs u with
  | zero => cases h; rfl
  | succ fuel ih =>
    unfold decodePage at h
    dsimp only at h
    repeat' split at h
    · cases h; rfl
    · cases h; rfl
    · cases h
    · rw [ih h]; simp

@[simp] theorem runPage_met (x w r s u) : (runPage d x w r s u).1.met = d.met := by
  unfold runPage
  split
  · split
    · dsimp only
      split <;> simp
    · dsimp only
      split <;> simp
  · split
    · simp
    dsimp only
    split
    · simp
    split
    · simp
    next h =>
      have h := decodePage_met h
      split <;> simpa using h
  · rfl

@[simp] theorem runPages_met (x : RunEntry) (fuel : Nat) (seq : BitVec 32) (u : CodecRun) :
    (runPages x fuel d seq u).met = d.met := by
  induction fuel generalizing d seq u with
  | zero => rfl
  | succ fuel ih =>
    unfold runPages
    split
    · rfl
    next w hw =>
      split
      next r s hr hs =>
        have page := runPage_met d x w r s u
        split
        · rfl
        split
        next heq => rw [heq] at page; rw [ih]; exact page
        next heq => rw [heq] at page; exact page
      · rfl

@[simp] theorem runCodec_met (x w) : (runCodec d x w).met = d.met := by
  unfold runCodec
  repeat' split
  all_goals simp

@[simp] theorem chunkLeft_met (w p) : (chunkLeft d w p).met = d.met := by
  unfold chunkLeft
  split <;> simp

@[simp] theorem noteLaunch_met (w bytes) : (noteLaunch d w bytes).met = d.met := by
  unfold noteLaunch
  dsimp only
  repeat' split
  all_goals simp

@[simp] theorem dropSent_met (p c) : (dropSent d p c).met = d.met := rfl

@[simp] theorem sendLost_met (w) : (sendLost d w).2.met = d.met := by
  unfold sendLost
  split <;> simp

/-! ### Placements, ticks and eras -/

@[simp] theorem functionChanged_met (n) : (functionChanged d n).met = d.met := by simp [functionChanged]

@[simp] theorem takeFunction_met (n) : (takeFunction d n).met = d.met := by simp [takeFunction]

@[simp] theorem planPlacement_met : (planPlacement d).met = d.met := by simp [planPlacement]

@[simp] theorem markOwner_met (w) : (markOwner d w).met = d.met := by simp [markOwner]

@[simp] theorem markLate_met : (markLate d).met = d.met := by simp [markLate]

@[simp] theorem throttleTick_met (settled) : (throttleTick d settled).met = d.met := by simp [throttleTick]

@[simp] theorem announceLeap_met (l) : (announceLeap d l).met = d.met := rfl

@[simp] theorem raiseLeap_met : (raiseLeap d).met = d.met := by
  unfold raiseLeap
  split <;> simp

@[simp] theorem leapTick_met : (leapTick d).met = d.met := by
  unfold leapTick
  split <;> simp

@[simp] theorem floorTick_met : (floorTick d).met = d.met := by simp [floorTick]

@[simp] theorem recoverAlmanac_met : (recoverAlmanac d).met = d.met := by simp [recoverAlmanac]

@[simp] theorem cableTick_met : (cableTick d).met = d.met := by simp [cableTick]

@[simp] theorem sendTick_met (b) : (sendTick d b).met = d.met := by simp [sendTick]

@[simp] theorem masterFrame_met : (masterFrame d).met = d.met := by simp [masterFrame]

@[simp] theorem endSetTicks_met : (endSetTicks d).met = d.met := by simp [endSetTicks]

@[simp] theorem dropTile_met (p) : (dropTile d p).met = d.met := by simp [dropTile]

@[simp] theorem leaveTiles_met : (leaveTiles d).met = d.met := by simp [leaveTiles]

@[simp] theorem settleTick_met (ns) : (settleTick ns d).met = d.met := rfl

@[simp] theorem settleBudgets_met : (settleBudgets d).met = d.met := rfl

@[simp] theorem pageTick_met : (pageTick d).met = d.met := by simp [pageTick]

@[simp] theorem openTick_met (firmware settled) : (openTick d firmware settled).met = d.met := by simp [openTick]

@[simp] theorem changeRate_met (q) : (changeRate q d).met = d.met := by
  unfold changeRate
  dsimp only
  split
  · rfl
  · exact foldl_met (by simp) _ _

@[simp] theorem takeMember_met (era) : (takeMember d era).met = d.met := by simp [takeMember]

@[simp] theorem announceDeferred_met : (announceDeferred d).met = d.met := by
  unfold announceDeferred
  split <;> simp

@[simp] theorem loneTopology_met (era) : (loneTopology d era).met = d.met := by simp [loneTopology]

@[simp] theorem turnEra_met (c) : (turnEra d c).met = d.met := by
  unfold turnEra
  dsimp only
  repeat' split
  all_goals simp

@[simp] theorem shiftGroup_met (h stamp count own) : (shiftGroup d h stamp count own).met = d.met := rfl

@[simp] theorem sendSlip_met (h g stamp count except) : (sendSlip d h g stamp count except).met = d.met := by simp [sendSlip]

@[simp] theorem judgeSum_met (before count) : (judgeSum d before count).met = d.met := by simp [judgeSum]

@[simp] theorem addReport_met (window count) : (addReport d window count).met = d.met := by
  unfold addReport
  split <;> simp

@[simp] theorem forwardTick_met (p b) : (forwardTick d p b).met = d.met := by simp [forwardTick]

@[simp] theorem enterEra_met (p b) : (enterEra d p b).met = d.met := by simp [enterEra]

@[simp] theorem adoptEra_met (p b) : (adoptEra d p b).met = d.met := by simp [adoptEra]

@[simp] theorem catchUpEra_met (p b) : (catchUpEra d p b).met = d.met := by simp [catchUpEra]

@[simp] theorem followTick_met (b measured) : (followTick d b measured).met = d.met := by simp [followTick]

@[simp] theorem lastFrame_met (b measured) : (lastFrame d b measured).met = d.met := by simp [lastFrame]

/-! ### Elections and joins -/

@[simp] theorem startElection_met : (startElection d).met = d.met := rfl

@[simp] theorem proclaim_met : (proclaim d).met = d.met := by simp [proclaim]

@[simp] theorem answerEra_met (p) : (answerEra d p).met = d.met := by
  unfold answerEra
  split <;> simp

@[simp] theorem takeProclamation_met (p b) : (takeProclamation d p b).met = d.met := by simp [takeProclamation]

@[simp] theorem loseAlmanac_met : (loseAlmanac d).met = d.met := by simp [loseAlmanac]

@[simp] theorem acceptEra_met (p x master) : (acceptEra d p x master).met = d.met := by simp [acceptEra]

@[simp] theorem repeatEra_met (p x master) : (repeatEra d p x master).met = d.met := by
  unfold repeatEra
  dsimp only
  repeat' split
  all_goals simp

@[simp] theorem compareEra_met (p x y master) : (compareEra d p x y master).met = d.met := by simp [compareEra]

@[simp] theorem receiveDisc_met (p h good) : (receiveDisc d p h good).2.met = d.met := by
  unfold receiveDisc
  dsimp only
  repeat' split
  all_goals simp

@[simp] theorem takeReport_met (p b kind) : (takeReport d p b kind).met = d.met := by simp [takeReport]

/-! ### Chunks, grants and credit -/

@[simp] theorem traceSent_met (event c p) : (traceSent d event c p).met = d.met := by simp [traceSent]

@[simp] theorem exhaust_met (p c st) : (exhaust d p c st).met = d.met := by
  unfold exhaust
  dsimp only
  repeat' split
  all_goals simp

@[simp] theorem resend_met (p c segments) : (resend d p c segments).met = d.met := rfl

@[simp] theorem retry_met (p c segments st) : (retry d p c segments st).met = d.met := by simp [retry]

@[simp] theorem acknowledged_met (p c) : (acknowledged d p c).met = d.met := by
  unfold acknowledged
  dsimp only
  repeat' split
  all_goals simp

@[simp] theorem askAgain_met (p x reason missing) : (askAgain d p x reason missing).met = d.met := by
  unfold askAgain
  dsimp only
  repeat' split
  all_goals simp

@[simp] theorem sendAck_met (p x pages) : (sendAck d p x pages).met = d.met := by simp [sendAck]

@[simp] theorem groupArrival_met (p x bs) : (groupArrival d p x bs).met = d.met := by
  unfold groupArrival
  dsimp only
  repeat' split
  all_goals simp

@[simp] theorem failIncoming_met (i st) : (failIncoming d i st).met = d.met := by simp [failIncoming]

@[simp] theorem handoffArrival_met (p x bs) : (handoffArrival d p x bs).met = d.met := by
  have buffer := bufferLost_met d (handoffTag x.handle.toNat)
  unfold handoffArrival
  split
  · split
    · simp
    split
    · simp
    split
    · simp
    split
    next lost e he =>
    rw [he] at buffer
    dsimp only at buffer
    split
    · simp [buffer]
    split
    · simp [buffer]
    next h =>
      have h := storeAll_met h
      dsimp only at h ⊢
      split
      · simp [buffer, h]
      split <;> simp [buffer, h]
  · rfl

@[simp] theorem dropPartial_met (p x) : (dropPartial d p x).met = d.met := rfl

@[simp] theorem holdSlot_met (x) : (holdSlot d x).met = d.met := by
  unfold holdSlot
  split <;> simp

@[simp] theorem addSegment_met (p h payload) : (addSegment d p h payload).met = d.met := by simp [addSegment]

@[simp] theorem ackAgain_met (p h a) : (ackAgain d p h a).met = d.met := by simp [ackAgain]

@[simp] theorem noteAttempt_met (p h) : (noteAttempt d p h).met = d.met := rfl

@[simp] theorem withNbr_met (h p f) : (withNbr d h p f).met = d.met := rfl

@[simp] theorem takeGrant_met (p h limit) : (takeGrant d p h limit).met = d.met := by simp [takeGrant]

@[simp] theorem adoptChild_met (h p first) : (adoptChild d h p first).met = d.met := rfl

@[simp] theorem addDestination_met (h p first) : (addDestination h p first d).met = d.met := rfl

@[simp] theorem takeParent_met (h g p first) : (takeParent d h g p first).met = d.met := by
  unfold takeParent
  dsimp only
  repeat' split
  all_goals simp

@[simp] theorem sendCredit_met (p) : (sendCredit d p).met = d.met := by simp [sendCredit]

@[simp] theorem moveLane_met (p lane) : (moveLane d p lane).met = d.met := by simp [moveLane]

@[simp] theorem proposeAgain_met (p) : (proposeAgain d p).met = d.met := by
  unfold proposeAgain
  split <;> simp

end Sys2Proof.Machine
end

section
/-!
SUPPORT. Frame of the Reckoner island's state: power, faults and the host's accesses.
-/
namespace Sys2Proof.Machine

variable (d : Dev)

/-! ### Brown-out hold, start-up and lost clocks -/

@[simp] theorem setPwrEvent_met (b) : (setPwrEvent d b).met = d.met := rfl

@[simp] theorem senseDip_met (mv) : (senseDip d mv).met = d.met := rfl

@[simp] theorem carryVerify_met (x) : (carryVerify d x).met = d.met := rfl

@[simp] theorem ungather_met (h seq) : (ungather d h seq).met = d.met := by
  unfold ungather
  split <;> simp

@[simp] theorem forgetReceived_met (p stream h seq attempt pages) :
    (forgetReceived d p stream h seq attempt pages).met = d.met := by
  unfold forgetReceived
  dsimp only
  repeat' split
  all_goals simp

@[simp] theorem damageLaunched_met (p stream h seq) : (damageLaunched d p stream h seq).met = d.met := by
  unfold damageLaunched
  repeat' split
  all_goals simp

@[simp] theorem damageCodec_met (w) : (damageCodec d w).met = d.met := by
  unfold damageCodec
  split <;> simp

@[simp] theorem failItem_met (x1) : (failItem d x1).met = d.met := by
  unfold failItem
  repeat' split
  all_goals simp

@[simp] theorem passItem_met (x1) : (passItem d x1).met = d.met := by
  unfold passItem
  split <;> simp

@[simp] theorem verifyFrom_met (bad : Nat → Bool) (i : Nat) (items : List HoldItem) :
    (verifyFrom bad i items d).met = d.met := by
  induction items generalizing i d with
  | nil => rfl
  | cons x t ih => simp [verifyFrom, ih]

@[simp] theorem verifyAll_met (bad) : (verifyAll d bad).met = d.met := by simp [verifyAll]

@[simp] theorem configPort_met (p) : (configPort d p).met = d.met := by
  unfold configPort
  split <;> simp

@[simp] theorem trainPorts_met : (trainPorts d).met = d.met := by
  unfold trainPorts
  dsimp only
  rw [foldl_met (by simp), foldl_met (by simp), foldl_met (by simp)]

@[simp] theorem drawFailures_met : (drawFailures d).2.met = d.met := rfl

@[simp] theorem zeroStores_met : (zeroStores d).met = d.met := by simp [zeroStores]

@[simp] theorem loseAon_met : (loseAon d).met = d.met := rfl

@[simp] theorem chooseMap_met : (chooseMap d).met = d.met := rfl

@[simp] theorem numberTiles_met (ps) : (numberTiles ps d).met = d.met := by
  unfold numberTiles
  exact foldl_met (by simp) _ _

@[simp] theorem bistTiles_met (bad) : (bistTiles d bad).met = d.met := by
  unfold bistTiles
  extract_lets known fresh out good blank all e f g h
  have numbered (ps) : (numberTiles ps all).met = d.met := numberTiles_met all ps
  split
  · exact (foldl_met (by simp) _ _).trans (numbered _)
  · exact (foldl_met (by simp) _ _).trans ((foldl_met (by simp [out]) _ _).trans (numbered _))

@[simp] theorem placeBanks_met : (placeBanks d).met = d.met := by
  unfold placeBanks
  exact foldl_met (by simp) _ _

@[simp] theorem bistBank_met (e) : (bistBank d e).met = d.met := by
  unfold bistBank
  dsimp only
  repeat' split
  all_goals simp

@[simp] theorem placeLanes_met : (placeLanes d).met = d.met := by
  unfold placeLanes
  refine foldl_met (fun d e => ?_) _ _
  split <;> rfl

@[simp] theorem trainHbm_met : (trainHbm d).met = d.met := by simp [trainHbm]

theorem takeReplacement_met {d : Dev} {stack page : Nat} {x : Nat × Dev} (h : takeReplacement d stack page = some x) :
    x.2.met = d.met := by
  unfold takeReplacement at h
  dsimp only at h
  split at h
  · cases h
  · cases h; rfl

@[simp] theorem retireMapped_met (stack page) : (retireMapped d stack page).met = d.met := by
  unfold retireMapped
  dsimp only
  repeat' split
  · rfl
  · rfl
  next taken => exact takeReplacement_met taken

@[simp] theorem bootFail_met (stage code) : (bootFail d stage code).met = d.met := rfl

@[simp] theorem startClocks_met : (startClocks d).met = d.met := rfl

@[simp] theorem sampleStraps_met (b) : (sampleStraps d b).met = d.met := rfl

@[simp] theorem judgeLevel_met : (judgeLevel d).met = d.met := by simp [judgeLevel]

@[simp] theorem tickFault_met : (tickFault d).met = d.met := by simp [tickFault]

@[simp] theorem stopTrace_met : (stopTrace d).met = d.met := by
  unfold stopTrace
  exact foldl_met (by simp) _ _

@[simp] theorem dropQuad_met (q) : (dropQuad d q).met = d.met := by simp [dropQuad]

/-! ### Failed tiles, memory errors and background tasks -/

@[simp] theorem otherTile_met : (otherTile d).2.met = d.met := rfl

@[simp] theorem moveEntry_met (x lastTry) : (moveEntry d x lastTry).met = d.met := by
  unfold moveEntry
  dsimp only
  repeat' split
  all_goals simp

@[simp] theorem evacuate_met (l twice) : (evacuate d l twice).met = d.met := by simp [evacuate]

@[simp] theorem dropBankRepairs_met (p) : (dropBankRepairs d p).met = d.met := rfl

@[simp] theorem failActive_met (p twice) : (failActive d p twice).met = d.met := by simp [failActive]

@[simp] theorem failReceiver_met (p) : (failReceiver d p).met = d.met := by
  unfold failReceiver
  split <;> simp

@[simp] theorem failTile_met (p twice) : (failTile d p twice).met = d.met := by
  unfold failTile
  split <;> simp

@[simp] theorem noteParity_met (tile engine) : (noteParity d tile engine).met = d.met := rfl

@[simp] theorem parityEntry_met (p engine x) : (parityEntry d p engine x).met = d.met := by
  unfold parityEntry
  dsimp only
  repeat' split
  all_goals simp

@[simp] theorem switchTile_met (c) : (switchTile d c).met = d.met := by simp [switchTile]

@[simp] theorem clearApproved_met (kind unit fits) : (clearApproved d kind unit fits).met = d.met := rfl

@[simp] theorem repairDue_met (kind unit detail) : (repairDue d kind unit detail).met = d.met := by simp [repairDue]

@[simp] theorem bankDue_met (p bank) : (bankDue d p bank).met = d.met := by
  unfold bankDue
  split <;> simp

@[simp] theorem switchBank_met (p bank sb) : (switchBank d p bank sb).met = d.met := by simp [switchBank]

@[simp] theorem retirePage_met (stack page a) : (retirePage d stack page a).met = d.met := by simp [retirePage]

@[simp] theorem damageStore_met : (damageStore d).met = d.met := by
  unfold damageStore
  dsimp only
  repeat' split
  all_goals simp

@[simp] theorem countUncorrectable_met (a) : (countUncorrectable d a).met = d.met := by
  unfold countUncorrectable
  dsimp only
  repeat' split
  all_goals simp

@[simp] theorem scratchError_met (a) : (scratchError d a).met = d.met := by
  unfold scratchError
  split <;> simp

@[simp] theorem hbmError_met (a) : (hbmError d a).met = d.met := by
  generalize hx : hbmError d a = x
  unfold hbmError at hx
  extract_lets i up e at hx
  have kept : e.met = d.met := countUncorrectable_met _ _
  split at hx
  · rw [← hx, damageStore_met, kept]
  dsimp only at hx
  split at hx
  all_goals rw [← hx, repairDue_met, draw_met, poisonLine_met, kept]

@[simp] theorem noteOverdue_met (k) : (noteOverdue d k).met = d.met := rfl

@[simp] theorem displace_met (unit) : (displace d unit).met = d.met := rfl

@[simp] theorem recalibrate_met (q) : (recalibrate d q).met = d.met := by
  unfold recalibrate
  exact foldl_met (by simp) _ _

@[simp] theorem countCorrected_met (index lo hi) : (countCorrected d index lo hi).2.met = d.met := by simp [countCorrected]

@[simp] theorem scrubTile_met (p) : (scrubTile d p).met = d.met := by
  unfold scrubTile
  dsimp only
  repeat' split
  all_goals simp

@[simp] theorem scrubStack_met (i) : (scrubStack d i).met = d.met := by
  obtain ⟨f, hf⟩ : ∃ f, f = @scrubStack := ⟨_, rfl⟩
  obtain ⟨stack, hs⟩ : ∃ s, s = stackOf := ⟨_, rfl⟩
  rw [← hf]
  delta scrubStack at hf
  rw [← hs] at hf
  subst hf
  dsimp only
  split <;> simp

@[simp] theorem passTask_met (unit k) : (passTask d unit k).met = d.met := by
  unfold passTask
  repeat' split
  all_goals simp

/-! ### The host's accesses -/

@[simp] theorem takeSnap_met : (takeSnap d).met = d.met := rfl

@[simp] theorem writeTikControl_met (w) : (writeTikControl d w).met = d.met := by simp [writeTikControl]

@[simp] theorem writeCable_met (w) : (writeCable d w).met = d.met := rfl

@[simp] theorem writeTray_met (w) : (writeTray d w).met = d.met := by
  unfold writeTray
  dsimp only
  repeat' split
  all_goals simp

@[simp] theorem writeDesignate_met (set) : (writeDesignate d set).met = d.met := by
  unfold writeDesignate
  dsimp only
  repeat' split
  all_goals simp

@[simp] theorem writeThermal_met (w) : (writeThermal d w).met = d.met := by simp [writeThermal]

@[simp] theorem writeBrown_met (w) : (writeBrown d w).met = d.met := rfl

@[simp] theorem writeDbgCtrl_met (w) : (writeDbgCtrl d w).met = d.met := by simp [writeDbgCtrl]

@[simp] theorem hostHalt_met : (hostHalt d).met = d.met := by simp [hostHalt]

@[simp] theorem startDestroy_met (n) : (startDestroy d n).met = d.met := by
  unfold startDestroy
  split <;> simp

@[simp] theorem restartMailboxes_met : (restartMailboxes d).met = d.met := by simp [restartMailboxes]

@[simp] theorem verifyAfterHalt_met : (verifyAfterHalt d).met = d.met := by simp [verifyAfterHalt]

@[simp] theorem hostResume_met : (hostResume d).met = d.met := by simp [hostResume]

@[simp] theorem hostStep_met (core) : (hostStep d core).met = d.met := by simp [hostStep]

@[simp] theorem writeHalt_met (w) : (writeHalt d w).met = d.met := by simp [writeHalt]

@[simp] theorem cancelWatches_met (mask) : (cancelWatches d mask).met = d.met := by simp [cancelWatches]

@[simp] theorem writePortCtrl_met (p w) : (writePortCtrl d p w).met = d.met := by simp [writePortCtrl]

@[simp] theorem accessError_met : (accessError d).met = d.met := rfl

@[simp] theorem countUnbacked_met : (countUnbacked d).met = d.met := rfl

@[simp] theorem poisonRead_met (n) : (poisonRead d n).met = d.met := rfl

@[simp] theorem readMemory_met (a n) : (readMemory d a n).met = d.met := by simp [readMemory]

@[simp] theorem bar4Read_met (o n) : (bar4Read d o n).met = d.met := by
  unfold bar4Read
  split <;> simp

@[simp] theorem bar4Write_met (o bs) : (bar4Write d o bs).met = d.met := by
  unfold bar4Write
  split <;> simp

@[simp] theorem grantIf_met (cached line) : (grantIf cached d line).met = d.met := by simp [grantIf]

@[simp] theorem windowRead_met (line cached) : (windowRead d line cached).met = d.met := by
  unfold windowRead
  split <;> simp

@[simp] theorem dropWac_met (h s pos) : (dropWac d h s pos).met = d.met := by simp [dropWac]

@[simp] theorem windowLineWrite_met (o bs) : (windowLineWrite d o bs).met = d.met := by
  unfold windowLineWrite
  split <;> simp

@[simp] theorem windowWrite_met (fuel : Nat) (o : Nat) (bs : List Byte) : (windowWrite fuel d o bs).met = d.met := by
  induction fuel generalizing d o bs with
  | zero => rfl
  | succ fuel ih => simp [windowWrite, ih]

@[simp] theorem serveRoom_met : (serveRoom d).met = d.met := by
  unfold serveRoom
  split <;> simp

@[simp] theorem snoopDone_met (line) : (snoopDone d line).met = d.met := by simp [snoopDone]

end Sys2Proof.Machine
end

section
/-!
SUPPORT. The seal state and the test port (R488, Table 11-4): what each command leaves of them.
-/
namespace Sys2Proof.Machine

/-! ### The seal state -/

/-- The seal state and whether the test port is open. -/
def sealOf (m : Met) : BitVec 4 × Bool := (m.sealState, m.portOpen)

@[simp] theorem ite_sealOf {c : Prop} [Decidable c] (m n : Met) :
    sealOf (if c then m else n) = if c then sealOf m else sealOf n := apply_ite sealOf c m n

theorem foldl_sealOf {α : Type} {f : Dev → α → Dev} (h : ∀ d x, sealOf (f d x).met = sealOf d.met) (l : List α) (d : Dev) :
    sealOf (l.foldl f d).met = sealOf d.met := by
  induction l generalizing d with
  | nil => rfl
  | cons x t ih => rw [List.foldl_cons, ih, h]

theorem withMet_sealOf {f : Met → Met} (h : ∀ m, sealOf (f m) = sealOf m) (d : Dev) : sealOf (withMet d f).met = sealOf d.met :=
  h _

section
variable (m : Met) (serial : BitVec 64)

@[simp] theorem pushTap_sealOf (e : TapEntry) : sealOf (pushTap e m) = sealOf m := rfl

@[simp] theorem addLog_sealOf (kind : Byte) (detail : Nat) : sealOf (addLog m kind detail) = sealOf m := rfl

@[simp] theorem freshInterval_sealOf : sealOf (freshInterval m) = sealOf m := rfl

@[simp] theorem storeRecord_sealOf (reason : Nat) : sealOf (storeRecord serial m reason) = sealOf m := rfl

@[simp] theorem extendInterval_sealOf (reason : Nat) : sealOf (extendInterval m reason) = sealOf m := by
  unfold extendInterval
  split <;> rfl

@[simp] theorem leaveExtension_sealOf : sealOf (leaveExtension m) = sealOf m := by
  unfold leaveExtension
  split <;> rfl

@[simp] theorem closeInterval_sealOf (reason : Nat) : sealOf (closeInterval serial m reason) = sealOf m := by
  unfold closeInterval
  split <;> simp

@[simp] theorem closeFull_sealOf : sealOf (closeFull serial m) = sealOf m := by
  unfold closeFull
  split <;> simp

@[simp] theorem countEvent_sealOf (e : TapEntry) : sealOf (countEvent m e) = sealOf m := rfl
end

/-! ### The turns of the commands -/

section
variable (d : Dev)

@[simp] theorem turnCommit_sealOf (r : Running) (h : Nat) (s : Stream) (n : Nat) :
    sealOf (turnCommit d r h s n).met = sealOf d.met := by
  unfold turnCommit
  dsimp only
  split
  · simp
  split
  · simp
  split
  · simp
  split
  · simp
  next e he =>
    have hm := reservePages_met he
    split
    · simp
    · rw [putRunning_met, snoop_met, apply_ite Dev.met, ite_sealOf, withMet_sealOf fun _ => by rfl]
      simp [hm]

@[simp] theorem dropCommit_sealOf (r : Running) (st : Status) : sealOf (dropCommit d r st).met = sealOf d.met := by
  unfold dropCommit
  dsimp only
  rw [turnEnd_met, releaseRuns_met, apply_ite Dev.met, ite_sealOf, withMet_sealOf fun _ => by rfl]
  simp

@[simp] theorem commitEvent_sealOf (h : Nat) (s : Stream) (n : Nat) : sealOf (commitEvent d h s n).met = sealOf d.met := by
  unfold commitEvent
  split <;> rfl

@[simp] theorem commitStep5_sealOf (r : Running) (n : Nat) : sealOf (commitStep5 d r n).met = sealOf d.met := by
  unfold commitStep5
  dsimp only
  split
  · simp
  · split <;> simp

@[simp] theorem giveUp_sealOf (r : Running) : sealOf (giveUp d r).met = sealOf d.met := by
  unfold giveUp
  split <;> simp

@[simp] theorem takeTurn_sealOf (r : Running) : sealOf (takeTurn d r).met = sealOf d.met := by
  unfold takeTurn
  dsimp only
  generalize r.cmd = c
  cases c
  case bucketOpen | bucketAdd | bucketSeal | topk | quant | lowrank | reduceToOne => simp
  case residualFlush => split <;> simp
  all_goals
    dsimp only
    split <;> simp

@[simp] theorem commitIfReady_sealOf (r : Running) : sealOf (commitIfReady d r).met = sealOf d.met := by
  unfold commitIfReady
  split <;> simp

@[simp] theorem turnIfReady_sealOf (r : Running) : sealOf (turnIfReady d r).met = sealOf d.met := by
  unfold turnIfReady
  split
  · simp
  · split <;> simp

@[simp] theorem wakeOne_sealOf (id : Nat) : sealOf (wakeOne d id).met = sealOf d.met := by
  unfold wakeOne
  repeat' split
  all_goals simp

@[simp] theorem wakePass_sealOf : sealOf (wakePass d).met = sealOf d.met := by
  unfold wakePass
  exact (foldl_sealOf wakeOne_sealOf _ _).trans (by simp)

@[simp] theorem wakeLoop_sealOf (n : Nat) : sealOf (wakeLoop n d).met = sealOf d.met := by
  induction n generalizing d with
  | zero => rfl
  | succ n ih => rw [wakeLoop, ih, wakePass_sealOf]

@[simp] theorem wake_sealOf : sealOf (wake d).met = sealOf d.met := by simp [wake]

@[simp] theorem firmwareGivesUp_sealOf (n : Mbx) : sealOf (firmwareGivesUp d n).met = sealOf d.met := by
  have h := choose_met d (none :: some none :: (d.running.filter fun r => r.mbx = n).map (some ∘ some))
  unfold firmwareGivesUp
  split
  all_goals
    next heq =>
      rw [heq] at h
      simp [← h]

/-! ### Time, the event tap and the records -/

@[simp] theorem passTime_sealOf (ns : Nat) : sealOf (passTime d ns).met = sealOf d.met := by
  unfold passTime
  dsimp only
  split
  · simp
  · rw [withMet_sealOf fun _ => by rfl]
    simp

@[simp] theorem endTick_sealOf : sealOf (endTick d).met = sealOf d.met := by simp [endTick]

@[simp] theorem metLog_sealOf (kind : Byte) (detail : Nat) : sealOf (metLog d kind detail).met = sealOf d.met := by
  unfold metLog
  split <;> simp

@[simp] theorem takeTap_sealOf (e : TapEntry) : sealOf (takeTap d e).met = sealOf d.met := by
  unfold takeTap
  dsimp only
  repeat' split
  · rw [metLog_sealOf, withMet_sealOf fun _ => by rfl, withMet_sealOf fun _ => by rfl, withMet_sealOf fun _ => by rfl]
  · rw [metLog_sealOf, withMet_sealOf fun _ => by rfl, withMet_sealOf fun _ => by rfl]
  · rw [withMet_sealOf (countEvent_sealOf · e), withMet_sealOf fun _ => by rfl, withMet_sealOf fun _ => by rfl]

@[simp] theorem endDue_sealOf : sealOf (endDue d).met = sealOf d.met := by
  unfold endDue
  split <;> simp

@[simp] theorem drainTap_sealOf : sealOf (drainTap d).met = sealOf d.met := by
  rw [drainTap, foldl_sealOf takeTap_sealOf, endDue_sealOf, withMet_sealOf fun _ => by rfl]

@[simp] theorem endExtension_sealOf : sealOf (endExtension d).met = sealOf d.met := by
  unfold endExtension
  split <;> simp

@[simp] theorem endOpenCommits_sealOf : sealOf (endOpenCommits d).met = sealOf d.met := by
  unfold endOpenCommits
  refine foldl_sealOf (fun d r => ?_) _ _
  split <;> simp

/-! ### Resets, start-up and lost clocks -/

@[simp] theorem bootEntry_sealOf (version : BitVec 16) : sealOf (bootEntry d version).met = sealOf d.met := by
  unfold bootEntry
  split <;> simp

@[simp] theorem bootCores_sealOf : sealOf (bootCores d).met = sealOf d.met := by simp [bootCores]

@[simp] theorem recover_sealOf : sealOf (recover d).met = sealOf d.met := by
  unfold recover
  dsimp only
  split <;> simp

@[simp] theorem resumeBoot_sealOf : sealOf (resumeBoot d).met = sealOf d.met := by
  unfold resumeBoot
  split <;> simp

@[simp] theorem resumeHold_sealOf (bad : Nat → Bool) : sealOf (resumeHold d bad).met = sealOf d.met := by
  unfold resumeHold
  dsimp only
  repeat' split
  all_goals
    simp
    rfl

@[simp] theorem islandReset_sealOf : sealOf (islandReset d).met = sealOf d.met := by
  unfold islandReset
  dsimp only
  rw [withMet_sealOf fun _ => by rfl]
  split <;> simp

@[simp] theorem dieReset_sealOf (kind : BitVec 3) (hbmKept : Bool) : sealOf (dieReset d kind hbmKept).met = sealOf d.met := by
  have h : (dieReset d kind hbmKept).met = (zeroStores (islandReset d)).met := rfl
  simp [h]

@[simp] theorem deviceReset_sealOf (kind : BitVec 3) : sealOf (deviceReset d kind).met = sealOf d.met := by
  unfold deviceReset
  split <;> simp

@[simp] theorem startUp_sealOf (b : BootInputs) : sealOf (startUp d b).met = sealOf d.met := by
  unfold startUp
  dsimp only
  repeat' split
  all_goals simp

@[simp] theorem linkLost_sealOf : sealOf (linkLost d).met = sealOf d.met := by
  unfold linkLost
  dsimp only
  refine (foldl_sealOf (fun d n => ?_) _ _).trans (by simp)
  split <;> simp

@[simp] theorem clockLost_sealOf (i : Nat) : sealOf (clockLost d i).met = sealOf d.met := by
  unfold clockLost
  repeat' split
  all_goals simp

@[simp] theorem recordError_sealOf (o : Nat) : sealOf (recordError d o).met = sealOf d.met := by
  unfold recordError
  dsimp only
  split
  · simp
  · rw [withMet_sealOf fun _ => by rfl]
    simp

/-! ### Register accesses -/

@[simp] theorem writeRecover_sealOf (w : Word) : sealOf (writeRecover d w).met = sealOf d.met := by
  unfold writeRecover
  dsimp only
  repeat' split
  all_goals simp

@[simp] theorem writeReg_sealOf (r : Reg) (w : Word) : sealOf (writeReg d r w).met = sealOf d.met := by
  unfold writeReg
  split
  case h_2 => split <;> simp
  all_goals simp

@[simp] theorem collect_sealOf : sealOf (collect d).met = sealOf d.met := by
  rw [collect, endExtension_sealOf, withMet_sealOf fun _ => by rfl]

@[simp] theorem markRead_sealOf (o n : Nat) : sealOf (markRead d o n).met = sealOf d.met := by
  unfold markRead
  split <;> rfl

@[simp] theorem readEffect_sealOf (r : Reg) : sealOf (readEffect d r).met = sealOf d.met := by
  unfold readEffect
  repeat' split
  all_goals simp

@[simp] theorem readWord_sealOf (o : Nat) : sealOf (readWord d o).met = sealOf d.met := by
  unfold readWord
  split <;> simp
end


/-! ### What the commands leave -/

/-- Where the outcome is a next state, its seal state and its test port are those of `s`. -/
def SealKept (s : State) (o : Host.Outcome State Fault Refusal) : Prop :=
  ∀ t, o = .next t → sealOf t.dev.met = sealOf s.dev.met

section
variable (s : State)

@[simp] theorem sealKept_next (t : State) : SealKept s (.next t) ↔ sealOf t.dev.met = sealOf s.dev.met := by
  simp [SealKept]

@[simp] theorem settled_sealOf (d : Dev) : sealOf (settled s d).dev.met = sealOf d.met := by simp [settled]

@[simp] theorem sealKept_finish (d : Dev) : SealKept s (finish s d) ↔ sealOf d.met = sealOf s.dev.met := by
  simp [finish_eq]

@[simp] theorem issue_sealKept (n : Mbx) (h : Hdr) (c : Cmd) : SealKept s (issue n h c s) := by
  unfold issue
  dsimp only
  split <;> simp

@[simp] theorem hostWrite_sealKept (r : Reg) (w : Word) : SealKept s (hostWrite s r w) := by
  unfold hostWrite
  split <;> simp

@[simp] theorem hostRead_sealKept (o : Nat) : SealKept s (hostRead s o) := by
  unfold hostRead
  repeat' split
  all_goals simp

@[simp] theorem execSubmissionTailDoorbell_sealKept (n : Mbx) (tail : Word) (stores : List HostStore) :
    SealKept s (execSubmissionTailDoorbell n tail stores s) := by
  unfold execSubmissionTailDoorbell
  dsimp only
  repeat' split
  all_goals simp

@[simp] theorem execCompletionHeadDoorbell_sealKept (n : Mbx) (head : Word) :
    SealKept s (execCompletionHeadDoorbell n head s) := by
  unfold execCompletionHeadDoorbell
  dsimp only
  repeat' split
  all_goals simp

@[simp] theorem execMailboxEnable_sealKept (n : Mbx) (value : Word) : SealKept s (execMailboxEnable n value s) := by
  unfold execMailboxEnable
  split <;> simp

@[simp] theorem execMailboxDisable_sealKept (n : Mbx) (value : Word) : SealKept s (execMailboxDisable n value s) := by
  unfold execMailboxDisable
  split <;> simp

@[simp] theorem execCommandStart_sealKept (n : Mbx) : SealKept s (execCommandStart n s) := by
  simp [execCommandStart]

@[simp] theorem execPlanEntryStart_sealKept (resource : BitVec 16) (appended : List PlanEntry) :
    SealKept s (execPlanEntryStart resource appended s) := by
  unfold execPlanEntryStart
  dsimp only
  repeat' split
  all_goals simp

@[simp] theorem execCompressEntryDone_sealKept (resource : BitVec 16) (engineFault : Bool) :
    SealKept s (execCompressEntryDone resource engineFault s) := by
  unfold execCompressEntryDone
  dsimp only
  repeat' split
  all_goals simp

@[simp] theorem execCodecEntryDone_sealKept (resource : BitVec 16) : SealKept s (execCodecEntryDone resource s) := by
  unfold execCodecEntryDone
  dsimp only
  repeat' split
  all_goals simp

@[simp] theorem execTransmitEntryDone_sealKept (p : Port) : SealKept s (execTransmitEntryDone p s) := by
  unfold execTransmitEntryDone
  dsimp only
  repeat' split
  all_goals simp

@[simp] theorem execPlacementTakesEffect_sealKept (fn : MovFn) : SealKept s (execPlacementTakesEffect fn s) := by
  unfold execPlacementTakesEffect
  split <;> simp

@[simp] theorem execTickBoundary_sealKept (firmwarePlan : List PlanEntry) (vcoreSettled : Bool) :
    SealKept s (execTickBoundary firmwarePlan vcoreSettled s) := by
  unfold execTickBoundary
  split <;> simp

@[simp] theorem execEraBoundary_sealKept : SealKept s (execEraBoundary s) := by
  unfold execEraBoundary
  dsimp only
  repeat' split
  all_goals simp

@[simp] theorem execTickWrapEraChange_sealKept : SealKept s (execTickWrapEraChange s) := by
  unfold execTickWrapEraChange
  dsimp only
  split <;> simp

@[simp] theorem execGroupSlip_sealKept (group : Fin 256) : SealKept s (execGroupSlip group s) := by
  unfold execGroupSlip
  dsimp only
  repeat' split
  all_goals simp

@[simp] theorem execGroupStalled_sealKept (group : Fin 256) : SealKept s (execGroupStalled group s) := by
  unfold execGroupStalled
  dsimp only
  repeat' split
  all_goals simp

@[simp] theorem execTickReportSend_sealKept : SealKept s (execTickReportSend s) := by
  unfold execTickReportSend
  dsimp only
  repeat' split
  all_goals simp

@[simp] theorem execTickReport_sealKept (p : Port) (h : LysHdr) (window : BitVec 48) (count : BitVec 16) :
    SealKept s (execTickReport p h window count s) := by
  unfold execTickReport
  dsimp only
  split <;> simp

@[simp] theorem execLeapLower_sealKept : SealKept s (execLeapLower s) := by
  unfold execLeapLower
  dsimp only
  repeat' split
  all_goals simp

@[simp] theorem execTickFrame_sealKept (p : Port) (h : LysHdr) (b : TickBody) (measuredOffset : Int) :
    SealKept s (execTickFrame p h b measuredOffset s) := by
  unfold execTickFrame
  dsimp only
  repeat' split
  all_goals simp

@[simp] theorem execTickLock_sealKept : SealKept s (execTickLock s) := by
  unfold execTickLock
  dsimp only
  split <;> simp

@[simp] theorem execCableFault_sealKept : SealKept s (execCableFault s) := by
  unfold execCableFault
  split <;> simp

@[simp] theorem execPeerDelaySend_sealKept (p : Port) : SealKept s (execPeerDelaySend p s) := by
  unfold execPeerDelaySend
  dsimp only
  split <;> simp

@[simp] theorem execPeerDelayRequest_sealKept (p : Port) (h : LysHdr) (number : BitVec 16) (received : WireTime) :
    SealKept s (execPeerDelayRequest p h number received s) := by
  unfold execPeerDelayRequest
  dsimp only
  split <;> simp

@[simp] theorem execPeerDelayResponse_sealKept (p : Port) (h : LysHdr) (number : BitVec 16) (t2 t3 t4 : WireTime) :
    SealKept s (execPeerDelayResponse p h number t2 t3 t4 s) := by
  unfold execPeerDelayResponse
  dsimp only
  repeat' split
  all_goals simp

@[simp] theorem execHoldoverEntry_sealKept : SealKept s (execHoldoverEntry s) := by
  unfold execHoldoverEntry
  dsimp only
  split <;> simp

@[simp] theorem execElectionStart_sealKept : SealKept s (execElectionStart s) := by
  unfold execElectionStart
  dsimp only
  split <;> simp

@[simp] theorem execProclamationSend_sealKept : SealKept s (execProclamationSend s) := by
  unfold execProclamationSend
  dsimp only
  split <;> simp

@[simp] theorem execProclamation_sealKept (p : Port) (h : LysHdr) (b : ProcBody) :
    SealKept s (execProclamation p h b s) := by
  unfold execProclamation
  dsimp only
  repeat' split
  all_goals simp

@[simp] theorem execBecomeMaster_sealKept : SealKept s (execBecomeMaster s) := by
  unfold execBecomeMaster
  dsimp only
  repeat' split
  all_goals simp

@[simp] theorem execAlmanacLost_sealKept : SealKept s (execAlmanacLost s) := by
  unfold execAlmanacLost
  dsimp only
  split <;> simp

@[simp] theorem execEraFrame_sealKept (p : Port) (h : LysHdr) (b : ProcBody) : SealKept s (execEraFrame p h b s) := by
  unfold execEraFrame
  dsimp only
  repeat' split
  all_goals simp

@[simp] theorem execEraFramePeriodic_sealKept : SealKept s (execEraFramePeriodic s) := by
  unfold execEraFramePeriodic
  dsimp only
  repeat' split
  all_goals simp

@[simp] theorem execTopologyForm_sealKept : SealKept s (execTopologyForm s) := by
  unfold execTopologyForm
  dsimp only
  split <;> simp

@[simp] theorem execTopologyMissing_sealKept : SealKept s (execTopologyMissing s) := by
  unfold execTopologyMissing
  dsimp only
  split <;> simp

@[simp] theorem execTopologySegment_sealKept (p : Port) (h : LysHdr) (b : TopoBody) :
    SealKept s (execTopologySegment p h b s) := by
  unfold execTopologySegment
  dsimp only
  repeat' split
  all_goals simp

@[simp] theorem execHelloSend_sealKept (p : Port) : SealKept s (execHelloSend p s) := by
  unfold execHelloSend
  dsimp only
  split <;> simp

@[simp] theorem execHello_sealKept (p : Port) (h : LysHdr) (b : HelloBody) : SealKept s (execHello p h b s) := by
  unfold execHello
  dsimp only
  repeat' split
  all_goals simp

@[simp] theorem execLinkReport_sealKept (p : Port) (h : LysHdr) (b : ReportBody) : SealKept s (execLinkReport p h b s) := by
  unfold execLinkReport
  dsimp only
  split <;> simp

@[simp] theorem execJoinRequest_sealKept (p : Port) (h : LysHdr) (b : ReportBody) :
    SealKept s (execJoinRequest p h b s) := by
  unfold execJoinRequest
  dsimp only
  split <;> simp

@[simp] theorem execJoinAnnounce_sealKept : SealKept s (execJoinAnnounce s) := by
  unfold execJoinAnnounce
  dsimp only
  repeat' split
  all_goals simp

@[simp] theorem execMemberLost_sealKept (p : Port) (h : LysHdr) (member : BitVec 12) :
    SealKept s (execMemberLost p h member s) := by
  unfold execMemberLost
  dsimp only
  split <;> simp

@[simp] theorem execChildAttach_sealKept (p : Port) (h : LysHdr) : SealKept s (execChildAttach p h s) := by
  unfold execChildAttach
  dsimp only
  split <;> simp

@[simp] theorem execDuplicateNotice_sealKept (p : Port) (h : LysHdr) (serial : BitVec 64) :
    SealKept s (execDuplicateNotice p h serial s) := by
  unfold execDuplicateNotice
  dsimp only
  repeat' split
  all_goals simp

@[simp] theorem execReAsk_sealKept (p : Port) (h : LysHdr) (reason : BitVec 8) (missing : BitVec 32) :
    SealKept s (execReAsk p h reason missing s) := by
  unfold execReAsk
  dsimp only
  repeat' split
  all_goals simp

@[simp] theorem execAckTimeout_sealKept (p : Port) (stream : Bool) (handle : BitVec 16) (seq : BitVec 32) :
    SealKept s (execAckTimeout p stream handle seq s) := by
  unfold execAckTimeout
  repeat' split
  all_goals simp

@[simp] theorem execAck_sealKept (p : Port) (h : LysHdr) : SealKept s (execAck p h s) := by
  unfold execAck
  dsimp only
  repeat' split
  all_goals simp

@[simp] theorem execChunkSegment_sealKept (p : Port) (h : LysHdr) (payload : List Byte) :
    SealKept s (execChunkSegment p h payload s) := by
  unfold execChunkSegment
  dsimp only
  repeat' split
  all_goals simp

@[simp] theorem execReasmTimeout_sealKept (p : Port) (stream : Bool) (handle : BitVec 16) (seq : BitVec 32) :
    SealKept s (execReasmTimeout p stream handle seq s) := by
  unfold execReasmTimeout
  split <;> simp

@[simp] theorem execSlipNotice_sealKept (p : Port) (h : LysHdr) (tick : BitVec 48) (group : BitVec 16)
    (count : BitVec 32) :
    SealKept s (execSlipNotice p h tick group count s) := by
  unfold execSlipNotice
  dsimp only
  repeat' split
  all_goals simp

@[simp] theorem execExponentNotice_sealKept (p : Port) (h : LysHdr) (group : BitVec 16) (bucket exponent : BitVec 8) :
    SealKept s (execExponentNotice p h group bucket exponent s) := by
  unfold execExponentNotice
  dsimp only
  repeat' split
  all_goals simp

@[simp] theorem execGrant_sealKept (p : Port) (h : LysHdr) (limit : BitVec 32) : SealKept s (execGrant p h limit s) := by
  unfold execGrant
  dsimp only
  split <;> simp

@[simp] theorem execAdopt_sealKept (p : Port) (h : LysHdr) (first : BitVec 32) : SealKept s (execAdopt p h first s) := by
  unfold execAdopt
  dsimp only
  repeat' split
  all_goals simp

@[simp] theorem execAdoptReply_sealKept (p : Port) (h : LysHdr) (first : BitVec 32) (accepted : Bool) :
    SealKept s (execAdoptReply p h first accepted s) := by
  unfold execAdoptReply
  dsimp only
  repeat' split
  all_goals simp

@[simp] theorem execAbort_sealKept (p : Port) (h : LysHdr) (status : BitVec 16) : SealKept s (execAbort p h status s) := by
  unfold execAbort
  dsimp only
  repeat' split
  all_goals simp

@[simp] theorem execHandoffBegin_sealKept (p : Port) (h : LysHdr) (first positions : BitVec 32)
    (firstLayer layersM1 bppUnits format : BitVec 8) :
    SealKept s (execHandoffBegin p h first positions firstLayer layersM1 bppUnits format s) := by
  unfold execHandoffBegin
  dsimp only
  repeat' split
  case h_2 room => simp [handoffRoom_met room]
  all_goals simp

@[simp] theorem execHandoffReply_sealKept (p : Port) (h : LysHdr) (status : BitVec 16) (limit : BitVec 32) :
    SealKept s (execHandoffReply p h status limit s) := by
  unfold execHandoffReply
  dsimp only
  repeat' split
  all_goals simp

@[simp] theorem execHandoffGrant_sealKept (p : Port) (h : LysHdr) (limit : BitVec 32) :
    SealKept s (execHandoffGrant p h limit s) := by
  unfold execHandoffGrant
  dsimp only
  repeat' split
  all_goals simp

@[simp] theorem execHandoffDone_sealKept (p : Port) (h : LysHdr) (status : BitVec 16) :
    SealKept s (execHandoffDone p h status s) := by
  unfold execHandoffDone
  dsimp only
  repeat' split
  all_goals simp

@[simp] theorem execCredit_sealKept (p : Port) (h : LysHdr) (limits : Vector (BitVec 30) 4) :
    SealKept s (execCredit p h limits s) := by
  unfold execCredit
  dsimp only
  split <;> simp

@[simp] theorem execCreditSend_sealKept (p : Port) : SealKept s (execCreditSend p s) := by
  unfold execCreditSend
  split <;> simp

@[simp] theorem execCreditSyncSend_sealKept (p : Port) : SealKept s (execCreditSyncSend p s) := by
  unfold execCreditSyncSend
  dsimp only
  split <;> simp

@[simp] theorem execCreditSync_sealKept (p : Port) (h : LysHdr) (sent : Vector (BitVec 30) 4) :
    SealKept s (execCreditSync p h sent s) := by
  unfold execCreditSync
  dsimp only
  repeat' split
  all_goals simp

@[simp] theorem execLaneSwap_sealKept (p : Port) (h : LysHdr) (kind lane : BitVec 8) (swapTick : BitVec 48) :
    SealKept s (execLaneSwap p h kind lane swapTick s) := by
  unfold execLaneSwap
  dsimp only
  repeat' split
  all_goals simp

@[simp] theorem execLaneSwapExecute_sealKept (p : Port) : SealKept s (execLaneSwapExecute p s) := by
  unfold execLaneSwapExecute
  dsimp only
  repeat' split
  all_goals simp

@[simp] theorem execLaneDegraded_sealKept (p : Port) (lane : Fin 4) : SealKept s (execLaneDegraded p lane s) := by
  unfold execLaneDegraded
  dsimp only
  repeat' split
  all_goals simp

@[simp] theorem execLaneSignalLoss_sealKept (p : Port) (lane : Fin 4) (peerSpareFree : Bool) :
    SealKept s (execLaneSignalLoss p lane peerSpareFree s) := by
  unfold execLaneSignalLoss
  dsimp only
  repeat' split
  all_goals simp

@[simp] theorem execMacControlFrame_sealKept (p : Port) : SealKept s (execMacControlFrame p s) := by
  unfold execMacControlFrame
  split <;> simp

@[simp] theorem execFcsErrorFrame_sealKept (p : Port) (badFcs : Bool) : SealKept s (execFcsErrorFrame p badFcs s) := by
  unfold execFcsErrorFrame
  repeat' split
  all_goals simp

@[simp] theorem execUnlistedFrameType_sealKept (p : Port) : SealKept s (execUnlistedFrameType p s) := by
  unfold execUnlistedFrameType
  split <;> simp

@[simp] theorem execPortUp_sealKept (p : Port) (rate : BitVec 2) (limits : Vector (BitVec 30) 4) :
    SealKept s (execPortUp p rate limits s) := by
  unfold execPortUp
  dsimp only
  repeat' split
  all_goals simp

@[simp] theorem execPortDown_sealKept (p : Port) : SealKept s (execPortDown p s) := by
  unfold execPortDown
  dsimp only
  repeat' split
  all_goals simp

@[simp] theorem execQuadSettled_sealKept (q : Quad) : SealKept s (execQuadSettled q s) := by
  unfold execQuadSettled
  dsimp only
  repeat' split
  all_goals simp

@[simp] theorem execIntervalEnd_sealKept : SealKept s (execIntervalEnd s) := by
  unfold execIntervalEnd
  split <;> simp

@[simp] theorem execTapEntryTake_sealKept : SealKept s (execTapEntryTake s) := by
  unfold execTapEntryTake
  repeat' split
  all_goals simp

@[simp] theorem execIslandSupplyLoss_sealKept : SealKept s (execIslandSupplyLoss s) := by
  unfold execIslandSupplyLoss
  dsimp only
  split
  · simp
  · rw [sealKept_finish, withMet_sealOf fun _ => by rfl]
    split <;> simp

@[simp] theorem execClockAnomaly_sealKept (deviation : BitVec 16) : SealKept s (execClockAnomaly deviation s) := by
  unfold execClockAnomaly
  split
  · rw [sealKept_finish, metLog_sealOf, withMet_sealOf fun _ => by rfl]
  · simp

@[simp] theorem execBrownHoldEntry_sealKept (vcoreMv : BitVec 12) : SealKept s (execBrownHoldEntry vcoreMv s) := by
  unfold execBrownHoldEntry
  dsimp only
  repeat' split
  · simp
  · simp
  · rw [sealKept_finish, metLog_sealOf, withMet_sealOf fun _ => by rfl]
    simp

@[simp] theorem execRequalificationStart_sealKept (vcoreMv : BitVec 12) :
    SealKept s (execRequalificationStart vcoreMv s) := by
  unfold execRequalificationStart
  dsimp only
  split <;> simp

@[simp] theorem execBrownHoldResume_sealKept (failed : List Nat) : SealKept s (execBrownHoldResume failed s) := by
  unfold execBrownHoldResume
  dsimp only
  split <;> simp

@[simp] theorem execRequalificationComplete_sealKept : SealKept s (execRequalificationComplete s) := by
  unfold execRequalificationComplete
  dsimp only
  repeat' split
  all_goals simp

@[simp] theorem execBrownoutReset_sealKept : SealKept s (execBrownoutReset s) := by
  simp [execBrownoutReset]

@[simp] theorem execPowerReset_sealKept (aonLost : Bool) : SealKept s (execPowerReset aonLost s) := by
  unfold execPowerReset
  dsimp only
  split <;> simp

@[simp] theorem execFundamentalReset_sealKept : SealKept s (execFundamentalReset s) := by
  unfold execFundamentalReset
  split <;> simp

@[simp] theorem execDeviceReset_sealKept : SealKept s (execDeviceReset s) := by
  unfold execDeviceReset
  split <;> simp

@[simp] theorem execSequenceError_sealKept : SealKept s (execSequenceError s) := by
  unfold execSequenceError
  dsimp only
  split <;> simp

@[simp] theorem execThermalTrip_sealKept : SealKept s (execThermalTrip s) := by
  unfold execThermalTrip
  dsimp only
  split <;> simp

@[simp] theorem execStartup_sealKept (b : BootInputs) : SealKept s (execStartup b s) := by
  unfold execStartup
  dsimp only
  split <;> simp

@[simp] theorem execThermalCompare_sealKept (readings : List (Nat × Nat)) : SealKept s (execThermalCompare readings s) := by
  unfold execThermalCompare
  dsimp only
  split <;> simp

@[simp] theorem execSensorTimeout_sealKept (sensor : Nat) : SealKept s (execSensorTimeout sensor s) := by
  unfold execSensorTimeout
  dsimp only
  repeat' split
  all_goals simp

@[simp] theorem execTickLogicFault_sealKept : SealKept s (execTickLogicFault s) := by
  unfold execTickLogicFault
  split <;> simp

@[simp] theorem execHostLinkDown_sealKept : SealKept s (execHostLinkDown s) := by
  unfold execHostLinkDown
  split <;> simp

@[simp] theorem execHostLinkUp_sealKept (width : BitVec 5) (speed : BitVec 3) (flit cxl hdm : Bool) :
    SealKept s (execHostLinkUp width speed flit cxl hdm s) := by
  unfold execHostLinkUp
  split <;> simp

@[simp] theorem execClockLockLoss_sealKept (domain : Fin 25) : SealKept s (execClockLockLoss domain s) := by
  unfold execClockLockLoss
  dsimp only
  split <;> simp

@[simp] theorem execClockLockRegained_sealKept (domain : Fin 25) : SealKept s (execClockLockRegained domain s) := by
  unfold execClockLockRegained
  dsimp only
  repeat' split
  all_goals simp

@[simp] theorem execTileFailure_sealKept (tile : Tile) : SealKept s (execTileFailure tile s) := by
  unfold execTileFailure
  dsimp only
  repeat' split
  all_goals simp

@[simp] theorem execEngineParityError_sealKept (tile : Tile) (engine : Fin 4) :
    SealKept s (execEngineParityError tile engine s) := by
  unfold execEngineParityError
  dsimp only
  repeat' split
  all_goals simp

@[simp] theorem execEntryOverrun_sealKept (resource : BitVec 16) : SealKept s (execEntryOverrun resource s) := by
  unfold execEntryOverrun
  dsimp only
  repeat' split
  all_goals simp

@[simp] theorem execTileCopyDone_sealKept (logical : Fin 64) : SealKept s (execTileCopyDone logical s) := by
  unfold execTileCopyDone
  dsimp only
  repeat' split
  all_goals simp

@[simp] theorem execTileSwitch_sealKept (logical : Fin 64) : SealKept s (execTileSwitch logical s) := by
  unfold execTileSwitch
  dsimp only
  repeat' split
  all_goals simp

@[simp] theorem execBankRepair_sealKept (tile : Tile) (bank : Fin 48) : SealKept s (execBankRepair tile bank s) := by
  unfold execBankRepair
  dsimp only
  repeat' split
  all_goals simp

@[simp] theorem execHbmRowRepair_sealKept (stack : Stack) (detail : Word) :
    SealKept s (execHbmRowRepair stack detail s) := by
  unfold execHbmRowRepair
  dsimp only
  repeat' split
  all_goals simp

@[simp] theorem execPageRetire_sealKept (stack : Stack) (page : Word) : SealKept s (execPageRetire stack page s) := by
  unfold execPageRetire
  dsimp only
  repeat' split
  case h_2 a e replaced =>
    have h : e.met = s.dev.met := takeReplacement_met replaced
    simp [h]
  all_goals simp

@[simp] theorem execUncorrectableEcc_sealKept (address : DevAddr) : SealKept s (execUncorrectableEcc address s) := by
  unfold execUncorrectableEcc
  dsimp only
  repeat' split
  all_goals simp

@[simp] theorem execBackgroundTask_sealKept (unit : Fin 90) (overdue passed : List (Fin 5)) :
    SealKept s (execBackgroundTask unit overdue passed s) := by
  have noted (l : List (Fin 5)) : (l.foldl noteOverdue s.dev).met = s.dev.met := foldl_met noteOverdue_met l s.dev
  unfold execBackgroundTask
  dsimp only
  repeat' split
  all_goals simp [noted]

@[simp] theorem execBreakpointHit_sealKept (core : CtrlCore) (slot : Fin 4) (pc : Word) :
    SealKept s (execBreakpointHit core slot pc s) := by
  unfold execBreakpointHit
  split <;> simp

@[simp] theorem execBar0Misaligned_sealKept (write : Bool) (offset : BitVec 26) (size : Nat) :
    SealKept s (execBar0Misaligned write offset size s) := by
  unfold execBar0Misaligned
  dsimp only
  repeat' split
  all_goals simp

@[simp] theorem execRegisterWrite_sealKept (offset : BitVec 26) (value : Word) :
    SealKept s (execRegisterWrite offset value s) := by
  unfold execRegisterWrite
  repeat' split
  all_goals simp

@[simp] theorem execBar4Read_sealKept (offset : Word) (length : Nat) : SealKept s (execBar4Read offset length s) := by
  unfold execBar4Read
  split <;> simp

@[simp] theorem execBar4Write_sealKept (offset : Word) (data : List Byte) : SealKept s (execBar4Write offset data s) := by
  unfold execBar4Write
  split <;> simp

@[simp] theorem execWindowRead_sealKept (offset : BitVec 40) (cached : Bool) :
    SealKept s (execWindowRead offset cached s) := by
  unfold execWindowRead
  split <;> simp

@[simp] theorem execWindowWrite_sealKept (offset : BitVec 40) (data : List Byte) :
    SealKept s (execWindowWrite offset data s) := by
  unfold execWindowWrite
  split <;> simp

@[simp] theorem execBirsp_sealKept (offset : BitVec 40) (dirty : Option (List Byte)) :
    SealKept s (execBirsp offset dirty s) := by
  unfold execBirsp
  dsimp only
  repeat' split
  all_goals simp

@[simp] theorem execStagingReadTimeout_sealKept (offset : BitVec 40) : SealKept s (execStagingReadTimeout offset s) := by
  unfold execStagingReadTimeout
  dsimp only
  split <;> simp

/-- The three commands of Table 11-4 set apart, no command changes the seal state or opens or closes the test port. -/
theorem exec_sealKept (c : Instr) (hboot : ∀ b, c ≠ .islandBoot b) (hdebug : c ≠ .islandDebugAccess)
    (hblow : c ≠ .sealFuseBlow) : SealKept s (exec c s) := by
  cases c
  case islandBoot b => exact absurd rfl (hboot b)
  case islandDebugAccess => exact absurd rfl hdebug
  case sealFuseBlow => exact absurd rfl hblow
  case init | setPlacement | setSeed | loadTree | openGroup | closeGroup | setTick | repairApprove | bindTenant |
      alloc | free | fwUpdate | createDesc | destroyDesc | loadOwners | topk | quant | lowrank | residualFlush |
      maskGen | bcast | reduceToOne | bucketOpen | bucketAdd | bucketSeal | streamOpen | streamClose | kvPut |
      kvHandoff | kvStage | kvCommit | kvEvict | traceStart | traceStop | watchTensor | breakSet | countersSnapshot |
      unknownOpcode =>
    exact issue_sealKept _ _ _ _
  case fplModeWrite | tickSnap | tikCableDlyWrite | trayWrite | designateMaster | undesignateMaster | pwrResetKey |
      recoverGo | openSettingWrite | halt | resume | step | watchCancel | intAck =>
    exact hostWrite_sealKept _ _ _
  case metCollectRead | loReadLatch | clvGrpStateRead | rcCounterRead | metRecRead =>
    exact hostRead_sealKept _ _
  all_goals simp [exec]

/-! ### The three commands of Table 11-4 -/

theorem SealKept.sealState_eq {s t : State} {o : Host.Outcome State Fault Refusal} (h : SealKept s o) (ho : o = .next t) :
    t.dev.met.sealState = s.dev.met.sealState := congrArg Prod.fst (h t ho)

theorem SealKept.portOpen_eq {s t : State} {o : Host.Outcome State Fault Refusal} (h : SealKept s o) (ho : o = .next t) :
    t.dev.met.portOpen = s.dev.met.portOpen := congrArg Prod.snd (h t ho)

variable {s} {t : State}

theorem finish_sealOf {d : Dev} (h : finish s d = .next t) : sealOf t.dev.met = sealOf d.met := by
  cases h
  exact settled_sealOf s d

theorem execIslandBoot_portOpen {b : Bool} (h : execIslandBoot b s = .next t) : t.dev.met.portOpen = s.dev.met.portOpen := by
  unfold execIslandBoot at h
  dsimp only at h
  split at h
  · cases h
    rfl
  · exact congrArg Prod.snd ((finish_sealOf h).trans (closeFull_sealOf _ _))

theorem execIslandDebugAccess_portOpen (h : execIslandDebugAccess s = .next t) :
    t.dev.met.portOpen = s.dev.met.portOpen := by
  unfold execIslandDebugAccess at h
  split at h
  · exact congrArg Prod.snd ((finish_sealOf h).trans (metLog_sealOf _ _ _))
  · cases h
    rfl

/-- Blowing the fuse takes a die of state 1 and an open port, or it leaves everything as it is. -/
theorem execSealFuseBlow_cases (h : execSealFuseBlow s = .next t) :
    t = s ∨ s.dev.met.sealState = 1 ∧ s.dev.met.portOpen = true ∧ t.dev.met.sealState = 2 ∧ t.dev.met.portOpen = false := by
  unfold execSealFuseBlow at h
  dsimp only at h
  split at h
  next hopen =>
    simp only [Bool.and_eq_true, decide_eq_true_eq] at hopen
    obtain ⟨⟨hstate, hport⟩, -⟩ := hopen
    have hseal := finish_sealOf h
    exact .inr ⟨hstate, hport, congrArg Prod.fst hseal, congrArg Prod.snd hseal⟩
  · cases h
    exact .inl rfl

theorem exec_portOpen_closed (c : Instr) (h : exec c s = .next t) (hclosed : s.dev.met.portOpen = false) :
    t.dev.met.portOpen = false := by
  by_cases hboot : ∃ b, c = .islandBoot b
  · obtain ⟨b, rfl⟩ := hboot
    exact (execIslandBoot_portOpen h).trans hclosed
  by_cases hdebug : c = .islandDebugAccess
  · subst hdebug
    exact (execIslandDebugAccess_portOpen h).trans hclosed
  by_cases hblow : c = .sealFuseBlow
  · subst hblow
    obtain rfl | ⟨-, -, -, hport⟩ := execSealFuseBlow_cases h
    · exact hclosed
    · exact hport
  · have hkept := exec_sealKept s c (fun b hb => hboot ⟨b, hb⟩) hdebug hblow
    exact (hkept.portOpen_eq h).trans hclosed
end

/-- Settles O51: every command but the three of Table 11-4 keeps the seal state and the port (`exec_sealKept`), and
those three are looked at one by one. -/
theorem sealStateKept : Obligations.SealStateKept := by
  refine ⟨fun c s t h hboot hdebug hblow => (exec_sealKept s c hboot hdebug hblow).sealState_eq h, fun s t h hchanged => ?_,
    fun c s t h hclosed => exec_portOpen_closed c h hclosed⟩
  obtain rfl | hblown := execSealFuseBlow_cases h
  · exact absurd rfl hchanged
  · exact hblown

end Sys2Proof.Machine
end

section
/-!
SUPPORT. The open setting (R628): which labels the bound user mailboxes have, when they are all one, and what a write of
1 to DBG_CTRL.open makes of the setting and of DBG_EVENT.
-/
namespace Sys2Proof.Machine

/-! ### The labels of the bound user mailboxes -/

/-- The labels to which user mailboxes are bound, one entry for each bound mailbox. -/
def userLabels (d : Dev) : List Byte :=
  (List.range 64).filterMap fun n =>
    if (vget d.mbx n Mailbox.reset).bound then some (vget d.mbx n Mailbox.reset).label else none

theorem vget_mbx (d : Dev) (i : Mbx) (dflt : Mailbox) : vget d.mbx i.val dflt = mailbox d i := dif_pos i.isLt

theorem mem_userLabels_iff {d : Dev} {l : Byte} :
    l ∈ userLabels d ↔ ∃ i : Mbx, i.val < 64 ∧ (mailbox d i).bound = true ∧ (mailbox d i).label = l := by
  simp only [userLabels, List.mem_filterMap, List.mem_range, Option.ite_none_right_eq_some, Option.some.injEq]
  constructor
  · rintro ⟨n, hn, h⟩
    exact ⟨⟨n, by omega⟩, hn, by rwa [← vget_mbx]⟩
  · rintro ⟨i, hi, h⟩
    exact ⟨i.val, hi, by rwa [vget_mbx]⟩

theorem oneLabel_iff_userLabels {d : Dev} :
    oneLabel d = true ↔ ∀ k ∈ userLabels d, ∀ l ∈ userLabels d, l = k := by
  show ((userLabels d).all fun k => (userLabels d).all (· = k)) = true ↔ _
  simp only [List.all_eq_true, decide_eq_true_eq]

/-- Any two bound user mailboxes are bound to one label (R628); so it is where none is bound. -/
def BoundToOneLabel (d : Dev) : Prop :=
  ∀ i j : Mbx, i.val < 64 → j.val < 64 → (mailbox d i).bound = true → (mailbox d j).bound = true →
    (mailbox d i).label = (mailbox d j).label

theorem oneLabel_iff {d : Dev} : oneLabel d = true ↔ BoundToOneLabel d := by
  rw [oneLabel_iff_userLabels]
  constructor
  · intro h i j hi hj bi bj
    exact h _ (mem_userLabels_iff.mpr ⟨j, hj, bj, rfl⟩) _ (mem_userLabels_iff.mpr ⟨i, hi, bi, rfl⟩)
  · intro h k hk l hl
    obtain ⟨i, hi, bi, rfl⟩ := mem_userLabels_iff.mp hk
    obtain ⟨j, hj, bj, rfl⟩ := mem_userLabels_iff.mp hl
    exact h j i hj hi bj bi

/-! ### The write -/

theorem hostWrite_served {s : State} (hserved : HostServed s.dev) (r : Reg) (w : Word) :
    hostWrite s r w = .next (settled s (writeReg s.dev r w)) := by
  obtain ⟨hlink, hreset, hready⟩ := hserved
  have served : writeServed s.dev r = true := by simp [writeServed, bar0Open, bar0Answers, hlink, hreset, hready]
  rw [hostWrite, if_pos served, finish_eq]

section
variable {d : Dev} {w : Word} (hw : w.getLsbD 0 = true)
include hw

theorem writeDbgCtrl_of_oneLabel (hone : oneLabel d = true) :
    (writeDbgCtrl d w).dbg = { d.dbg with itrace := BitVec.ofNat 4 (w.toNat / 16), openSet := true } := by
  have one : oneLabel (withDbg d fun x => { x with itrace := BitVec.ofNat 4 (w.toNat / 16) }) = true := hone
  rw [writeDbgCtrl, hw, writeOpen, if_pos rfl, one, Bool.or_true, if_pos rfl]
  rfl

theorem writeDbgCtrl_of_not_oneLabel (hopen : d.dbg.openSet = false) (hone : oneLabel d = false) :
    (writeDbgCtrl d w).dbg
      = { d.dbg with itrace := BitVec.ofNat 4 (w.toNat / 16), event := d.dbg.event ||| 4 } := by
  have closed : (withDbg d fun x => { x with itrace := BitVec.ofNat 4 (w.toNat / 16) }).dbg.openSet = false := hopen
  have several : oneLabel (withDbg d fun x => { x with itrace := BitVec.ofNat 4 (w.toNat / 16) }) = false := hone
  rw [writeDbgCtrl, hw, writeOpen, if_pos rfl, closed, several, Bool.or_false, if_neg Bool.false_ne_true]
  rfl

end

/-- Settles O56: the device left is the one that the write of DBG_CTRL makes, and `oneLabel` tells the two cases of R628
apart. -/
theorem openSettingNeedsOneLabel : Obligations.OpenSettingNeedsOneLabel := by
  intro s w hserved hw hclosed
  refine ⟨writeDbgCtrl s.dev w, hostWrite_served hserved .dbgCtrl w, fun hone => ?takesEffect, ?refused⟩
  case takesEffect =>
    rw [writeDbgCtrl_of_oneLabel hw (oneLabel_iff.mpr hone)]
    exact ⟨rfl, rfl⟩
  case refused =>
    rintro ⟨i, j, hi, hj, bi, bj, hne⟩
    have several : oneLabel s.dev = false :=
      Bool.eq_false_iff.mpr fun one => hne (oneLabel_iff.mp one i j hi hj bi bj)
    rw [writeDbgCtrl_of_not_oneLabel hw hclosed several]
    exact ⟨hclosed, rfl⟩

end Sys2Proof.Machine
end

section
/-!
SUPPORT. The 64-byte command entry (Table 5-3): its bytes, and that the decoder reads back each field at the place where
the encoder puts it.
-/
namespace Sys2Proof.Machine

/-! ### Little-endian fields -/

@[simp] theorem leBytes_length (n v : Nat) : (leBytes n v).length = n := by
  induction n generalizing v with
  | zero => rfl
  | succ n ih => rw [leBytes, List.length_cons, ih]

@[simp] theorem zeros_length (n : Nat) : (zeros n).length = n := List.length_replicate

theorem fromLe_leBytes (n v : Nat) : fromLe (leBytes n v) = v % 256 ^ n := by
  induction n generalizing v with
  | zero => rw [leBytes, fromLe, pow_zero, Nat.mod_one]
  | succ n ih =>
    rw [leBytes, fromLe, ih, BitVec.toNat_ofNat, pow_succ' 256, Nat.mod_mul]

/-- A field past a piece of the entry is a field of what comes after the piece. -/
theorem field_append_right {as : List Byte} {i : Nat} (h : as.length ≤ i) (bs : List Byte) (n : Nat) :
    field (as ++ bs) i n = field bs (i - as.length) n := by
  rw [field, field, List.drop_append, List.drop_of_length_le h, List.nil_append]

theorem field_leBytes (n v : Nat) (bs : List Byte) : field (leBytes n v ++ bs) 0 n = v % 256 ^ n := by
  rw [field, List.drop_zero, List.take_left' (leBytes_length n v), fromLe_leBytes]

section
variable {w n i : Nat} (bs : List Byte)

theorem fieldBv_skip_leBytes (h : n ≤ i) (v : Nat) : fieldBv w (leBytes n v ++ bs) i = fieldBv w bs (i - n) := by
  rw [fieldBv, field_append_right (by simpa using h), leBytes_length, fieldBv]

theorem fieldBv_skip_zeros (h : n ≤ i) : fieldBv w (zeros n ++ bs) i = fieldBv w bs (i - n) := by
  rw [fieldBv, field_append_right (by simpa using h), zeros_length, fieldBv]

theorem bitOf_skip_leBytes (h : n ≤ i) (v : Nat) : bitOf (leBytes n v ++ bs) i = bitOf bs (i - n) := by
  rw [bitOf, field_append_right (by simpa using h), leBytes_length, bitOf]

/-- A field that is as wide as its bytes, or narrower, reads back. -/
theorem fieldBv_leBytes (hw : w ≤ 8 * n) (hn : 8 * n < w + 8) (v : BitVec w) :
    fieldBv w (leBytes n v.toNat ++ bs) 0 = v := by
  have bytes : ceilDiv w 8 = n := by unfold ceilDiv; omega
  have fits : v.toNat < 256 ^ n := by
    calc v.toNat < 2 ^ w := v.isLt
      _ ≤ 2 ^ (8 * n) := Nat.pow_le_pow_right (by decide) hw
      _ = 256 ^ n := pow_mul 2 8 n
  rw [fieldBv, bytes, field_leBytes, Nat.mod_eq_of_lt fits, BitVec.ofNat_toNat, BitVec.setWidth_eq]

theorem bitOf_leBytes (b : Bool) : bitOf (leBytes 1 b.toNat ++ bs) 0 = b := by
  rw [bitOf, field_leBytes]
  cases b <;> rfl

end

/-! ### The pieces of an entry -/

theorem fit_of_le {n : Nat} {bs : List Byte} (h : bs.length ≤ n) : fit n bs = bs ++ zeros (n - bs.length) := by
  rw [fit, List.take_of_length_le h, zeros]

@[simp] theorem fit_length (n : Nat) (bs : List Byte) : (fit n bs).length = n := by
  rw [fit, List.length_append, List.length_take, List.length_replicate]
  omega

@[simp] theorem compressBytes_length (o : CompressOps) : (compressBytes o).length = 30 := by simp [compressBytes]

/-- No row of the operand tables takes more than the 48 bytes of an entry. -/
theorem operandBytes_length_le (c : Cmd) : (operandBytes c).length ≤ 48 := by
  cases c <;> simp [operandBytes]

theorem encodeEntry_length (h : Hdr) (c : Cmd) : (encodeEntry h c).length = 64 := by simp [encodeEntry]

theorem field_encodeEntry_opcode (h : Hdr) (c : Cmd) : field (encodeEntry h c) 0 2 = (cmdOpcode c).toNat := by
  simp only [encodeEntry, List.append_assoc, field_leBytes]
  exact Nat.mod_eq_of_lt (cmdOpcode c).isLt

/-- The first 16 bytes of an entry. -/
def entryHead (h : Hdr) (c : Cmd) : List Byte :=
  leBytes 2 (cmdOpcode c).toNat ++ leBytes 2 h.flags.toNat ++ leBytes 2 h.tag.toNat ++ leBytes 2 h.layer.toNat
    ++ leBytes 2 h.operator.toNat ++ leBytes 2 h.handle.toNat ++ leBytes 4 h.tickHint.toNat

/-- The operands with what fills the entry up. -/
def paddedOperands (c : Cmd) : List Byte := operandBytes c ++ zeros (48 - (operandBytes c).length)

theorem encodeEntry_eq (h : Hdr) (c : Cmd) : encodeEntry h c = entryHead h c ++ paddedOperands c := by
  rw [encodeEntry, fit_of_le (operandBytes_length_le c)]
  rfl

theorem decodeHdr_encodeEntry (h : Hdr) (c : Cmd) : decodeHdr (encodeEntry h c) = h := by
  simp [decodeHdr, encodeEntry, fieldBv_skip_leBytes, fieldBv_leBytes]

section
variable {w i : Nat} (h : Hdr) (c : Cmd) (hi : 16 ≤ i)
include hi

theorem field_encodeEntry (n : Nat) : field (encodeEntry h c) i n = field (paddedOperands c) (i - 16) n := by
  rw [encodeEntry_eq, field_append_right (by simpa [entryHead] using hi)]
  simp [entryHead]

theorem fieldBv_encodeEntry : fieldBv w (encodeEntry h c) i = fieldBv w (paddedOperands c) (i - 16) := by
  rw [fieldBv, field_encodeEntry h c hi, fieldBv]

theorem bitOf_encodeEntry : bitOf (encodeEntry h c) i = bitOf (paddedOperands c) (i - 16) := by
  rw [bitOf, field_encodeEntry h c hi, bitOf]

end

/-! ### Reading back -/

theorem decodeCompress_encodeEntry (h : Hdr) {c : Cmd} {o : CompressOps} (ho : operandBytes c = compressBytes o) :
    decodeCompress (encodeEntry h c) = o := by
  simp [decodeCompress, fieldBv_encodeEntry, paddedOperands, ho, compressBytes, fieldBv_skip_leBytes, fieldBv_leBytes]

theorem decodeCmd_encodeEntry_unknown (h : Hdr) {op : BitVec 16} (hop : knownOpcode op = false) :
    decodeCmd (encodeEntry h (.unknown op)) = .unknown op := by
  have opcode : field (encodeEntry h (.unknown op)) 0 2 = op.toNat := field_encodeEntry_opcode h _
  unfold decodeCmd
  rw [opcode]
  split
  case h_38 => rw [BitVec.ofNat_toNat, BitVec.setWidth_eq]
  all_goals
    next known => simp [knownOpcode, known] at hop

theorem decodeCmd_encodeEntry (h : Hdr) {c : Cmd} (hc : c.wf = true) : decodeCmd (encodeEntry h c) = c := by
  cases c
  case unknown op => exact decodeCmd_encodeEntry_unknown h (by simpa [Cmd.wf] using hc)
  case topk | quant | lowrank | reduceToOne | bucketOpen =>
    simpa [decodeCmd, field_encodeEntry_opcode, cmdOpcode] using decodeCompress_encodeEntry h rfl
  all_goals
    simp [decodeCmd, field_encodeEntry_opcode, cmdOpcode, decodeStream, decodeHandoff, fieldBv_encodeEntry,
      bitOf_encodeEntry, paddedOperands, operandBytes, fieldBv_skip_leBytes, fieldBv_skip_zeros, bitOf_skip_leBytes,
      fieldBv_leBytes, bitOf_leBytes]

/-- Settles O5: header and command read back (`decodeHdr_encodeEntry`, `decodeCmd_encodeEntry`), and an entry of 64 bytes
is the one that its own fields spell. -/
theorem entryRoundTrip : Obligations.EntryRoundTrip := by
  refine ⟨fun h c hc => ?_, fun h c => ⟨encodeEntry_length h c, field_encodeEntry_opcode h c⟩⟩
  have whole : fit 64 (encodeEntry h c) = encodeEntry h c := by
    rw [fit_of_le (encodeEntry_length h c).le, encodeEntry_length, zeros]
    exact List.append_nil _
  rw [decodeEntry, decodeHdr_encodeEntry, decodeCmd_encodeEntry h hc, whole, bne_self_eq_false]

end Sys2Proof.Machine
end

section
/-!
SUPPORT. Interrupt messages (R668): what a row of messages makes of the device, the masked vectors kept apart, and with it
what an effect leaves on a device with nothing in progress.
-/
namespace Sys2Proof.Machine

/-! ### A row of messages -/

/-- The MSI-X table masks the vector. -/
def vectorMasked (d : Dev) (v : Byte) : Bool := (vget d.glb.msixTable (4 * v.toNat + 3) 0).getLsbD 0

/-- The pending bits of the masked vectors among `vs`. -/
def pendingOf (d : Dev) (vs : List Byte) : BitVec 256 :=
  (vs.filter (vectorMasked d)).foldr (fun v w => BitVec.ofNat 256 (2 ^ v.toNat) ||| w) 0

/-- The device after messages of these vectors: those of unmasked ones are sent, those of masked ones become pending. -/
def messaged (d : Dev) (vs : List Byte) : Dev :=
  { d with
    bus := { d.bus with msi := d.bus.msi ++ vs.filter fun v => !vectorMasked d v }
    glb := { d.glb with msixPending := d.glb.msixPending ||| pendingOf d vs } }

theorem messaged_nil (d : Dev) : messaged d [] = d := by simp [messaged, pendingOf]

theorem messaged_cons (d : Dev) (v : Byte) (vs : List Byte) : messaged d (v :: vs) = messaged (sendMsi d v) vs := by
  cases masked : vectorMasked d v
  · have sent : sendMsi d v = withBus d fun b => { b with msi := b.msi ++ [v] } := if_neg (by simpa [vectorMasked] using masked)
    have same : vectorMasked (sendMsi d v) = vectorMasked d := by rw [sent]; rfl
    simp only [messaged, pendingOf, same]
    simp [masked, sent]
  · have kept : sendMsi d v = { d with glb := { d.glb with msixPending := d.glb.msixPending ||| BitVec.ofNat 256 (2 ^ v.toNat) } } :=
      if_pos masked
    have same : vectorMasked (sendMsi d v) = vectorMasked d := by rw [kept]; rfl
    simp only [messaged, pendingOf, same]
    simp [masked, kept, BitVec.or_assoc]

/-- Sending the messages of sources one after another: their vectors do not change meanwhile. -/
theorem foldl_sendMsi (d : Dev) (ks : List Nat) :
    ks.foldl (fun d k => sendMsi d (vget d.glb.intVec k 0)) d = messaged d (ks.map fun k => vget d.glb.intVec k 0) := by
  induction ks generalizing d with
  | nil => exact (messaged_nil d).symm
  | cons k ks ih =>
    have vectors (v : Byte) : (sendMsi d v).glb.intVec = d.glb.intVec := by unfold sendMsi; split <;> rfl
    rw [List.foldl_cons, ih, List.map_cons, messaged_cons, vectors]

/-- The vectors of the sources that rose against `old`. -/
def risenVectors (old d : Dev) : List Byte :=
  ((List.range 11).filter fun k => sourceLevel d k && !sourceLevel old k).map fun k => vget d.glb.intVec k 0

theorem raiseInts_eq (old d : Dev) : raiseInts old d = messaged d (risenVectors old d) := by
  have sources : risen old d = (List.range 11).filter fun k => sourceLevel d k && !sourceLevel old k :=
    List.filter_congr fun k _ => Bool.and_comm _ _
  rw [raiseInts, foldl_sendMsi, sources]
  rfl

theorem pendingOf_getLsbD (d : Dev) (vs : List Byte) (v : Byte) :
    (pendingOf d vs).getLsbD v.toNat = (vectorMasked d v && vs.contains v) := by
  have bit (u : Byte) : (BitVec.ofNat 256 (2 ^ u.toNat)).getLsbD v.toNat = (v == u) := by
    have inRange : v.toNat < 256 := v.isLt
    rw [BitVec.getLsbD_ofNat, Nat.testBit_two_pow, decide_eq_true inRange, Bool.true_and, beq_eq_decide]
    simp [BitVec.toNat_inj, eq_comm]
  induction vs with
  | nil => simp [pendingOf]
  | cons u us ih =>
    cases masked : vectorMasked d u
    · have cons : pendingOf d (u :: us) = pendingOf d us := by simp [pendingOf, masked]
      rw [cons, ih, List.contains_cons]
      cases same : v == u
      · rfl
      · rw [eq_of_beq same, masked]; rfl
    · have cons : pendingOf d (u :: us) = BitVec.ofNat 256 (2 ^ u.toNat) ||| pendingOf d us := by simp [pendingOf, masked]
      rw [cons, BitVec.getLsbD_or, bit, ih, List.contains_cons]
      cases same : v == u
      · rfl
      · rw [eq_of_beq same, masked]; rfl

/-- Settles O57: messages of the sources that rose (`raiseInts_eq`), and of those that INT_ACK names. -/
theorem interruptsSent : Obligations.InterruptsSent := by
  refine ⟨fun old d => ?_, fun s mask hserved => ?_⟩
  · rw [raiseInts_eq]
    refine ⟨rfl, fun v => ?_⟩
    show (d.glb.msixPending ||| pendingOf d (risenVectors old d)).getLsbD v.toNat = _
    rw [BitVec.getLsbD_or, pendingOf_getLsbD]
    rfl
  · have named : (mask.zeroExtend 32).truncate 11 = mask := by simp
    show hostWrite s .glbIntAck (mask.zeroExtend 32) = _
    rw [hostWrite_served hserved]
    show Host.Outcome.next (settled s (ackInts s.dev ((mask.zeroExtend 32).truncate 11))) = _
    rw [named]
    rfl

/-- Settles O6: on a quiet device an effect wakes nothing (`wake_quiet`), so only messages follow. -/
theorem quietEffectIsAll : Obligations.QuietEffectIsAll := by
  intro s d hquiet
  let vs := risenVectors s.dev (checkReady d)
  refine ⟨vs.filter fun v => !vectorMasked (checkReady d) v, pendingOf (checkReady d) vs, ?_⟩
  show raiseInts s.dev (wake d) = _
  rw [wake_quiet d hquiet, raiseInts_eq]
  rfl

end Sys2Proof.Machine
end

section
/-!
SUPPORT. The step and the state after reset.
-/
namespace Sys2Proof.Machine

/-- Settles O1: both clauses are the two branches of `step`. -/
theorem stepRunsFrontCommand : Obligations.StepRunsFrontCommand := by
  refine ⟨fun c rest s h => ?command, fun s h => ?idle⟩
  case command => rw [step, h]
  case idle =>
    rw [step, h]
    exact finish_eq s (idleTick s.dev)

/-- Settles O4: the reset state, field by field. -/
theorem resetMeetsInvariants : Obligations.ResetMeetsInvariants :=
  ⟨rfl, fun _ h => (List.not_mem_nil h).elim, ⟨rfl, rfl, rfl⟩, ⟨rfl, rfl, rfl, rfl, rfl⟩, rfl, rfl, rfl⟩

end Sys2Proof.Machine
end

section
/-!
SUPPORT. The mailbox commands that do not start (R242, R36, R244): which status a command is refused with, and the entry
that is held back.
-/
namespace Sys2Proof.Machine

/-! ### A command that is held back -/

/-- An entry behind no other, held back, stays where it is. -/
theorem startHeld_held {d : Dev} {n : Mbx} {x : Fetched} (hf : (mailbox d n).fetched = [x]) (hb : heldBack d n x = true) :
    startHeld d n = d := by
  rw [startHeld, hf]
  simp only [List.length_singleton, startReady, hf, hb, if_true]

theorem issue_held {s : State} {n : Mbx} {h : Hdr} {c : Cmd} (hc : canIssue s.dev n = true) (hf : (mailbox s.dev n).fetched = [])
    (hb : heldBack s.dev n ⟨h, c, cmdReserved h c, inGuard s.dev⟩ = true) :
    issue n h c s = .next (settled s (withMbx s.dev n fun m => { m with
      sqTail := m.next m.sqTail, sqHead := m.next m.sqHead, fetched := [⟨h, c, cmdReserved h c, inGuard s.dev⟩] })) := by
  rw [issue, if_pos hc, finish_eq, takeEntry_eq, startHeld_held (x := ⟨h, c, cmdReserved h c, inGuard s.dev⟩)]
  · simp only [withMbx, vmod]
    simp only [mailbox] at hf
    rw [hf]
    rfl
  · rw [mailbox_withMbx, hf]
    rfl
  · refine Eq.trans ?_ hb
    apply heldBack_withMbx
    intro m
    rfl

/-! ### The first check that fails -/

@[simp] theorem orElse_some (st : Status) (f : Unit → Option Status) : orElse (some st) f = some st := rfl

@[simp] theorem orElse_none (f : Unit → Option Status) : orElse none f = f () := rfl

section
variable (d : Dev) (n : Mbx) (h : Hdr)

/-- A user mailbox of a failed device answers 0x0501 before it looks at the opcode (log 2). -/
theorem startCheck_unknown (op : BitVec 16) :
    startCheck d n h (.unknown op) = some (if d.rpr.failed = true ∧ n ≠ adminBox then 0x0501 else 0x0101) := by
  have failed : (taken d n).rpr.failed = d.rpr.failed := rfl
  by_cases refused : d.rpr.failed = true ∧ n ≠ adminBox
  · simp [startCheck, startFault, mbxCaller, failed, refused.1, refused.2]
  · have passes : (d.rpr.failed && !decide (n = adminBox)) = false := by simpa using refused
    simp [startCheck, startFault, mbxCaller, failed, passes, refused, isUnknown]

/-- Permission comes before everything but the opcode (R231). -/
theorem startCheck_adminOnly {c : Cmd} (hadmin : adminOnly c = true) (hn : n ≠ adminBox) (hfailed : d.rpr.failed = false) :
    startCheck d n h c = some 0x0601 := by
  have failed : (taken d n).rpr.failed = false := hfailed
  have known : isUnknown c = false := by
    cases c
    case unknown => cases hadmin
    all_goals rfl
  simp [startCheck, startFault, mbxCaller, failed, known, permissionFault, hadmin, hn, firstFault]

end

/-- Settles O17: the three ways an entry can go that does not start, and the checks that two kinds of command meet
first. -/
theorem mailboxCommandsAreChecked : Obligations.MailboxCommandsAreChecked := by
  refine ⟨fun s n h c => ⟨fun st hfetch hcheck => ?refused, fun hc hf hb => ?held, fun hc => ?notTaken⟩,
    fun s n h op hfetch => ?unknown, fun s n h c hadmin hn hfailed hfetch => ?admin⟩
  case refused => rw [exec_issued, issue_refused s n h c st hfetch hcheck]
  case held => rw [exec_issued, issue_held hc hf hb]
  case notTaken => rw [exec_issued, issue_of_not_canIssue hc]
  case unknown => exact issue_refused s n h _ _ hfetch (startCheck_unknown s.dev n h op)
  case admin => rw [exec_issued, issue_refused s n h c _ hfetch (startCheck_adminOnly s.dev n h hadmin hn hfailed)]

/-! ### Doorbells -/

theorem doorbellHeard_of_enabled {d : Dev} {n : Mbx} (hlink : d.hif.linkUp = true) (hon : (mailbox d n).enabled = true) :
    doorbellHeard d n = true := by rw [doorbellHeard, hlink, hon, Bool.true_and]

/-- Settles O18: a doorbell that is heard is told apart by the depth of the ring alone. -/
theorem doorbellsMoveTheRing : Obligations.DoorbellsMoveTheRing := by
  refine ⟨fun s n tail stores d hd hlink hon he => ?tail, fun s n head hlink hon => ?head, fun s n => rfl⟩
  case tail =>
    subst hd
    show execSubmissionTailDoorbell n tail stores s = _
    simp only [execSubmissionTailDoorbell, doorbellHeard_of_enabled hlink hon, he, finish_eq, ← Nat.not_lt, ite_not,
      Bool.not_true, Bool.or_self, Bool.false_eq_true, if_false]
    by_cases inside : tail.toNat < (mailbox (stores.foldl hostStore s.dev) n).ringDepth
    · rw [if_pos inside, if_pos inside]
    · rw [if_neg inside, if_neg inside, doorbellError]
  case head =>
    show execCompletionHeadDoorbell n head s = _
    simp only [execCompletionHeadDoorbell, doorbellHeard_of_enabled hlink hon, finish_eq, ← Nat.not_lt, ite_not,
      Bool.not_true, Bool.false_eq_true, if_false]
    by_cases inside : head.toNat < (mailbox s.dev n).ringDepth
    · rw [if_pos inside, if_pos inside]
    · rw [if_neg inside, if_neg inside, doorbellError]

/-! ### Enabling and disabling -/

/-- Settles O19: the two branches of a write of MBX_CTRL that changes the enable bit. -/
theorem mailboxesEnableAndDisable : Obligations.MailboxesEnableAndDisable := by
  refine ⟨fun s n value hw he => ?enable, fun s n value hw he => ?disable⟩
  case enable =>
    have set : (value ||| 1).getLsbD 0 = true := by simp
    have off : (mailbox (withMbx s.dev n fun m => writeCtrlFields m (value ||| 1)) n).enable = false := by simp [he]
    show execMailboxEnable n value s = _
    rw [execMailboxEnable, if_pos hw, finish_eq, writeMbxCtrl, if_pos set, off]
    rfl
  case disable =>
    have clear : (value &&& ~~~1).getLsbD 0 = false := by simp
    have on : (mailbox (withMbx s.dev n fun m => writeCtrlFields m (value &&& ~~~1)) n).enable = true := by simp [he]
    show execMailboxDisable n value s = _
    rw [execMailboxDisable, if_pos hw, finish_eq, writeMbxCtrl, clear, on]
    rfl

end Sys2Proof.Machine
end

section
/-!
SUPPORT. Reads and writes of BAR0: the register that serves an offset, what a read does besides showing the value (R18, R20,
R486), and the registers whose write does more than set a field.
-/
namespace Sys2Proof.Machine

theorem bar0Open_of_hostServed {d : Dev} (h : HostServed d) : bar0Open d = true := by
  obtain ⟨hlink, hreset, hready⟩ := h
  simp [bar0Open, bar0Answers, hlink, hreset, hready]

/-! ### Writes -/

section
variable {s : State} (hserved : HostServed s.dev)
include hserved

theorem exec_tickSnap (value : Word) :
    exec (.tickSnap value) s = .next (settled s (takeSnap (writeTikCtrl s.dev (value ||| 1)))) := by
  have snap : (value ||| 1).getLsbD 0 = true := by simp
  show hostWrite s .tikCtrl (value ||| 1) = _
  rw [hostWrite_served hserved]
  show Host.Outcome.next (settled s (writeTikControl s.dev (value ||| 1))) = _
  rw [writeTikControl, if_pos snap]

theorem exec_trayWrite (value : Word) : exec (.trayWrite value) s = .next (settled s (writeTray s.dev value)) :=
  hostWrite_served hserved .tikMember value

theorem exec_designateMaster : exec .designateMaster s = .next (settled s (writeDesignate s.dev true)) :=
  hostWrite_served hserved .tikDesignate 1

theorem exec_undesignateMaster : exec .undesignateMaster s = .next (settled s (writeDesignate s.dev false)) :=
  hostWrite_served hserved .tikDesignate 0

theorem exec_registerWrite {o : BitVec 26} {r : Reg} (hr : regOfOffset o.toNat = some r) (w : Word) :
    exec (.registerWrite o w) s = .next (settled s (writeReg s.dev r w)) := by
  have aligned : o.toNat % 4 = 0 := by
    by_contra misaligned
    simp [regOfOffset, misaligned] at hr
  show execRegisterWrite o w s = _
  simp [execRegisterWrite, bar0Open_of_hostServed hserved, aligned, hr, hostWrite_served hserved]

end

/-- Settles O20: each register's own write, under the conditions that take its branch. -/
theorem settingRegistersWritten : Obligations.SettingRegistersWritten := by
  refine ⟨fun s value hs => ?fplMode, fun s fn hpending hidle hhold => ?placement, fun s value hs => exec_tickSnap hs value,
    fun s value hs => ?cable, fun s value hs => ?tray, fun s hs hhost hstage hwas => ?designate,
    fun s hs hhost hmaster => ?undesignate⟩
  case fplMode => exact hostWrite_served hs .fplMode value
  case placement =>
    show execPlacementTakesEffect fn s = _
    rw [execPlacementTakesEffect, hpending, hidle, hhold]
    rfl
  case cable => exact hostWrite_served hs .tikCableDly value
  case tray =>
    rw [exec_trayWrite hs, writeTray]
    simp only [Bool.not_eq_true']
  case designate =>
    have booted : ¬ s.dev.pwr.stage.toNat < 8 := by omega
    have host : eraHost (withJoin s.dev fun j => { j with designate := true }) = true := hhost
    rw [exec_designateMaster hs, writeDesignate]
    simp [hwas, host, booted]
  case undesignate =>
    have host : eraHost (withJoin s.dev fun j => { j with designate := false }) = true := hhost
    rw [exec_undesignateMaster hs, writeDesignate]
    simp [host, hmaster]

/-! ### Watches (R649) -/

theorem cancelWatches_fold (d : Dev) (mask : BitVec 16) (l : List Nat) (i : Fin 16) :
    ((l.foldl (fun d k => if mask.getLsbD k then withDbg d fun x => { x with watches := vset x.watches k none } else d) d).dbg.watches)[i]
      = if i.val ∈ l ∧ mask.getLsbD i.val = true then none else d.dbg.watches[i] := by
  induction l generalizing d with
  | nil => simp
  | cons k l ih =>
    rw [List.foldl_cons, ih]
    by_cases named : mask.getLsbD k = true
    · by_cases here : k = i.val
      · subst here
        simp [named, vset]
      · have other (v : Vector (Option Watch) 16) : (vset v k none)[i] = v[i] := by
          unfold vset
          split
          · exact Vector.getElem_set_ne _ _ here
          · rfl
        simp [named, other, Ne.symm here]
    · have away : ¬(i.val = k ∧ mask.getLsbD i.val = true) := by
        rintro ⟨rfl, h⟩
        exact named h
      rw [if_neg named]
      simp only [List.mem_cons, or_and_right, away, false_or]

theorem cancelWatches_getElem (d : Dev) (mask : BitVec 16) (i : Fin 16) :
    (cancelWatches d mask).dbg.watches[i] = if mask.getLsbD i.val then none else d.dbg.watches[i] := by
  rw [cancelWatches, cancelWatches_fold]
  simp [i.isLt]

/-! ### PWR_RECOVER (R574, R579) -/

theorem exec_recoverGo {s : State} (hopen : bar0Open s.dev = true) (value : Word) :
    exec (.recoverGo value) s = .next (settled s (writeRecover s.dev (value ||| 0x8000_0000))) := by
  have served : writeServed s.dev .pwrRecover = true := by simp [writeServed, hopen, servedEarly, Reg.offset]
  show hostWrite s .pwrRecover (value ||| 0x8000_0000) = _
  rw [hostWrite, if_pos served, finish_eq]
  rfl

theorem writeRecover_go {d : Dev} (hcode : d.pwr.bootCode = 4) (value : Word) :
    writeRecover d (value ||| 0x8000_0000)
      = let e := withPwr d fun p => { p with recoverLength := value.truncate 24 }
        if d.pwr.hold then withPwr e fun p => { p with recoverGo := true } else recover e := by
  simp [writeRecover, hcode]

/-! ### DBG_HALT (R640-R645) -/

theorem writeHalt_step (d : Dev) (core : CtrlCore) : writeHalt d (BitVec.ofNat 32 (4 + 16 * core.val)) = hostStep d core := by
  have bits : ∀ c : CtrlCore, (BitVec.ofNat 32 (4 + 16 * c.val)).getLsbD 0 = false
      ∧ (BitVec.ofNat 32 (4 + 16 * c.val)).getLsbD 1 = false ∧ (BitVec.ofNat 32 (4 + 16 * c.val)).getLsbD 2 = true
      ∧ (BitVec.ofNat 32 (4 + 16 * c.val)).toNat / 16 % 4 = c.val := by decide
  obtain ⟨noHalt, noResume, step, named⟩ := bits core
  simp only [writeHalt, noHalt, noResume, step, named, if_true, Bool.false_eq_true, if_false]

section
variable {s : State} (hs : HostServed s.dev)
include hs

theorem exec_halt : exec .halt s = .next (settled s (hostHalt s.dev)) := hostWrite_served hs .dbgHalt 1

theorem exec_resume : exec .resume s = .next (settled s (hostResume s.dev)) := hostWrite_served hs .dbgHalt 2

theorem exec_step (core : CtrlCore) : exec (.step core) s = .next (settled s (hostStep s.dev core)) := by
  show hostWrite s .dbgHalt (BitVec.ofNat 32 (4 + 16 * core.val)) = _
  rw [hostWrite_served hs]
  exact congrArg (fun d => Host.Outcome.next (settled s d)) (writeHalt_step s.dev core)

end

/-- Settles O22: each bit of DBG_HALT in the state that it changes. -/
theorem haltResumeStep : Obligations.HaltResumeStep := by
  refine ⟨fun s hs hrunning => ?halt, fun s hs hhalted => ?resume, fun s core hs hhalted => ?step⟩
  case halt => rw [exec_halt hs, hostHalt, hrunning, if_neg Bool.false_ne_true]
  case resume =>
    rw [exec_resume hs, hostResume, hhalted, Bool.not_true, if_neg Bool.false_ne_true]
  case step =>
    rw [exec_step hs, hostStep, hhalted, Bool.not_true, if_neg Bool.false_ne_true]
    rfl

/-- Settles O21: each control register's own write. -/
theorem controlRegistersWritten : Obligations.ControlRegistersWritten := by
  refine ⟨fun s hs => ?reset, fun s value hopen hcode hhold => ?recoverHeld, fun s value hopen hcode hhold => ?recover,
    fun s value hs => hostWrite_served hs .dbgCtrl value, fun s mask hs => ?watches, cancelWatches_getElem⟩
  case reset =>
    show hostWrite s .pwrReset 0xA5A5 = _
    rw [hostWrite_served hs]
    show Host.Outcome.next (settled s (deviceReset s.dev 5)) = _
    rw [deviceReset, hs.2.1]
    rfl
  case recoverHeld =>
    rw [exec_recoverGo hopen, writeRecover_go hcode, hhold]
    rfl
  case recover =>
    rw [exec_recoverGo hopen, writeRecover_go hcode, hhold]
    rfl
  case watches =>
    have named : (mask.zeroExtend 32).truncate 16 = mask := by simp
    show hostWrite s .dbgWatchCancel (mask.zeroExtend 32) = _
    rw [hostWrite_served hs]
    show Host.Outcome.next (settled s (cancelWatches s.dev ((mask.zeroExtend 32).truncate 16))) = _
    rw [named]

/-! ### Reads -/

theorem find?_fixedRegs_eq_none {o : Nat} (h : ∀ r ∈ fixedRegs, r.offset ≠ o) : fixedRegs.find? (fun r => r.offset == o) = none := by
  rw [List.find?_eq_none]
  intro r hr
  simpa using h r hr

theorem regOfOffset_indexed {o : Nat} (aligned : o % 4 = 0) (h : ∀ r ∈ fixedRegs, r.offset ≠ o) : regOfOffset o = indexedReg o := by
  simp [regOfOffset, find?_fixedRegs_eq_none h, aligned]

theorem nth_of_eq {α : Type} {n i : Nat} {k : Fin n} (h : i = k.val) (f : Fin n → α) : nth n i f = some (f k) := by
  subst h
  exact dif_pos k.isLt

/-- The record store is served word by word. -/
theorem regOfOffset_recordStore {o : Nat} (aligned : o % 4 = 0) (low : 0x310_0000 ≤ o) (high : o < 0x330_0000) :
    regOfOffset o = nth 524288 ((o - 0x310_0000) / 4) .metRec := by
  have below : ∀ r ∈ fixedRegs, r.offset < 0x310_0000 := by decide
  rw [regOfOffset_indexed aligned fun r hr => by have := below r hr; omega, indexedReg]
  simp (disch := omega) only [if_neg, if_pos]

/-- The states of the groups stand at even words. -/
theorem regOfOffset_groupState {o : Nat} (aligned : o % 8 = 0) (low : 0x180_1000 ≤ o) (high : o < 0x180_1800) :
    regOfOffset o = nth 256 ((o - 0x180_1000) / 8) .clvGrpState := by
  have around : ∀ r ∈ fixedRegs, r.offset < 0x180_1000 ∨ 0x180_1800 ≤ r.offset := by decide
  rw [regOfOffset_indexed (by omega) fun r hr => by have := around r hr; omega, indexedReg]
  simp (disch := omega) only [if_neg, if_pos]

section
variable {s : State} (hopen : bar0Open s.dev = true)
include hopen

/-- The bus carries the value from before what the read does besides. -/
theorem hostRead_reg {o : Nat} {r : Reg} (hr : regOfOffset o = some r) :
    hostRead s o = .next (settled s (readEffect (putRead s.dev (leBytes 4 (readReg s.dev r).toNat) false) r)) := by
  have aligned : o % 4 = 0 := by
    by_contra misaligned
    simp [regOfOffset, misaligned] at hr
  simp [hostRead, hopen, aligned, readWord, hr, finish_eq]

theorem hostRead_reserved {o : Nat} (aligned : o % 4 = 0) (hr : regOfOffset o = none) :
    hostRead s o = .next (settled s (putRead s.dev (zeros 4) false)) := by
  simp [hostRead, hopen, aligned, readWord, hr, finish_eq]

theorem execRegisterWrite_reserved {o : BitVec 26} (aligned : o.toNat % 4 = 0) (hr : regOfOffset o.toNat = none) (w : Word) :
    execRegisterWrite o w s = .next s := by
  simp [execRegisterWrite, hopen, aligned, hr]

end

/-- What stands on the bus is no part of the value of an upper half. -/
theorem regValue_putRead_of_latchOf {r q : Reg} (hq : latchOf r = some q) (d : Dev) (bs : List Byte) (poison : Bool) :
    regValue (putRead d bs poison) q = regValue d q := by
  cases r
  case mbx n r | lys n r => cases r <;> cases hq <;> rfl
  case metLive l r hi => cases hi <;> cases hq; rfl
  all_goals cases hq <;> rfl

theorem withTile_eq_self {d : Dev} {p : Tile} {f : TileRegs → TileRegs} (h : ∀ t, f t = t) : withTile d p f = d := by
  simp [withTile, vmod, h]

theorem clearRc_of_not_isRc {r : Reg} (hr : isRc r = false) (d : Dev) : clearRc d r = d := by
  cases r
  case mbx n r | lys n r => cases r <;> first | rfl | cases hr
  case tile n r => cases r <;> first | exact withTile_eq_self fun _ => rfl | cases hr
  all_goals first | rfl | cases hr

theorem readEffect_of_latchOf {r q : Reg} (hq : latchOf r = some q) (hrc : isRc r = false) (d : Dev) :
    readEffect d r = { d with latches := assocSet q.offset (BitVec.ofNat 32 (regValue d q)) d.latches } := by
  have plain : readEffect d r = clearRc (latchHalf d r) r := by
    cases r
    case metCollect | metRec => cases hq
    all_goals rfl
  rw [plain, clearRc_of_not_isRc hrc, latchHalf, hq]

theorem readEffect_of_isRc {r : Reg} (hrc : isRc r = true) (d : Dev) : readEffect d r = clearRc d r := by
  have noLatch : latchOf r = none := by
    cases r
    case mbx n r | lys n r => cases r <;> first | rfl | cases hrc
    all_goals first | rfl | cases hrc
  have plain : readEffect d r = clearRc (latchHalf d r) r := by
    cases r
    case metCollect | metRec => cases hrc
    all_goals rfl
  rw [plain, latchHalf, noLatch]

theorem readEffect_metRec (d : Dev) (w : Fin 524288) : readEffect d (.metRec w) = if metReady d then markRead d (4 * w.val) 4 else d :=
  rfl

theorem exec_metRecRead (s : State) (w : Fin 524288) :
    exec (.metRecRead (BitVec.ofNat 21 (4 * w.val))) s = hostRead s (0x310_0000 + 4 * w.val) := by
  have offset : (BitVec.ofNat 21 (4 * w.val)).toNat = 4 * w.val := by
    rw [BitVec.toNat_ofNat, Nat.mod_eq_of_lt (by omega)]
  show hostRead s (0x310_0000 + (BitVec.ofNat 21 (4 * w.val)).toNat) = _
  rw [offset]

/-- Settles O23: each kind of read by what the register it meets does besides, the refused accesses, and the writes. -/
theorem registerAccessesServed : Obligations.RegisterAccessesServed := by
  refine ⟨fun s hopen => ⟨fun o r q hr hq hrc => ?latch, fun g => ?groupState, fun o r hr hrc => ?counter, ?collect, fun w => ?record⟩,
    fun s write o size hopen h => execBar0Misaligned_refused hopen h write, fun s o w r hs hr => exec_registerWrite hs hr w,
    fun s o w hopen aligned hr => execRegisterWrite_reserved hopen aligned hr w⟩
  case latch =>
    show hostRead s o.toNat = _
    rw [hostRead_reg hopen hr, readEffect_of_latchOf hq hrc, regValue_putRead_of_latchOf hq]
    rfl
  case groupState =>
    have hr : regOfOffset (Reg.offset (.clvGrpState g)) = some (.clvGrpState g) := by
      show regOfOffset (0x180_1000 + 8 * g.val) = _
      rw [regOfOffset_groupState (by omega) (by omega) (by omega), nth_of_eq (k := g) (by omega)]
    show hostRead s (Reg.offset (.clvGrpState g)) = _
    rw [hostRead_reg hopen hr, readEffect_of_latchOf rfl rfl, regValue_putRead_of_latchOf (r := .clvGrpState g) rfl]
    rfl
  case counter =>
    show hostRead s o.toNat = _
    rw [hostRead_reg hopen hr, readEffect_of_isRc hrc]
  case collect =>
    show hostRead s (Reg.offset .metCollect) = _
    rw [hostRead_reg hopen regOfOffset_metCollect, readEffect_metCollect, oldestRead_putRead]
    cases oldestRead s.dev <;> rfl
  case record =>
    have hr : regOfOffset (0x310_0000 + 4 * w.val) = some (.metRec w) := by
      rw [regOfOffset_recordStore (by omega) (by omega) (by omega), nth_of_eq (k := w) (by omega)]
    rw [exec_metRecRead, hostRead_reg hopen hr, readEffect_metRec]
    rfl

end Sys2Proof.Machine
end

section
/-!
SUPPORT. BAR4 and the CXL window: what one request does, what a write through BAR4 leaves of the memories, and what it
reads back as.
-/
namespace Sys2Proof.Machine

/-! ### BAR4 (R579, R663) -/

section
variable {s : State} {o : Word} (hopen : bar0Open s.dev = true)
include hopen

theorem execBar4Read_open {n : Nat} (hone : oneRequest o n = true) :
    execBar4Read o n s = .next (settled s (bar4Read s.dev o n)) := by
  rw [execBar4Read, hopen, hone, Bool.and_self, if_pos rfl, finish_eq]

theorem execBar4Write_open {bs : List Byte} (hone : oneRequest o bs.length = true) :
    execBar4Write o bs s = .next (settled s (bar4Write s.dev o bs)) := by
  rw [execBar4Write, hopen, hone, Bool.and_self, if_pos rfl, finish_eq]

end

/-- Settles O24: one request through the aperture that its offset names. -/
theorem bar4Accesses : Obligations.Bar4Accesses := by
  refine ⟨fun s o n hopen hone => ?read, fun s o bs hopen hone => ?write⟩
  case read =>
    show execBar4Read o n s = _
    rw [execBar4Read_open hopen hone]
    unfold bar4Read
    cases apertureOf s.dev o <;> rfl
  case write =>
    show execBar4Write o bs s = _
    rw [execBar4Write_open hopen hone]
    unfold bar4Write
    cases apertureOf s.dev o <;> rfl

/-! ### What an effect leaves of the memories of a quiet device -/

/-- The memories of the device: device memory, the ring area and the staging of the window. -/
def memories (d : Dev) : Memory × Memory × Memory := (d.mem, d.bar2, d.kvs.staging)

theorem memories_settled {d : Dev} (hquiet : Quiet d) (s : State) : memories (settled s d).dev = memories d := by
  have ready : memories (checkReady d) = memories d := by
    unfold checkReady
    split <;> rfl
  show memories (raiseInts s.dev (wake d)) = _
  rw [wake_quiet d hquiet, raiseInts_eq]
  exact ready

/-! ### The frame of a write -/

theorem storeBytes_frame (bs : List Byte) (d : Dev) (a : Nat) : ∃ m, storeBytes d a bs = { d with mem := m } := by
  induction bs generalizing d a with
  | nil => exact ⟨d.mem, rfl⟩
  | cons b t ih =>
    obtain ⟨m, hm⟩ := ih { d with mem := memPut d.mem (redirect d a) b } (a + 1)
    exact ⟨m, hm⟩

theorem store_frame (d : Dev) (a : Nat) (bs : List Byte) : ∃ m p, store d a bs = { d with mem := m, poison := p } := by
  obtain ⟨m, hm⟩ := storeBytes_frame bs d a
  unfold store
  split
  · rw [hm]
    exact ⟨m, _, rfl⟩
  · exact ⟨d.mem, d.poison, rfl⟩

theorem store_outside {d : Dev} {a x : Nat} {bs : List Byte} (h : ∀ i, i < bs.length → redirect d (a + i) ≠ x) :
    memGet (store d a bs).mem x = memGet d.mem x := by
  unfold store
  split
  · exact storeBytes_outside bs d a x h
  · rfl

/-- What a write of `bs` at device address `a` may change of a device: the cells of its bytes, in canonical form, and of
the rest no memory and nothing that is in progress. -/
structure WriteFrame (d e : Dev) (a : Nat) (bs : List Byte) : Prop where
  outside : ∀ x, (∀ i, i < bs.length → redirect d (a + i) ≠ x) → memGet e.mem x = memGet d.mem x
  bar2 : e.bar2 = d.bar2
  staging : e.kvs.staging = d.kvs.staging
  wf : d.mem.wf = true → e.mem.wf = true
  quiet : Quiet d → Quiet e

theorem WriteFrame.refl (d : Dev) (a : Nat) (bs : List Byte) : WriteFrame d d a bs := ⟨fun _ _ => rfl, rfl, rfl, id, id⟩

theorem store_writeFrame (d : Dev) (a : Nat) (bs : List Byte) : WriteFrame d (store d a bs) a bs := by
  obtain ⟨m, p, h⟩ := store_frame d a bs
  exact ⟨fun _ => store_outside, by rw [h], by rw [h], store_mem_wf d a bs, fun hquiet => by rw [h]; exact hquiet⟩

theorem bar4Write_writeFrame (d : Dev) (o : Word) (bs : List Byte) : WriteFrame d (bar4Write d o bs) (apertureAddress d o) bs := by
  unfold bar4Write apertureAddress
  cases apertureOf d o with
  | recovery a => exact store_writeFrame d a bs
  | window a =>
    dsimp only
    split
    · exact store_writeFrame d a bs
    · exact ⟨fun _ _ => rfl, rfl, rfl, id, id⟩

/-- A write between pages that none has retired is a plain write of memory. -/
theorem storeBytes_mem_of_unmoved {d : Dev} {a : Nat} {bs : List Byte} (h : ∀ i, i < bs.length → redirect d (a + i) = a + i) :
    (storeBytes d a bs).mem = memPuts d.mem a bs := by
  induction bs generalizing d a with
  | nil => rfl
  | cons b t ih =>
    have here : redirect d a = a := by simpa using h 0 (by simp)
    rw [storeBytes, here, memPuts, ih]
    intro i hi
    have next : redirect d (a + 1 + i) = a + 1 + i := by
      rw [show a + 1 + i = a + (i + 1) by omega]
      exact h (i + 1) (by simpa using hi)
    exact (redirect_congr (by rfl) _).trans next

theorem load_store_of_unmoved {d : Dev} {a : Nat} {bs : List Byte} (hrange : rangeOk d a bs.length = true)
    (h : ∀ i, i < bs.length → redirect d (a + i) = a + i) : load (store d a bs) a bs.length = bs := by
  have cell (i : Nat) (hi : i < bs.length) : byteAt (store d a bs) (a + i) = bs[i] := by
    have mem : (store d a bs).mem = memPuts d.mem a bs := by
      rw [store, if_pos hrange]
      exact storeBytes_mem_of_unmoved h
    obtain ⟨m, p, frame⟩ := store_frame d a bs
    rw [byteAt, redirect_congr (d := d) (by rw [frame]), h i hi, mem, memGet_memPuts_inside bs _ _ _ hi]
  apply List.ext_getElem (by simp [load])
  intro i _ hi
  simp [load, cell i hi]

/-- Settles O25: an effect on a quiet device settles without touching a memory (`memories_settled`), and the write itself
keeps to the cells of its bytes (`bar4Write_writeFrame`). -/
theorem bar4WriteFrame : Obligations.Bar4WriteFrame := by
  refine ⟨fun s t o bs hquiet h => ?_, fun d a bs => load_store_of_unmoved⟩
  have framed : ∃ e, memories t.dev = memories e ∧ WriteFrame s.dev e (apertureAddress s.dev o) bs := by
    have write : execBar4Write o bs s = .next t := h
    unfold execBar4Write at write
    split at write
    · have frame := bar4Write_writeFrame s.dev o bs
      cases write
      exact ⟨_, memories_settled (frame.quiet hquiet) s, frame⟩
    · cases write
      exact ⟨s.dev, rfl, .refl ..⟩
  obtain ⟨e, same, frame⟩ := framed
  simp only [memories, Prod.mk.injEq] at same
  obtain ⟨mem, bar2, staging⟩ := same
  rw [mem, bar2, staging]
  exact ⟨frame.outside, frame.bar2, frame.staging, frame.wf⟩

/-! ### The window (Tables 10-3, 10-4 and 10-6) -/

theorem windowWrite_nil (fuel : Nat) (d : Dev) (o : Nat) : windowWrite fuel d o [] = d := by
  cases fuel <;> rfl

/-- A write that stays within a line is not cut. -/
theorem windowWrite_within {d : Dev} {o : Nat} {bs : List Byte} (hpos : 0 < bs.length) (hline : o % 64 + bs.length ≤ 64) :
    windowWrite bs.length d o bs = windowLineWrite d o bs := by
  obtain ⟨n, hn⟩ : ∃ n, bs.length = n + 1 := ⟨bs.length - 1, by omega⟩
  have some : bs.isEmpty = false := by simpa [List.isEmpty_iff] using List.length_pos_iff.mp hpos
  have whole : bs.length ≤ 64 - o % 64 := by omega
  rw [hn, windowWrite, some, if_neg Bool.false_ne_true]
  dsimp only
  rw [List.take_of_length_le whole, List.drop_of_length_le whole, windowWrite_nil]

/-- Settles O26: what backs the line decides a read, and the two ways a held line is given up. -/
theorem windowAccesses : Obligations.WindowAccesses := by
  refine ⟨fun s o cached hopen => ?read, fun s o bs hopen hpos hline => ?write, fun s o dirty hopen hsnooped => ?response,
    fun s o i x hheld => ?timeout⟩
  case read =>
    show execWindowRead o cached s = _
    rw [execWindowRead, if_pos hopen, finish_eq, windowRead]
    cases windowAt s.dev (winLine o.toNat) <;> rfl
  case write =>
    show execWindowWrite o bs s = _
    rw [execWindowWrite, if_pos hopen, finish_eq, windowWrite_within hpos hline]
  case response =>
    have snooped : s.dev.kvs.snoops.contains (winLine o.toNat) = true := by simpa using hsnooped
    show execBirsp o dirty s = _
    simp only [execBirsp, hopen, snooped, finish_eq]
    cases dirty <;> rfl
  case timeout =>
    show execStagingReadTimeout o s = _
    simp only [execStagingReadTimeout, hheld, finish_eq]

end Sys2Proof.Machine
end

section
/-!
SUPPORT. What a reset of the main die leaves (Tables 11-6 and 13-6): the frames of its two steps, the island's share and the
zeroing of the residual stores, and what becomes of memory.
-/
namespace Sys2Proof.Machine

/-! ### Writes of tensors -/

/-- `e` comes about from `d` by writes of device memory and by changes of the poisoned lines. -/
inductive Writes (d : Dev) : Dev → Prop
  | refl : Writes d d
  | store {e : Dev} (h : Writes d e) (a : Nat) (bs : List Byte) : Writes d (store e a bs)
  | poison {e : Dev} (h : Writes d e) (p : List Nat) : Writes d { e with poison := p }

theorem Writes.frame {d e : Dev} (h : Writes d e) : ∃ m p, e = { d with mem := m, poison := p } := by
  induction h with
  | refl => exact ⟨d.mem, d.poison, rfl⟩
  | store _ a bs ih =>
    obtain ⟨m, p, rfl⟩ := ih
    obtain ⟨m', p', h⟩ := store_frame { d with mem := m, poison := p } a bs
    exact ⟨m', p', h⟩
  | poison _ q ih =>
    obtain ⟨m, p, rfl⟩ := ih
    exact ⟨m, q, rfl⟩

theorem Writes.mem_wf {d e : Dev} (h : Writes d e) (hd : d.mem.wf = true) : e.mem.wf = true := by
  induction h with
  | refl => exact hd
  | store _ a bs ih => exact store_mem_wf _ a bs ih
  | poison _ _ ih => exact ih

theorem Writes.foldl {α : Type} {f : Dev → α → Dev} (hf : ∀ {d e} x, Writes d e → Writes d (f e x)) (l : List α) {d e : Dev}
    (h : Writes d e) : Writes d (l.foldl f e) := by
  induction l generalizing e with
  | nil => exact h
  | cons x l ih => exact ih (hf x h)

section
variable {d e : Dev} (h : Writes d e)
include h

theorem Writes.pokes (as : List Nat) (bs : List Byte) : Writes d (pokes e as bs) := by
  induction as generalizing e bs with
  | nil => exact h
  | cons a as ih =>
    cases bs with
    | nil => exact h
    | cons b bs => exact ih (h.store a [b]) bs

theorem Writes.writeElem (k : Desc) (j raw : Nat) : Writes d (writeElem e k j raw) := by
  unfold Machine.writeElem
  split
  · exact h
  split
  · split
    · exact h.store _ _
    · exact h
  · exact h.pokes _ _

theorem Writes.writeElems (k : Desc) (j : Nat) (vs : List Nat) : Writes d (writeElems e k j vs) := by
  induction vs generalizing e j with
  | nil => exact h
  | cons v t ih => exact ih (h.writeElem k j v) (j + 1)

theorem Writes.clearPad (k : Desc) (g : Nat) : Writes d (clearPad k e g) := by
  have odd (c : Bool) (a : Nat) (bs : List Byte) : Writes d (if c then Machine.store e a bs else e) := by
    split
    · exact h.store a bs
    · exact h
  unfold Machine.clearPad
  dsimp only
  split
  · exact (odd _ _ _).store _ _
  split
  · exact (odd _ _ _).store _ _
  · exact ((odd _ _ _).store _ _).store _ _

theorem Writes.padElems (k : Desc) (js as : List Nat) : Writes d (padElems e k js as) := by
  have cleared : Writes d ((padGroups k js).foldl (Machine.clearPad k) e) := h.foldl (fun g hd => hd.clearPad k g) _
  unfold Machine.padElems
  dsimp only
  split
  · exact cleared
  · exact cleared.poison _

theorem Writes.padRun (k : Desc) (first n : Nat) : Writes d (padRun e k first n) := h.padElems _ _ _

theorem Writes.zeroStore (k : Desc) : Writes d (zeroStore e k) := (h.writeElems _ _ _).padRun _ _ _

end

theorem zeroStores_writes (d : Dev) : Writes d (zeroStores d) := Writes.refl.foldl (fun x h => h.zeroStore x.desc) _

/-! ### The island's share -/

/-- `e` differs from `d` in the island alone. -/
def IslandOnly (d e : Dev) : Prop := ∃ m, e = { d with met := m }

theorem IslandOnly.refl (d : Dev) : IslandOnly d d := ⟨d.met, rfl⟩

section
variable {d e : Dev} (h : IslandOnly d e)
include h

theorem IslandOnly.withMet (f : Met → Met) : IslandOnly d (withMet e f) := by
  obtain ⟨m, rfl⟩ := h
  exact ⟨f m, rfl⟩

theorem IslandOnly.metLog (kind : Byte) (detail : Nat) : IslandOnly d (metLog e kind detail) := by
  unfold Machine.metLog
  split
  · exact h
  · exact h.withMet _

theorem IslandOnly.takeTap (x : TapEntry) : IslandOnly d (takeTap e x) := by
  have noted (f g : Met → Met) : IslandOnly d (Machine.withMet (Machine.withMet e f) g) := (h.withMet f).withMet g
  unfold Machine.takeTap
  dsimp only
  split
  · exact ((noted _ _).withMet _).metLog _ _
  split
  · exact (noted _ _).metLog _ _
  · exact (noted _ _).withMet _

theorem IslandOnly.endDue : IslandOnly d (endDue e) := by
  unfold Machine.endDue
  split
  · exact h.withMet _
  · exact h

theorem IslandOnly.drainTap : IslandOnly d (drainTap e) := by
  have taken (l : List TapEntry) : ∀ {e}, IslandOnly d e → IslandOnly d (l.foldl Machine.takeTap e) := by
    induction l with
    | nil => exact id
    | cons x l ih => exact fun h => ih (h.takeTap x)
  exact taken _ (h.withMet _).endDue

end

theorem islandReset_islandOnly (d : Dev) : IslandOnly d (islandReset d) := by
  unfold islandReset
  dsimp only
  apply IslandOnly.withMet
  split
  · exact (((IslandOnly.refl d).metLog _ _).drainTap).withMet _
  · exact IslandOnly.refl d

/-- The two steps before the reset itself leave everything but the island, device memory and its poisoned lines. -/
theorem zeroStores_islandReset_frame (d : Dev) :
    ∃ t m p, zeroStores (islandReset d) = { d with met := t, mem := m, poison := p } := by
  obtain ⟨t, ht⟩ := islandReset_islandOnly d
  obtain ⟨m, p, h⟩ := (zeroStores_writes (islandReset d)).frame
  rw [h, ht]
  exact ⟨t, m, p, rfl⟩

/-! ### What becomes of memory -/

theorem assoc_filter_of_pos {α : Type} {p : Nat × α → Bool} {a : Nat} (h : ∀ v, p (a, v) = true) (l : List (Nat × α)) :
    assoc a (l.filter p) = assoc a l := by
  induction l with
  | nil => rfl
  | cons c l ih =>
    obtain ⟨j, v⟩ := c
    by_cases here : j = a
    · subst here
      simp [h v, assoc]
    · cases kept : p (j, v) <;> simp [kept, assoc, here, ih]

theorem assoc_filter_of_neg {α : Type} {p : Nat × α → Bool} {a : Nat} (h : ∀ v, p (a, v) = false) (l : List (Nat × α)) :
    assoc a (l.filter p) = none := by
  induction l with
  | nil => rfl
  | cons c l ih =>
    obtain ⟨j, v⟩ := c
    by_cases here : j = a
    · subst here
      simp [h v, ih]
    · cases kept : p (j, v) <;> simp [kept, assoc, here, ih]

theorem memGet_memErase_outside {m : Memory} {a z x : Nat} (h : x < a ∨ z ≤ x) : memGet (memErase m a z) x = memGet m x := by
  unfold memGet memErase
  rw [assoc_filter_of_pos]
  simpa using h

theorem memGet_memErase_inside {m : Memory} {a z x : Nat} (ha : a ≤ x) (hz : x < z) : memGet (memErase m a z) x = 0 := by
  unfold memGet memErase
  rw [assoc_filter_of_neg]
  · rfl
  · simp [ha, hz]

/-- Bytes that are not lost, and those of no listed cell, stay. -/
theorem memGet_undefine {d : Dev} {m : Memory} {lost : Nat → Bool} {x : Nat} (h : ∀ c ∈ m, c.1 = x → lost x = false) :
    memGet (undefine d m lost) x = memGet m x := by
  have fold (l : Memory) (acc : Memory) (hl : ∀ c ∈ l, c.1 = x → lost x = false) :
      memGet (l.foldl (fun (acc : Memory) (c : Host.Cell) =>
        if lost c.1 then memPut acc c.1 (Config.freeByte (d.freeCount + c.1)) else acc) acc) x = memGet acc x := by
    induction l generalizing acc with
    | nil => rfl
    | cons c l ih =>
      rw [List.foldl_cons, ih _ fun c hc => hl c (List.mem_cons_of_mem _ hc)]
      by_cases here : c.1 = x
      · rw [here, hl c List.mem_cons_self here]
        rfl
      · split
        · exact memGet_memPut_other _ _ (Ne.symm here)
        · rfl
  exact fold m m h

theorem mem_memErase {m : Memory} {a z : Nat} {c : Host.Cell} (hc : c ∈ memErase m a z) : c.1 < a ∨ z ≤ c.1 := by
  simpa [memErase] using (List.mem_filter.mp hc).2

section
variable (d : Dev) (kind : BitVec 3) (kept : Bool)

theorem dieReset_mem : (dieReset d kind kept).mem
    = undefine (zeroStores (islandReset d)) (memErase (zeroStores (islandReset d)).mem 0 scratchTop) fun a => !kept && isHbm a :=
  rfl

theorem dieReset_scratch {a : Nat} (ha : a < scratchTop) : memGet (dieReset d kind kept).mem a = 0 := by
  rw [dieReset_mem, memGet_undefine, memGet_memErase_inside (Nat.zero_le a) ha]
  intro c hc here
  have := mem_memErase hc
  omega

theorem dieReset_hbm_kept {a : Nat} (ha : hbmBase ≤ a) (hstores : d.resStores = []) :
    memGet (dieReset d kind true).mem a = memGet d.mem a := by
  obtain ⟨t, ht⟩ := islandReset_islandOnly d
  have mem : (zeroStores (islandReset d)).mem = d.mem := by
    simp [ht, zeroStores, hstores]
  have above : scratchTop ≤ a := le_trans (by decide) ha
  rw [dieReset_mem, memGet_undefine fun _ _ _ => rfl, memGet_memErase_outside (.inr above), mem]

end

/-- Settles O45: the fields that a reset keeps come through its first two steps (`zeroStores_islandReset_frame`), the
others are those of the reset state, and memory is read byte by byte. -/
theorem resetLeaves : Obligations.ResetLeaves := by
  intro d kind kept
  obtain ⟨t, m, p, before⟩ := zeroStores_islandReset_frame d
  have met : (dieReset d kind kept).met = (islandReset d).met := by
    obtain ⟨m, p, h⟩ := (zeroStores_writes (islandReset d)).frame
    show (zeroStores (islandReset d)).met = _
    rw [h]
  refine ⟨?fuses, ?flash, ?annals, rfl, rfl, ?count, rfl, rfl, rfl, rfl, rfl, rfl, rfl, rfl, rfl, rfl, rfl, ?tap, ?closed, ?last,
    fun a => dieReset_scratch d kind kept, ?hbm⟩
  case fuses => show (zeroStores (islandReset d)).fuses = _; rw [before]
  case flash => show (zeroStores (islandReset d)).flash = _; rw [before]
  case annals => show (zeroStores (islandReset d)).annalsMiB = _; rw [before]
  case count => show satAdd (zeroStores (islandReset d)).pwr.resetCount 1 = _; rw [before]
  case tap => rw [met]; rfl
  case closed => rw [met]; rfl
  case last => rw [met]; rfl
  case hbm =>
    rintro rfl a low _ hstores
    exact dieReset_hbm_kept d kind low hstores

end Sys2Proof.Machine
end


section
/-!
SUPPORT. The clock: what the trace writer and the judgement of late work leave of it; offset, tick and era count.
-/
namespace Sys2Proof.Machine

variable (d : Dev)

/-! ### The trace writer leaves the clock -/

@[simp] theorem store_tik (a : Nat) (bs : List Byte) : (store d a bs).tik = d.tik := by
  obtain ⟨m, p, h⟩ := store_frame d a bs
  rw [h]

@[simp] theorem bump_tik (set scope idx n : Nat) : (bump d set scope idx n).tik = d.tik := by
  unfold bump
  split <;> rfl

@[simp] theorem ringPut_tik (bs : List Byte) : (ringPut d bs).tik = d.tik := by
  rw [ringPut, bump_tik, withTrc_tik, store_tik]

@[simp] theorem ringWrap_tik (r : TraceRec) (pad : Nat) : (ringWrap d r pad).tik = d.tik := by
  rw [ringWrap, withTrc_tik, ringPut_tik]

@[simp] theorem updateControl_tik : (updateControl d).tik = d.tik := by
  rw [updateControl, store_tik]

@[simp] theorem dropRecord_tik (r : TraceRec) : (dropRecord d r).tik = d.tik := by
  rw [dropRecord, bump_tik, withTrc_tik]

@[simp] theorem noteLeft_tik (written : Bool) : (noteLeft written d).tik = d.tik := rfl

@[simp] theorem writeTrace_tik (r : TraceRec) : (writeTrace d r).tik = d.tik := by
  generalize he : writeTrace d r = e
  unfold writeTrace at he
  extract_lets len pad past wrapped flags put sent at he
  have hwrapped : wrapped.tik = d.tik := by
    unfold wrapped
    split
    · rfl
    · exact ringWrap_tik d r pad
  split at he
  · rw [← he, noteLeft_tik, withTrc_tik, dropRecord_tik]
  · rw [← he, noteLeft_tik, updateControl_tik, withTrc_tik, ringPut_tik, hwrapped]

@[simp] theorem drainTrace_tik (fuel : Nat) : (drainTrace fuel d).tik = d.tik := by
  induction fuel generalizing d with
  | zero => rfl
  | succ fuel ih =>
    unfold drainTrace
    split
    · rfl
    · dsimp only
      split
      · rfl
      · rw [ih, writeTrace_tik, withTrc_tik]

@[simp] theorem runWriter_tik (ns : Nat) : (runWriter d ns).tik = d.tik := by
  unfold runWriter
  split
  · rfl
  · rw [drainTrace_tik, withTrc_tik]

@[simp] theorem passTime_tik (ns : Nat) : (passTime d ns).tik = d.tik := by
  unfold passTime
  dsimp only
  split
  · exact runWriter_tik d ns
  · rw [withMet_tik, runWriter_tik]

@[simp] theorem pageTick_tik : (pageTick d).tik = d.tik := by
  unfold pageTick
  split
  · exact updateControl_tik d
  · rfl

@[simp] theorem settleTick_tik (ns : Nat) : (settleTick ns d).tik = d.tik := rfl

@[simp] theorem settleBudgets_tik : (settleBudgets d).tik = d.tik := rfl

/-! ### Late work is counted and leaves the time -/

theorem markOwner_tik (w : Work) : (markOwner d w).tik = d.tik := by
  unfold markOwner
  split <;> rfl

theorem foldl_markOwner_tik (ws : List Work) : (ws.foldl markOwner d).tik = d.tik := by
  induction ws generalizing d with
  | nil => rfl
  | cons w t ih => rw [List.foldl_cons, ih, markOwner_tik]

theorem markLate_tik : ∃ late lateInWindow, (markLate d).tik = { d.tik with late := late, lateInWindow := lateInWindow } := by
  unfold markLate
  extract_lets t due fresh marked upd counted
  split
  · exact ⟨_, _, rfl⟩
  · rw [bump_tik]
    refine ⟨satAdd d.tik.late fresh.length, true, ?_⟩
    have hmarked : marked.tik = d.tik := foldl_markOwner_tik d fresh
    show { marked.tik with late := satAdd marked.tik.late fresh.length, lateInWindow := true } = _
    rw [hmarked]

/-- The end of a tick remembers it and returns the offset to 0; the other counts of the time stay. -/
theorem endTick_tik : ∃ late window since frame held, (endTick d).tik = { d.tik with
    late := late, lateInWindow := window, ended := ⟨d.tik.era, d.tik.tick⟩, offset := 0
    sinceEra := since, sinceFrame := frame, holdoverTicks := held } := by
  obtain ⟨late, window, hlate⟩ := markLate_tik d
  unfold endTick
  rw [withTik_tik, pageTick_tik, settleBudgets_tik, settleTick_tik, passTime_tik, hlate]
  exact ⟨_, _, _, _, _, rfl⟩

end Sys2Proof.Machine

open Sys2Proof Sys2Proof.Machine

/-- Settles O54: neither the trace writer nor the judgement of late work touches the time, so the idle cycle counts the
offset and the end of a tick, with the boundary after it, is what `nextTick` says. -/
theorem timestampCounts : Obligations.TimestampCounts := by
  refine ⟨fun d hreset hin => ?_, fun d => ?_, fun d => ⟨rfl, rfl, rfl⟩⟩
  · have hidle : idleTick d = withTik (settleTick 1 (passTime d 1)) fun x => { x with offset := x.offset + 1 } := by
      rw [idleTick, if_neg (by simp [hreset]), if_pos hin]
    rw [hidle, withTik_tik, settleTick_tik, passTime_tik]
    exact ⟨rfl, rfl, rfl⟩
  · obtain ⟨late, window, since, frame, held, hend⟩ := endTick_tik d
    dsimp only
    rw [withTik_tik, hend, nextTick]
    split
    next h0 => exact ⟨rfl, rfl, rfl, rfl, fun _ => ⟨rfl, h0⟩, fun hne => absurd h0 hne⟩
    next hne => exact ⟨rfl, rfl, rfl, rfl, fun h0 => absurd h0 hne, fun _ => ⟨rfl, rfl⟩⟩
end


section
/-!
SUPPORT. Frames of the start and the end of a mailbox command (sections 5.4 and 5.10).
-/
namespace Sys2Proof.Machine

theorem vmod_get_other {α : Type} {n : Nat} (v : Vector α n) {i j : Fin n} (f : α → α) (h : j ≠ i) : (vmod v i f)[j] = v[j] := by
  have hne : i.val ≠ j.val := fun e => h (Fin.ext e.symm)
  simp [vmod, hne]

/-! ### Counters and trace records -/

theorem bump_frame (d : Dev) (set scope idx n : Nat) : ∃ ct, bump d set scope idx n = { d with counters := ct } := by
  unfold bump
  split
  · exact ⟨d.counters, rfl⟩
  · exact ⟨_, rfl⟩

theorem trace_frame (d : Dev) (kind unit : Nat) (label : Option Byte) (layer operator : BitVec 16) (detail : Nat) (body : List Byte) :
    ∃ ct tr, trace d kind unit label layer operator detail body = { d with counters := ct, trc := tr } := by
  unfold trace
  split
  · exact ⟨d.counters, d.trc, rfl⟩
  · dsimp only
    split
    · obtain ⟨ct, h⟩ := bump_frame { d with trc := { d.trc with
        dropped := satAdd d.trc.dropped 1, droppedTotal := d.trc.droppedTotal + 1
        lossy := if d.trc.lossy.contains (BitVec.ofNat 8 unit) then d.trc.lossy else BitVec.ofNat 8 unit :: d.trc.lossy } } 2 0 300 1
      exact ⟨ct, _, h⟩
    · exact ⟨d.counters, _, rfl⟩

/-! ### The start -/

/-- `e` is `d` but for what the watches of section 15.7 hold. -/
def WatchesOnly (d e : Dev) : Prop :=
  ∃ ws es cp, e = { d with dbg := { d.dbg with watches := ws, event := es, copying := cp } }

theorem WatchesOnly.refl (d : Dev) : WatchesOnly d d := ⟨d.dbg.watches, d.dbg.event, d.dbg.copying, rfl⟩

theorem WatchesOnly.trans {d e f : Dev} (h : WatchesOnly d e) (g : WatchesOnly e f) : WatchesOnly d f := by
  obtain ⟨_, _, _, rfl⟩ := h
  obtain ⟨ws, es, cp, rfl⟩ := g
  exact ⟨ws, es, cp, rfl⟩

theorem WatchesOnly.foldl {α : Type} {f : Dev → α → Dev} (h : ∀ d x, WatchesOnly d (f d x)) (l : List α) (d : Dev) :
    WatchesOnly d (l.foldl f d) := by
  induction l generalizing d with
  | nil => exact .refl d
  | cons x t ih => exact (h d x).trans (ih _)

theorem matchWatches_watchesOnly (d : Dev) (id : Nat) (h : Hdr) (c : Cmd) : WatchesOnly d (matchWatches d id h c) := by
  refine WatchesOnly.foldl (fun d i => ?_) _ d
  dsimp only
  split
  · exact .refl d
  · repeat' split
    all_goals exact ⟨_, _, _, rfl⟩

theorem begun_frame (d : Dev) (n : Mbx) (h : Hdr) (c : Cmd) : ∃ ms ws es cp ct tr,
    begun d n h c = { d with
      mbx := ms, counters := ct, trc := tr, dbg := { d.dbg with watches := ws, event := es, copying := cp } }
    ∧ ∀ m : Mbx, m ≠ n → ms[m] = d.mbx[m] := by
  obtain ⟨ws, es, cp, hwatch⟩ := matchWatches_watchesOnly (traceBegin (taken d n) n (mailbox d n).label h c) d.nextId h c
  obtain ⟨ct, tr, htrace⟩ := trace_frame (taken d n) 1 95 (some (mailbox d n).label) h.layer h.operator
    (n.val + (cmdOpcode c).toNat * 2 ^ 16 + h.tag.toNat * 2 ^ 32 + h.handle.toNat * 2 ^ 48) []
  refine ⟨(taken d n).mbx, ws, es, cp, ct, tr, ?_, fun m hm => vmod_get_other _ _ hm⟩
  rw [begun, hwatch, traceBegin, htrace]
  rfl

/-! ### The end -/

/-- `e` is `d` but for what a completion of mailbox `n` writes besides memory, and for memory. -/
def PostedOnly (n : Mbx) (d e : Dev) : Prop := ∃ gl ms bs mm b2 ct,
  e = { d with glb := gl, mbx := ms, bus := bs, mem := mm, bar2 := b2, counters := ct } ∧ ∀ m : Mbx, m ≠ n → ms[m] = d.mbx[m]

/-- Of the memories of `d`, `e` has changed at most the 32 bytes at `a` of the memory that holds the completion ring. -/
def SlotOnly (dev : Bool) (a : Nat) (d e : Dev) : Prop :=
  (∀ x, x < hostBase + a ∨ hostBase + a + 32 ≤ x ∨ dev = true → memGet e.mem x = memGet d.mem x)
  ∧ (∀ x, x < a ∨ a + 32 ≤ x ∨ dev = false → memGet e.bar2 x = memGet d.bar2 x)

/-- The completion ring that the mailbox describes is written in one slot, at its tail. -/
def PostFrame (n : Mbx) (d e : Dev) : Prop :=
  PostedOnly n d e ∧ SlotOnly (mailbox d n).cqDev ((mailbox d n).cqBase.value.toNat + 32 * (mailbox d n).cqTail.toNat) d e

section
variable {d e f : Dev} {n : Mbx}

theorem PostedOnly.trans (h : PostedOnly n d e) (g : PostedOnly n e f) : PostedOnly n d f := by
  obtain ⟨_, _, _, _, _, _, rfl, hms⟩ := h
  obtain ⟨gl, ms, bs, mm, b2, ct, rfl, gms⟩ := g
  exact ⟨gl, ms, bs, mm, b2, ct, rfl, fun m hm => (gms m hm).trans (hms m hm)⟩

theorem PostedOnly.withMbx (h : PostedOnly n d e) (f : Mailbox → Mailbox) : PostedOnly n d (withMbx e n f) :=
  h.trans ⟨e.glb, _, e.bus, e.mem, e.bar2, e.counters, rfl, fun _ hm => vmod_get_other _ _ hm⟩

theorem PostedOnly.refl (n : Mbx) (d : Dev) : PostedOnly n d d := ⟨d.glb, d.mbx, d.bus, d.mem, d.bar2, d.counters, rfl, fun _ _ => rfl⟩

theorem PostedOnly.bump (h : PostedOnly n d e) (set scope idx k : Nat) : PostedOnly n d (bump e set scope idx k) := by
  obtain ⟨ct, hct⟩ := bump_frame e set scope idx k
  rw [hct]
  exact h.trans ⟨e.glb, e.mbx, e.bus, e.mem, e.bar2, ct, rfl, fun _ _ => rfl⟩

theorem PostedOnly.sendMsi (h : PostedOnly n d e) (v : Byte) : PostedOnly n d (sendMsi e v) := by
  unfold Machine.sendMsi
  split
  · exact h.trans ⟨_, e.mbx, e.bus, e.mem, e.bar2, e.counters, rfl, fun _ _ => rfl⟩
  · exact h.trans ⟨e.glb, e.mbx, _, e.mem, e.bar2, e.counters, rfl, fun _ _ => rfl⟩

theorem PostedOnly.ringStore (h : PostedOnly n d e) (dev : Bool) (a : Nat) (bs : List Byte) : PostedOnly n d (ringStore e dev a bs) := by
  unfold Machine.ringStore
  split
  · exact h.trans ⟨e.glb, e.mbx, e.bus, e.mem, _, e.counters, rfl, fun _ _ => rfl⟩
  · exact h.trans ⟨e.glb, e.mbx, e.bus, _, e.bar2, e.counters, rfl, fun _ _ => rfl⟩

/-- What leaves the memories as they are leaves the rest of them outside the slot. -/
theorem SlotOnly.of_same (dev : Bool) (a : Nat) (hmem : e.mem = d.mem) (hbar2 : e.bar2 = d.bar2) : SlotOnly dev a d e :=
  ⟨fun x _ => by rw [hmem], fun x _ => by rw [hbar2]⟩

theorem SlotOnly.of_memories {dev : Bool} {a : Nat} (h : SlotOnly dev a d e) (hmem : f.mem = e.mem) (hbar2 : f.bar2 = e.bar2) :
    SlotOnly dev a d f :=
  ⟨fun x hx => by rw [hmem, h.1 x hx], fun x hx => by rw [hbar2, h.2 x hx]⟩

theorem ringStore_slotOnly (d : Dev) (dev : Bool) (a : Nat) {bs : List Byte} (h : bs.length = 32) :
    SlotOnly dev a d (ringStore d dev a bs) := by
  unfold ringStore
  cases dev with
  | true => exact ⟨fun _ _ => rfl, fun x hx => memGet_memPuts_outside _ _ _ _ (by rw [h]; simpa using hx)⟩
  | false => exact ⟨fun x hx => memGet_memPuts_outside _ _ _ _ (by rw [h]; simpa using hx), fun _ _ => rfl⟩

@[simp] theorem completionBytes_length (m : Mailbox) (c : Completion) : (completionBytes m c).length = 32 := by
  simp [completionBytes]

/-! The completion is stored, and the mailbox, the counter of events and the interrupt follow. -/

theorem bump_mem_bar2 (d : Dev) (set scope idx k : Nat) : (bump d set scope idx k).mem = d.mem ∧ (bump d set scope idx k).bar2 = d.bar2 := by
  obtain ⟨ct, h⟩ := bump_frame d set scope idx k
  rw [h]
  exact ⟨rfl, rfl⟩

theorem sendMsi_mem_bar2 (d : Dev) (v : Byte) : (sendMsi d v).mem = d.mem ∧ (sendMsi d v).bar2 = d.bar2 := by
  unfold sendMsi
  split <;> exact ⟨rfl, rfl⟩

theorem settle_mem_bar2 (d : Dev) (n : Mbx) : (settle d n).mem = d.mem ∧ (settle d n).bar2 = d.bar2 := by
  unfold settle
  dsimp only
  split <;> exact ⟨rfl, rfl⟩

theorem settle_postedOnly (d : Dev) (n : Mbx) : PostedOnly n d (settle d n) := by
  unfold settle
  dsimp only
  split
  · exact (PostedOnly.refl n d).withMbx _
  · exact .refl n d

theorem PostFrame.of_same (h : PostedOnly n d e) (hmem : e.mem = d.mem) (hbar2 : e.bar2 = d.bar2) : PostFrame n d e :=
  ⟨h, .of_same _ _ hmem hbar2⟩

theorem writeCompletion_postFrame (d : Dev) (n : Mbx) (c : Completion) : PostFrame n d (writeCompletion d n c) := by
  unfold writeCompletion
  extract_lets m a next c stored moved counted
  split
  · exact .of_same ((PostedOnly.refl n d).withMbx _) rfl rfl
  · have hstored : PostedOnly n d stored := (PostedOnly.refl n d).ringStore _ _ _
    have hslot : SlotOnly m.cqDev a d moved := ringStore_slotOnly d m.cqDev a (completionBytes_length m c)
    have hcounted : PostFrame n d counted := by
      unfold counted
      split
      · obtain ⟨hm, hb⟩ := bump_mem_bar2 moved 0 n.val 11 1
        exact ⟨(hstored.withMbx _).bump _ _ _ _, hslot.of_memories hm hb⟩
      · exact ⟨hstored.withMbx _, hslot⟩
    split
    · obtain ⟨hm, hb⟩ := sendMsi_mem_bar2 counted m.vector
      exact ⟨hcounted.1.sendMsi _, hcounted.2.of_memories hm hb⟩
    · exact hcounted

theorem post_postFrame (d : Dev) (n : Mbx) (c : Completion) : PostFrame n d (post d n c) := by
  unfold post
  dsimp only
  split
  · obtain ⟨hm, hb⟩ := settle_mem_bar2 d n
    exact .of_same (settle_postedOnly d n) hm hb
  · split
    · obtain ⟨hm, hb⟩ := settle_mem_bar2 (writeCompletion d n c) n
      obtain ⟨hrest, hslot⟩ := writeCompletion_postFrame d n c
      exact ⟨hrest.trans (settle_postedOnly _ n), hslot.of_memories hm hb⟩
    · exact .of_same ((PostedOnly.refl n d).withMbx _) rfl rfl

end

/-- What `endCommand` does before it posts: three counters, the fault bits, the power event and a trace record. -/
theorem endCommand_eq_post (d : Dev) (n : Mbx) (label : Byte) (h : Hdr) (c : Cmd) (st : Status) (res : BitVec 96) :
    ∃ gl pe ct tr e k, e = { d with glb := gl, pwr := { d.pwr with event := pe }, counters := ct, trc := tr }
      ∧ endCommand d n label h c st res = post e n k := by
  generalize hend : endCommand d n label h c st res = f
  unfold endCommand at hend
  extract_lets twice counted glb pwr marked traced at hend
  have hcounted : ∃ ct, counted = { d with counters := ct } := by
    obtain ⟨_, h1⟩ := bump_frame d 0 n.val 0 1
    obtain ⟨_, h2⟩ := bump_frame (bump d 0 n.val 0 1) 0 n.val (1 + st.toNat / 256) 1
    obtain ⟨ct, h3⟩ := bump_frame (bump (bump d 0 n.val 0 1) 0 n.val (1 + st.toNat / 256) 1) 1 label.toNat 0 1
    refine ⟨ct, ?_⟩
    unfold counted twice
    rw [h3, h2, h1]
  obtain ⟨ct, hct⟩ := hcounted
  obtain ⟨ct', tr, htr⟩ := trace_frame marked 2 95 (some label) h.layer h.operator
    (n.val + (cmdOpcode c).toNat * 2 ^ 16 + h.tag.toNat * 2 ^ 32 + st.toNat * 2 ^ 48) []
  refine ⟨marked.glb, marked.pwr.event, ct', tr, traced, _, htr.trans ?_, hend.symm⟩
  unfold marked glb pwr
  rw [hct]

theorem endCommand_frame (d : Dev) (n : Mbx) (label : Byte) (h : Hdr) (c : Cmd) (st : Status) (res : BitVec 96) :
    ∃ gl pe ms bs mm b2 ct tr, endCommand d n label h c st res = { d with
      glb := gl, pwr := { d.pwr with event := pe }, mbx := ms, bus := bs, mem := mm, bar2 := b2, counters := ct, trc := tr }
    ∧ (∀ m : Mbx, m ≠ n → ms[m] = d.mbx[m])
    ∧ (let a := (mailbox d n).cqBase.value.toNat + 32 * (mailbox d n).cqTail.toNat
      (∀ x, x < hostBase + a ∨ hostBase + a + 32 ≤ x ∨ (mailbox d n).cqDev = true → memGet mm x = memGet d.mem x)
      ∧ (∀ x, x < a ∨ a + 32 ≤ x ∨ (mailbox d n).cqDev = false → memGet b2 x = memGet d.bar2 x)) := by
  obtain ⟨_, pe, _, tr, e, k, rfl, hpost⟩ := endCommand_eq_post d n label h c st res
  obtain ⟨⟨gl, ms, bs, mm, b2, ct, hrest, hothers⟩, hslot⟩ := post_postFrame _ n k
  rw [← hpost] at hrest hslot
  rw [hrest] at hslot ⊢
  exact ⟨gl, pe, ms, bs, mm, b2, ct, tr, rfl, hothers, hslot⟩

end Sys2Proof.Machine

open Sys2Proof Sys2Proof.Machine

/-- Settles O52: the start takes the entry, traces and marks watches; the end counts, traces and posts one slot. -/
theorem completionFrame : Obligations.CompletionFrame :=
  ⟨begun_frame, endCommand_frame⟩
end


section
/-!
SUPPORT. Frames of the sending and the arrival of a link frame (sections 8.2 to 8.5), and what a departure consumes.
-/
namespace Sys2Proof.Machine

/-- `e` is `d` but for port `p`, the counters and the count of free values. -/
def PortOnly (p : Port) (d e : Dev) : Prop :=
  ∃ ps ct k, e = { d with ports := ps, counters := ct, freeCount := k } ∧ ∀ q : Port, q ≠ p → ps[q] = d.ports[q]

section
variable {d e f : Dev} {p : Port}

theorem PortOnly.refl (p : Port) (d : Dev) : PortOnly p d d := ⟨d.ports, d.counters, d.freeCount, rfl, fun _ _ => rfl⟩

theorem PortOnly.trans (h : PortOnly p d e) (g : PortOnly p e f) : PortOnly p d f := by
  obtain ⟨_, _, _, rfl, hps⟩ := h
  obtain ⟨ps, ct, k, rfl, gps⟩ := g
  exact ⟨ps, ct, k, rfl, fun q hq => (gps q hq).trans (hps q hq)⟩

theorem PortOnly.foldl {α : Type} {f : Dev → α → Dev} (h : ∀ d x, PortOnly p d (f d x)) (l : List α) (d : Dev) :
    PortOnly p d (l.foldl f d) := by
  induction l generalizing d with
  | nil => exact .refl p d
  | cons x t ih => exact (h d x).trans (ih _)

theorem PortOnly.withPort (h : PortOnly p d e) (f : PortSt → PortSt) : PortOnly p d (withPort e p f) :=
  h.trans ⟨_, e.counters, e.freeCount, rfl, fun _ hq => vmod_get_other _ _ hq⟩

theorem PortOnly.bumpPort (h : PortOnly p d e) (i : Fin 10) (n : Nat) : PortOnly p d (bumpPort e p i n) := h.withPort _

theorem PortOnly.bump (h : PortOnly p d e) (set scope idx n : Nat) : PortOnly p d (bump e set scope idx n) := by
  obtain ⟨ct, hct⟩ := bump_frame e set scope idx n
  rw [hct]
  exact h.trans ⟨e.ports, ct, e.freeCount, rfl, fun _ _ => rfl⟩

theorem PortOnly.draw (h : PortOnly p d e) : PortOnly p d (draw e).2 :=
  h.trans ⟨e.ports, e.counters, e.freeCount + 1, rfl, fun _ _ => rfl⟩

/-- The frame reaches every port but its own. -/
theorem PortOnly.portAt_other (h : PortOnly p d e) {q : Port} (hq : q ≠ p) : portAt e q = portAt d q := by
  obtain ⟨ps, ct, k, rfl, hps⟩ := h
  exact hps q hq

end

/-! ### A departure -/

/-- The number that a departure draws for the identification of an IPv4 packet, and the device after the draw. -/
def departDraw (d : Dev) (p : Port) : Nat × Dev := if (portAt d p).routedForce then draw d else (0, d)

/-- The port after a departure. -/
def departPort (d : Dev) (p : Port) (f : Frame) (s : PortSt) : PortSt :=
  let body := departBody d p f
  let r := vcFin (portAt d p).rotate
  { s with
    sent := if takesCredit f.type then s.sent.set (vcFin f.vc) (s.sent[vcFin f.vc] + BitVec.ofNat 30 (frameUnits body.length)) else s.sent
    advertised := if f.type = 0x30 then advertiseAll s else s.advertised.set r (advertise (portAt d p) r)
    rotate := s.rotate + 1
    delaySent := if f.type = 0x05 then some ⟨d.tik.tick, d.tik.offset⟩ else (portAt d p).delaySent
    wire := s.wire ++ [{ f with
      hdr := departHdr d p f body.length, body := body
      link := linkBytes (departDraw d p).2 p (Config.choice (departDraw d p).1 % 65536) (32 + body.length) }] }

theorem departDraw_portOnly (d : Dev) (p : Port) : PortOnly p d (departDraw d p).2 := by
  unfold departDraw
  split
  · exact (PortOnly.refl p d).draw
  · exact .refl p d

theorem portAt_departDraw (d : Dev) (p q : Port) : portAt (departDraw d p).2 q = portAt d q := by
  unfold departDraw
  split <;> rfl

theorem depart_eq (d : Dev) (p : Port) (f : Frame) : depart d p f =
    bump (bumpPort (withPort (departDraw d p).2 p (departPort d p f)) p 0 1) 2 0 (256 + p.val)
      ((departBody d p f).length + frameOverhead (portAt d p)) := rfl

theorem depart_portOnly (d : Dev) (p : Port) (f : Frame) : PortOnly p d (depart d p f) := by
  rw [depart_eq]
  exact (((departDraw_portOnly d p).withPort _).bumpPort _ _).bump _ _ _ _

@[simp] theorem portAt_bump (d : Dev) (set scope idx n : Nat) (q : Port) : portAt (bump d set scope idx n) q = portAt d q := by
  obtain ⟨ct, h⟩ := bump_frame d set scope idx n
  rw [h]
  rfl

/-- The port after a departure, its counter of sent frames apart. -/
theorem portAt_depart (d : Dev) (p : Port) (f : Frame) :
    ∃ cs, portAt (depart d p f) p = { departPort d p f (portAt d p) with counters := cs } := by
  rw [depart_eq, portAt_bump, bumpPort, portAt_withPort_same, portAt_withPort_same, portAt_departDraw]
  exact ⟨_, rfl⟩

theorem departPort_sent (d : Dev) (p : Port) (f : Frame) (v : Fin 4) : (departPort d p f (portAt d p)).sent[v] =
    if takesCredit f.type = true ∧ v = vcFin f.vc then
      (portAt d p).sent[v] + BitVec.ofNat 30 (frameUnits (departBody d p f).length) else (portAt d p).sent[v] := by
  show (if takesCredit f.type then (portAt d p).sent.set (vcFin f.vc) _ else (portAt d p).sent)[v] = _
  cases takesCredit f.type with
  | false => simp
  | true =>
    by_cases hv : v = vcFin f.vc
    · rw [if_pos rfl, if_pos ⟨rfl, hv⟩, hv]
      exact Vector.getElem_set_self _
    · rw [if_pos rfl, if_neg fun both => hv both.2]
      exact Vector.getElem_set_ne _ _ fun e => hv (Fin.ext e.symm)

theorem advertiseAll_get (s : PortSt) (r : Fin 4) : (advertiseAll s)[r] = advertise s r := by
  fin_cases r <;> rfl

theorem departPort_advertised (d : Dev) (p : Port) (f : Frame) : (departPort d p f (portAt d p)).advertised[vcFin (portAt d p).rotate] =
    advertise (portAt d p) (vcFin (portAt d p).rotate) := by
  show (if f.type = 0x30 then advertiseAll (portAt d p) else (portAt d p).advertised.set _ _)[vcFin (portAt d p).rotate] = _
  split
  · exact advertiseAll_get _ _
  · exact Vector.getElem_set_self _

/-! ### Sending and arrival -/

theorem sendFrame_portOnly (d : Dev) (p : Port) (f : Frame) : PortOnly p d (sendFrame d p f) := by
  unfold sendFrame
  split
  · exact .refl p d
  · split
    · exact depart_portOnly d p f
    · exact (PortOnly.refl p d).withPort _

theorem flushChannel_portOnly (p : Port) (v : BitVec 2) (fs : List Frame) (blocked : Bool) (d : Dev) :
    PortOnly p d (flushChannel p v blocked d fs).1 := by
  induction fs generalizing blocked d with
  | nil => exact .refl p d
  | cons f t ih =>
    unfold flushChannel
    split
    · exact (depart_portOnly d p f).trans (ih _ _)
    · exact ih _ _

theorem flushPort_portOnly (d : Dev) (p : Port) : PortOnly p d (flushPort d p) :=
  PortOnly.foldl (fun d v => (flushChannel_portOnly p v _ false d).withPort _) _ d

/-- An arrival touches the port, the counters and, in VC0, the highest era seen. -/
theorem arrive_frame (d : Dev) (p : Port) (vc : BitVec 2) (type : Byte) (h : LysHdr) : ∃ ps ct k,
    arrive d p vc type h = { d with
      ports := ps, counters := ct, freeCount := k
      join := if vc = 0 then { d.join with highEra := maxEra d.join.highEra h.era } else d.join }
    ∧ ∀ q : Port, q ≠ p → ps[q] = d.ports[q] := by
  generalize harr : arrive d p vc type h = e
  unfold arrive at harr
  extract_lets v counted seen got learnt at harr
  have hcounted : PortOnly p d counted := ((PortOnly.refl p d).bumpPort 1 1).bump _ _ _ _
  have hlearnt : PortOnly p seen e := by
    rw [← harr]
    split
    · exact (((PortOnly.refl p seen).withPort _).withPort _).trans (flushPort_portOnly learnt p)
    · exact ((PortOnly.refl p seen).withPort _).withPort _
  obtain ⟨_, _, _, hc, hps⟩ := hcounted
  obtain ⟨ps, ct, k, he, gps⟩ := hlearnt
  have hseen : seen = { counted with join := if vc = 0 then { d.join with highEra := maxEra d.join.highEra h.era } else d.join } := by
    unfold seen
    rw [hc]
    split <;> rfl
  refine ⟨ps, ct, k, ?_, fun q hq => (gps q hq).trans ?_⟩
  · rw [he, hseen, hc]
  · rw [hseen, hc]
    exact hps q hq

end Sys2Proof.Machine

open Sys2Proof Sys2Proof.Machine

/-- Settles O53: everything that a sent or arriving frame does is done on its own port. -/
theorem linkFrame : Obligations.LinkFrame :=
  ⟨arrive_frame, sendFrame_portOnly⟩

/-- Settles O39: the departed frame is written out by `departPort`; whether a frame departs is decided by `sendFrame`. -/
theorem creditIsSpentOnDeparture : Obligations.CreditIsSpentOnDeparture := by
  refine ⟨fun d p f => ?departs, fun d p f => ⟨fun htakes => ?refused, fun htakes hwait => ?waits, fun htakes hmay hfirst => ?leaves⟩⟩
  case departs =>
    obtain ⟨cs, hport⟩ := portAt_depart d p f
    dsimp only
    rw [hport]
    refine ⟨fun v => ?_, rfl, ?_, rfl, ⟨_, rfl, rfl, rfl, rfl, rfl, fun hera => if_neg hera, rfl, rfl, rfl⟩,
      fun q hq => (depart_portOnly d p f).portAt_other hq⟩
    · exact departPort_sent d p f v
    · exact departPort_advertised d p f
  case refused => rw [sendFrame, htakes, Bool.not_false, if_pos rfl]
  case waits =>
    have hqueue : sendFrame d p f = withPort d p fun s => { s with queue := s.queue ++ [f] } := by
      rw [sendFrame, htakes, hwait]
      rfl
    rw [hqueue, portAt_withPort_same]
    exact ⟨rfl, rfl⟩
  case leaves =>
    have hbehind : (takesCredit f.type && (portAt d p).queue.any fun g => g.vc = f.vc) = false := by
      rcases hfirst with hfree | hnone
      · rw [hfree, Bool.false_and]
      · rw [List.any_eq_false.mpr (by simpa using hnone), Bool.and_false]
    rw [sendFrame, htakes, hmay, hbehind]
    rfl
end


section
/-!
SUPPORT. The commands of Tables 5-6 and 5-7: what the start of each comes to where its own checks pass.
-/
namespace Sys2Proof.Machine

/-! ### Settings -/

theorem startSetPlacement_eq (d : Dev) (cl : Caller) (mask value : BitVec 10) :
    let wait := mask &&& (value ^^^ d.fpl.active)
    let e := writeMode d ((d.fpl.mode &&& ~~~mask) ||| (value &&& mask))
    startSetPlacement d cl mask value
      = if wait = 0 then .done e 0 else .go e (newRunning e cl (.setPlacement mask value) (.placement wait)) := rfl

theorem startSetTick_legal {d : Dev} {cl : Caller} {period : BitVec 16} {floor holiday : BitVec 8} (hlow : 2 ≤ period.toNat)
    (hhigh : period.toNat ≤ 1000) (hfloor : floor.toNat ≤ 8) (hholiday : holiday.toNat ≤ 6) :
    let q := requestChange d ⟨0, period.truncate 10, holiday.truncate 3, floor.truncate 4⟩
    startSetTick d cl period floor holiday
      = .go q.1 { newRunning q.1 cl (.setTick period floor holiday) .eraChange with chunks := q.2 } := by
  have hlegal : (period.toNat < 2 || 1000 < period.toNat || 8 < floor.toNat || 6 < holiday.toNat) = false := by
    simp only [Bool.or_eq_false_iff, decide_eq_false_iff_not]
    omega
  dsimp only
  rw [startSetTick, hlegal]
  rfl

/-! ### The device -/

theorem startInit_done {d : Dev} {annals : Word} {size : Nat} (hfresh : d.glb.initialised = false) (hsize : annalsSize annals = some size)
    (htiles : 32 ≤ activeCount (placeAnnals d size)) :
    let e := postRequests 16 (withGlb (placeAnnals d size) fun g => { g with initialised := true })
    startInit d annals = .done e (result [(20, 2, e.join.member.toNat), (22, 1, e.join.position.toNat), (23, 1, activeCount e)]) := by
  dsimp only
  rw [startInit, hfresh, hsize]
  simp only [Bool.false_eq_true, if_false]
  rw [if_neg (by omega)]

theorem startFwUpdate_eq {d : Dev} {address : BitVec 48} {length : Word} (hpos : 0 < length.toNat) (hlen : length.toNat ≤ 15 * mib)
    (hsource : sourceFault d address.toNat length.toNat = none) :
    let bs := load d address.toNat length.toNat
    startFwUpdate d address length
      = if Config.imageAuthentic bs then .done (withFlash d fun f => { f with image := bs }) 0 else .fail 0x0306 := by
  have hlegal : (length.toNat = 0 || 15 * mib < length.toNat) = false := by
    simp only [Bool.or_eq_false_iff, decide_eq_false_iff_not]
    omega
  dsimp only
  rw [startFwUpdate, hlegal, hsource]
  rfl

/-! ### Repairs -/

/-- The request that `startRepairApprove` looks for in a slot. -/
def namedRequest (request : Word) (o : Option RepairReq) : Option RepairReq := o.bind fun q => if q.id = request then some q else none

theorem namedRequest_eq_some {request : Word} {o : Option RepairReq} {q : RepairReq} :
    namedRequest request o = some q ↔ o = some q ∧ q.id = request := by
  cases o with
  | none => simp [namedRequest]
  | some p =>
    simp only [namedRequest, Option.bind_some, Option.ite_none_right_eq_some, Option.some.injEq]
    exact ⟨fun ⟨hid, hp⟩ => ⟨hp, hp ▸ hid⟩, fun ⟨hp, hid⟩ => ⟨hp ▸ hid, hp⟩⟩

/-- The posted request with the identifier is found when no other has the identifier. -/
theorem findSome_namedRequest {v : Vector (Option RepairReq) 16} {i : Fin 16} {q : RepairReq} {request : Word} (hi : v[i] = some q)
    (hid : q.id = request) (honly : ∀ j : Fin 16, ∀ p, v[j] = some p → p.id = request → p = q) :
    v.toList.findSome? (namedRequest request) = some q := by
  cases hfound : v.toList.findSome? (namedRequest request) with
  | none =>
    have hmem : v[i] ∈ v.toList := Vector.mem_toList_iff.mpr (Vector.getElem_mem _)
    have hmiss := List.findSome?_eq_none_iff.mp hfound _ hmem
    rw [hi, namedRequest_eq_some.mpr ⟨rfl, hid⟩] at hmiss
    cases hmiss
  | some p =>
    obtain ⟨o, hmem, ho⟩ := List.exists_of_findSome?_eq_some hfound
    obtain ⟨rfl, hp⟩ := namedRequest_eq_some.mp ho
    obtain ⟨j, hj, hvj⟩ := Vector.getElem_of_mem (Vector.mem_toList_iff.mp hmem)
    rw [honly ⟨j, hj⟩ p hvj hp]

theorem startRepairApprove_done {d : Dev} {request : Word} {decision : BitVec 8} {i : Fin 16} {q : RepairReq}
    (hmode : hostMode d 7 = true) (hdecision : decision.toNat ≤ 1) (hi : d.rpr.posted[i] = some q) (hid : q.id = request)
    (honly : ∀ j : Fin 16, ∀ p, d.rpr.posted[j] = some p → p.id = request → p = q) :
    let clear := fun (o : Option RepairReq) => if o = some q then none else o
    let e := withRpr d fun x => { x with posted := vmap clear x.posted }
    startRepairApprove d request decision = .done (postRequests 16 (if decision = 0 then scheduleRepair e q
      else withRpr e fun x => { x with declined := x.declined ++ [q] })) 0 := by
  have hfound : (d.rpr.posted.toList.findSome? fun o => o.bind fun q => if q.id = request then some q else none) = some q :=
    findSome_namedRequest hi hid honly
  dsimp only
  rw [startRepairApprove, hmode, hfound, if_neg (by simp), if_neg (by omega)]

/-! ### Tenants and allocations -/

theorem mbxOfNat_val (m : Mbx) : mbxOfNat m.val = some m := dif_pos m.isLt

theorem startBindTenant_user {d : Dev} {m : Mbx} {mailbox label : BitVec 8} {unbind : Bool} (hm : mailbox.toNat = m.val)
    (huser : m.val < 64) (hoff : d.mbx[m].enabled = false) (hopen : unbind = true ∨ openRefuses d label = false) :
    startBindTenant d mailbox label unbind
      = .done (withMbx d m fun x => { x with bound := !unbind, label := if unbind then 0 else label }) 0 := by
  rw [startBindTenant, hm, mbxOfNat_val]
  simp only [hoff, if_neg (show ¬ m.val = 64 by omega), Bool.false_eq_true, if_false]
  cases unbind with
  | true => rfl
  | false => simp only [hopen.resolve_left Bool.false_ne_true, Bool.false_eq_true, if_false, Bool.not_false]

theorem startAlloc_done {d : Dev} {label memory : BitVec 8} {size : BitVec 64} {a k : Nat} (hmemory : memory.toNat ≤ 1)
    (hpos : 0 < size.toNat) (haligned : size.toNat % 65536 = 0)
    (hrun : lowestRun (busyRanges d (memory = 1)) (memory = 1) size.toNat 65536 = some a)
    (hfree : lowestFree d.allocs 0 (d.allocs.length + 1) = some k) :
    startAlloc d label memory size
      = .done { d with allocs := assocSet k ⟨label, memory = 1, a, size.toNat⟩ d.allocs } (result [(20, 4, k), (24, 6, a)]) := by
  have hlegal : (1 < memory.toNat || size.toNat = 0 || size.toNat % 65536 != 0) = false := by
    simp only [haligned, bne_self_eq_false, Bool.or_false, Bool.or_eq_false_iff, decide_eq_false_iff_not]
    omega
  rw [startAlloc, hlegal]
  simp only [Bool.false_eq_true, if_false, hrun, hfree]

theorem startFree_done {d : Dev} {allocation : Word} {a : Alloc} (hfound : assoc allocation.toNat d.allocs = some a)
    (hheld : allocHeld d allocation.toNat a = false) :
    startFree d allocation = .done { d with
      allocs := assocDel allocation.toNat d.allocs
      resStores := d.resStores.filter fun x => !(a.addr ≤ resKey x.desc && resKey x.desc < a.addr + a.size) } 0 := by
  rw [startFree, hfound]
  simp only [hheld, Bool.false_eq_true, if_false]

end Sys2Proof.Machine

open Sys2Proof Sys2Proof.Machine

/-- Settles O7: each command begins, and its own start comes to the effect that Table 5-6 gives. -/
theorem settingsAndDeviceCommandsRun : Obligations.SettingsAndDeviceCommandsRun := by
  refine ⟨fun s n h seed e hb => issue_done hb rfl, ?placement, ?tick, ?init, ?firmware, ?repair⟩
  case placement =>
    intro s n h mask value e hb wait d
    have hstart := startSetPlacement_eq e (mbxCaller s.dev n h) mask value
    split
    next hnone => exact issue_done hb (hstart.trans (if_pos hnone))
    next hwait => exact issue_go hb (hstart.trans (if_neg hwait))
  case tick =>
    intro s n h period floor holiday e hb q hlow hhigh hfloor hholiday
    exact issue_go hb (startSetTick_legal hlow hhigh hfloor hholiday)
  case init =>
    intro s n h annals size e hb d hfresh hsize htiles d'
    exact issue_done hb (startInit_done hfresh hsize htiles)
  case firmware =>
    intro s n h address length e hb bs hpos hlen hsource
    have hstart := startFwUpdate_eq hpos hlen hsource
    split
    next hauthentic => exact issue_done hb (hstart.trans (if_pos hauthentic))
    next hforged => exact issue_fail hb (hstart.trans (if_neg hforged))
  case repair =>
    intro s n h request decision i q e hb clear d hmode hdecision hi hid honly
    exact issue_done hb (startRepairApprove_done hmode hdecision hi hid honly)

/-- Settles O8: each command begins, and its own start comes to the effect that Table 5-6 gives. -/
theorem tenancyCommandsRun : Obligations.TenancyCommandsRun := by
  refine ⟨?bind, fun s n h label e hb => issue_done hb rfl, ?alloc, ?free⟩
  case bind =>
    intro s n m h mailbox label unbind e hb hm huser hoff hopen
    exact issue_done hb (startBindTenant_user hm huser hoff hopen)
  case alloc =>
    intro s n h label memory size a k e hb hmemory hpos haligned hrun hfree
    exact issue_done hb (startAlloc_done hmemory hpos haligned hrun hfree)
  case free =>
    intro s n h allocation a e hb hfound hheld
    exact issue_done hb (startFree_done hfound hheld)
end


section
/-!
SUPPORT. The descriptor commands of Table 5-7: what the start of each comes to where its own checks pass.
-/
namespace Sys2Proof.Machine

/-- The fault that a descriptor's owner table gives CREATE_DESC (R176, R190). -/
def ownerTableFault (cl : Caller) (k : Desc) (table : Option OwnerTable) : Option Status :=
  if !k.ownerValid then none
  else match table with
    | none => some 0x0117
    | some t => if !cl.may t.label then some 0x0611 else if t.poisoned then some 0x0504
      else if tableFits k t then none else some 0x0117

theorem ownerTableFault_none {cl : Caller} {k : Desc} {table : Option OwnerTable} (h : k.ownerValid = true → ∃ t, table = some t ∧
    cl.may t.label = true ∧ t.poisoned = false ∧ tableFits k t = true) : ownerTableFault cl k table = none := by
  cases hv : k.ownerValid with
  | false => simp [ownerTableFault, hv]
  | true =>
    obtain ⟨t, rfl, hmay, hsound, hfits⟩ := h hv
    simp [ownerTableFault, hv, hmay, hsound, hfits]

/-- CREATE_DESC from its image: the descriptor that the image makes, judged in the order of section 4.1. -/
theorem startCreateDesc_image {d : Dev} {cl : Caller} {address : BitVec 48} {j : Nat} (hsource : sourceFault d address.toNat 64 = none)
    (hfree : lowestFree d.descs 0 65536 = some j) :
    let bs := load d address.toNat 64
    let k := imageMade d cl.label bs
    startCreateDesc d cl address =
      if !fmtDefined k.fmt || k.rk = 0 || 6 < k.rk then .fail 0x0110
      else if !encodingOk bs k then .fail 0x0111
      else if 2 ^ 40 < k.count then .fail 0x0112
      else if !stridesOk k then .fail 0x0113
      else if k.transpose && (k.rk < 2 || !mayTranspose k.fmt) then .fail 0x0116
      else match ownerTableFault cl k (imageTable d bs) with
        | some st => .fail st
        | none =>
          match assoc k.allocation.toNat d.allocs with
          | none => .fail 0x0114
          | some a =>
            if !cl.may a.label then .fail 0x0610
            else if a.size < k.base.toNat + k.reach then .fail 0x0115
            else .done { d with descs := assocSet j { k with start := a.addr } d.descs } (result [(20, 2, j)]) := by
  extract_lets bs k
  have hk : k = imageMade d cl.label bs := rfl
  clear_value k
  rw [startCreateDesc, hsource]
  simp only [hfree]
  unfold imageMade imageTable at hk
  unfold imageTable
  cases htable : assoc (field bs 56 2 % 1024) d.owners with
  | none =>
    rw [htable] at hk
    subst hk
    rfl
  | some t =>
    rw [htable] at hk
    subst hk
    rfl

theorem startCreateDesc_done {d : Dev} {cl : Caller} {address : BitVec 48} {j : Nat} {bs : List Byte} {k : Desc} {a : Alloc}
    (hbs : load d address.toNat 64 = bs) (hk : imageMade d cl.label bs = k)
    (hsource : sourceFault d address.toNat 64 = none) (hfree : lowestFree d.descs 0 65536 = some j)
    (hfmt : fmtDefined k.fmt = true) (hlow : 1 ≤ k.rk) (hhigh : k.rk ≤ 6) (hencoding : encodingOk bs k = true)
    (hcount : k.count ≤ 2 ^ 40) (hstrides : stridesOk k = true)
    (htrans : k.transpose = true → 2 ≤ k.rk ∧ mayTranspose k.fmt = true) (howner : ownerTableFault cl k (imageTable d bs) = none)
    (halloc : assoc k.allocation.toNat d.allocs = some a) (hmay : cl.may a.label = true) (hfits : k.base.toNat + k.reach ≤ a.size) :
    startCreateDesc d cl address
      = .done { d with descs := assocSet j { k with start := a.addr } d.descs } (result [(20, 2, j)]) := by
  refine (startCreateDesc_image hsource hfree).trans ?_
  rw [hbs, hk]
  have hrank : (!fmtDefined k.fmt || k.rk = 0 || 6 < k.rk) = false := by
    simp only [hfmt, Bool.not_true, Bool.false_or, Bool.or_eq_false_iff, decide_eq_false_iff_not]
    omega
  have htranspose : (k.transpose && (k.rk < 2 || !mayTranspose k.fmt)) = false := by
    cases ht : k.transpose with
    | false => rfl
    | true =>
      obtain ⟨hrk, hmay⟩ := htrans ht
      simp only [hmay, Bool.not_true, Bool.or_false, Bool.true_and, decide_eq_false_iff_not]
      omega
  rw [hrank, hencoding, hstrides, htranspose, howner, halloc]
  simp only [Bool.not_true, Bool.false_eq_true, if_false, if_neg (show ¬ 2 ^ 40 < k.count by omega), hmay,
    if_neg (show ¬ a.size < k.base.toNat + k.reach by omega)]

theorem startDestroyDesc_eq {d : Dev} {cl : Caller} {h : BitVec 16} {x : Desc} (hheld : bucketHolds d h = false)
    (hx : descOf d h = some x) :
    startDestroyDesc d cl h =
      if descInUse d h then
        .go (withDesc d h fun k => { k with destroying := true }) (newRunning d cl (.destroyDesc h) (.descUses h))
      else .done (dropDesc d h) (result [(20, 4, x.filled.toNat), (24, 4, x.dropped.toNat)]) := by
  rw [startDestroyDesc, hheld, hx]
  rfl

/-- The table may be loaded: it is the caller's, and a poisoned one is only emptied (R190, R207). -/
def TableOpen (d : Dev) (cl : Caller) (t count : Nat) : Prop :=
  ∀ x, assoc t d.owners = some x → cl.may x.label = true ∧ (x.poisoned = false ∨ count = 0)

theorem startLoadOwners_done {d : Dev} {cl : Caller} {table : BitVec 16} {source : BitVec 48} {count : Nat} {entries : List Nat}
    (hhead : field (load d source.toNat 16) 0 4 = count)
    (hentries : (List.range count).map (fun i => field (load d (source.toNat + 16 + 2 * i) 2) 0 2) = entries)
    (ht : table.toNat < 1024) (hopen : TableOpen d cl table.toNat count) (hsource : sourceFault d source.toNat 16 = none)
    (hcount : count ≤ 65536) (hlow : 1 ≤ field (load d source.toNat 16) 4 4) (hhigh : field (load d source.toNat 16) 4 4 ≤ 2 ^ 24)
    (hzero : field (load d source.toNat 16) 8 8 = 0) (hrest : 0 < count → sourceFault d (source.toNat + 16) (2 * count) = none)
    (hmembers : ∀ x ∈ entries, x < 4096) (hroom : ownerEntries d table.toNat + count ≤ 0x10_0000)
    (hunused : (d.descs.any fun x => x.2.ownerValid && x.2.owner.toNat = table.toNat) = false) :
    startLoadOwners d cl table source = .done { d with
      owners := if count = 0 then assocDel table.toNat d.owners
        else assocSet table.toNat ⟨cl.label, field (load d source.toNat 16) 4 4, entries.map (BitVec.ofNat 12 ·), false⟩ d.owners } 0 := by
  have hmany : decide (65536 < count) = false := by
    simp only [decide_eq_false_iff_not]
    omega
  have hfault : (if (count = 0 || false) = true then none else sourceFault d (source.toNat + 16) (2 * count)) = none := by
    split
    · rfl
    next hpos =>
      simp only [Bool.or_false, decide_eq_true_eq] at hpos
      exact hrest (Nat.pos_of_ne_zero hpos)
  have hlegal : (false || decide (field (load d source.toNat 16) 4 4 = 0) || decide (2 ^ 24 < field (load d source.toNat 16) 4 4)
      || field (load d source.toNat 16) 8 8 != 0 || entries.any (4096 ≤ ·)) = false := by
    have hany : entries.any (4096 ≤ ·) = false := List.any_eq_false.mpr fun x hx => by simpa using hmembers x hx
    simp only [hzero, hany, bne_self_eq_false, Bool.or_false, Bool.false_or, Bool.or_eq_false_iff, decide_eq_false_iff_not]
    omega
  have hlost : ∀ x, assoc table.toNat d.owners = some x → (x.poisoned && (false || count != 0)) = false := fun x hx => by
    rcases (hopen x hx).2 with hsound | hnone
    · rw [hsound, Bool.false_and]
    · simp only [hnone, bne_self_eq_false, Bool.or_self, Bool.and_false]
  unfold startLoadOwners
  rw [if_neg (by omega)]
  simp only [hhead, hsource, hmany, hfault, Option.isSome_none, Bool.false_eq_true, if_false, hentries, hlegal,
    if_neg (show ¬ 0x10_0000 < ownerEntries d table.toNat + count by omega), hunused]
  cases hx : assoc table.toNat d.owners with
  | none =>
    simp only [Bool.false_and, Bool.false_eq_true, if_false]
    split <;> rfl
  | some x =>
    simp only [hlost x hx, (hopen x hx).1, Bool.not_true, Bool.false_eq_true, if_false]
    split <;> rfl

end Sys2Proof.Machine

open Sys2Proof Sys2Proof.Machine

/-- Settles O9: each command begins, and its own start comes to the effect that chapter 4 gives. -/
theorem descriptorCommandsRun : Obligations.DescriptorCommandsRun := by
  refine ⟨?create, ?destroy, ?owners⟩
  case create =>
    intro s n h address e j a hb cl bs k hsource hfree hfmt hlow hhigh hencoding hcount hstrides htrans howner halloc hmay hfits
    exact issue_done hb (startCreateDesc_done rfl rfl hsource hfree hfmt hlow hhigh hencoding hcount hstrides htrans
      (ownerTableFault_none howner) halloc hmay hfits)
  case destroy =>
    intro s n h k e x hb hheld hx
    have hstart := startDestroyDesc_eq (cl := mbxCaller s.dev n h) hheld hx
    split
    next huse => exact issue_go hb (hstart.trans (if_pos huse))
    next hfree => exact issue_done hb (hstart.trans (if_neg hfree))
  case owners =>
    intro s n h table source e hb t a head count block entries ht hopen hsource hcount hlow hhigh hzero hrest hmembers hroom hunused kept
    exact issue_done hb (startLoadOwners_done rfl rfl ht hopen hsource hcount hlow hhigh hzero hrest hmembers hroom hunused)
end


section
/-!
SUPPORT. The compression and collective commands of Tables 5-9 and 5-10: what the start of each comes to where its own
checks pass.
-/
namespace Sys2Proof.Machine

/-! ### Optional descriptors -/

theorem optAny_eq_false {k : Option Desc} {p : Desc → Bool} : optAny k p = false ↔ ∀ x, k = some x → p x = false := by
  cases k <;> simp [optAny]

/-! ### Compression -/

theorem startCompress_go {d : Dev} {cl : Caller} {cmd : Cmd} {comp : Nat} {o : CompressOps} (hcomp : o.compressor.toNat = comp)
    (hfault : compressFault d cmd cl.hdr comp o standaloneSize = none) (hholds : OutputHolds d comp o) :
    startCompress d cl cmd comp o =
      let chunks := (commandChunks d comp o standaloneSize).getD []
      let t := touchStore d d.fpl.active o.residual
      .go (standaloneWorks t cl.mbx d.nextId (chunks.map .compress))
        { newRunning d cl cmd (turnOr d cl cmd) with table := tableCopy t o, chunks := chunks.length } := by
  have hout : optAny (optDesc d o.output) (fun k => k.errorMode &&
      k.imageLen < parcelWorst d comp o ((commandChunks d comp o standaloneSize).getD [])) = false := by
    refine optAny_eq_false.mpr fun k hk => ?_
    cases herr : k.errorMode with
    | false => rfl
    | true => simpa using hholds k hk herr
  rw [startCompress, hcomp, bne_self_eq_false, hfault]
  simp only [Bool.false_eq_true, if_false, hout]
  rfl

theorem startResidualFlush_go {d : Dev} {cl : Caller} {b : BitVec 8} {fromBucket : Bool} {source destination k : BitVec 16} {x y : Desc}
    (hsource : if fromBucket then assoc b.toNat d.bucketStores = some k else k = source) (hx : descOf d k = some x)
    (hy : descOf d destination = some y) (hxlow : x.lowView = false) (hylow : y.lowView = false) (hformat : resFormat x = true)
    (hfmt : y.fmt = x.fmt) (hcount : y.count = x.count) (hxoob : errorOob x = false) (hyoob : errorOob y = false) :
    startResidualFlush d cl b fromBucket source destination =
      let c := Cmd.residualFlush b fromBucket source destination
      .go (standaloneWorks d cl.mbx d.nextId [.flush]) { newRunning d cl c (turnOr d cl c) with chunks := 1 } := by
  have hnamed : (if fromBucket then assoc b.toNat d.bucketStores else some source) = some k := by
    cases fromBucket with
    | true => exact hsource
    | false => exact congrArg some hsource.symm
  have hlegal : (!resFormat x || y.fmt != x.fmt || y.count != x.count) = false := by simp [hformat, hfmt, hcount]
  rw [startResidualFlush, hnamed]
  simp only [hx, hy, hxlow, hylow, hlegal, hxoob, hyoob, Bool.or_self, Bool.false_eq_true, if_false]
  rfl

theorem startMaskGen_go {d : Dev} {cl : Caller} {output threshold : BitVec 16} {step : Word} {random : BitVec 16} {k : Desc}
    (hk : descOf d output = some k) (hlow : lowFault d (.maskGen output threshold step random) = none) (hfmt : k.fmt = fINT8)
    (hoob : oobFault d (.maskGen output threshold step random) = none)
    (hdraw : drawFault d (optDesc d random) (some (8 * k.count)) = none) :
    startMaskGen d cl output threshold step random =
      let chunks := ceilDiv k.count standaloneSize
      let jobs := (List.range chunks).map fun i => Job.mask (standaloneSize * i) (min standaloneSize (k.count - standaloneSize * i))
      .go (standaloneWorks d cl.mbx d.nextId jobs)
        { newRunning d cl (.maskGen output threshold step random) .work with chunks := chunks } := by
  have hint : (k.fmt != fINT8) = false := by rw [hfmt, bne_self_eq_false]
  rw [startMaskGen, hk]
  simp only [hlow, hint, hoob, hdraw, orElse_none, Option.isSome_none, Bool.false_eq_true, if_false]
  rfl

/-! ### Groups -/

theorem startLoadTree_done {d : Dev} {cl : Caller} {source : BitVec 48} {count : BitVec 16} {raw : List (List Byte)}
    (hraw : (List.range count.toNat).map (fun i => load d (source.toNat + 8 * i) 8) = raw) (hgroup : cl.hdr.handle.toNat < 256)
    (hlow : 2 ≤ count.toNat) (hhigh : count.toNat ≤ 4096) (hclosed : groupOf d cl.hdr.handle.toNat = none)
    (hsource : sourceFault d source.toNat (8 * count.toNat) = none) (hreserved : raw.any treeReserved = false)
    (htree : treeOk (raw.map treeEntryOf) = true)
    (hroom : ((d.trees.filter fun x => x.1 != cl.hdr.handle.toNat).map fun x => x.2.length).foldl (· + ·) 0 + count.toNat ≤ treeStoreSize) :
    startLoadTree d cl source count
      = .done { d with trees := assocSet cl.hdr.handle.toNat (raw.map treeEntryOf) d.trees } 0 := by
  have hcount : (count.toNat < 2 || 4096 < count.toNat) = false := by
    simp only [Bool.or_eq_false_iff, decide_eq_false_iff_not]
    omega
  unfold startLoadTree
  rw [if_neg (by omega)]
  simp only [hcount, hclosed, hsource, hraw, hreserved, htree, Option.isSome_none, Bool.not_true, Bool.or_self, Bool.false_eq_true, if_false]
  exact if_neg (Nat.not_lt.mpr hroom)

/-- The group that OPEN_GROUP opens on the device `f`, which holds its slots. -/
def openedGroup (f : Dev) (cl : Caller) (slots size : Byte) (t : List TreeEntry) (me : TreeEntry) (ns : List Nbr) : Group where
  label := cl.label
  opener := cl.mbx
  slotsS := slots
  sizeCode := size
  tree := t
  derived := !hostMode f 3
  level := (levelIn t 12 f.join.member).getD 0
  parent := if me.root then none else ns.head?
  children := if me.root then ns else ns.tail
  nextSeq := 0
  slots := []
  slip := 0
  stalled := false
  faulted := none
  received := []
  slipSeen := []
  adopting := none
  granted := 0

theorem startOpenGroup_done {d f : Dev} {cl : Caller} {members : BitVec 16} {slots size : Byte} {t : List TreeEntry} {me : TreeEntry}
    {ns : List Nbr} {a : Nat} (hgroup : cl.hdr.handle.toNat < 256) (hlow : 2 ≤ members.toNat) (hhigh : members.toNat ≤ 4096)
    (hslots : 2 ≤ slots.toNat) (hslots' : slots.toNat ≤ 16) (hsize : size.toNat ≤ 6) (hclosed : groupOf d cl.hdr.handle.toNat = none)
    (hroom : d.groups.length < 256) (htree : treeFor d cl.hdr.handle.toNat members.toNat = some t)
    (hme : treeFind t d.join.member = some me) (hlength : t.length = members.toNat) (hmembers : ∀ x ∈ t, x.member ∈ d.join.members)
    (hnbrs : nbrsOf d ((if me.root then [] else [me.parent]) ++ childrenOf t d.join.member) = some ns)
    (hrun : holdRun d cl.hdr.handle.toNat false (slots.toNat * ((childrenOf t d.join.member).length + 1) * (4096 * 2 ^ size.toNat)) 64
      = some (a, f)) :
    startOpenGroup d cl members slots size =
      let g := cl.hdr.handle.toNat
      let group := openedGroup f cl slots size t me (ns.map (earlyGrant f g))
      .done (forgetOnPorts (forgetGrants { f with groups := assocSet g group f.groups } g) false (BitVec.ofNat 16 g)) 0 := by
  have hlegal : (members.toNat < 2 || 4096 < members.toNat || slots.toNat < 2 || 16 < slots.toNat || 6 < size.toNat) = false := by
    simp only [Bool.or_eq_false_iff, decide_eq_false_iff_not]
    omega
  have hknown : (t.length != members.toNat || t.any fun e => !d.join.members.contains e.member) = false := by
    have hany : (t.any fun e => !d.join.members.contains e.member) = false :=
      List.any_eq_false.mpr fun x hx => by simpa using hmembers x hx
    rw [hany, hlength, bne_self_eq_false, Bool.or_self]
  unfold startOpenGroup
  rw [if_neg (by omega)]
  simp only [hlegal, hclosed, Option.isSome_none, Bool.false_eq_true, if_false, if_neg (show ¬ 256 ≤ d.groups.length by omega), htree, hme,
    hknown, hnbrs, hrun]
  rfl

theorem startCloseGroup_eq {d : Dev} {cl : Caller} (hfree : bucketOn d cl.hdr.handle.toNat = false) :
    startCloseGroup d cl = if groupBusy d cl.hdr.handle.toNat then .go d (newRunning d cl .closeGroup .groupIdle)
      else .done (closeGroup d cl.hdr.handle.toNat) 0 := by
  rw [startCloseGroup, hfree]
  rfl

end Sys2Proof.Machine

open Sys2Proof Sys2Proof.Machine

/-- Settles O10: each command begins, and its own start cuts the work into chunks. -/
theorem compressCommandsStart : Obligations.CompressCommandsStart := by
  refine ⟨fun s n h o e => ⟨?topk, ?quant, ?lowrank⟩, ?flush, ?mask⟩
  case topk =>
    intro hb hcomp hfault hholds
    exact issue_go hb (startCompress_go hcomp hfault hholds)
  case quant =>
    intro hb hcomp hfault hholds
    exact issue_go hb (startCompress_go hcomp hfault hholds)
  case lowrank =>
    intro hb hcomp hfault hholds
    exact issue_go hb (startCompress_go hcomp hfault hholds)
  case flush =>
    intro s n h b fromBucket source destination k x y e hb hsource hx hy hxlow hylow hformat hfmt hcount hxoob hyoob c
    split
    next hwait => exact issue_go hb (if_pos hwait)
    next hfree =>
      exact issue_go hb ((if_neg hfree).trans (startResidualFlush_go hsource hx hy hxlow hylow hformat hfmt hcount hxoob hyoob))
  case mask =>
    intro s n h output threshold step random k e hb c hk hlow hfmt hoob hdraw
    exact issue_go hb (startMaskGen_go hk hlow hfmt hoob hdraw)

/-- Settles O11: each command begins, and its own start comes to what chapter 9 says. -/
theorem groupCommandsRun : Obligations.GroupCommandsRun := by
  refine ⟨?tree, ?opening, ?closing⟩
  case tree =>
    intro s n h source count e hb g raw t hgroup hlow hhigh hclosed hsource hreserved htree hroom
    exact issue_done hb (startLoadTree_done rfl hgroup hlow hhigh hclosed hsource hreserved htree hroom)
  case opening =>
    intro s n h members slots size t me ns a e f hb g down hgroup hlow hhigh hslots hslots' hsize hclosed hroom htree hme hlength
      hmembers hnbrs hrun group
    exact issue_done hb (startOpenGroup_done hgroup hlow hhigh hslots hslots' hsize hclosed hroom htree hme hlength hmembers hnbrs hrun)
  case closing =>
    intro s n h e hb g hfree
    have hstart := startCloseGroup_eq (cl := mbxCaller s.dev n h) hfree
    split
    next hbusy => exact issue_go hb (hstart.trans (if_pos hbusy))
    next hidle => exact issue_done hb (hstart.trans (if_neg hidle))
end


section
/-!
SUPPORT. The collective and bucket commands of Table 5-10: what the start of each comes to where its own checks pass.
-/
namespace Sys2Proof.Machine

/-! ### Broadcasts -/

/-- The device is the only owner of the table that a broadcast from owners reads. -/
def soleOwner (d : Dev) (table : Option OwnerTable) : Bool :=
  match table with
  | some t => t.owners.all (· = d.join.member)
  | none => false

/-- The device owns blocks of the tensor that a broadcast from owners reads. -/
def ownsSome (d : Dev) (fromOwners : Bool) (table : Option OwnerTable) : Bool :=
  match table with
  | some t => fromOwners && t.owners.contains d.join.member
  | none => false

/-- The shapes of the two ends of a broadcast agree where both are named. -/
def bcastEndsAgree (d : Dev) (src dst : BitVec 16) : Bool :=
  match optDesc d src, optDesc d dst with
  | some s, some t => bcastShapes s t
  | _, _ => true

section
variable {d : Dev} {g : Group} {src dst : BitVec 16} {fromOwners : Bool}

/-- Every end that the member's part needs is named (R403). -/
theorem bcast_endNamed (h : if fromOwners then ∃ t, bcastTable d src = some t ∧ (dst ≠ unused ∨ ∀ x ∈ t.owners, x = d.join.member)
      else if g.parent.isNone then src ≠ unused else dst ≠ unused) :
    (fromOwners && (bcastTable d src).isNone) = false
    ∧ (if fromOwners then dst = unused && !soleOwner d (bcastTable d src)
        else if g.parent.isNone then (src = unused : Bool) else dst = unused) = false := by
  cases fromOwners with
  | true =>
    obtain ⟨t, ht, hdst⟩ := h
    refine ⟨by rw [ht]; rfl, ?_⟩
    rcases hdst with hnamed | hsole
    · simp [hnamed]
    · simpa [ht, soleOwner] using fun _ => hsole
  | false =>
    refine ⟨rfl, ?_⟩
    cases hroot : g.parent.isNone with
    | true => simpa [hroot] using h
    | false => simpa [hroot] using h

theorem bcastEndsAgree_of (h : ∀ s t, optDesc d src = some s → optDesc d dst = some t → bcastShapes s t = true) :
    bcastEndsAgree d src dst = true := by
  unfold bcastEndsAgree
  split
  next s t hs ht => exact h s t hs ht
  · rfl

/-- No tensor that the member touches reports accesses outside it. -/
theorem bcast_inside (hread : fromOwners = false → g.parent = none → ∀ s, optDesc d src = some s → errorOob s = false)
    (hwrite : ∀ t, optDesc d dst = some t → errorOob t = false) (reads : Bool) (hreads : fromOwners = false → reads = g.parent.isNone) :
    ((reads && !fromOwners && optAny (optDesc d src) errorOob) || optAny (optDesc d dst) errorOob) = false := by
  rw [optAny_eq_false.mpr hwrite, Bool.or_false]
  cases fromOwners with
  | true => simp
  | false =>
    rw [hreads rfl]
    cases hparent : g.parent with
    | none => rw [optAny_eq_false.mpr (hread rfl hparent), Bool.and_false]
    | some _ => rfl

end

theorem startBcast_go {d : Dev} {cl : Caller} {g : Group} {src dst : BitVec 16} {fromOwners : Bool}
    (hg : groupOf d cl.hdr.handle.toNat = some g) (hsound : g.faulted = none) (hfits : BcastFits d g src dst fromOwners) :
    startBcast d cl src dst fromOwners =
      let parts := bcastParts d g src dst fromOwners
      .go (groupWorks d cl.hdr.handle.toNat d.nextId (bcastJobs parts))
        { newRunning d cl (.bcast src dst fromOwners) .work with chunks := parts.length, firstSeq := g.nextSeq } := by
  obtain ⟨hnamed, hshapes, hread, hwrite, hclean⟩ := hfits
  obtain ⟨htable, hends⟩ := bcast_endNamed hnamed
  have hagree := bcastEndsAgree_of hshapes
  have hinside := bcast_inside hread hwrite (if fromOwners then ownsSome d fromOwners (bcastTable d src) else g.parent.isNone)
    fun hf => by rw [hf]; rfl
  rw [startBcast, hg]
  simp only [hsound, Option.isSome_none, Bool.false_eq_true, if_false, htable]
  refine (if_neg (Bool.eq_false_iff.mp hends)).trans ?_
  refine (if_neg (Bool.eq_false_iff.mp (congrArg (!·) hagree))).trans ?_
  refine (if_neg (Bool.eq_false_iff.mp hinside)).trans ?_
  exact if_neg (Bool.eq_false_iff.mp hclean)

/-! ### Reductions -/

theorem startReduce_go {d : Dev} {cl : Caller} {g : Group} {o : CompressOps} (hg : groupOf d cl.hdr.handle.toNat = some g)
    (hsound : g.faulted = none) (houtput : outputMatches g o = true)
    (hfault : compressFault d (.reduceToOne o) cl.hdr o.compressor.toNat o (chunkSizeOf g) = none) (hshapes : ReduceShapes d o) :
    startReduce d cl o =
      let chunks := (commandChunks d o.compressor.toNat o (chunkSizeOf g)).getD []
      let jobs := (List.range chunks.length).zip chunks |>.map fun x => (Job.reduce x.2 x.1, reduceStage g)
      let t := touchStore d d.fpl.active o.residual
      .go (groupWorks t cl.hdr.handle.toNat d.nextId jobs)
        { newRunning d cl (.reduceToOne o) (turnOr d cl (.reduceToOne o)) with
          table := tableCopy t o, chunks := chunks.length, firstSeq := g.nextSeq } := by
  obtain ⟨i, hi, hshape⟩ := hshapes
  rw [startReduce, hg]
  simp only [hsound, houtput, hfault, hi, Option.isSome_none, Bool.not_true, Bool.false_eq_true, if_false]
  cases hout : optDesc d o.output with
  | none => rfl
  | some k =>
    obtain ⟨hcount, hrow⟩ := hshape k hout
    simp only [hcount, hrow, decide_true, Bool.and_self, Bool.not_true, Bool.false_eq_true, if_false]
    rfl

/-! ### Buckets -/

theorem startBucketOpen_done {d f : Dev} {cl : Caller} {o : CompressOps} {g : Group} {x : Byte} {a : Nat}
    (hg : groupOf d cl.hdr.handle.toNat = some g) (hb : o.bucket.toNat < 64) (hclosed : assoc o.bucket.toNat d.buckets = none)
    (hsound : g.faulted = none) (hroom : d.buckets.length < 64) (houtput : outputMatches g o = true)
    (hfault : bucketFault d o (chunkSizeOf g) = none) (hstep : stepExponent d cl.hdr.handle.toNat o.bucket.toNat o.exponent = some x)
    (hturn : mustWait d d.nextId cl.hdr (.bucketOpen o) = false) (htable : tableFault d o = none)
    (hinside : mustRescale d cl.hdr.handle.toNat o.bucket.toNat x = true → ∀ k, optDesc d o.residual = some k → errorOob k = false)
    (hkept : mustRescale d cl.hdr.handle.toNat o.bucket.toNat x = true → lostStore d o.residual = none)
    (hrun : recordRun d o.bucket.toNat = some (a, f)) :
    startBucketOpen d cl o none = .done (openBucket f cl o (tableCopy d o) g x a) (openResult f cl o x) := by
  have hoob : (mustRescale d cl.hdr.handle.toNat o.bucket.toNat x && optAny (optDesc d o.residual) errorOob) = false := by
    cases hscale : mustRescale d cl.hdr.handle.toNat o.bucket.toNat x with
    | false => rfl
    | true => rw [optAny_eq_false.mpr (hinside hscale), Bool.and_false]
  have hlost : (if mustRescale d cl.hdr.handle.toNat o.bucket.toNat x then lostStore d o.residual else none) = none := by
    split
    next hscale => exact hkept hscale
    · rfl
  have hopenTable : openTable d o none = .ok (tableCopy d o) := by
    simp only [openTable, htable]
  rw [startBucketOpen, hg]
  simp only [if_neg (show ¬ 64 ≤ o.bucket.toNat by omega), hclosed, hsound, Option.isSome_none, Bool.or_self, Bool.false_eq_true, if_false,
    if_neg (show ¬ 64 ≤ d.buckets.length by omega), houtput, Bool.not_true, hfault, hopenTable, hstep, hoob, hturn, hlost, hrun]

/-- What a descriptor adds leaves room in the tensors that the bucket names. -/
def addFitsIn (d : Dev) (k : Bucket) (add : Nat) (h : BitVec 16) : Bool :=
  match optDesc d h with
  | some r => decide (k.elements + add ≤ r.count)
  | none => true

theorem addFitsIn_of {d : Dev} {k : Bucket} {add : Nat} {h : BitVec 16} (hr : ∀ r, optDesc d h = some r → k.elements + add ≤ r.count) :
    addFitsIn d k add h = true := by
  unfold addFitsIn
  split
  next r hdesc => exact decide_eq_true (hr r hdesc)
  · rfl

theorem bucketGate_open {d : Dev} {b : BitVec 8} {k : Bucket} (hk : assoc b.toNat d.buckets = some k) (hopen : k.sealing = false) :
    bucketGate d b = none := by
  simp [bucketGate, hk, hopen]

theorem bucketQueues_false {d : Dev} {cl : Caller} {c : Cmd} {b : BitVec 8} (hwait : bucketWait d d.nextId c = false)
    (hturn : mustWait d d.nextId cl.hdr c = false) : bucketQueues d cl c b = false := by
  rw [bucketQueues, hwait, hturn, Bool.and_false, Bool.or_false]

theorem startBucketAdd_done {d : Dev} {cl : Caller} {b : BitVec 8} {h : BitVec 16} {k : Bucket} {g : Group} {x : Desc}
    {rs : List (Nat × Nat)} (hk : assoc b.toNat d.buckets = some k) (hopen : k.sealing = false)
    (hg : groupOf d k.group.toNat = some g) (hsound : groupFaulted d k.group.toNat = false) (hx : descOf d h = some x)
    (hlow : x.lowView = false) (hoob : errorOob x = false) (hfits : AddFits d k h x) (hsplit : rowSplit d g k x = some rs) :
    startBucketAdd d cl b h = .done (addToBucket d b.toNat k h x rs)
      (result [(20, 4, k.bytes + bucketBytes x (x.rows * roundUp x.rowLen 64))]) := by
  obtain ⟨hbytes, hresidual, hresidualOut, houtput, hrank, hbits, hbucket, hadded⟩ := hfits
  have hrows : (decide (k.ops.compressor.toNat = cLowrank) && optAny (optDesc d k.ops.auxA) fun f => f.rows != roundUp x.rowLen 64) = false := by
    cases hcomp : decide (k.ops.compressor.toNat = cLowrank) with
    | false => rfl
    | true =>
      refine optAny_eq_false.mpr fun f hf => ?_
      rw [hrank (of_decide_eq_true hcomp) f hf, bne_self_eq_false]
  have hspace : (256 * mib < k.bytes + bucketBytes x (x.rows * roundUp x.rowLen 64) || !addFitsIn d k (x.rows * roundUp x.rowLen 64) k.ops.residual
      || !addFitsIn d k (x.rows * roundUp x.rowLen 64) k.ops.residualOut
      || !addFitsIn d k (x.rows * roundUp x.rowLen 64) k.ops.output) = false := by
    rw [addFitsIn_of hresidual, addFitsIn_of hresidualOut, addFitsIn_of houtput]
    simpa using hbytes
  have hrandom : ((stochasticOps k.ops.compressor.toNat k.ops && k.modes.getLsbD 6)
      && !addFitsIn d k (x.rows * roundUp x.rowLen 64) (bitsOf k.ops.compressor.toNat k.ops)) = false := by
    cases hstochastic : stochasticOps k.ops.compressor.toNat k.ops && k.modes.getLsbD 6 with
    | false => rfl
    | true =>
      obtain ⟨hops, hmode⟩ := Bool.and_eq_true_iff.mp hstochastic
      rw [bitsOf, addFitsIn_of (hbits hops hmode), Bool.not_true, Bool.and_false]
  have hinside : (errorOob x || bucketOob d k x) = false := by rw [hoob, hbucket, Bool.or_self]
  unfold startBucketAdd
  simp only [bucketGate_open hk hopen, hk, hx, hsound, Bool.false_eq_true, if_false, hg, hlow, hinside, hrows, hadded]
  refine (if_neg (Bool.eq_false_iff.mp hspace)).trans ?_
  refine (if_neg (Bool.eq_false_iff.mp hrandom)).trans ?_
  unfold rowSplit at hsplit
  simp only [hsplit]

theorem startBucketSeal_go {d : Dev} {cl : Caller} {b : BitVec 8} {k : Bucket} (hk : assoc b.toNat d.buckets = some k)
    (hopen : k.sealing = false) :
    startBucketSeal d cl b =
      let e := withBucket (cutBucket d b.toNat [] true) b.toNat fun k => { k with sealing := true }
      .go e (newRunning e cl (.bucketSeal b) .bucketSeal) := by
  rw [startBucketSeal, bucketGate_open hk hopen]

end Sys2Proof.Machine

open Sys2Proof Sys2Proof.Machine

/-- Settles O12: each command begins, and its own start takes the run of the group's sequence. -/
theorem collectiveCommandsStart : Obligations.CollectiveCommandsStart := by
  refine ⟨?bcast, ?reduce⟩
  case bcast =>
    intro s n h src dst fromOwners g e hb hg hsound hfits parts
    exact issue_go hb (startBcast_go hg hsound hfits)
  case reduce =>
    intro s n h o g e hb hg hsound houtput hfault hshapes chunks jobs t cl
    exact issue_go hb (startReduce_go hg hsound houtput hfault hshapes)

/-- Settles O13: each command begins, waits for no earlier one, and its own start comes to what section 9.6 says. -/
theorem bucketCommandsRun : Obligations.BucketCommandsRun := by
  refine ⟨?opening, ?adding, ?sealing⟩
  case opening =>
    intro s n h o g x a e f hb hwait hg hlow hclosed hsound hroom houtput hfault hstep hturn htable hinside hkept hrun
    exact issue_done hb ((if_neg (Bool.eq_false_iff.mp hwait)).trans
      (startBucketOpen_done hg hlow hclosed hsound hroom houtput hfault hstep hturn htable hinside hkept hrun))
  case adding =>
    intro s n h b d k g x rs e hb hwait hturn hk hopen hg hsound hx hlow hoob hfits hsplit
    exact issue_done hb ((if_neg (Bool.eq_false_iff.mp (bucketQueues_false hwait hturn))).trans
      (startBucketAdd_done hk hopen hg hsound hx hlow hoob hfits hsplit))
  case sealing =>
    intro s n h b k e hb hwait hturn hk hopen d
    exact issue_go hb ((if_neg (Bool.eq_false_iff.mp (bucketQueues_false hwait hturn))).trans (startBucketSeal_go hk hopen))
end


section
/-!
SUPPORT. The stream commands of Table 5-11 and the observation commands of Table 5-12: what the start of each comes to.
-/
namespace Sys2Proof.Machine

/-! ### Streams -/

theorem streamRanges_ok {o : StreamOps} (h : StreamInRange o) :
    (o.layers.toNat < 1 || 256 < o.layers.toNat || 4 < o.format.toNat || o.maxPositions.toNat < 1 || 1048576 < o.maxPositions.toNat
      || o.bpp.toNat % 128 != 0 || o.bpp.toNat < 128 || 16256 < o.bpp.toNat || 1 < o.role.toNat) = false := by
  obtain ⟨hl, hl', hf, hm, hm', hb, hb', hb'', hr⟩ := h
  simp only [hb, bne_self_eq_false, Bool.or_false, Bool.or_eq_false_iff, decide_eq_false_iff_not]
  omega

theorem startStreamOpen_hardware {d f : Dev} {cl : Caller} {o : StreamOps} {j : Nat} {tails : List Nat} (hmode : hostMode d 8 = false)
    (hlist : o.pageList = 0) (hrange : StreamInRange o) (hfree : lowestFree d.streams 0 4096 = some j)
    (htails : takeTails (roundUp (16 * o.bpp.toNat) 4096) d o.layers.toNat [] = some (f, tails)) :
    startStreamOpen d cl o
      = .done (streamOpened f o j (openedStream f cl.mbx cl.label o j tails [])) (result [(20, 2, j)]) := by
  have hpages : ((o.pageList != 0) != false) = false := by rw [hlist]; rfl
  unfold startStreamOpen
  simp only [hfree, streamRanges_ok hrange, hmode, hpages, Bool.false_eq_true, if_false, List.all_nil, Bool.not_true, htails]
  rfl

theorem startStreamOpen_host {d : Dev} {cl : Caller} {o : StreamOps} {j : Nat} {pages : List Nat} (hmode : hostMode d 8 = true)
    (hlist : o.pageList ≠ 0) (hrange : StreamInRange o) (hfree : lowestFree d.streams 0 4096 = some j)
    (hpages : (List.range (o.layers.toNat * ceilDiv o.maxPositions.toNat 16)).map
      (fun i => field (load d (o.pageList.toNat + 8 * i) 8) 0 8) = pages)
    (hsource : sourceFault d o.pageList.toNat (8 * (o.layers.toNat * ceilDiv o.maxPositions.toNat 16)) = none)
    (hok : ∀ p ∈ pages, pageEntryOk d cl.label (ceilDiv (16 * o.bpp.toNat) 65536 * 16 + 16 * o.bpp.toNat) p = true) :
    startStreamOpen d cl o
      = .done (streamOpened d o j (openedStream d cl.mbx cl.label o j (List.replicate o.layers.toNat 0) pages)) (result [(20, 2, j)]) := by
  have hnamed : ((o.pageList != 0) != true) = false := by simpa using hlist
  have hall : pages.all (pageEntryOk d cl.label (ceilDiv (16 * o.bpp.toNat) 65536 * 16 + 16 * o.bpp.toNat)) = true :=
    List.all_eq_true.mpr hok
  unfold startStreamOpen
  simp only [hfree, streamRanges_ok hrange, hmode, hnamed, Bool.false_eq_true, if_false, if_true, hsource, hpages, hall, Bool.not_true]
  rfl

theorem startOnStream_eq (d x : Dev) (n : Mbx) (h : Hdr) (c : Cmd) :
    ∃ r, startOnStream x (mbxCaller d n h) c = .go x r ∧ streamCommandStarted d x n h c = started d x r := by
  refine ⟨_, rfl, ?_⟩
  dsimp only [streamCommandStarted, mbxCaller]
  cases streamOf x h.handle.toNat with
  | none => rfl
  | some s => cases c <;> rfl

/-! ### Watches and breakpoints -/

theorem vget_val {α : Type} {n : Nat} (v : Vector α n) (i : Fin n) (x : α) : vget v i.val x = v[i] := dif_pos i.isLt

theorem vset_val {α : Type} {n : Nat} (v : Vector α n) (i : Fin n) (x : α) : vset v i.val x = v.set i x := dif_pos i.isLt

/-- The first free slot from `a` on is the one behind slots that are taken. -/
theorem find_free {α : Type} {n k a : Nat} {v : Vector (Option α) n} {i : Nat} {m : Fin n} (hm : m.val = a + i) (hi : i < k)
    (hfree : v[m] = none) (htaken : ∀ j : Fin n, a ≤ j.val → j < m → v[j] ≠ none) :
    ((List.range k).find? fun i => (vget v (a + i) none).isNone) = some i := by
  refine List.find?_range_eq_some.mpr ⟨?_, List.mem_range.mpr hi, fun j hj => ?_⟩
  · rw [← hm, vget_val, hfree]
    rfl
  · have hjn : a + j < n := by omega
    have hj' := htaken ⟨a + j, hjn⟩ (Nat.le_add_right a j) (Fin.lt_def.mpr (by simp only [hm]; omega))
    rw [show a + j = (⟨a + j, hjn⟩ : Fin n).val from rfl, vget_val]
    simpa using Option.isSome_iff_ne_none.mpr hj'

theorem startWatch_done {d : Dev} {cl : Caller} {k layer operator : BitVec 16} {step : Word} {action : Byte} {i : Fin 16}
    (haction : action.toNat ≤ 1) (hfree : d.dbg.watches[i] = none) (htaken : ∀ j : Fin 16, j < i → d.dbg.watches[j] ≠ none) :
    startWatch d cl k layer operator step action =
      .done (withDbg d fun x => { x with watches := x.watches.set i (some ⟨k, layer, operator, step, action = 1, !cl.admin, none⟩) })
        (result [(20, 2, i.val)]) := by
  have hfind : ((List.range 16).find? fun i => (vget d.dbg.watches i none).isNone) = some i.val := by
    have h := find_free (a := 0) (Nat.zero_add i.val).symm i.isLt hfree fun j _ => htaken j
    simpa only [Nat.zero_add] using h
  rw [startWatch, if_neg (by omega), hfind]
  simp only [vset_val]

theorem startBreak_done {d : Dev} {cl : Caller} {core kind : Byte} {address : Word} {hits : BitVec 16} {i : Fin 4} {m : Fin 16}
    (hcore : core.toNat ≤ 3) (hlow : 1 ≤ kind.toNat) (hhigh : kind.toNat ≤ 2) (hm : m.val = 4 * core.toNat + i.val)
    (hfree : d.dbg.breaks[m] = none) (htaken : ∀ j : Fin 16, 4 * core.toNat ≤ j.val → j < m → d.dbg.breaks[j] ≠ none) :
    startBreak d cl core kind address hits =
      .done (withDbg d fun x => { x with
        breaks := x.breaks.set m (some ⟨kind = 2, address, if hits = 0 then 1 else hits, !cl.admin⟩) }) (result [(20, 1, m.val)]) := by
  have hlegal : (3 < core.toNat || 2 < kind.toNat) = false := by
    simp only [Bool.or_eq_false_iff, decide_eq_false_iff_not]
    omega
  have hset : kind ≠ 0 := by
    rintro rfl
    exact absurd hlow (by decide)
  rw [startBreak, hlegal, if_neg Bool.false_ne_true, if_neg hset, find_free hm i.isLt hfree htaken]
  simp only [← hm, vset_val]

theorem startBreak_free {d : Dev} {cl : Caller} {core : Byte} {address : Word} {hits : BitVec 16} {m : Fin 16} (hcore : core.toNat ≤ 3)
    (hm : address.toNat % 256 = m.val) :
    startBreak d cl core 0 address hits
      = .done (withDbg d fun x => { x with breaks := x.breaks.set m none }) (result [(20, 1, m.val)]) := by
  have hlegal : (3 < core.toNat || 2 < (0 : Byte).toNat) = false := by
    simp only [Bool.or_eq_false_iff, decide_eq_false_iff_not]
    exact ⟨by omega, by decide⟩
  rw [startBreak, hlegal, if_neg Bool.false_ne_true, if_pos rfl]
  simp only [hm, vset_val]

/-! ### Trace and counters -/

theorem startTraceStart_done {d : Dev} {cl : Caller} {mask : Word} {label : Byte} {all : Bool} (hrun : d.trc.stopped = false) :
    startTraceStart d cl mask label all =
      .done (withTrc d fun t => { t with
        session := some ⟨mask, label, all, d.trc.session.elim 0 (·.written), !cl.admin⟩, full := false
        resumeAt := if d.trc.full then d.trc.written else d.trc.resumeAt }) 0 := by
  rw [startTraceStart]
  cases d.trc.session <;> exact if_neg (Bool.eq_false_iff.mp hrun)

theorem startTraceStop_eq {d : Dev} {cl : Caller} {x : Session} (hx : d.trc.session = some x) :
    startTraceStop d cl =
      let e := withTrc d fun t => { t with session := none }
      if d.trc.buffer.isEmpty then .done e (result [(20, 4, x.written.toNat)])
      else .go e { newRunning e cl .traceStop .traceDrain with chunks := d.trc.buffer.length, firstSeq := x.written } := by
  rw [startTraceStop, hx]
  rfl

theorem startSnapshot_done {d : Dev} {cl : Caller} {set : Byte} {dest : BitVec 48} (hset : set.toNat ≤ 2) (hrun : d.trc.stopped = false)
    (hdest : snapshotFault d cl dest.toNat (snapshotBytes d cl set.toNat).length = none) :
    startSnapshot d cl set dest =
      let bs := snapshotBytes d cl set.toNat
      .done (bump (store (drawN d 304).2 dest.toNat bs) 0 cl.mbx.val 9 bs.length) (result [(20, 4, bs.length)]) := by
  unfold startSnapshot
  rw [if_neg (by omega), hrun, if_neg Bool.false_ne_true]
  simp only [hdest]

end Sys2Proof.Machine

open Sys2Proof Sys2Proof.Machine

/-- Settles O14: STREAM_OPEN begins and opens; every other command of a stream begins and takes its place. -/
theorem streamCommandsStart : Obligations.StreamCommandsStart := by
  have onStream : ∀ {s : State} {n : Mbx} {h : Hdr} {e : Dev} {c : Cmd}, Begins s.dev n h c e →
      startCmd e (mbxCaller s.dev n h) c = startOnStream e (mbxCaller s.dev n h) c →
      issue n h c s = .next (settled s (streamCommandStarted s.dev e n h c)) := by
    intro s n h e c hb hcmd
    obtain ⟨r, hgo, hstarted⟩ := startOnStream_eq s.dev e n h c
    rw [hstarted]
    exact issue_go hb (hcmd.trans hgo)
  refine ⟨?hardware, ?host, fun s n h e => ⟨fun hb => onStream hb rfl, fun _ _ _ _ hb => onStream hb rfl, fun _ hb => onStream hb rfl,
    fun _ _ _ hb => onStream hb rfl, fun _ hb => onStream hb rfl, fun _ _ hb => onStream hb rfl⟩⟩
  case hardware =>
    intro s n h o j tails e f hb hmode hlist hrange hfree htails x
    exact issue_done hb (startStreamOpen_hardware hmode hlist hrange hfree htails)
  case host =>
    intro s n h o j e hb hmode hlist hrange hfree count pages span hsource hok x
    exact issue_done hb (startStreamOpen_host hmode hlist hrange hfree rfl hsource hok)

/-- Settles O16: each command begins, and its own start comes to what Table 5-12 says. -/
theorem observationCommandsRun : Obligations.ObservationCommandsRun := by
  refine ⟨?tracing, ?stopping, ?snapshot, ?watch, ?breaking, ?freeing⟩
  case tracing =>
    intro s n h mask label all e hb hrun x resume
    exact issue_done hb (startTraceStart_done hrun)
  case stopping =>
    intro s n h x e hb hx d
    have hstart := startTraceStop_eq (cl := mbxCaller s.dev n h) hx
    split
    next hempty => exact issue_done hb (hstart.trans (if_pos hempty))
    next hleft => exact issue_go hb (hstart.trans (if_neg hleft))
  case snapshot =>
    intro s n h set dest e hb hset hrun bs hdest
    have hstart := startSnapshot_done (cl := mbxCaller s.dev n h) hset hrun hdest
    exact issue_done hb hstart
  case watch =>
    intro s n h k layer operator step action i e hb haction hfree htaken w
    exact issue_done hb (startWatch_done haction hfree htaken)
  case breaking =>
    intro s n h core kind address hits i m e hb hcore hlow hhigh hm hfree htaken b
    exact issue_done hb (startBreak_done hcore hlow hhigh hm hfree htaken)
  case freeing =>
    intro s n h core address hits m b e hb hcore hm hbreak
    exact issue_done hb (startBreak_free hcore hm)
end


section
/-!
SUPPORT. The turn of a stream command (chapter 10): where it is taken, and what each command does with it.
-/
namespace Sys2Proof.Machine

section
variable {d : Dev} {r : Running} {s : Stream}

/-- A command with a turn takes it; a commit only outside the hold. -/
theorem wakeOne_takeTurn (ht : HasTurn d r s) (hcmd : bucketNamed r.cmd = none)
    (hhold : ∀ n, r.cmd = .kvCommit n → d.pwr.hold = false) : wakeOne d r.id = takeTurn d r := by
  obtain ⟨hrun, hwait, hturn, -⟩ := ht
  have hbucket : bucketWait d r.id r.cmd = false := by rw [bucketWait, hcmd]
  rw [wakeOne, hrun]
  simp only [hwait]
  unfold turnIfReady
  split
  next _ n hc hheld => rw [hhold n hc] at hheld; cases hheld
  next => rw [hturn, hbucket, Bool.or_self, if_neg Bool.false_ne_true]

theorem wakeOne_commit_held (ht : HasTurn d r s) {n : Word} (hcmd : r.cmd = .kvCommit n) (hhold : d.pwr.hold = true) :
    wakeOne d r.id = turnEnd d r 0x0206 0 := by
  obtain ⟨hrun, hwait, -, -⟩ := ht
  rw [wakeOne, hrun]
  simp only [hwait]
  rw [turnIfReady, hcmd, hhold]

/-! ### What each command does -/

theorem turnPut_go {h layer first n : Nat} {src : BitVec 16} {k : Desc} {e : Dev} (hrole : s.decode = false)
    (hlayer : layer < s.layers.length) (hlive : (layerOf s layer).evicted = false) (hfirst : first = (layerOf s layer).g)
    (hcommitted : (layerOf s layer).c ≤ (layerOf s layer).g) (hpos : 0 < n) (hwhole : n % 16 = 0) (hmax : first + n ≤ s.maxPositions)
    (hk : descOf d src = some k) (hlen : k.imageLen = n * s.bpp) (hoob : errorOob k = false)
    (hpages : reservePages d s (((List.range (n / 16)).map (first / 16 + ·)).map (pageTag h layer)) = some e) :
    turnPut d r h s layer first n src =
      let pages := (List.range (n / 16)).map (first / 16 + ·)
      putRunning (pageWorks e h s r.id (pages.map fun k => .encodePage layer k 16 false)) { r with wait := .work, chunks := pages.length } := by
  have hplace : ((layerOf s layer).evicted || first != (layerOf s layer).g || (layerOf s layer).g < (layerOf s layer).c) = false := by
    simp only [hlive, hfirst, bne_self_eq_false, Bool.false_or, decide_eq_false_iff_not]
    omega
  have hcount : (n = 0 || n % 16 != 0 || s.maxPositions < first + n) = false := by
    simp only [hwhole, bne_self_eq_false, Bool.or_false, Bool.or_eq_false_iff, decide_eq_false_iff_not]
    omega
  have himage : (k.imageLen != n * s.bpp || errorOob k) = false := by rw [hlen, bne_self_eq_false, hoob, Bool.or_self]
  unfold turnPut
  simp only [hrole, Bool.false_eq_true, if_false, if_neg (show ¬ s.layers.length ≤ layer by omega), hplace, hcount, hk, himage, hpages]

theorem turnCommit_go {h n : Nat} {e : Dev} (hpos : 0 < n)
    (hlayers : ∀ y ∈ s.layers, y.c = (layerOf s 0).c ∧ y.evicted = false ∧ (layerOf s 0).c + n ≤ y.g + 16)
    (hpages : reservePages d s ((retiring s ((layerOf s 0).c + n)).map fun l => pageTag h l ((layerOf s l).g / 16)) = some e)
    (htap : noIsland d = true ∨ commitTapFree d ≠ 0) :
    turnCommit d r h s n =
      let f := if noIsland d then e else withMet e fun m => { m with reserved := m.reserved + 1 }
      let lines := appendLines f h s
      putRunning (snoop f lines) { r with wait := .birsp lines, lines := lines } := by
  have heven : s.layers.any (fun y => y.c != (layerOf s 0).c || y.evicted) = false := List.any_eq_false.mpr fun y hy => by
    obtain ⟨hc, hlive, -⟩ := hlayers y hy
    simp [hc, hlive]
  have hreach : s.layers.any (fun y => y.g + 16 < (layerOf s 0).c + n) = false := List.any_eq_false.mpr fun y hy => by
    simpa using (hlayers y hy).2.2
  have hfree : (!noIsland d && commitTapFree d = 0) = false := by
    rcases htap with hnone | hroom
    · simp [hnone]
    · simp [hroom]
  unfold turnCommit
  simp only [if_neg (show ¬ n = 0 by omega), heven, hreach, Bool.false_eq_true, if_false, hpages, hfree]

theorem turnStage_whole {h layer first n : Nat} (hpos : 0 < n) (haligned : first % 16 = 0) (hlayer : layer < s.layers.length)
    (hlive : (layerOf s layer).evicted = false) (hreach : first + n ≤ r.cs.getD layer 0) :
    turnStage d r h s layer first n =
      if first + n ≤ (layerOf s layer).c then stageTake d r h s layer first n
      else if (incomingFor d h layer first n).isSome then putRunning d { r with wait := .incoming }
      else turnEnd d r 0x0120 0 := by
  have hplace : (first % 16 != 0 || s.layers.length ≤ layer) = false := by
    simp only [haligned, bne_self_eq_false, Bool.false_or, decide_eq_false_iff_not]
    omega
  unfold turnStage
  rw [if_neg (by omega), hplace, hlive, if_neg Bool.false_ne_true, if_neg Bool.false_ne_true, if_neg (by omega)]

theorem turnHandoff_go {h : Nat} {o : HandoffOps} {p : Port} (hrole : s.decode = false) (hpositions : o.positions ≠ 0)
    (hcount : o.layerCount ≠ 0) (hmember : o.destMember.toNat < 4096) (hstream : o.destStream.toNat < 4096) (haligned : o.first.toNat % 16 = 0)
    (hreach : o.first.toNat + o.positions.toNat ≤ r.cs.foldl min (r.cs.headD 0))
    (hlayers : o.firstLayer.toNat + o.layerCount.toNat ≤ s.layers.length)
    (hlive : ∀ l ∈ (List.range o.layerCount.toNat).map (o.firstLayer.toNat + ·), (layerOf s l).evicted = false)
    (hport : portTo d (o.destMember.truncate 12) = some p) :
    turnHandoff d r h s o = putRunning
      (sendStream d p o.destStream s.nextChunkSeq 0x0101 (requestOps [(2, 4, o.first.toNat), (6, 4, o.positions.toNat),
        (10, 1, o.firstLayer.toNat), (11, 1, o.layerCount.toNat - 1), (12, 1, s.bpp / 128), (13, 1, s.format.toNat)]))
      { r with wait := .handoffReply, firstSeq := s.nextChunkSeq, slot := h } := by
  have hlegal : (o.positions = 0 || o.layerCount = 0 || 4096 ≤ o.destMember.toNat || 4096 ≤ o.destStream.toNat
      || o.first.toNat % 16 != 0 || r.cs.foldl min (r.cs.headD 0) < o.first.toNat + o.positions.toNat
      || s.layers.length < o.firstLayer.toNat + o.layerCount.toNat) = false := by
    simp only [hpositions, hcount, haligned, decide_false, bne_self_eq_false, Bool.or_false, Bool.false_or, Bool.or_eq_false_iff,
      decide_eq_false_iff_not]
    omega
  have hnone : ((List.range o.layerCount.toNat).map (o.firstLayer.toNat + ·)).any (fun l => (layerOf s l).evicted) = false :=
    List.any_eq_false.mpr fun l hl => by simp [hlive l hl]
  unfold turnHandoff
  simp only [hrole, hlegal, hnone, Bool.false_eq_true, if_false, hport]

theorem turnEvict_eq {h : Nat} {first count : BitVec 16} (hrange : count = 0 ∨ first.toNat + count.toNat ≤ s.layers.length) :
    turnEvict d r h s first.toNat count.toNat =
      let ls := if count.toNat = 0 then List.range s.layers.length else (List.range count.toNat).map (first.toNat + ·)
      turnEnd (evictLayers d h ls).1 r 0 (result [(20, 4, (evictLayers d h ls).2)]) := by
  have hlegal : (count.toNat != 0 && s.layers.length < first.toNat + count.toNat) = false := by
    rcases hrange with rfl | hin
    · rfl
    · simp only [Bool.and_eq_false_iff, decide_eq_false_iff_not]
      exact .inr (by omega)
  unfold turnEvict
  dsimp only
  rw [hlegal, if_neg Bool.false_ne_true]

end

end Sys2Proof.Machine

open Sys2Proof Sys2Proof.Machine

/-- Settles O15: a command that has its turn takes it, and its own operands lead it to the effect. -/
theorem streamTurns : Obligations.StreamTurns := by
  intro d r s ht h
  have hs : streamOf d r.hdr.handle.toNat = some s := ht.2.2.2
  -- a command of a stream other than a commit takes its turn as soon as it has it
  have taken : bucketNamed r.cmd = none → (∀ n, r.cmd ≠ .kvCommit n) → wakeOne d r.id = takeTurn d r :=
    fun hbucket hcommit => wakeOne_takeTurn ht hbucket fun n hn => absurd hn (hcommit n)
  refine ⟨?put, ?commit, fun n hcmd hhold => wakeOne_commit_held ht hcmd hhold, ?stage, ?handoff, ?evict, ?close⟩
  case put =>
    intro layer first n src k e hcmd y pages hrole hlayer hlive hfirst hcommitted hpos hwhole hmax hk hlen hoob hpages
    have hturn : takeTurn d r = turnPut d r h s layer.toNat first.toNat n.toNat src := by simp only [takeTurn, hcmd, hs]; rfl
    rw [taken (by rw [hcmd]; rfl) (by simp [hcmd]), hturn]
    exact turnPut_go hrole hlayer hlive hfirst hcommitted hpos hwhole hmax hk hlen hoob hpages
  case commit =>
    intro n e hcmd c hpos hlayers hhold hpages htap f lines
    have hturn : takeTurn d r = turnCommit d r h s n.toNat := by simp only [takeTurn, hcmd, hs]; rfl
    rw [wakeOne_takeTurn ht (by rw [hcmd]; rfl) fun _ _ => hhold, hturn]
    exact turnCommit_go hpos hlayers hpages htap
  case stage =>
    intro layer first n hcmd
    have hturn : takeTurn d r = turnStage d r h s layer.toNat first.toNat n.toNat := by simp only [takeTurn, hcmd, hs]; rfl
    rw [taken (by rw [hcmd]; rfl) (by simp [hcmd]), hturn]
    refine ⟨?_, fun hpos haligned hlayer hlive hreach => ?_⟩
    · rintro rfl
      rfl
    · rw [turnStage_whole hpos haligned hlayer hlive hreach]
      exact ⟨fun hcommitted => if_pos hcommitted, fun hcoming hsome => by rw [if_neg (by omega), hsome, if_pos rfl]⟩
  case handoff =>
    intro o p hcmd c ls hrole hpositions hcount hmember hstream haligned hreach hlayers hlive hport
    have hturn : takeTurn d r = turnHandoff d r h s o := by simp only [takeTurn, hcmd, hs]; rfl
    rw [taken (by rw [hcmd]; rfl) (by simp [hcmd]), hturn]
    exact turnHandoff_go hrole hpositions hcount hmember hstream haligned hreach hlayers hlive hport
  case evict =>
    intro first count hcmd hrange ls e
    have hturn : takeTurn d r = turnEvict d r h s first.toNat count.toNat := by simp only [takeTurn, hcmd, hs]; rfl
    rw [taken (by rw [hcmd]; rfl) (by simp [hcmd]), hturn]
    exact turnEvict_eq hrange
  case close =>
    intro hcmd
    have hturn : takeTurn d r = turnClose d r h s := by simp only [takeTurn, hcmd, hs]; rfl
    rw [taken (by rw [hcmd]; rfl) (by simp [hcmd]), hturn]
end


section
/-!
SUPPORT. Ticks: boundaries, slips and the Almanac that is followed (chapter 2).
-/
namespace Sys2Proof.Machine

/-- Two effects behind one condition are one effect. -/
theorem finish_ite (s : State) (c : Prop) [Decidable c] (a b : Dev) :
    (if c then finish s a else finish s b) = .next (settled s (if c then a else b)) := by
  split <;> exact finish_eq _ _

end Sys2Proof.Machine

open Sys2Proof Sys2Proof.Machine

/-- Settles O27: each boundary is the one whose conditions stand. -/
theorem tickBoundariesPass : Obligations.TickBoundariesPass := by
  refine ⟨fun s plan settledV hreset hera hlast => ?tick, fun s c hreset hera => ?era, fun s hmaster hvalid hstart => ?wrap⟩
  case tick =>
    show execTickBoundary plan settledV s = _
    rw [execTickBoundary, hreset, hera, hlast]
    exact finish_eq _ _
  case era =>
    show execEraBoundary s = _
    rw [execEraBoundary, hera, hreset]
    exact finish_eq _ _
  case wrap =>
    show execTickWrapEraChange s = _
    rw [execTickWrapEraChange, hmaster, hvalid, hstart]
    exact finish_eq _ _

/-- Settles O29: the group's oldest chunk, and whether a notice for the tick came first, choose the branch. -/
theorem groupsSlip : Obligations.GroupsSlip := by
  refine ⟨?first, ?second, ?stalled, ?notice⟩
  case first =>
    intro s h g w hg hw hsound hlate hslip d
    show execGroupSlip h s = _
    simp only [execGroupSlip, hg, hw, hsound, hlate, hslip]
    exact finish_eq _ _
  case second =>
    intro s h g w t count hg hw hsound hlate hslip hdeadline d
    have hlater : laterBy1 w = { w with deadline := some (t + 1) } := by rw [laterBy1, hdeadline]; rfl
    show execGroupSlip h s = _
    simp only [execGroupSlip, hg, hw, hsound, hlate, hslip, hlater, hdeadline, Option.any_some, decide_eq_true_eq]
    exact finish_eq _ _
  case stalled =>
    intro s h g hg hsound hstalled hover d e
    have hstands : (g.faulted.isSome || g.stalled || g.slip ≤ s.dev.tik.slipForce.toNat) = false := by
      simp only [hsound, hstalled, Option.isSome_none, Bool.or_self, Bool.false_or, decide_eq_false_iff_not]
      omega
    show execGroupStalled h s = _
    simp only [execGroupStalled, hg, hstands, Bool.false_eq_true, if_false, finish_eq]
    cases oldestIncomplete e h.val with
    | none => rfl
    | some w => rfl
  case notice =>
    intro s p h tick group count g ha d hg hsound hnbr at0 f
    have hheard : (!true || g.faulted.isSome || (nbrOn g p).isNone) = false := by
      rw [hsound, Option.isNone_eq_false_iff.mpr (Option.isSome_iff_ne_none.mpr hnbr)]
      rfl
    have hd : groupOf (arrive s.dev p 1 18 h) group.toNat = some g := hg
    show execSlipNotice p h tick group count s = _
    simp only [execSlipNotice, receive_accepted ha, hd, hheard, Bool.false_eq_true, if_false]
    exact finish_ite _ _ _ _

/-- Settles O30: the lock, the cable, the holdover and the frame of the parent each meet their conditions. -/
theorem almanacFollowed : Obligations.AlmanacFollowed := by
  refine ⟨fun s hvalid hlocked hrun => ?lock, fun s hcable => ?cable, fun s hvalid hmaster hholdover hlate => ?holdover,
    fun s hholdover hlost hlimit => ?lost, ?frame⟩
  case lock =>
    show execTickLock s = _
    simp only [execTickLock, hvalid, hlocked, hrun]
    exact finish_eq _ _
  case cable =>
    show execCableFault s = _
    rw [execCableFault, if_pos (by simpa using hcable), finish_eq]
  case holdover =>
    show execHoldoverEntry s = _
    simp only [execHoldoverEntry, hvalid, hmaster, hholdover, hlate]
    exact finish_eq _ _
  case lost =>
    show execAlmanacLost s = _
    simp only [execAlmanacLost, hholdover, hlost, hlimit]
    exact finish_eq _ _
  case frame =>
    intro s p h b off ha d hparent hmaster
    have hfromParent : (d.join.parent != some p || d.tik.isMaster) = false := by
      rw [hparent, hmaster, bne_self_eq_false, Bool.or_self]
    have hframe : execTickFrame p h b off s =
        if !d.tik.eraValid then
          match d.join.master with
          | some (_, m) => if b.master.toNat = m.toNat then finish s (adoptEra (forwardTick d p b) p b) else finish s d
          | none => finish s d
        else if b.era = d.tik.era then finish s (followTick (forwardTick d p b) b off)
        else if b.era = nextEra d.tik.era && b.tick = 0 && (atEraEnd d).isSome then finish s (lastFrame (forwardTick d p b) b off)
        else if fellBehind d b then finish s (catchUpEra (forwardTick d p b) p b)
        else finish s d := by
      rw [execTickFrame, receive_accepted ha]
      exact if_neg (Bool.eq_false_iff.mp hfromParent)
    show (_ → _ → execTickFrame p h b off s = _) ∧ (∀ _ _, _ → _ → _ → execTickFrame p h b off s = _)
      ∧ (_ → _ → _ → _ → _ → execTickFrame p h b off s = _) ∧ (_ → _ → _ → _ → execTickFrame p h b off s = _)
    rw [hframe]
    refine ⟨fun hvalid hera => ?_, fun x m hnone hmaster' hsame => ?_, fun hvalid hera hnext htick hend => ?_,
      fun hvalid hera hnot hbehind => ?_⟩
    · rw [hvalid, if_neg (by decide), if_pos hera, finish_eq]
    · rw [hnone, if_pos (by decide), hmaster']
      exact (if_pos hsame).trans (finish_eq _ _)
    · rw [hvalid, if_neg (by decide), if_neg hera, if_pos (by simp [hnext, htick, hend]), finish_eq]
    · rw [hvalid, if_neg (by decide), if_neg hera, if_neg (by simpa [and_assoc] using hnot), if_pos hbehind, finish_eq]
end


section
/-!
SUPPORT. Reports of late chunks up the tree, the leap level and the peer delay (sections 2.5 and 8.7).
-/
namespace Sys2Proof.Machine

theorem judgeSum_eq (d : Dev) (before count : Nat) :
    let f := withTik d fun x => { x with zeroTicks := if count = 0 then x.zeroTicks else 0 }
    judgeSum d before count
      = if f.tik.isMaster = true ∧ before < leapThreshold f ∧ leapThreshold f ≤ before + count then raiseLeap f else f := by
  simp only [judgeSum, Bool.and_eq_true, decide_eq_true_eq, and_assoc]

/-- The start of a window is the time of its report (R82). -/
theorem windowReport_due {d : Dev} (hmember : isMember d = true) (hstart : d.tik.starting = 0) (hwindow : d.tik.tick.toNat % 16 = 0)
    (hfirst : 16 ≤ d.tik.tick.toNat) (hfresh : d.tik.lastReport ≠ d.tik.tick) :
    (!isMember d || d.tik.starting != 0 || d.tik.tick.toNat % 16 != 0 || d.tik.tick.toNat < 16 || d.tik.lastReport = d.tik.tick) = false := by
  simp only [hmember, hstart, hwindow, hfresh, Bool.not_true, bne_self_eq_false, decide_false, Bool.or_false, Bool.false_or,
    decide_eq_false_iff_not]
  omega

/-- A child's report of a window that has passed is added (R82). -/
theorem execTickReport_taken {s : State} {p : Port} {h : LysHdr} {window : BitVec 48} {count : BitVec 16}
    (ha : Accepted s.dev p 0 0x04 h) (hmember : isMember (arrive s.dev p 0 0x04 h) = true)
    (hchild : p ∈ (arrive s.dev p 0 0x04 h).join.children) (hera : h.era = (arrive s.dev p 0 0x04 h).tik.era)
    (hpast : window.toNat ≤ (arrive s.dev p 0 0x04 h).tik.tick.toNat) :
    execTickReport p h window count s = .next (settled s (addReport (arrive s.dev p 0 0x04 h) window count.toNat)) := by
  unfold execTickReport
  rw [receive_accepted ha]
  generalize arrive s.dev p 0 0x04 h = d at *
  have htaken : (!true || !isMember d || !d.join.children.contains p || h.era != d.tik.era || d.tik.tick.toNat < window.toNat) = false := by
    simp only [hmember, List.contains_iff_mem.mpr hchild, hera, Bool.not_true, bne_self_eq_false, Bool.or_self, Bool.false_or,
      decide_eq_false_iff_not]
    omega
  simp only [htaken, finish_eq, Bool.false_eq_true, if_false]

theorem toNat_eq_zero_iff {w : Nat} (x : BitVec w) : x.toNat = 0 ↔ x = 0 := by
  rw [← BitVec.toNat_inj, BitVec.ofNat_eq_ofNat, BitVec.toNat_ofNat, Nat.zero_mod]

end Sys2Proof.Machine

open Sys2Proof Sys2Proof.Machine

/-- Settles O31: reports, the leap level and the peer delay, branch by branch. -/
theorem tickReportsAndDelays : Obligations.TickReportsAndDelays := by
  refine ⟨?child, ?master, ?report, ?cap, ?lower, ?delaySend, fun d p f => ⟨fun hrequest => ?requestTime, fun hanswer => ?answerTime⟩,
    ?delayRequest, ?delayResponse⟩
  case child =>
    intro s p hmember hstart hwindow hfirst hfresh hmaster hparent d sum
    have hd : (withTik s.dev fun x => { x with lateInWindow := false, childReports := 0, lastReport := x.tick }).join.parent = some p := hparent
    show execTickReportSend s = _
    simp only [execTickReportSend, windowReport_due hmember hstart hwindow hfirst hfresh, hmaster, Bool.false_eq_true, if_false, hd, finish_eq]
    rfl
  case master =>
    intro s hmember hstart hwindow hfirst hfresh hmaster sum d
    show execTickReportSend s = _
    simp only [execTickReportSend, windowReport_due hmember hstart hwindow hfirst hfresh, hmaster, Bool.false_eq_true, if_false, if_true,
      Bool.and_eq_true, decide_eq_true_eq, finish_eq]
    rfl
  case report =>
    intro s p h window count ha d hmember hchild hera hpast
    have htaken := execTickReport_taken (count := count) ha hmember hchild hera hpast
    refine ⟨fun hopen => ?_, fun q hlate hmaster hparent => ?_, fun hlast hmaster => ?_⟩
    · refine htaken.trans ?_
      rw [addReport, if_pos hopen, judgeSum_eq]
      simp only [toNat_eq_zero_iff]
      rfl
    · refine htaken.trans ?_
      have hmaster' : (arrive s.dev p 0 0x04 h).tik.isMaster = false := hmaster
      have hparent' : (arrive s.dev p 0 0x04 h).join.parent = some q := hparent
      rw [addReport, if_neg (by exact Nat.not_le.mpr hlate), hmaster', hparent']
      rfl
    · refine htaken.trans ?_
      have hmaster' : (arrive s.dev p 0 0x04 h).tik.isMaster = true := hmaster
      have hlast' : window.toNat + 16 = (arrive s.dev p 0 0x04 h).tik.lastReport.toNat := hlast
      have hsum := judgeSum_eq (withTik (arrive s.dev p 0 0x04 h) fun x => { x with windowSum := x.windowSum + count.toNat })
        (arrive s.dev p 0 0x04 h).tik.windowSum count.toNat
      rw [addReport, if_neg (by omega), hmaster', if_neg (by decide), if_pos hlast', hsum]
      simp only [toNat_eq_zero_iff, withTik_tik, hmaster', true_and]
      rfl
  case cap =>
    intro s hmaster hvalid hnone cap hcap
    show execLeapLower s = _
    simp only [execLeapLower, hmaster, hvalid, hnone, Option.isNone_none, Bool.and_self, Bool.true_and, decide_eq_true_eq]
    rw [if_pos hcap, finish_eq]
  case lower =>
    intro s hmaster hvalid hzero hnone hfloor hcap
    show execLeapLower s = _
    simp only [execLeapLower, hmaster, hvalid, hnone, Option.isNone_none, Bool.and_self, Bool.true_and, Bool.and_true, Bool.and_eq_true,
      decide_eq_true_eq]
    rw [if_neg (Nat.not_lt.mpr hcap), if_pos ⟨hzero, hfloor⟩, finish_eq]
  case delaySend =>
    intro s p hlink n
    show execPeerDelaySend p s = _
    simp only [execPeerDelaySend, hlink, finish_eq]
    rfl
  case requestTime =>
    obtain ⟨cs, hport⟩ := portAt_depart d p f
    rw [hport]
    exact if_pos hrequest
  case answerTime =>
    rw [departBody, hanswer]
    rfl
  case delayRequest =>
    intro s p h n t ha d
    show execPeerDelayRequest p h n t s = _
    rw [execPeerDelayRequest, receive_accepted ha]
    exact finish_eq _ _
  case delayResponse =>
    intro s p h n t1 t2 t3 t4 ha d hsent hnumber delay
    have hsent' : (portAt (arrive s.dev p 0 0x06 h) p).delaySent = some t1 := hsent
    have hnumber' : (!true || n + 1 != (portAt (arrive s.dev p 0 0x06 h) p).delayNumber) = false := by
      simpa using show n + 1 = (portAt (arrive s.dev p 0 0x06 h) p).delayNumber from hnumber
    show execPeerDelayResponse p h n t2 t3 t4 s = _
    rw [execPeerDelayResponse, receive_accepted ha]
    simp only [hsent', hnumber', finish_eq]
    rfl
end


section
/-!
SUPPORT. Eras and membership (chapter 12): which branch of each row stands.
-/

open Sys2Proof Sys2Proof.Machine

/-- Settles O32: the state that each row asks for, and what a received Proclamation or era frame is compared with. -/
theorem erasEstablished : Obligations.ErasEstablished := by
  refine ⟨?election, ?proclaiming, ?mastery, ?proclamation, ?era, ?periodic⟩
  case election =>
    intro s hhost hpri hvalid helecting hnone hstage hports
    have hup : (upPorts s.dev).isEmpty = false := by simpa using hports
    have hpri' : (s.dev.join.masterPri != 0) = true := by simpa using hpri
    show execElectionStart s = _
    simp only [execElectionStart, hhost, hpri', hvalid, helecting, hnone, hstage, hup]
    exact finish_eq _ _
  case proclaiming =>
    intro s helecting hbest hhost hpending own
    show execProclamationSend s = _
    simp only [execProclamationSend, helecting, hbest, hhost, hpending]
    exact finish_eq _ _
  case mastery =>
    intro s b hb helecting hbest hhost
    show execBecomeMaster s = _
    simp only [execBecomeMaster, hb, helecting, hbest, hhost]
    exact finish_eq _ _
  case proclamation =>
    intro s p h b ha d
    have hrow : execProclamation p h b s =
        if d.tik.eraValid && !d.tik.almanacLost then finish s (if isMember d then answerEra d p else d)
        else if eraHost d || (!d.tik.eraValid && d.join.master.isSome) then finish s d
        else finish s (takeProclamation d p b) := by
      rw [execProclamation, receive_accepted ha]
      rfl
    show (_ → _ → _ → execProclamation p h b s = _) ∧ (_ → _ → execProclamation p h b s = _)
    rw [hrow]
    refine ⟨fun hvalid hkept hmember => ?_, fun hopen hhost => ?_⟩
    · rw [hvalid, hkept, hmember]
      exact finish_eq _ _
    · rcases hopen with ⟨hvalid, hlost⟩ | ⟨hvalid, hnone⟩
      · rw [hvalid, hlost, hhost]
        exact finish_eq _ _
      · rw [hvalid, hnone, hhost]
        exact finish_eq _ _
  case era =>
    intro s p h b ha d x m
    have hrow : execEraFrame p h b s =
        match d.join.master with
        | some (y, _) => finish s (compareEra d p x y m)
        | none => match d.join.best with
          | some y => if y.serial = x.serial || strongerP x y then finish s (acceptEra d p x m) else finish s d
          | none => finish s (acceptEra d p x m) := by
      rw [execEraFrame, receive_accepted ha]
      rfl
    show (∀ _ _, _ → execEraFrame p h b s = _) ∧ (_ → _ → execEraFrame p h b s = _)
    rw [hrow]
    refine ⟨fun y k hmaster => ?_, fun hnone hbest => ?_⟩
    · rw [hmaster]
      exact finish_eq _ _
    · rw [hnone]
      cases hb : d.join.best with
      | none => exact finish_eq _ _
      | some y => exact (if_pos (by simpa using hbest y hb)).trans (finish_eq _ _)
  case periodic =>
    intro s m k hmaster hown hvalid hspeaks
    show execEraFramePeriodic s = _
    simp only [execEraFramePeriodic, hmaster, hown, hvalid, hspeaks]
    exact finish_eq _ _

/-- Settles O33: the master forms the topology, a member asks for it, and a segment of the era is applied. -/
theorem topologyFormed : Obligations.TopologyFormed := by
  refine ⟨?form, ?missing, ?segment⟩
  case form =>
    intro s hmaster hvalid hstart hage hnew hsingle rs edges d
    have hdue : (!s.dev.tik.isMaster || !s.dev.tik.eraValid || s.dev.tik.starting != 0 || s.dev.tik.tick.toNat < 64 || s.dev.join.topoValid
        || s.dev.join.duplicate) = false := by
      simp only [hmaster, hvalid, hstart, hnew, hsingle, Bool.not_true, bne_self_eq_false, Bool.or_false, Bool.false_or,
        decide_eq_false_iff_not]
      omega
    show execTopologyForm s = _
    simp only [execTopologyForm, hdue, Bool.false_eq_true, if_false]
    exact finish_eq _ _
  case missing =>
    intro s hvalid hmaster hmissing hsingle
    have hnone : (s.dev.join.topoValid && s.dev.join.topoEra = s.dev.tik.era) = false := by
      rcases hmissing with hnone | hold
      · rw [hnone, Bool.false_and]
      · rw [decide_eq_false hold, Bool.and_false]
    show execTopologyMissing s = _
    simp only [execTopologyMissing, hvalid, hmaster, hnone, hsingle]
    exact finish_eq _ _
  case segment =>
    intro s p h b ha hlow hhigh hindex hcount d hparent hmaster f hera other
    have hgood : (1 ≤ b.edges.length && b.edges.length ≤ 2040 && b.index.toNat < b.count.toNat && b.count.toNat ≤ maxSegments) = true := by
      simp only [Bool.and_eq_true, decide_eq_true_eq]
      exact ⟨⟨⟨hlow, hhigh⟩, hindex⟩, hcount⟩
    have hparent' : (arrive s.dev p 3 0x33 h).join.parent = some p := hparent
    have hmaster' : (arrive s.dev p 3 0x33 h).tik.isMaster = false := hmaster
    have htimely : (b.era != f.tik.era && b.era != nextEra f.tik.era) = false := by
      rcases hera with hnow | hnext
      · rw [hnow, bne_self_eq_false, Bool.false_and]
      · rw [hnext, bne_self_eq_false, Bool.and_false]
    show execTopologySegment p h b s = _
    simp only [execTopologySegment, receiveDisc_accepted ha hgood, hparent', hmaster', bne_self_eq_false, Bool.not_true, Bool.or_self,
      Bool.false_eq_true, if_false]
    exact (if_neg (Bool.eq_false_iff.mp htimely)).trans (finish_eq _ _)

/-- Settles O34: joins, reports and hellos of ports whose frames are accepted. -/
theorem membersJoin : Obligations.MembersJoin := by
  refine ⟨?announce, ?reports, ?hello, ?heard, ?child⟩
  case announce =>
    intro s x hmaster hvalid hstart hfirst hdue hfree t known rs segs d
    show execJoinAnnounce s = _
    simp only [execJoinAnnounce, hmaster, hvalid, hstart, hfirst, hdue, hfree]
    exact finish_eq _ _
  case reports =>
    intro s p h b ha hlinks d
    refine ⟨?_, ?_⟩
    · show execLinkReport p h b s = _
      rw [execLinkReport, receiveDisc_accepted ha (decide_eq_true hlinks)]
      exact finish_eq _ _
    · show execJoinRequest p h b s = _
      rw [execJoinRequest, receiveDisc_accepted ha (decide_eq_true hlinks)]
      exact finish_eq _ _
  case hello =>
    intro s p hlink x
    show execHelloSend p s = _
    simp only [execHelloSend, hlink, finish_eq, Bool.true_and]
    cases x.helloSent && x.helloHeard with
    | false => rfl
    | true => rfl
  case heard =>
    intro s p h b ha hport d f
    show execHello p h b s = _
    rw [execHello, receiveDisc_accepted ha (decide_eq_true hport)]
    simp only [Bool.not_true, Bool.false_eq_true, if_false, finish_eq, Bool.and_eq_true, decide_eq_true_eq]
    rfl
  case child =>
    intro s p h ha d
    refine ⟨fun hmaster hnot hnew => ?_, fun m hparent => ?_, fun serial hparent => ?_⟩
    · have hattach : (!true || d.join.master.isNone || d.join.parent = some p || d.join.children.contains p) = false := by
        have hknown : d.join.master.isNone = false := Option.isNone_eq_false_iff.mpr (Option.isSome_iff_ne_none.mpr hmaster)
        have hnot' : decide (d.join.parent = some p) = false := decide_eq_false hnot
        have hnew' : d.join.children.contains p = false := by simpa using hnew
        rw [hknown, hnot', hnew']
        rfl
      show execChildAttach p h s = _
      rw [execChildAttach, receiveDisc_accepted ha rfl]
      exact (if_neg (Bool.eq_false_iff.mp hattach)).trans (finish_eq _ _)
    · have hfrom : (!true || d.join.parent != some p) = false := by rw [hparent, bne_self_eq_false]; rfl
      show execMemberLost p h m s = _
      rw [execMemberLost, receiveDisc_accepted ha rfl]
      exact (if_neg (Bool.eq_false_iff.mp hfrom)).trans (finish_eq _ _)
    · have hfrom : (!true || d.join.parent != some p) = false := by rw [hparent, bne_self_eq_false]; rfl
      show execDuplicateNotice p h serial s = _
      rw [execDuplicateNotice, receiveDisc_accepted ha rfl]
      exact (if_neg (Bool.eq_false_iff.mp hfrom)).trans (finish_ite _ _ _ _)
end


section
/-!
SUPPORT. Chunks, groups and handoffs on the links: which branch an accepted frame takes (chapters 8 to 10).
-/
namespace Sys2Proof.Machine

/-- A grant ahead of the neighbour's limit, with none kept for the group's next opening, only moves the limit. -/
theorem takeGrant_ahead {d : Dev} {p : Port} {n : Nat} {limit : BitVec 32} {g : Group} {x : Nbr} (hg : groupOf d n = some g)
    (hx : nbrOn g p = some x) (hahead : seqBefore x.grant limit = true) (hnone : assoc n (portAt d p).grants = none) :
    takeGrant d p n limit = withNbr d n p fun x => { x with grant := limit } := by
  have hkept : assoc n (portAt (withNbr d n p fun x => { x with grant := limit }) p).grants = none := hnone
  simp only [takeGrant, hg, Option.bind_some, hx, hahead, hkept, Option.isNone_none, Bool.and_self, if_true]

/-- Any other grant may be meant for the group's next opening, and is kept too (log 16). -/
theorem takeGrant_kept {d : Dev} {p : Port} {n : Nat} {limit : BitVec 32}
    (h : ∀ g x, groupOf d n = some g → nbrOn g p = some x → seqBefore x.grant limit = false ∨ assoc n (portAt d p).grants ≠ none) :
    takeGrant d p n limit =
      withPort (withNbr d n p fun x => { x with grant := limit }) p fun x => { x with grants := assocSet n limit x.grants } := by
  refine if_neg ?_
  cases hx : (groupOf d n).bind fun g => nbrOn g p with
  | none => exact Bool.false_ne_true
  | some x =>
    obtain ⟨g, hg, hnbr⟩ := Option.bind_eq_some_iff.mp hx
    rcases h g x hg hnbr with hbehind | hkept
    · simp only [hbehind]
      exact Bool.false_ne_true
    · have hsome : (assoc n (portAt (withNbr d n p fun x => { x with grant := limit }) p).grants).isNone = false :=
        Option.isNone_eq_false_iff.mpr (Option.isSome_iff_ne_none.mpr hkept)
      rw [hsome, Bool.and_false]
      exact Bool.false_ne_true

end Sys2Proof.Machine

open Sys2Proof Sys2Proof.Machine

/-- Settles O35: the five outcomes exclude each other by the segment's fit and by what is known, wanted and held of its chunk. -/
theorem segmentsTaken : Obligations.SegmentsTaken := by
  intro s p h bs ha d known
  have hrow : execChunkSegment p h bs s =
      if !segmentFits h bs then finish s (dropFrame d p)
      else match known with
        | some a => finish s (ackAgain d p h a)
        | none =>
          if !segmentWanted d p h then finish s (dropFrame d p)
          else if !h.stream && (match groupOf d h.handle.toNat with
              | some g => (rxOf g p h.seq).isSome
              | none => false) then finish s (noteAttempt d p h)
          else finish s (addSegment d p h bs) := by
    rw [execChunkSegment, receive_accepted ha]
    rfl
  show (_ → execChunkSegment p h bs s = _) ∧ (∀ _, _ → _ → execChunkSegment p h bs s = _) ∧ (_ → _ → _ → execChunkSegment p h bs s = _)
    ∧ (_ → _ → _ → _ → execChunkSegment p h bs s = _) ∧ (∀ _, _ → _ → _ → _ → _ → _ → execChunkSegment p h bs s = _)
  rw [hrow]
  refine ⟨fun hmisfit => ?misfit, fun a hfits hknown => ?acked, fun hfits hnew hunwanted => ?unwanted, fun hfits hnew hwanted hfree => ?joins,
    fun g hfits hnew hwanted hgroup hg hheld => ?held⟩
  case misfit => rw [hmisfit]; exact finish_eq _ _
  case acked => rw [hfits, hknown]; exact finish_eq _ _
  case unwanted => rw [hfits, hnew, hunwanted]; exact finish_eq _ _
  case joins =>
    rw [hfits, hnew, hwanted]
    rcases hfree with hstream | hnot
    · rw [hstream]
      exact finish_eq _ _
    · cases hg : groupOf d h.handle.toNat with
      | none => simp only [Bool.and_false]; exact finish_eq _ _
      | some g => simp only [hnot g hg, Option.isSome_none, Bool.and_false]; exact finish_eq _ _
  case held =>
    rw [hfits, hnew, hwanted, hgroup, hg]
    simp only [Option.isSome_iff_ne_none.mpr hheld]
    exact finish_eq _ _

/-- Settles O36: the chunk that the frame or the timer names is found, and its state lets it move. -/
theorem chunksAcknowledged : Obligations.ChunksAcknowledged := by
  refine ⟨?ack, ?reask, ?reasm, ?timeout⟩
  case ack =>
    intro s p h c ha d hc hleft
    have hmoves : (c.left || c.attempt != 0) = true := by simpa using hleft
    have hc' : wireChunk (arrive s.dev p 1 0x10 h) p h.stream h.handle h.seq = some c := hc
    show execAck p h s = _
    rw [execAck, receive_accepted ha]
    simp only [hc', hmoves]
    exact finish_eq _ _
  case reask =>
    intro s p h reason missing c ha hlow hhigh d hc hattempt hleft named segs
    have hreason : (reason = 0 || 3 < reason.toNat) = false := by
      simp only [decide_eq_false hlow, Bool.false_or, decide_eq_false_iff_not]
      omega
    have hc' : wireChunk (bumpPort (arrive s.dev p 1 0x11 h) p 5 1) p h.stream h.handle h.seq = some c := hc
    have hnow : (h.attempt != c.attempt || !c.left) = false := by rw [hattempt, hleft, bne_self_eq_false]; rfl
    show execReAsk p h reason missing s = _
    rw [execReAsk, receive_accepted ha]
    simp only [hreason, hc', hnow, Bool.not_true, Bool.false_eq_true, if_false, finish_eq, Bool.and_eq_true, decide_eq_true_eq,
      Bool.not_eq_true', List.isEmpty_eq_false_iff]
    rfl
  case reasm =>
    intro s p stream handle seq x hx
    show execReasmTimeout p stream handle seq s = _
    rw [execReasmTimeout, hx]
    exact finish_eq _ _
  case timeout =>
    intro s p stream handle seq c hc hleft
    show execAckTimeout p stream handle seq s = _
    rw [execAckTimeout, hc]
    exact (if_pos hleft).trans (finish_eq _ _)

/-- Settles O37: the group, and the neighbour on the port, are those of an accepted frame about a group. -/
theorem groupFramesTaken : Obligations.GroupFramesTaken := by
  refine ⟨?exponent, ?requests⟩
  case exponent =>
    intro s p h group bucket exponent g ha d hg hparent
    have hg' : groupOf (arrive s.dev p 1 0x13 h) group.toNat = some g := hg
    show execExponentNotice p h group bucket exponent s = _
    rw [execExponentNotice, receive_accepted ha]
    simp only [hg', hparent]
    exact finish_eq _ _
  case requests =>
    intro s p h ha hgroup d n
    refine ⟨fun limit => ⟨?ahead, ?kept⟩, ?adopt, ?reply, ?abort⟩
    case ahead =>
      intro g x hg hx hahead hnone
      show execGrant p h limit s = _
      rw [execGrant, receive_accepted ha, hgroup]
      exact (finish_eq _ _).trans (congrArg (fun e => Host.Outcome.next (settled s e)) (takeGrant_ahead hg hx hahead hnone))
    case kept =>
      intro hkept
      show execGrant p h limit s = _
      rw [execGrant, receive_accepted ha, hgroup]
      exact (finish_eq _ _).trans (congrArg (fun e => Host.Outcome.next (settled s e)) (takeGrant_kept hkept))
    case adopt =>
      intro g first hg hmay hnew f reply
      have hg' : groupOf (arrive s.dev p 1 0x14 h) h.handle.toNat = some g := hg
      have htakes : (!mayAdopt (arrive s.dev p 1 0x14 h) h.handle.toNat g first || (nbrOn g p).isSome) = false := by
        have hmay' : mayAdopt (arrive s.dev p 1 0x14 h) h.handle.toNat g first = true := hmay
        rw [hmay', hnew]
        rfl
      show execAdopt p h first s = _
      rw [execAdopt, receive_accepted ha, hgroup]
      simp only [hg', htakes]
      exact finish_eq _ _
    case reply =>
      intro g first accepted hg hsound hadopting
      have hg' : groupOf (arrive s.dev p 1 0x14 h) h.handle.toNat = some g := hg
      have hasked : (!true || false || g.faulted.isSome || g.adopting != some first) = false := by
        rw [hsound, hadopting, bne_self_eq_false]
        rfl
      show execAdoptReply p h first accepted s = _
      rw [execAdoptReply, receive_accepted ha, hgroup]
      simp only [hg', hasked]
      exact finish_ite _ _ _ _
    case abort =>
      intro g status hg hnbr
      have hg' : groupOf (arrive s.dev p 1 0x14 h) h.handle.toNat = some g := hg
      have hheard : (!true || false || (nbrOn g p).isNone) = false := by
        rw [Option.isNone_eq_false_iff.mpr (Option.isSome_iff_ne_none.mpr hnbr)]
        rfl
      show execAbort p h status s = _
      rw [execAbort, receive_accepted ha, hgroup]
      simp only [hg', hheard]
      exact finish_eq _ _

/-- Settles O38: the frame is of a handoff, and what it names decides the branch. -/
theorem handoffFramesTaken : Obligations.HandoffFramesTaken := by
  intro s p h ha hstream d
  refine ⟨?begin, ?reply, ?grant, ?done⟩
  case begin =>
    intro first positions firstLayer layersM1 bpp format layers room
    refine ⟨fun st hst => ?_, fun f hf => ?_⟩
    · have hst' : handoffRoom (arrive s.dev p 1 0x14 h) h.handle first.toNat positions.toNat firstLayer.toNat (layersM1.toNat + 1)
        (bpp.toNat % 128) format.toNat = .error st := hst
      show execHandoffBegin p h first positions firstLayer layersM1 bpp format s = _
      rw [execHandoffBegin, receive_accepted ha, hstream]
      simp only [hst']
      exact finish_eq _ _
    · have hf' : handoffRoom (arrive s.dev p 1 0x14 h) h.handle first.toNat positions.toNat firstLayer.toNat (layersM1.toNat + 1)
        (bpp.toNat % 128) format.toNat = .ok f := hf
      show execHandoffBegin p h first positions firstLayer layersM1 bpp format s = _
      rw [execHandoffBegin, receive_accepted ha, hstream]
      simp only [hf']
      exact finish_eq _ _
  case reply =>
    intro status limit r o hto
    have hto' : handoffTo (arrive s.dev p 1 0x14 h) p h .handoffReply = some (r, o) := hto
    refine ⟨fun hbad => ?_, fun x hgood hx => ?_⟩
    · have hbad' : (status != 0) = true := by simpa using hbad
      show execHandoffReply p h status limit s = _
      rw [execHandoffReply, receive_accepted ha, hstream]
      simp only [hto', hbad']
      exact finish_eq _ _
    · have hx' : streamOf (arrive s.dev p 1 0x14 h) r.hdr.handle.toNat = some x := hx
      show execHandoffReply p h status limit s = _
      rw [execHandoffReply, receive_accepted ha, hstream, hgood]
      simp only [hto', hx']
      exact finish_eq _ _
  case grant =>
    intro limit r o hto
    have hto' : handoffTo (arrive s.dev p 1 0x14 h) p h .handoffDone = some (r, o) := hto
    show execHandoffGrant p h limit s = _
    rw [execHandoffGrant, receive_accepted ha, hstream]
    simp only [hto']
    exact finish_eq _ _
  case done =>
    intro status r o hto
    have hto' : handoffTo (arrive s.dev p 1 0x14 h) p h .handoffDone = some (r, o) := hto
    show execHandoffDone p h status s = _
    rw [execHandoffDone, receive_accepted ha, hstream]
    simp only [hto']
    exact finish_eq _ _
end


section
/-!
SUPPORT. Credits, ports and lanes (sections 8.5, 8.9 and 8.11): which branch each row takes.
-/

open Sys2Proof Sys2Proof.Machine

/-- Settles O40: a frame of a channel's credit is taken from an accepted frame, a bad frame only counts. -/
theorem creditFramesTaken : Obligations.CreditFramesTaken := by
  refine ⟨?credit, ?send, ?syncSend, ?sync, ?counted⟩
  case credit =>
    intro s p h limits ha
    show execCredit p h limits s = _
    rw [execCredit, receive_accepted ha]
    exact finish_eq _ _
  case send =>
    intro s p htakes
    show execCreditSend p s = _
    rw [execCreditSend, if_pos htakes, finish_eq]
  case syncSend =>
    intro s p htakes hwindow hstart
    show execCreditSyncSend p s = _
    simp only [execCreditSyncSend, htakes, hwindow, hstart]
    exact finish_eq _ _
  case sync =>
    intro s p h sent ha d lost f
    show execCreditSync p h sent s = _
    rw [execCreditSync, receive_accepted ha]
    exact finish_eq _ _
  case counted =>
    intro s p halive
    refine ⟨?_, ?_, ?_, ?_⟩
    · show execMacControlFrame p s = _
      rw [execMacControlFrame, if_pos halive, finish_eq]
      rfl
    · show execFcsErrorFrame p true s = _
      rw [execFcsErrorFrame, if_pos halive, finish_eq]
      rfl
    · show execFcsErrorFrame p false s = _
      rw [execFcsErrorFrame, if_pos halive, finish_eq]
      rfl
    · show execUnlistedFrameType p s = _
      rw [execUnlistedFrameType, if_pos halive, finish_eq]
      rfl

/-- Settles O41: the lane's swap, the port's state and the quad's state choose the branch. -/
theorem portsAndLanes : Obligations.PortsAndLanes := by
  refine ⟨?swap, ?execute, ?degraded, ?loss, ?up, ?down, ?settled⟩
  case swap =>
    intro s p h kind lane t ha hlane d l
    refine ⟨fun hask howner => ?_, fun w hanswer hw hours hwl hwt => ?_⟩
    · subst hask
      have hlegal : (3 < lane.toNat || (1 : BitVec 8) = 0 || 3 < (1 : BitVec 8).toNat) = false := by
        simp only [Bool.or_eq_false_iff, decide_eq_false_iff_not]
        exact ⟨⟨by omega, by decide⟩, by decide⟩
      have howner' : ownStands (arrive s.dev p 3 0x32 h) p t = false := howner
      show execLaneSwap p h 1 lane t s = _
      rw [execLaneSwap, receive_accepted ha]
      simp only [hlegal, howner', Bool.not_true, Bool.false_eq_true, if_false, if_true]
      exact finish_ite _ _ _ _
    · have hlegal : (3 < lane.toNat || kind = 0 || 3 < kind.toNat) = false := by
        have hfar : ¬ 3 < lane.toNat := by omega
        rcases hanswer with rfl | rfl
        all_goals simp only [hfar, decide_false, Bool.false_or]; decide
      have hnot1 : kind ≠ 1 := by rcases hanswer with rfl | rfl <;> decide
      have hw' : (portAt (arrive s.dev p 3 0x32 h) p).swap = some w := hw
      have hmatch : (!w.ours || w.lane != lane.truncate 2 || w.tick != t) = false := by
        rw [hours, hwl, hwt, bne_self_eq_false, bne_self_eq_false]
        rfl
      show execLaneSwap p h kind lane t s = _
      rw [execLaneSwap, receive_accepted ha]
      simp only [hlegal, hnot1, hw', hmatch, Bool.not_true, Bool.false_eq_true, if_false]
      rw [finish_ite]
      split <;> rfl
  case execute =>
    intro s p w hw haccepted happroved hdue hspare
    have hready : (w.accepted && w.approved && w.tick.toNat ≤ s.dev.tik.tick.toNat && spareFree s.dev (quadOf p)) = true := by
      simp only [haccepted, happroved, hspare, hdue, decide_true, Bool.and_self]
    show execLaneSwapExecute p s = _
    simp only [execLaneSwapExecute, hw, hready]
    exact finish_eq _ _
  case degraded =>
    intro s p lane hup d detail hnew hnone hspare
    have hasks : (repairKnown d 3 (quadOf p).val detail || (portAt d p).swap.isSome || !spareFree d (quadOf p)) = false := by
      rw [hnew, hnone, hspare]
      rfl
    show execLaneDegraded p lane s = _
    simp only [execLaneDegraded, hup, Bool.not_true, Bool.false_eq_true, if_false]
    exact (if_neg (Bool.eq_false_iff.mp hasks)).trans (finish_eq _ _)
  case loss =>
    intro s p lane peer halive hcarries d
    show execLaneSignalLoss p lane peer s = _
    simp only [execLaneSignalLoss, halive, hcarries]
    exact finish_eq _ _
  case up =>
    intro s p rate limits x hstate henabled hrate hsound hrun d e
    have hcomes : (x.state != 1 || !x.ctrl.getLsbD 0 || rate != s.dev.quads[quadOf p].rateActive || s.dev.rpr.failed || s.dev.pwr.inReset) = false := by
      rw [hstate, henabled, hrate, hsound, hrun, bne_self_eq_false, bne_self_eq_false]
      rfl
    show execPortUp p rate limits s = _
    exact (if_neg (Bool.eq_false_iff.mp hcomes)).trans (finish_eq _ _)
  case down =>
    intro s p halive hcarries
    show execPortDown p s = _
    simp only [execPortDown, halive, hcarries]
    exact finish_eq _ _
  case settled =>
    intro s q hbusy d
    have hworks : (!s.dev.quads[q].settling && !s.dev.quads[q].recalibrating) = false := by
      rcases hbusy with hsettling | hcalibrating
      · rw [hsettling, Bool.not_true, Bool.false_and]
      · rw [hcalibrating, Bool.not_true, Bool.and_false]
    show execQuadSettled q s = _
    exact (if_neg (Bool.eq_false_iff.mp hworks)).trans (finish_eq _ _)
end


section
/-!
SUPPORT. The Reckoner island, power, resets, clocks and start-up (chapters 11 and 13): which branch each row takes.
-/

open Sys2Proof Sys2Proof.Machine

/-- Settles O42: the island's state decides each row. -/
theorem islandRuns : Obligations.IslandRuns := by
  refine ⟨?take, ?close, ?boot, ?supply, ?debug, ?fuse, ?clock⟩
  case take =>
    intro s e rest htap hready
    show execTapEntryTake s = _
    rw [execTapEntryTake, htap]
    exact (if_pos hready).trans (finish_eq _ _)
  case close =>
    intro s hready hwhole hover
    have hdue : intervalDue s.dev.met = true := by
      simp only [intervalDue, hready, hwhole, Bool.not_false, Bool.and_self, Bool.true_and, decide_eq_true_eq]
      exact hover
    show execIntervalEnd s = _
    rw [execIntervalEnd, if_pos hdue, finish_eq, endDue, if_pos hdue]
  case boot =>
    intro s ok hoff hvariant hcrystal m m' state n
    have hboots : (s.dev.met.powered || s.dev.fuses.variant != 1 || !s.dev.fuses.metCrystal) = false := by
      rw [hoff, hvariant, hcrystal, bne_self_eq_false]
      rfl
    show execIslandBoot ok s = _
    exact (if_neg (Bool.eq_false_iff.mp hboots)).trans (finish_eq _ _)
  case supply =>
    intro s hpowered d e
    have he : (if !(endOpenCommits s.dev).met.ready then endOpenCommits s.dev
        else withMet (metLog (drainTap (endOpenCommits s.dev)) 0x0B 0) fun m =>
          closeInterval (metLog (drainTap (endOpenCommits s.dev)) 0x0B 0).fuses.serial m 2) = e := by
      show _ = if d.met.ready then _ else d
      cases d.met.ready with
      | false => rfl
      | true => rfl
    show execIslandSupplyLoss s = _
    simp only [execIslandSupplyLoss, hpowered, Bool.not_true, Bool.false_eq_true, if_false]
    exact (finish_eq _ _).trans (congrArg (fun x => Host.Outcome.next (settled s (withMet x _))) he)
  case debug =>
    intro s hsealed
    show execIslandDebugAccess s = _
    rw [execIslandDebugAccess, if_pos hsealed, finish_eq]
  case fuse =>
    intro s hopen hport hvariant
    show execSealFuseBlow s = _
    simp only [execSealFuseBlow, hopen, hport, hvariant]
    exact finish_eq _ _
  case clock =>
    intro s x hready hfar
    show execClockAnomaly x s = _
    rw [execClockAnomaly, if_pos (by simpa using ⟨hready, hfar⟩), finish_eq]

/-- Settles O43: the voltage against its levels, and the state of the hold. -/
theorem brownHold : Obligations.BrownHold := by
  refine ⟨?entry, ?requalify, ?complete, ?resume⟩
  case entry =>
    intro s mv hlow hrun hfree d e
    show execBrownHoldEntry mv s = _
    simp only [execBrownHoldEntry, if_neg (Nat.not_le.mpr hlow), hrun, hfree]
    exact finish_eq _ _
  case requalify =>
    intro s mv hlow hopen
    have hup : (decide (requalMv s.dev < mv.toNat) || (s.dev.pwr.requal && requalMv s.dev = mv.toNat))
        = decide (requalMv s.dev < mv.toNat ∨ (s.dev.pwr.requal = true ∧ mv.toNat = requalMv s.dev)) := by
      rw [Bool.eq_iff_iff]
      simp only [Bool.or_eq_true, Bool.and_eq_true, decide_eq_true_eq, eq_comm (a := mv.toNat)]
    show execRequalificationStart mv s = _
    simp only [execRequalificationStart, hlow, hopen, hup]
    exact finish_eq _ _
  case complete =>
    intro s hrequal
    show execRequalificationComplete s = _
    simp only [execRequalificationComplete, hrequal, Bool.not_true, Bool.false_eq_true, if_false]
    cases hhold : s.dev.pwr.hold with
    | false => exact finish_eq _ _
    | true => exact finish_ite _ _ _ _
  case resume =>
    intro s failed hhold hdone hrun hstart
    have hleaves : (s.dev.pwr.hold && s.dev.pwr.requalDone && !s.dev.pwr.inReset && (!s.dev.tik.eraValid || s.dev.tik.offset = 0)) = true := by
      rw [hhold, hdone, hrun]
      simpa using hstart
    show execBrownHoldResume failed s = _
    exact (if_pos hleaves).trans (finish_eq _ _)

/-- Settles O44: each row resets the die with its own kind. -/
theorem resetsOfTheDie : Obligations.ResetsOfTheDie := by
  intro s
  refine ⟨finish_eq _ _, ?power, ?fundamental, ?device, ?sequence, ?trip⟩
  case power =>
    rintro aon d rfl
    exact finish_eq _ _
  case fundamental =>
    intro hnot
    show execFundamentalReset s = _
    rw [execFundamentalReset, if_neg (by simpa using hnot), finish_eq]
  case device =>
    intro hlink hrun
    show execDeviceReset s = _
    rw [execDeviceReset, if_pos hlink, finish_eq, deviceReset, hrun]
    rfl
  case sequence =>
    intro hrun
    show execSequenceError s = _
    simp only [execSequenceError, hrun]
    exact finish_eq _ _
  case trip =>
    intro hopen
    show execThermalTrip s = _
    simp only [execThermalTrip, hopen]
    exact finish_eq _ _

/-- Settles O46: a die that is not held takes each row. -/
theorem sensorsAndClocks : Obligations.SensorsAndClocks := by
  refine ⟨?compare, ?timeout, ?lost, ?regained, ?fault⟩
  case compare =>
    intro s readings hrun hsome alive
    have hjudged : (s.dev.pwr.inReset || readings.isEmpty) = false := by
      rw [hrun, List.isEmpty_eq_false_iff.mpr hsome]
      rfl
    show execThermalCompare readings s = _
    exact (if_neg (Bool.eq_false_iff.mp hjudged)).trans (finish_eq _ _)
  case timeout =>
    intro s n hrun dead
    show execSensorTimeout n s = _
    simp only [execSensorTimeout, hrun]
    exact finish_eq _ _
  case lost =>
    intro s i hrun hlocked bit d
    show execClockLockLoss i s = _
    simp only [execClockLockLoss, hrun, hlocked]
    exact finish_eq _ _
  case regained =>
    intro s i hrun hlost d
    have hrow : execClockLockRegained i s = match sdsQuad i.val with
        | some q => finish s (withQuad d q fun x => { x with locked := !x.settling })
        | none => finish s (if i.val = 24 then judgeLevel (withPwr d fun p => { p with senseForced := false }) else d) := by
      simp only [execClockLockRegained, hrun, hlost]
      rfl
    show (∀ _, _ → execClockLockRegained i s = _) ∧ (_ → _ → execClockLockRegained i s = _) ∧ (_ → execClockLockRegained i s = _)
    rw [hrow]
    refine ⟨fun q hq => ?_, fun hnone hother => ?_, fun hsense => ?_⟩
    · rw [hq]
      exact finish_eq _ _
    · rw [hnone, if_neg hother]
      exact finish_eq _ _
    · have hnone : sdsQuad i.val = none := by rw [hsense]; rfl
      rw [hnone, if_pos hsense]
      exact finish_eq _ _
  case fault =>
    intro s hrun
    show execTickLogicFault s = _
    rw [execTickLogicFault, hrun]
    exact finish_eq _ _

/-- Settles O47: a die that may start starts, and the first fault in order ends it. -/
theorem startupAndHostLink : Obligations.StartupAndHostLink := by
  refine ⟨?startup, ?up, ?down⟩
  case startup =>
    intro s b hheld hcycled hpower hclock d
    refine ⟨?_, ?_, ?_, ?_⟩
    · show execStartup b s = _
      simp only [execStartup, hheld, hcycled, hpower, hclock]
      exact finish_eq _ _
    · intro hfuses
      exact if_pos (by rw [hfuses]; rfl)
    · intro hfuses hrom
      rw [startUp, hfuses, hrom]
      rfl
    · intro hfuses hrom hplls
      rw [startUp, hfuses, hrom, hplls]
      rfl
  case up =>
    intro s width speed flit cxl hdm hdown hrun
    show execHostLinkUp width speed flit cxl hdm s = _
    rw [execHostLinkUp, hdown, hrun]
    exact finish_eq _ _
  case down =>
    intro s hup
    show execHostLinkDown s = _
    rw [execHostLinkDown, if_pos hup, finish_eq]
end


section
/-!
SUPPORT. Errors and repair (chapter 14), and the plan entries (section 2.2): which branch each row takes.
-/
namespace Sys2Proof.Machine

/-! ### The entry that ends -/

theorem dropRun_eq_erase (x : RunEntry) (l : List RunEntry) : dropRun x l = l.erase x := by
  induction l with
  | nil => rfl
  | cons y t ih => simp only [dropRun, List.erase_cons, ih, beq_iff_eq]

/-- The trace, the busy counter and the suspicion of a unit leave the plan. -/
theorem endEntry_plan (d : Dev) (x : RunEntry) : (endEntry d x).plan = { d.plan with running := d.plan.running.erase x } := by
  have hbump : ∀ (e : Dev) (set scope idx n : Nat), (bump e set scope idx n).plan = e.plan := fun e set scope idx n => by
    obtain ⟨ct, h⟩ := bump_frame e set scope idx n
    rw [h]
  have htrace : ∀ (e : Dev) (kind : Nat) (w : Option Work), (traceEntry e kind x w).plan = e.plan := fun e kind w => by
    obtain ⟨ct, tr, h⟩ := trace_frame e kind (resourceUnit e x.entry.resource) (w.map fun w => ownerLabel e w.owner)
      (ownerHdr e ((w.map (·.owner)).getD 0)).layer (ownerHdr e ((w.map (·.owner)).getD 0)).operator
      (entryDetail x (kind = 4 && (w.any (·.late)))) []
    rw [traceEntry, h]
  have hbusy : ∀ e : Dev, (noteBusy e x).plan = e.plan := fun e => by
    unfold noteBusy
    split
    · exact hbump _ _ _ _ _
    · rfl
  have hclear : ∀ (e : Dev) (r : BitVec 16), (clearSuspect e r).plan = e.plan := fun e r => by
    unfold clearSuspect
    split
    · rfl
    · split <;> rfl
  rw [endEntry, hbump, hclear, hbusy, htrace, ← dropRun_eq_erase]
  rfl

/-- An entry that ran alone on its resource leaves it free. -/
theorem runningOn_endEntry {d : Dev} {x : RunEntry} (honly : ∀ y ∈ d.plan.running, y.entry.resource = x.entry.resource → y = x)
    (hnodup : d.plan.running.Nodup) : runningOn (endEntry d x) x.entry.resource = none := by
  refine List.find?_eq_none.mpr fun y hy => ?_
  rw [endEntry_plan] at hy
  obtain ⟨hne, hmem⟩ := (hnodup.mem_erase_iff).mp hy
  simpa using fun hres => hne (honly y hmem hres)

/-! ### The memory that an error lies in -/

theorem isScratch_below {a : Nat} (h : isScratch a = true) : a < hbmTop := by
  have hlow : a < scratchTop := of_decide_eq_true h
  simp only [scratchTop, hbmTop] at *
  omega

theorem isHbm_below {a : Nat} (h : isHbm a = true) : a < hbmTop := of_decide_eq_true (Bool.and_eq_true_iff.mp h).2

end Sys2Proof.Machine

open Sys2Proof Sys2Proof.Machine

/-- Settles O48: the tile's state and its copy decide each row. -/
theorem tilesFailOver : Obligations.TilesFailOver := by
  refine ⟨?failure, ?parity, ?copied, ?switched⟩
  case failure =>
    intro s t hrun bits
    show execTileFailure t s = _
    rw [execTileFailure, hrun]
    exact finish_eq _ _
  case parity =>
    intro s t k hrun d serves r
    have hrow : execEngineParityError t k s =
        match (if (physAt s.dev t.val).state = 0 || (physAt s.dev t.val).state = 2 then runningOn d r else none) with
        | some e => finish s (parityEntry d t.val k.val e)
        | none => finish s d := by
      simp only [execEngineParityError, hrun]
      rfl
    refine hrow.trans ?_
    have hiff : ((physAt s.dev t.val).state = 0 || (physAt s.dev t.val).state = 2 : Bool) = true ↔ serves := by
      simp only [Bool.or_eq_true, decide_eq_true_eq, serves]
    by_cases hserves : serves
    · rw [if_pos (hiff.mpr hserves), if_pos hserves]
      cases runningOn d r with
      | none => exact finish_eq _ _
      | some e => exact finish_eq _ _
    · rw [if_neg (mt hiff.mp hserves), if_neg hserves]
      exact finish_eq _ _
  case copied =>
    intro s l hfree hcopy
    have hcopied : (s.dev.pwr.hold || (copyOf s.dev (BitVec.ofNat 6 l.val)).isNone) = false := by
      rw [hfree, Option.isNone_eq_false_iff.mpr (Option.isSome_iff_ne_none.mpr hcopy)]
      rfl
    show execTileCopyDone l s = _
    exact (if_neg (Bool.eq_false_iff.mp hcopied)).trans (finish_eq _ _)
  case switched =>
    intro s l c hcopy hcomplete hholiday hfree
    show execTileSwitch l s = _
    simp only [execTileSwitch, hcopy, hcomplete, hholiday, hfree]
    exact finish_eq _ _

/-- Settles O49: the unit's holiday, the spare and the memory that the address lies in decide each row. -/
theorem memoryRepaired : Obligations.MemoryRepaired := by
  refine ⟨?bank, ?row, ?page, ?error, ?store, ?background, ?breakpoint⟩
  case bank =>
    intro s t b x hrun hfree hstate hholiday hspare
    have hmay : (s.dev.pwr.inReset || s.dev.pwr.hold || (physAt s.dev t.val).state != 0 || !onHoliday s.dev t.val) = false := by
      rw [hrun, hfree, hstate, hholiday]
      rfl
    show execBankRepair t b s = _
    simp only [execBankRepair, hmay, hspare]
    exact finish_ite _ _ _ _
  case row =>
    intro s k detail hrun hfree hholiday
    show execHbmRowRepair k detail s = _
    simp only [execHbmRowRepair, hrun, hfree, hholiday, Bool.not_true, Bool.or_self, Bool.false_eq_true, if_false, finish_ite]
    cases repairMayRun s.dev 4 k.val (· = detail) with
    | false => rfl
    | true => rfl
  case page =>
    intro s k page a e hrun hfree hholiday hhbm hstack hnew hmay hroom hreplacement
    have hhere : (s.dev.pwr.inReset || s.dev.pwr.hold || !onHoliday s.dev (84 + k.val)
        || !(isHbm (page.toNat * 65536) && stackOf (page.toNat * 65536) = k.val)) = false := by
      rw [hrun, hfree, hholiday, hhbm, decide_eq_true hstack]
      rfl
    show execPageRetire k page s = _
    simp only [execPageRetire, hhere, hnew, hmay, if_neg (Nat.not_le.mpr hroom), hreplacement, Bool.not_true, Bool.false_eq_true, if_false]
    exact finish_eq _ _
  case error =>
    intro s a hrun
    have hrow : execUncorrectableEcc a s =
        if hbmTop ≤ a.toNat && a.toNat < hostBase && s.dev.met.powered then finish s (recordError s.dev ((a.toNat - hbmTop) % storeBytesTotal))
        else if isScratch a.toNat then finish s (scratchError s.dev a.toNat)
        else if isHbm a.toNat then finish s (hbmError s.dev a.toNat)
        else .next s := by
      simp only [execUncorrectableEcc, hrun, Bool.false_eq_true, if_false]
    have habove : a.toNat < hbmTop → (hbmTop ≤ a.toNat && a.toNat < hostBase && s.dev.met.powered) = false := fun hbelow => by
      rw [decide_eq_false (Nat.not_le.mpr hbelow), Bool.false_and, Bool.false_and]
    refine hrow.trans ?_
    cases hscratch : isScratch a.toNat with
    | true => rw [habove (isScratch_below hscratch), if_neg Bool.false_ne_true, if_pos rfl, if_pos rfl, finish_eq]
    | false =>
      rw [if_neg Bool.false_ne_true, if_neg Bool.false_ne_true]
      cases hhbm : isHbm a.toNat with
      | true => rw [habove (isHbm_below hhbm), if_neg Bool.false_ne_true, if_pos rfl, if_pos rfl, finish_eq]
      | false =>
        rw [if_neg Bool.false_ne_true, if_neg Bool.false_ne_true]
        simp only [Bool.and_eq_true, decide_eq_true_eq, and_assoc, finish_eq]
  case store =>
    intro s a hpowered hlow hhigh
    have hhere : (hbmTop ≤ a.toNat && a.toNat < hostBase && s.dev.met.powered) = true := by
      simp only [hlow, hhigh, hpowered, decide_true, Bool.and_self]
    show execUncorrectableEcc a s = _
    exact (if_pos hhere).trans (finish_eq _ _)
  case background =>
    intro s u overdue passed hrun hholiday late d e
    show execBackgroundTask u overdue passed s = _
    simp only [execBackgroundTask, hrun, hholiday]
    exact finish_ite _ _ _ _
  case breakpoint =>
    intro s core slot pc hrun
    show execBreakpointHit core slot pc s = _
    rw [execBreakpointHit, hrun]
    exact finish_eq _ _

/-- Settles O28: the resource's entry and its work decide each row. -/
theorem planEntriesRun : Obligations.PlanEntriesRun := by
  refine ⟨?start, ?engine, ?codec, ?transmit, ?overrun, ?freed⟩
  case start =>
    intro s r appended hruns hvalid hfree d
    have hstarts : (planStopped s.dev || !s.dev.plan.valid || (runningOn s.dev r).isSome) = false := by
      rw [hruns, hvalid, hfree]
      rfl
    have hrow : execPlanEntryStart r appended s = match carriedOn d r with
        | some x => finish s (startCarried d x)
        | none => match d.plan.entries.find? fun e => e.resource = r with
          | some e => finish s (startPlanned d e)
          | none => finish s d := by
      simp only [execPlanEntryStart, hstarts]
      rfl
    show (∀ _, _ → execPlanEntryStart r appended s = _) ∧ (∀ _, _ → _ → execPlanEntryStart r appended s = _)
      ∧ (_ → _ → execPlanEntryStart r appended s = _)
    rw [hrow]
    refine ⟨fun x hx => ?_, fun e hnone he => ?_, fun hnone hempty => ?_⟩
    · rw [hx]
      exact finish_eq _ _
    · rw [hnone, he]
      exact finish_eq _ _
    · rw [hnone, hempty]
      exact finish_eq _ _
  case engine =>
    intro s r fault x w hx hengine hkind hruns d hw hstage
    have hends : (!isEngine r || engineKind r = 3 || entryPaused s.dev x.entry) = false := by
      rw [hengine, decide_eq_false hkind, hruns]
      rfl
    have hw' : entryWork (endEntry s.dev x) x.entry = some w := hw
    show execCompressEntryDone r fault s = _
    simp only [execCompressEntryDone, hx, hends, hw', hstage]
    exact finish_ite _ _ _ _
  case codec =>
    intro s r x w hx hengine hkind hruns d hw
    have hends : (!isEngine r || engineKind r != 3 || entryPaused s.dev x.entry) = false := by
      rw [hengine, hkind, hruns]
      rfl
    have hw' : entryWork (endEntry s.dev x) x.entry = some w := hw
    show execCodecEntryDone r s = _
    simp only [execCodecEntryDone, hx, hends, hw']
    exact finish_ite _ _ _ _
  case transmit =>
    intro s p x c w hx hc hlaunch hruns hw lost d f
    show execTransmitEntryDone p s = _
    simp only [execTransmitEntryDone, hx, hc, hlaunch, hruns, hw]
    exact finish_ite _ _ _ _
  case overrun =>
    intro s r x t hx hengine ht
    have htile : tileOfNat t.val = some t := dif_pos t.isLt
    show execEntryOverrun r s = _
    simp only [execEntryOverrun, hx, hengine, if_true, ht, htile]
    exact finish_eq _ _
  case freed =>
    intro d x hx honly hnodup
    exact runningOn_endEntry honly hnodup
end


section
/-!
SUPPORT. The memories keep their canonical form: the rules, and what memory, the registers and the links do to them. Where a
function of the model stores nothing, `f_mems` says that the memories stay as they are; where it stores, `f_memsWf` says that
it keeps their form.
-/
namespace Sys2Proof.Machine

/-! ### General rules -/

/-- The canonical form of the three memories of a device. -/
def MemsWf (m : Memory × Memory × Memory) : Prop := m.1.wf = true ∧ m.2.1.wf = true ∧ m.2.2.wf = true

theorem memoriesWf_iff (d : Dev) : MemoriesWf d ↔ MemsWf (memories d) := Iff.rfl

@[simp] theorem memories_fold (d : Dev) : (d.mem, d.bar2, d.kvs.staging) = memories d := (rfl)

@[simp] theorem memories_mk
    (fuses glb hif bus pwr flash fpl tik join mbx nextMbx latches mem bar2 bar2Poison poison holds allocs descs
    owners trees groups buckets streams generations incoming resStores resZero bucketStores exponents
    lastExponents seed aesFail running nextId work plan holdWork ports quads tiles phys hbm rpr dbg trc annalsMiB
    counters kvs met freeCount) :
    memories ⟨fuses, glb, hif, bus, pwr, flash, fpl, tik, join, mbx, nextMbx, latches, mem, bar2, bar2Poison, poison, holds,
      allocs, descs, owners, trees, groups, buckets, streams, generations, incoming, resStores, resZero,
      bucketStores, exponents, lastExponents, seed, aesFail, running, nextId, work, plan, holdWork, ports, quads,
      tiles, phys, hbm, rpr, dbg, trc, annalsMiB, counters, kvs, met, freeCount⟩
      = (mem, bar2, kvs.staging) :=
  (rfl)

@[simp] theorem memsWf_ite {c : Prop} [Decidable c] (m n : Memory × Memory × Memory) :
    MemsWf (if c then m else n) ↔ if c then MemsWf m else MemsWf n := by
  split <;> rfl

@[simp] theorem ite_mems {c : Prop} [Decidable c] (d e : Dev) :
    memories (if c then d else e) = if c then memories d else memories e :=
  apply_ite memories c d e

@[simp] theorem foldl_mems {α : Type} {f : Dev → α → Dev} (h : ∀ d x, memories (f d x) = memories d) (l : List α)
    (d : Dev) : memories (l.foldl f d) = memories d := by
  induction l generalizing d with
  | nil => rfl
  | cons x t ih => rw [List.foldl_cons, ih, h]

@[simp] theorem foldl_fst_mems {α β : Type} {f : Dev × β → α → Dev × β}
    (h : ∀ a x, memories (f a x).1 = memories a.1) (l : List α) (a : Dev × β) : memories (l.foldl f a).1 = memories a.1 := by
  induction l generalizing a with
  | nil => rfl
  | cons x t ih => rw [List.foldl_cons, ih, h]

theorem foldl_memsWf {α : Type} {f : Dev → α → Dev} (h : ∀ d x, MemsWf (memories d) → MemsWf (memories (f d x)))
    (l : List α) {d : Dev} (hd : MemsWf (memories d)) : MemsWf (memories (l.foldl f d)) := by
  induction l generalizing d with
  | nil => exact hd
  | cons x t ih => exact ih (h d x hd)

theorem foldl_fst_memsWf {α β : Type} {f : Dev × β → α → Dev × β}
    (h : ∀ a x, MemsWf (memories a.1) → MemsWf (memories (f a x).1)) (l : List α) {a : Dev × β}
    (ha : MemsWf (memories a.1)) :
    MemsWf (memories (l.foldl f a).1) := by
  induction l generalizing a with
  | nil => exact ha
  | cons x t ih => exact ih (h a x ha)

/-- The device that a command's start leaves has its memories in canonical form. -/
def Begin.MemsWf : Begin → Prop
  | .fail _ => True
  | .done e _ => Machine.MemsWf (memories e)
  | .ended e _ _ => Machine.MemsWf (memories e)
  | .go e _ => Machine.MemsWf (memories e)

section
variable (e : Dev)
@[simp] theorem Begin.memsWf_fail (st : Status) : (Begin.fail st).MemsWf := trivial
@[simp] theorem Begin.memsWf_done (res : BitVec 96) : (Begin.done e res).MemsWf ↔ Machine.MemsWf (memories e) := Iff.rfl
@[simp] theorem Begin.memsWf_ended (st : Status) (res : BitVec 96) :
    (Begin.ended e st res).MemsWf ↔ Machine.MemsWf (memories e) := Iff.rfl
@[simp] theorem Begin.memsWf_go (r : Running) : (Begin.go e r).MemsWf ↔ Machine.MemsWf (memories e) := Iff.rfl
@[simp] theorem Begin.memsWf_ite {c : Prop} [Decidable c] (a b : Begin) :
    (if c then a else b).MemsWf ↔ if c then a.MemsWf else b.MemsWf := by
  split <;> rfl
end

section
variable (d : Dev)
@[simp] theorem withBus_mems (f : Bus → Bus) : memories (withBus d f) = memories d := (rfl)
@[simp] theorem withTik_mems (f : Tik → Tik) : memories (withTik d f) = memories d := (rfl)
@[simp] theorem withJoin_mems (f : Join → Join) : memories (withJoin d f) = memories d := (rfl)
@[simp] theorem withPwr_mems (f : Pwr → Pwr) : memories (withPwr d f) = memories d := (rfl)
@[simp] theorem withGlb_mems (f : Glb → Glb) : memories (withGlb d f) = memories d := (rfl)
@[simp] theorem withHif_mems (f : Hif → Hif) : memories (withHif d f) = memories d := (rfl)
@[simp] theorem withFpl_mems (f : Fpl → Fpl) : memories (withFpl d f) = memories d := (rfl)
@[simp] theorem withRpr_mems (f : Rpr → Rpr) : memories (withRpr d f) = memories d := (rfl)
@[simp] theorem withDbg_mems (f : Dbg → Dbg) : memories (withDbg d f) = memories d := (rfl)
@[simp] theorem withTrc_mems (f : Trc → Trc) : memories (withTrc d f) = memories d := (rfl)
@[simp] theorem withMet_mems (f : Met → Met) : memories (withMet d f) = memories d := (rfl)
@[simp] theorem withPlan_mems (f : Plan → Plan) : memories (withPlan d f) = memories d := (rfl)
@[simp] theorem withFlash_mems (f : Flash → Flash) : memories (withFlash d f) = memories d := (rfl)
@[simp] theorem withMbx_mems (n : Mbx) (f : Mailbox → Mailbox) : memories (withMbx d n f) = memories d := (rfl)
@[simp] theorem withPort_mems (p : Port) (f : PortSt → PortSt) : memories (withPort d p f) = memories d := (rfl)
@[simp] theorem withQuad_mems (q : Quad) (f : QuadSt → QuadSt) : memories (withQuad d q f) = memories d := (rfl)
@[simp] theorem withTile_mems (t : Tile) (f : TileRegs → TileRegs) : memories (withTile d t f) = memories d := (rfl)
@[simp] theorem withPhys_mems (t : Tile) (f : Phys → Phys) : memories (withPhys d t f) = memories d := (rfl)
@[simp] theorem withStack_mems (k : Stack) (f : HbmSt → HbmSt) : memories (withStack d k f) = memories d := (rfl)
@[simp] theorem withDesc_mems (h : BitVec 16) (f : Desc → Desc) : memories (withDesc d h f) = memories d := (rfl)
@[simp] theorem withGroup_mems (h : Nat) (f : Group → Group) : memories (withGroup d h f) = memories d := (rfl)
@[simp] theorem withBucket_mems (b : Nat) (f : Bucket → Bucket) : memories (withBucket d b f) = memories d := (rfl)
@[simp] theorem withStream_mems (h : Nat) (f : Stream → Stream) : memories (withStream d h f) = memories d := (rfl)
@[simp] theorem withKvs_mems (f : Kvs → Kvs) :
    memories (withKvs d f) = (d.mem, d.bar2, (f d.kvs).staging) := (rfl)
end

variable (d : Dev)

/-! ### Memory, draws, trace records and completions -/

@[simp] theorem poisonLine_mems (a) : memories (poisonLine d a) = memories d := by simp [poisonLine]

@[simp] theorem hostLine_mems (a bad) : memories (hostLine d a bad) = memories d := (rfl)

@[simp] theorem unpoison_mems (a n) : memories (unpoison d a n) = memories d := (rfl)

@[simp] theorem storeBytes_memsWf (a : Nat) (bs : List Byte) (hd : MemsWf (memories d)) :
    MemsWf (memories (storeBytes d a bs)) := by
  induction bs generalizing d a with
  | nil => exact hd
  | cons b bs ih => exact ih _ _ ⟨memPut_wf hd.1 _ _, hd.2⟩

@[simp] theorem draw_mems : memories (draw d).2 = memories d := (rfl)

@[simp] theorem drawN_mems (n) : memories (drawN d n).2 = memories d := (rfl)

@[simp] theorem choose_mems {α : Type} (d : Dev) (l : List α) : memories (choose d l).2 = memories d := (rfl)

@[simp] theorem bump_mems (set scope idx n) : memories (bump d set scope idx n) = memories d := by simp [bump]

@[simp] theorem store_memsWf (a bs) (hd : MemsWf (memories d)) : MemsWf (memories (store d a bs)) := by simp [store, hd]

@[simp] theorem trace_mems (kind unit label layer operator detail body) :
    memories (trace d kind unit label layer operator detail body) = memories d := by
  simp [trace]

@[simp] theorem traceDevice_mems (kind unit detail) : memories (traceDevice d kind unit detail) = memories d := by
  simp [traceDevice]

@[simp] theorem sendMsi_mems (v) : memories (sendMsi d v) = memories d := by simp [sendMsi]

@[simp] theorem ringStore_memsWf (dev a bs) (hd : MemsWf (memories d)) : MemsWf (memories (ringStore d dev a bs)) := by
  unfold ringStore
  split
  · exact ⟨hd.1, memPuts_wf bs hd.2.1 a, hd.2.2⟩
  · exact ⟨memPuts_wf bs hd.1 _, hd.2⟩

@[simp] theorem writeCompletion_memsWf (n c) (hd : MemsWf (memories d)) : MemsWf (memories (writeCompletion d n c)) := by
  simp [writeCompletion, hd]

@[simp] theorem settle_mems (n) : memories (settle d n) = memories d := by simp [settle]

@[simp] theorem post_memsWf (n c) (hd : MemsWf (memories d)) : MemsWf (memories (post d n c)) := by simp [post, hd]

@[simp] theorem drainReady_memsWf (n : Mbx) (fuel : Nat) (hd : MemsWf (memories d)) :
    MemsWf (memories (drainReady d n fuel)) := by
  induction fuel generalizing d with
  | zero => simp [drainReady, hd]
  | succ fuel ih =>
    unfold drainReady
    repeat' split
    · simp [hd]
    · exact ih _ (by simp [hd])
    · simp [hd]

@[simp] theorem postEvent_memsWf (n c) (hd : MemsWf (memories d)) : MemsWf (memories (postEvent d n c)) := by
  simp [postEvent, hd]

@[simp] theorem eventTo_memsWf (n status l) (hd : MemsWf (memories d)) : MemsWf (memories (eventTo d n status l)) := by
  simp [eventTo, hd]

@[simp] theorem endCommand_memsWf (n label h c status res) (hd : MemsWf (memories d)) :
    MemsWf (memories (endCommand d n label h c status res)) := by
  simp [endCommand, hd]

@[simp] theorem finishRunning_memsWf (r status res) (hd : MemsWf (memories d)) :
    MemsWf (memories (finishRunning d r status res)) := by simp [finishRunning, hd]

@[simp] theorem updRunning_mems (id f) : memories (updRunning d id f) = memories d := (rfl)

@[simp] theorem raiseInts_mems (old d : Dev) : memories (raiseInts old d) = memories d :=
  foldl_mems (fun d _ => sendMsi_mems d _) _ _

/-! ### Reads and plain writes of the registers -/

@[simp] theorem clearRc_mems (r) : memories (clearRc d r) = memories d := by
  unfold clearRc
  split <;> simp

@[simp] theorem latchHalf_mems (r) : memories (latchHalf d r) = memories d := by
  unfold latchHalf
  split <;> simp

@[simp] theorem putRead_mems (bs poison) : memories (putRead d bs poison) = memories d := (rfl)

@[simp] theorem writeLys_mems (p r w) : memories (writeLys d p r w) = memories d := by
  unfold writeLys
  split <;> simp

@[simp] theorem writeTile_mems (p r w) : memories (writeTile d p r w) = memories d := by
  unfold writeTile
  split <;> simp

@[simp] theorem writeTikCtrl_mems (w) : memories (writeTikCtrl d w) = memories d := (rfl)

@[simp] theorem writePlanBaseHi_mems (w) : memories (writePlanBaseHi d w) = memories d := by
  unfold writePlanBaseHi
  extract_lets v
  split
  · rw [withTik_mems]
  · rfl

@[simp] theorem writeMbxBase_mems (n r w) : memories (writeMbxBase d n r w) = memories d := by
  unfold writeMbxBase
  repeat' split
  all_goals simp

@[simp] theorem writeMbxStatus_mems (n w) : memories (writeMbxStatus d n w) = memories d := (rfl)

@[simp] theorem ackInts_mems (mask) : memories (ackInts d mask) = memories d := by simp [ackInts]

@[simp] theorem writeMsix_mems (i w) : memories (writeMsix d i w) = memories d := by simp [writeMsix]

@[simp] theorem writePlain_mems (r w) : memories (writePlain d r w) = memories d := by
  cases r
  case tikPlanBaseHi => exact writePlanBaseHi_mems d w
  case mbx n r =>
    cases r
    case status => exact writeMbxStatus_mems d n w
    all_goals exact writeMbxBase_mems d n _ w
  case msixTable i => exact writeMsix_mems d i w
  case lys p r => exact writeLys_mems d p r w
  case tile p r => exact writeTile_mems d p r w
  all_goals rfl

/-! ### Tensors in memory -/

@[simp] theorem pokes_memsWf (as : List Nat) (bs : List Byte) (hd : MemsWf (memories d)) :
    MemsWf (memories (pokes d as bs)) := by
  induction as generalizing d bs with
  | nil => exact hd
  | cons a as ih =>
    cases bs with
    | nil => exact hd
    | cons b bs => exact ih _ _ (store_memsWf d a [b] hd)

@[simp] theorem writeElem_memsWf (k j raw) (hd : MemsWf (memories d)) : MemsWf (memories (writeElem d k j raw)) := by
  unfold writeElem
  dsimp only
  repeat' split
  all_goals simp [hd]

@[simp] theorem writeElems_memsWf (k : Desc) (j : Nat) (vs : List Nat) (hd : MemsWf (memories d)) :
    MemsWf (memories (writeElems d k j vs)) := by
  induction vs generalizing d j with
  | nil => exact hd
  | cons v t ih => exact ih _ _ (writeElem_memsWf d k j v hd)

@[simp] theorem clearPad_memsWf (k g) (hd : MemsWf (memories d)) : MemsWf (memories (clearPad k d g)) := by
  simp [clearPad, hd]

@[simp] theorem coverLines_mems (as) : memories (coverLines d as) = memories d := (rfl)

@[simp] theorem padElems_memsWf (k js as) (hd : MemsWf (memories d)) : MemsWf (memories (padElems d k js as)) := by
  have cleared := foldl_memsWf (fun d g hd => clearPad_memsWf d k g hd) (padGroups k js) hd
  simp [padElems, cleared]

@[simp] theorem padRun_memsWf (k first n) (hd : MemsWf (memories d)) : MemsWf (memories (padRun d k first n)) := by
  simp [padRun, hd]

@[simp] theorem writeImageByte_memsWf (k i x) (hd : MemsWf (memories d)) : MemsWf (memories (writeImageByte d k i x)) := by
  unfold writeImageByte
  dsimp only
  repeat' split
  all_goals simp [hd]

@[simp] theorem writeImage_memsWf (k : Desc) (i : Nat) (bs : List Byte) (hd : MemsWf (memories d)) :
    MemsWf (memories (writeImage d k i bs)) := by
  induction bs generalizing d i with
  | nil => exact hd
  | cons b t ih => exact ih _ _ (writeImageByte_memsWf d k i b hd)

@[simp] theorem putImage_memsWf (k i bs) (hd : MemsWf (memories d)) : MemsWf (memories (putImage d k i bs)) := by
  simp [putImage, hd]

@[simp] theorem noteOob_mems (h filled dropped) : memories (noteOob d h filled dropped) = memories d := by
  unfold noteOob
  dsimp only
  repeat' split
  all_goals simp

/-! ### Frames that leave and arrive -/

@[simp] theorem bumpPort_mems (p i n) : memories (bumpPort d p i n) = memories d := (rfl)

@[simp] theorem portEvent_mems (p b) : memories (portEvent d p b) = memories d := (rfl)

@[simp] theorem depart_mems (p f) : memories (depart d p f) = memories d := by
  unfold depart
  dsimp only
  repeat' split
  all_goals simp

@[simp] theorem flushChannel_mems (p : Port) (v : BitVec 2) (blocked : Bool) (d : Dev) (fs : List Frame) :
    memories (flushChannel p v blocked d fs).1 = memories d := by
  induction fs generalizing blocked d with
  | nil => rfl
  | cons f t ih => unfold flushChannel; split <;> simp [ih]

@[simp] theorem flushPort_mems (p) : memories (flushPort d p) = memories d := by
  unfold flushPort
  exact foldl_mems (by simp) _ _

@[simp] theorem sendFrame_mems (p f) : memories (sendFrame d p f) = memories d := by simp [sendFrame]

@[simp] theorem sendCtl_mems (p vc type body) : memories (sendCtl d p vc type body) = memories d := by simp [sendCtl]

@[simp] theorem sendVc1_mems (p type stream handle seq attempt body) :
    memories (sendVc1 d p type stream handle seq attempt body) = memories d := by
  simp [sendVc1]

@[simp] theorem sendRequest_mems (p stream handle code ops) :
    memories (sendRequest d p stream handle code ops) = memories d := by
  simp [sendRequest]

@[simp] theorem seeEra_mems (e) : memories (seeEra d e) = memories d := (rfl)

@[simp] theorem dropFrame_mems (p) : memories (dropFrame d p) = memories d := (rfl)

@[simp] theorem arrive_mems (p vc type h) : memories (arrive d p vc type h) = memories d := by simp [arrive]

@[simp] theorem receive_mems (p vc type h) : memories (receive d p vc type h).2 = memories d := by
  unfold receive
  dsimp only
  repeat' split
  all_goals simp

@[simp] theorem withSent_mems (p c f) : memories (withSent d p c f) = memories d := (rfl)

@[simp] theorem launchSegments_mems (p c) : memories (launchSegments d p c) = memories d := by simp [launchSegments]


end Sys2Proof.Machine
end


section
/-!
SUPPORT. The memories keep their canonical form: tensors, work, memory and streams.
-/
namespace Sys2Proof.Machine

variable (d : Dev)

/-! ### Descriptors and owner tables -/

theorem startCreateDesc_memsWf (c address) (hd : MemsWf (memories d)) : (startCreateDesc d c address).MemsWf := by
  unfold startCreateDesc
  split
  · trivial
  extract_lets bs
  split
  · trivial
  split
  extract_lets k
  split
  · trivial
  clear_value *
  repeat' split
  all_goals simp [hd]

@[simp] theorem dropDesc_mems (h) : memories (dropDesc d h) = memories d := (rfl)

theorem startDestroyDesc_memsWf (c h) (hd : MemsWf (memories d)) : (startDestroyDesc d c h).MemsWf := by
  simp [startDestroyDesc, hd]

theorem startLoadOwners_memsWf (c table source) (hd : MemsWf (memories d)) : (startLoadOwners d c table source).MemsWf := by
  unfold startLoadOwners
  extract_lets h
  split
  · trivial
  clear_value *
  repeat' split
  all_goals simp [hd]

/-! ### The forming of chunks -/

@[simp] theorem writeRes_memsWf (k j vs) (hd : MemsWf (memories d)) : MemsWf (memories (writeRes d k j vs)) := by
  simp [writeRes, hd]

@[simp] theorem keepStore_mems (k) : memories (keepStore d k) = memories d := (rfl)

@[simp] theorem scrubRes_memsWf (k first count) (hd : MemsWf (memories d)) : MemsWf (memories (scrubRes d k first count)) :=
  foldl_memsWf (fun d j hd => writeElem_memsWf d k j 0 hd) _ hd

@[simp] theorem writeResult_memsWf (k j e vs) (hd : MemsWf (memories d)) : MemsWf (memories (writeResult d k j e vs).1) := by
  unfold writeResult
  split
  · refine foldl_fst_memsWf (fun a g ha => ?_) _ hd
    dsimp only
    split <;> simp [ha]
  · simp [hd]

@[simp] theorem noteReads_mems (h first n) (acc : Dev × Nat) : memories (noteReads h first n acc).1 = memories acc.1 := by
  unfold noteReads
  split <;> simp

@[simp] theorem noteWrites_mems (h first n) (acc : Dev × Nat) : memories (noteWrites h first n acc).1 = memories acc.1 := by
  unfold noteWrites
  split <;> simp

@[simp] theorem recordReads_mems (c root s r picked) : memories (recordReads d c root s r picked).1 = memories d := by
  unfold recordReads
  dsimp only
  repeat' split
  all_goals simp

@[simp] theorem putResiduals_memsWf (c first vs) (hd : MemsWf (memories d)) :
    MemsWf (memories (putResiduals d c first vs)) := by
  unfold putResiduals
  split <;> simp [hd]

/-- The device that the forming of a chunk leaves has its memories in canonical form, whether it fails or not. -/
def ChunkMemsWf : Except ChunkFault Formed → Prop
  | .error x => MemsWf (memories x.dev)
  | .ok f => MemsWf (memories f.dev)

@[simp] theorem chunkMemsWf_error (x : ChunkFault) : ChunkMemsWf (.error x) ↔ MemsWf (memories x.dev) := Iff.rfl
@[simp] theorem chunkMemsWf_ok (f : Formed) : ChunkMemsWf (.ok f) ↔ MemsWf (memories f.dev) := Iff.rfl

theorem formPiece_memsWf {start : Dev} {f : Formed} (hs : MemsWf (memories start)) (hf : MemsWf (memories f.dev))
    (c hop factor r) : ChunkMemsWf (formPiece c hop factor start f r) := by
  unfold formPiece
  dsimp only
  repeat' split
  all_goals simp [hs, hf]
  all_goals exact padRun_memsWf _ _ _ _ (writeResult_memsWf _ _ _ _ _ (by simp [hf]))

theorem formPieces_memsWf {start : Dev} {f : Formed} (hs : MemsWf (memories start)) (hf : MemsWf (memories f.dev))
    (c hop factor recs) : ChunkMemsWf (formPieces c hop factor start f recs) := by
  induction recs generalizing f with
  | nil => exact hf
  | cons r t ih =>
    have piece := formPiece_memsWf hs hf c hop factor r
    unfold formPieces
    split
    next e he => rwa [he] at piece
    next g hg =>
      rw [hg] at piece
      exact ih piece

theorem formChunk_memsWf (c hop recs) (hd : MemsWf (memories d)) : ChunkMemsWf (formChunk d c hop recs) := by
  have pieces := formPieces_memsWf (f := Formed.start d c) hd hd c hop (factorOf d c) recs
  unfold formChunk
  split
  next e he => rwa [he] at pieces
  next f hf =>
    rw [hf] at pieces
    split
    · exact pieces
    · rw [chunkMemsWf_ok] at pieces ⊢
      dsimp only
      rwa [noteReads_mems]

/-! ### Work in progress and groups -/

@[simp] theorem putWork_mems (w) : memories (putWork d w) = memories d := (rfl)

@[simp] theorem dropWorks_mems (p) : memories (dropWorks d p) = memories d := (rfl)

@[simp] theorem stampNew_mems (e rung) : memories (stampNew d e rung) = memories e := by
  unfold stampNew
  split <;> rfl

@[simp] theorem setSlot_mems (h seq st) : memories (setSlot d h seq st) = memories d := (rfl)

@[simp] theorem sendGrants_mems (h) : memories (sendGrants d h) = memories d := by
  unfold sendGrants
  split <;> simp

@[simp] theorem grantAll_mems : memories (grantAll d) = memories d := by simp [grantAll]

@[simp] theorem setTikEvent_mems (b) : memories (setTikEvent d b) = memories d := (rfl)

@[simp] theorem resumeGroup_memsWf (h) (hd : MemsWf (memories d)) : MemsWf (memories (resumeGroup d h)) := by
  unfold resumeGroup
  split <;> simp [hd]

@[simp] theorem toStage_memsWf (w st) (hd : MemsWf (memories d)) : MemsWf (memories (toStage d w st)) := by
  simp [toStage, hd]

@[simp] theorem failBucket_mems (b st) : memories (failBucket b st d) = memories d := (rfl)

@[simp] theorem abandonWorks_mems (owner) : memories (abandonWorks d owner) = memories d := (rfl)

@[simp] theorem failOwner_memsWf (owner st) (hd : MemsWf (memories d)) : MemsWf (memories (failOwner d owner st)) := by
  unfold failOwner
  repeat' split
  all_goals simp [hd]

@[simp] theorem dropBucket_mems (b) : memories (dropBucket d b) = memories d := (rfl)

@[simp] theorem endGroupCmd_memsWf (st r) (hd : MemsWf (memories d)) : MemsWf (memories (endGroupCmd st d r)) := by
  unfold endGroupCmd
  dsimp only
  repeat' split
  all_goals simp [hd]

@[simp] theorem forgetOnPorts_mems (stream h) : memories (forgetOnPorts d stream h) = memories d := by simp [forgetOnPorts]

@[simp] theorem endGroup_memsWf (h g st) (hd : MemsWf (memories d)) : MemsWf (memories (endGroup d h g st)) := by
  have ended (e : Dev) (he : MemsWf (memories e)) (l : List Running) : MemsWf (memories (l.foldl (endGroupCmd st) e)) :=
    foldl_memsWf (fun d r hd => endGroupCmd_memsWf d st r hd) l he
  unfold endGroup
  dsimp only
  split <;> simp [ended, hd]

@[simp] theorem sendAborts_mems (h g status origin) : memories (sendAborts d h g status origin) = memories d := by
  simp [sendAborts]

@[simp] theorem faultGroup_memsWf (h status origin) (hd : MemsWf (memories d)) :
    MemsWf (memories (faultGroup d h status origin)) := by
  unfold faultGroup
  split <;> simp [hd]

@[simp] theorem endGroupOfEra_memsWf (h) (hd : MemsWf (memories d)) : MemsWf (memories (endGroupOfEra d h)) := by
  unfold endGroupOfEra
  split <;> simp [hd]

@[simp] theorem onTile_mems (resource f) : memories (onTile d resource f) = memories d := by
  unfold onTile
  split <;> simp

@[simp] theorem noteRange_mems (passes) : memories (noteRange d passes) = memories d := by
  have chosen := choose_mems d (activeTiles d)
  unfold noteRange
  split
  all_goals
    next heq =>
      rw [heq] at chosen
      simpa using chosen

@[simp] theorem noteFormed_mems (resource engine recs f) : memories (noteFormed d resource engine recs f) = memories d := by
  simp [noteFormed]

@[simp] theorem noteEncoded_mems (resource bs) : memories (noteEncoded d resource bs) = memories d := by simp [noteEncoded]

@[simp] theorem noteDecoded_mems (resource n) : memories (noteDecoded d resource n) = memories d := by simp [noteDecoded]

@[simp] theorem noteFormat_mems (resource) : memories (noteFormat d resource) = memories d := by simp [noteFormat]

/-! ### The compression commands -/

@[simp] theorem zeroStore_memsWf (k) (hd : MemsWf (memories d)) : MemsWf (memories (zeroStore d k)) := by
  simp [zeroStore, hd]

@[simp] theorem freshStore_memsWf (h) (hd : MemsWf (memories d)) : MemsWf (memories (freshStore d h)) := by
  unfold freshStore
  split <;> simp [hd]

@[simp] theorem touchStore_memsWf (modes h) (hd : MemsWf (memories d)) : MemsWf (memories (touchStore d modes h)) := by
  simp [touchStore, hd]

@[simp] theorem standaloneWorks_mems (n owner jobs) : memories (standaloneWorks d n owner jobs) = memories d := (rfl)

theorem startCompress_memsWf (c cmd comp o) (hd : MemsWf (memories d)) : (startCompress d c cmd comp o).MemsWf := by
  unfold startCompress
  dsimp only
  repeat' split
  all_goals simp [hd]

theorem startResidualFlush_memsWf (c b fromBucket source destination) (hd : MemsWf (memories d)) :
    (startResidualFlush d c b fromBucket source destination).MemsWf := by
  unfold startResidualFlush
  dsimp only
  repeat' split
  all_goals simp [hd]

theorem startMaskGen_memsWf (c output threshold step random) (hd : MemsWf (memories d)) :
    (startMaskGen d c output threshold step random).MemsWf := by
  unfold startMaskGen
  dsimp only
  repeat' split
  all_goals simp [hd]

@[simp] theorem addOob_mems (owner filled dropped) : memories (addOob d owner filled dropped) = memories d := (rfl)

@[simp] theorem runMask_memsWf (r output threshold step random first count) (hd : MemsWf (memories d)) :
    MemsWf (memories (runMask d r output threshold step random first count)) := by
  unfold runMask
  dsimp only
  repeat' split
  all_goals simp [hd]

@[simp] theorem runFlush_memsWf (r source destination) (hd : MemsWf (memories d)) :
    MemsWf (memories (runFlush d r source destination)) := by
  unfold runFlush
  split
  next s t _ _ =>
    have copied := writeElems_memsWf d t 0 ((List.range s.count).map fun j => readElem d s j) hd
    have written := padRun_memsWf _ t 0 s.count copied
    simp [written]
  next => exact hd

@[simp] theorem writeParcel_memsWf (h bs) (hd : MemsWf (memories d)) : MemsWf (memories (writeParcel d h bs).1) := by
  unfold writeParcel
  split <;> simp [hd]

/-! ### Runs of memory -/

@[simp] theorem takeRun_mems (hbm n align) : memories (takeRun d hbm n align).2 = memories d := by
  unfold takeRun
  dsimp only
  split <;> rfl

theorem holdRun_mems {d : Dev} {tag n align : Nat} {hbm : Bool} {x : Nat × Dev} (h : holdRun d tag hbm n align = some x) :
    memories x.2 = memories d := by
  have run := takeRun_mems d hbm n align
  unfold holdRun at h
  split at h
  next a e heq =>
    rw [heq] at run
    cases h
    exact run
  next => cases h

@[simp] theorem releaseRun_mems (tag) : memories (releaseRun d tag) = memories d := (rfl)

theorem holdRuns_mems {d e : Dev} {hbm : Bool} {n align : Nat} {tags : List Nat} (h : holdRuns hbm n align d tags = some e) :
    memories e = memories d := by
  induction tags generalizing d with
  | nil => cases h; rfl
  | cons t ts ih =>
    unfold holdRuns at h
    split at h
    next held => rw [ih h, holdRun_mems held]
    next => cases h

@[simp] theorem releaseRuns_mems (tags) : memories (releaseRuns d tags) = memories d := (rfl)

/-! ### Groups, collectives and buckets -/

theorem startLoadTree_memsWf (c source count) (hd : MemsWf (memories d)) : (startLoadTree d c source count).MemsWf := by
  unfold startLoadTree
  dsimp only
  repeat' split
  all_goals simp [hd]

@[simp] theorem forgetGrants_mems (h) : memories (forgetGrants d h) = memories d := by simp [forgetGrants]

theorem startOpenGroup_memsWf (c members slots sizeCode) (hd : MemsWf (memories d)) :
    (startOpenGroup d c members slots sizeCode).MemsWf := by
  unfold startOpenGroup
  dsimp only
  repeat' split
  all_goals simp
  all_goals
    next held _ =>
      have kept := holdRun_mems held
      rwa [← kept] at hd

@[simp] theorem closeGroup_mems (h) : memories (closeGroup d h) = memories d := (rfl)

theorem startCloseGroup_memsWf (c) (hd : MemsWf (memories d)) : (startCloseGroup d c).MemsWf := by simp [startCloseGroup, hd]

@[simp] theorem groupWorks_mems (h owner jobs) : memories (groupWorks d h owner jobs) = memories d := by
  unfold groupWorks
  split <;> simp

theorem startReduce_memsWf (c o) (hd : MemsWf (memories d)) : (startReduce d c o).MemsWf := by
  unfold startReduce
  dsimp only
  repeat' split
  all_goals simp [hd]

@[simp] theorem bcastWrite_memsWf (dst offset bs) (hd : MemsWf (memories d)) :
    MemsWf (memories (bcastWrite d dst offset bs)) := by
  unfold bcastWrite
  split <;> simp [hd]

@[simp] theorem originate_memsWf (owner r src dst g w) (hd : MemsWf (memories d)) :
    MemsWf (memories (originate d owner r src dst g w)) := by
  unfold originate
  split <;> simp [hd]

theorem startBcast_memsWf (c src dst fromOwners) (hd : MemsWf (memories d)) :
    (startBcast d c src dst fromOwners).MemsWf := by
  unfold startBcast
  dsimp only
  repeat' split
  all_goals simp [hd]

@[simp] theorem rescaleStore_memsWf (k e e') (hd : MemsWf (memories d)) : MemsWf (memories (rescaleStore d k e e').1) := by
  simp [rescaleStore, hd]

@[simp] theorem writeRecord_memsWf (b) (hd : MemsWf (memories d)) : MemsWf (memories (writeRecord d b)) := by
  unfold writeRecord
  split <;> simp [hd]

theorem recordRun_mems {d : Dev} {b : Nat} {x : Nat × Dev} (h : recordRun d b = some x) : memories x.2 = memories d := by
  unfold recordRun at h
  split at h
  · cases h; rfl
  · exact holdRun_mems h

@[simp] theorem rescaleBucket_memsWf (h b o e) (hd : MemsWf (memories d)) :
    MemsWf (memories (rescaleBucket d h b o e).1) := by
  unfold rescaleBucket
  dsimp only
  repeat' split
  all_goals simp [hd]

theorem lostStore_memsWf {d e : Dev} {h : BitVec 16} (hlost : lostStore d h = some e) (hd : MemsWf (memories d)) :
    MemsWf (memories e) := by
  obtain ⟨k, -, hk⟩ := Option.bind_eq_some_iff.mp hlost
  split at hk
  · cases hk; simp [hd]
  · cases hk

@[simp] theorem openBucket_memsWf (c o table g e addr) (hd : MemsWf (memories d)) :
    MemsWf (memories (openBucket d c o table g e addr)) := by
  unfold openBucket
  dsimp only
  refine writeRecord_memsWf _ _ ?_
  simp [hd]

theorem startBucketOpen_memsWf (c o held) (hd : MemsWf (memories d)) : (startBucketOpen d c o held).MemsWf := by
  unfold startBucketOpen
  dsimp only
  repeat' split
  all_goals simp [hd]
  · next lost =>
    split at lost
    · exact lostStore_memsWf lost hd
    · cases lost
  · next run =>
    have kept := recordRun_mems run
    exact openBucket_memsWf _ _ _ _ _ _ _ (by rwa [← kept] at hd)

@[simp] theorem cutBucket_mems (b more all) : memories (cutBucket d b more all) = memories d := by
  unfold cutBucket
  dsimp only
  repeat' split
  all_goals simp

@[simp] theorem addToBucket_mems (b k h x rs) : memories (addToBucket d b k h x rs) = memories d := by simp [addToBucket]

theorem startBucketAdd_memsWf (c b h) (hd : MemsWf (memories d)) : (startBucketAdd d c b h).MemsWf := by
  unfold startBucketAdd
  dsimp only
  repeat' split
  all_goals simp [hd]

theorem startBucketSeal_memsWf (c b) (hd : MemsWf (memories d)) : (startBucketSeal d c b).MemsWf := by
  unfold startBucketSeal
  split <;> simp [hd]

@[simp] theorem sendExponent_mems (h b e) : memories (sendExponent d h b e) = memories d := by
  unfold sendExponent
  split <;> simp

@[simp] theorem sealEnd_memsWf (b r) (hd : MemsWf (memories d)) : MemsWf (memories (sealEnd d b r)) := by
  unfold sealEnd
  dsimp only
  repeat' split
  all_goals simp [hd]

@[simp] theorem forwardBcast_memsWf (w x g r dst fromOwners) (hd : MemsWf (memories d)) :
    MemsWf (memories (forwardBcast d w x g r dst fromOwners)) := by
  unfold forwardBcast
  split <;> simp [hd]

@[simp] theorem advanceWork_memsWf (w) (hd : MemsWf (memories d)) : MemsWf (memories (advanceWork d w)) := by
  unfold advanceWork
  dsimp only
  repeat' split
  all_goals simp [hd]

@[simp] theorem advanceAll_memsWf (hd : MemsWf (memories d)) : MemsWf (memories (advanceAll d)) :=
  foldl_memsWf (fun d w hd => advanceWork_memsWf d w hd) _ hd

/-! ### Streams and their pages -/

@[simp] theorem withLayer_mems (h l f) : memories (withLayer d h l f) = memories d := (rfl)

@[simp] theorem tailWrite_memsWf (h l off bs) (hd : MemsWf (memories d)) : MemsWf (memories (tailWrite d h l off bs)) := by
  unfold tailWrite
  repeat' split
  all_goals simp [hd]

@[simp] theorem zeroTail_memsWf (h l) (hd : MemsWf (memories d)) : MemsWf (memories (zeroTail d h l)) := by
  unfold zeroTail
  split <;> simp [hd]

@[simp] theorem storePage_memsWf (h l k bs) (hd : MemsWf (memories d)) : MemsWf (memories (storePage d h l k bs)) := by
  unfold storePage
  dsimp only
  repeat' split
  all_goals simp [hd]

theorem reservePages_mems {d e : Dev} {s : Stream} {tags : List Nat} (h : reservePages d s tags = some e) :
    memories e = memories d := by
  unfold reservePages at h
  split at h
  · cases h; rfl
  · exact holdRuns_mems h

@[simp] theorem kvEvent_mems (b) : memories (kvEvent d b) = memories d := (rfl)

@[simp] theorem snoop_mems (lines) : memories (snoop d lines) = memories d := (rfl)

@[simp] theorem grantLine_mems (line) : memories (grantLine d line) = memories d := by simp [grantLine]

@[simp] theorem awaitRoom_mems (line) : memories (awaitRoom d line) = memories d := by
  unfold awaitRoom
  split <;> simp

@[simp] theorem serveStage_mems (o cached) : memories (serveStage d o cached) = memories d := by simp [serveStage]

@[simp] theorem serveHeld_mems : memories (serveHeld d) = memories d := by simp [serveHeld]

theorem eraseStaging_memsWf (lo hi) (hd : MemsWf (memories d)) :
    MemsWf (memories (withKvs d fun k => { k with staging := memErase k.staging lo hi })) :=
  ⟨hd.1, hd.2.1, memErase_wf hd.2.2 lo hi⟩

theorem putStaging_memsWf (a bs) (hd : MemsWf (memories d)) :
    MemsWf (memories (withKvs d fun k => { k with staging := memPuts k.staging a bs })) :=
  ⟨hd.1, hd.2.1, memPuts_wf bs hd.2.2 a⟩

@[simp] theorem releaseSet_memsWf (h t) (hd : MemsWf (memories d)) : MemsWf (memories (releaseSet d h t)) := by
  unfold releaseSet
  dsimp only
  rw [serveHeld_mems]
  exact eraseStaging_memsWf _ _ _ (by simp [hd])

@[simp] theorem releaseSets_memsWf (h p) (hd : MemsWf (memories d)) : MemsWf (memories (releaseSets d h p)) := by
  unfold releaseSets
  split
  · exact hd
  · exact foldl_memsWf (fun d t hd => releaseSet_memsWf d h t hd) _ hd

@[simp] theorem fillSet_memsWf (h slot off bs) (hd : MemsWf (memories d)) : MemsWf (memories (fillSet d h slot off bs)) := by
  unfold fillSet
  dsimp only
  rw [serveHeld_mems]
  exact putStaging_memsWf _ _ _ (by simp [hd])

theorem takeTails_mems {size n : Nat} {d : Dev} {acc : List Nat} {x : Dev × List Nat}
    (h : takeTails size d n acc = some x) : memories x.1 = memories d := by
  induction n generalizing d acc with
  | zero => cases h; rfl
  | succ n ih =>
    unfold takeTails at h
    split at h
    next held => rw [ih h, holdRun_mems held]
    next => cases h

theorem startStreamOpen_memsWf (c o) (hd : MemsWf (memories d)) : (startStreamOpen d c o).MemsWf := by
  have zeroed (e : Dev) (he : MemsWf (memories e)) (h : Nat) (l : List Nat) :
      MemsWf (memories (l.foldl (fun d l => zeroTail d h l) e)) :=
    foldl_memsWf (fun d l hd => zeroTail_memsWf d h l hd) l he
  unfold startStreamOpen
  dsimp only
  repeat' split
  all_goals simp
  · next given =>
    cases given
    exact zeroed _ (by simp [hd]) _ _
  · next taken =>
    have kept := takeTails_mems taken
    exact zeroed _ (by simp [kept, hd]) _ _

theorem startOnStream_memsWf (c cmd) (hd : MemsWf (memories d)) : (startOnStream d c cmd).MemsWf := hd

@[simp] theorem turnEnd_memsWf (r st res) (hd : MemsWf (memories d)) : MemsWf (memories (turnEnd d r st res)) := by
  simp [turnEnd, hd]

@[simp] theorem putRunning_mems (r) : memories (putRunning d r) = memories d := (rfl)

@[simp] theorem pageWorks_mems (h s owner jobs) : memories (pageWorks d h s owner jobs) = memories d := (rfl)

@[simp] theorem turnPut_memsWf (r h s layer first n src) (hd : MemsWf (memories d)) :
    MemsWf (memories (turnPut d r h s layer first n src)) := by
  unfold turnPut
  dsimp only
  repeat' split
  all_goals simp [hd]
  next reserved => simp [reservePages_mems reserved, hd]

@[simp] theorem storeOverTail_memsWf (r h layer) (hd : MemsWf (memories d)) :
    MemsWf (memories (storeOverTail d r h layer)) := by
  unfold storeOverTail
  dsimp only
  repeat' split
  all_goals simp [hd]

@[simp] theorem endPut_memsWf (r h layer n) (hd : MemsWf (memories d)) : MemsWf (memories (endPut d r h layer n)) := by
  simp [endPut, hd]

@[simp] theorem failPut_mems (h layer first n) : memories (failPut d h layer first n) = memories d := (rfl)

@[simp] theorem stageTake_memsWf (r h s layer first n) (hd : MemsWf (memories d)) :
    MemsWf (memories (stageTake d r h s layer first n)) := by
  unfold stageTake
  extract_lets g e cnt
  have kept : MemsWf (memories e) := by
    unfold e
    split <;> simp [hd]
  clear_value e
  dsimp only
  split
  · simp [hd]
  split
  · simp [hd]
  next f held =>
    have same : memories f = memories e := holdRun_mems held
    repeat' split
    all_goals simp [same, kept]

@[simp] theorem turnStage_memsWf (r h s layer first n) (hd : MemsWf (memories d)) :
    MemsWf (memories (turnStage d r h s layer first n)) := by simp [turnStage, hd]

@[simp] theorem endStage_memsWf (r) (hd : MemsWf (memories d)) : MemsWf (memories (endStage d r)) := by
  unfold endStage
  dsimp only
  repeat' split
  all_goals simp [hd]

@[simp] theorem failStage_memsWf (r) (hd : MemsWf (memories d)) : MemsWf (memories (failStage d r)) := by
  simp [failStage, hd]

@[simp] theorem evictLayer_memsWf (h l) (hd : MemsWf (memories d)) : MemsWf (memories (evictLayer d h l).1) := by
  unfold evictLayer
  split <;> simp [hd]

@[simp] theorem evictLayers_memsWf (h ls) (hd : MemsWf (memories d)) : MemsWf (memories (evictLayers d h ls).1) := by
  have evicted := foldl_fst_memsWf (f := fun (a : Dev × Nat) l => ((evictLayer a.1 h l).1, a.2 + (evictLayer a.1 h l).2))
    (fun a l ha => evictLayer_memsWf a.1 h l ha) ls (a := (d, 0)) hd
  unfold evictLayers
  dsimp only
  repeat' split
  · exact evicted
  · exact foldl_memsWf (fun d l hd => zeroTail_memsWf d h l hd) _ evicted
  · exact evicted

@[simp] theorem turnEvict_memsWf (r h s first count) (hd : MemsWf (memories d)) :
    MemsWf (memories (turnEvict d r h s first count)) := by simp [turnEvict, hd]

@[simp] theorem endIncoming_mems (i) : memories (endIncoming d i) = memories d := (rfl)

@[simp] theorem dropIncoming_memsWf (i) (hd : MemsWf (memories d)) : MemsWf (memories (dropIncoming d i)) := by
  refine foldl_memsWf (fun d e hd => ?_) _ hd
  split
  · simp [hd]
  · exact hd

@[simp] theorem sendStream_mems (p h seq code ops) : memories (sendStream d p h seq code ops) = memories d := by
  simp [sendStream]

@[simp] theorem sendDone_mems (p h st) : memories (sendDone d p h st) = memories d := by simp [sendDone]

@[simp] theorem turnClose_memsWf (r h s) (hd : MemsWf (memories d)) : MemsWf (memories (turnClose d r h s)) := by
  have dropped (e : Dev) (he : MemsWf (memories e)) (l : List Incoming) :
      MemsWf (memories (l.foldl (fun d i => dropIncoming (sendDone d i.port i.stream 0x0120) i) e)) :=
    foldl_memsWf (fun d i hd => by simp [hd]) l he
  unfold turnClose
  dsimp only
  exact turnEnd_memsWf _ _ _ _ (by
    rw [forgetOnPorts_mems, dropWorks_mems]
    exact dropped _ (by simp [hd]) _)

@[simp] theorem notePut_mems (w s r) : memories (notePut d w s r) = memories d := by
  unfold notePut
  dsimp only
  repeat' split
  all_goals simp

@[simp] theorem pageEncoded_memsWf (w bs) (hd : MemsWf (memories d)) : MemsWf (memories (pageEncoded d w bs)) := by
  unfold pageEncoded
  dsimp only
  repeat' split
  all_goals simp [hd]

@[simp] theorem pageDecoded_memsWf (w r bs) (hd : MemsWf (memories d)) : MemsWf (memories (pageDecoded d w r bs)) := by
  unfold pageDecoded
  split <;> simp [hd]

/-! ### Handoffs -/

@[simp] theorem turnHandoff_memsWf (r h s o) (hd : MemsWf (memories d)) : MemsWf (memories (turnHandoff d r h s o)) := by
  unfold turnHandoff
  dsimp only
  repeat' split
  all_goals simp [hd]

@[simp] theorem handoffAccepted_mems (r s o limit) : memories (handoffAccepted d r s o limit) = memories d := (rfl)

@[simp] theorem handoffFail_memsWf (r o st) (hd : MemsWf (memories d)) : MemsWf (memories (handoffFail d r o st)) := by
  unfold handoffFail
  split <;> simp [hd]

@[simp] theorem failPages_memsWf (r st) (hd : MemsWf (memories d)) : MemsWf (memories (failPages d r st)) := by
  unfold failPages
  split <;> simp [hd]

@[simp] theorem formHandoff_memsWf (r o) (hd : MemsWf (memories d)) : MemsWf (memories (formHandoff d r o)) := by
  unfold formHandoff
  dsimp only
  repeat' split
  all_goals simp [hd]

@[simp] theorem putIncoming_mems (i) : memories (putIncoming d i) = memories d := (rfl)

theorem handoffRoom_mems {d e : Dev} {h : BitVec 16} {first n l0 layers bppUnits format : Nat}
    (hroom : handoffRoom d h first n l0 layers bppUnits format = .ok e) : memories e = memories d := by
  unfold handoffRoom at hroom
  repeat' split at hroom
  all_goals cases hroom
  next reserved _ _ held =>
    rw [holdRun_mems held, reservePages_mems reserved]

theorem storeIncoming_memsWf {d : Dev} {i : Incoming} {e : (Nat × Nat × Nat) × List Byte} {x : Dev × Incoming}
    (h : storeIncoming d i e = some x) (hd : MemsWf (memories d)) :
    MemsWf (memories x.1) := by
  unfold storeIncoming at h
  dsimp only at h
  repeat' split at h
  · cases h
  · cases h
  · cases h; simp [hd]
  · obtain ⟨bs, -, rfl⟩ := Option.map_eq_some_iff.mp h
    simp [hd]

theorem storeAll_memsWf {d : Dev} {i : Incoming} {es : List ((Nat × Nat × Nat) × List Byte)} {x : Dev × Incoming}
    (h : storeAll d i es = some x) (hd : MemsWf (memories d)) :
    MemsWf (memories x.1) := by
  induction es generalizing d i with
  | nil => cases h; exact hd
  | cons e t ih =>
    unfold storeAll at h
    split at h
    next stored => exact ih h (storeIncoming_memsWf stored hd)
    next => cases h

@[simp] theorem commitIncoming_memsWf (i) (hd : MemsWf (memories d)) : MemsWf (memories (commitIncoming d i)) := by
  unfold commitIncoming
  dsimp only
  rw [sendDone_mems, endIncoming_mems]
  refine foldl_memsWf (fun d l hd => ?_) _ hd
  split <;> simp [hd]

end Sys2Proof.Machine
end


section
/-!
SUPPORT. The memories keep their canonical form: observation, eras, repairs and the mailboxes.
-/
namespace Sys2Proof.Machine

variable (d : Dev)

/-! ### Trace, watches and breakpoints -/

@[simp] theorem updateControl_memsWf (hd : MemsWf (memories d)) : MemsWf (memories (updateControl d)) := by
  simp [updateControl, hd]

@[simp] theorem dropRecord_mems (r) : memories (dropRecord d r) = memories d := (rfl)

@[simp] theorem ringPut_memsWf (bs) (hd : MemsWf (memories d)) : MemsWf (memories (ringPut d bs)) := by simp [ringPut, hd]

@[simp] theorem ringWrap_memsWf (r pad) (hd : MemsWf (memories d)) : MemsWf (memories (ringWrap d r pad)) := by
  simp [ringWrap, hd]

@[simp] theorem noteLeft_mems (written) : memories (noteLeft written d) = memories d := (rfl)

@[simp] theorem writeTrace_memsWf (r) (hd : MemsWf (memories d)) : MemsWf (memories (writeTrace d r)) := by
  generalize he : writeTrace d r = e
  unfold writeTrace at he
  extract_lets len pad past wrapped flags f g at he
  have kept : MemsWf (memories wrapped) := by
    unfold wrapped
    split <;> simp [hd]
  clear_value wrapped
  have put : MemsWf (memories f) := ringPut_memsWf wrapped _ kept
  split at he
  · rw [← he, noteLeft_mems, withTrc_mems, dropRecord_mems]
    exact hd
  · rw [← he, noteLeft_mems]
    refine updateControl_memsWf _ ?_
    rw [withTrc_mems]
    exact put

@[simp] theorem drainTrace_memsWf (fuel : Nat) (hd : MemsWf (memories d)) : MemsWf (memories (drainTrace fuel d)) := by
  induction fuel generalizing d with
  | zero => exact hd
  | succ fuel ih =>
    unfold drainTrace
    split
    · exact hd
    · dsimp only
      split <;> simp [ih, hd]

@[simp] theorem runWriter_memsWf (ns) (hd : MemsWf (memories d)) : MemsWf (memories (runWriter d ns)) := by
  simp [runWriter, hd]

theorem startTraceStart_memsWf (c mask label all) (hd : MemsWf (memories d)) :
    (startTraceStart d c mask label all).MemsWf := by
  simp [startTraceStart, hd]

theorem startTraceStop_memsWf (c) (hd : MemsWf (memories d)) : (startTraceStop d c).MemsWf := by
  unfold startTraceStop
  split <;> simp [hd]

theorem startSnapshot_memsWf (c set dest) (hd : MemsWf (memories d)) : (startSnapshot d c set dest).MemsWf := by
  unfold startSnapshot
  dsimp only
  repeat' split
  all_goals simp [hd]

@[simp] theorem freePcs_mems : memories (freePcs d) = memories d := by
  unfold freePcs
  exact foldl_mems (by simp) _ _

@[simp] theorem haltDevice_mems (cause id core pc) : memories (haltDevice d cause id core pc) = memories d := by
  unfold haltDevice
  split <;> simp

@[simp] theorem releaseEvents_memsWf (hd : MemsWf (memories d)) : MemsWf (memories (releaseEvents d)) := by
  simp +contextual [releaseEvents, foldl_memsWf, hd]

theorem startWatch_memsWf (c k layer operator step action) (hd : MemsWf (memories d)) :
    (startWatch d c k layer operator step action).MemsWf := by
  unfold startWatch
  dsimp only
  repeat' split
  all_goals simp [hd]

@[simp] theorem matchWatches_mems (id h c) : memories (matchWatches d id h c) = memories d := by
  unfold matchWatches
  refine foldl_mems (fun d i => ?_) _ _
  split
  · rfl
  · extract_lets free
    repeat' split
    all_goals simp

@[simp] theorem fireWatches_mems (owner) : memories (fireWatches d owner) = memories d := by simp [fireWatches]

@[simp] theorem traceRun_mems (unit label h w r) : memories (traceRun unit label h w d r) = memories d := by simp [traceRun]

@[simp] theorem copyElems_mems (unit owner handle label h j n) :
    memories (copyElems d unit owner handle label h j n) = memories d := by
  unfold copyElems
  split <;> simp

theorem startBreak_memsWf (c core kind address hits) (hd : MemsWf (memories d)) :
    (startBreak d c core kind address hits).MemsWf := by
  unfold startBreak
  dsimp only
  repeat' split
  all_goals simp [hd]

@[simp] theorem hitBreak_mems (core slot pc) : memories (hitBreak d core slot pc) = memories d := by
  unfold hitBreak
  dsimp only
  repeat' split
  all_goals simp

@[simp] theorem writeOpen_mems (set) : memories (writeOpen d set) = memories d := by simp [writeOpen]

/-! ### Eras and the topology -/

@[simp] theorem sendDisc_mems (p body) : memories (sendDisc d p body) = memories d := by simp [sendDisc]

@[simp] theorem sendUp_mems (body) : memories (sendUp d body) = memories d := by
  unfold sendUp
  split <;> simp

@[simp] theorem sendDown_mems (body) : memories (sendDown d body) = memories d := by simp [sendDown]

@[simp] theorem loseMember_memsWf (m) (hd : MemsWf (memories d)) : MemsWf (memories (loseMember d m)) := by
  simp +contextual [loseMember, foldl_memsWf, hd]

@[simp] theorem endAllGroups_memsWf (hd : MemsWf (memories d)) : MemsWf (memories (endAllGroups d)) := by
  simp +contextual [endAllGroups, foldl_memsWf, hd]

@[simp] theorem endHandoffs_memsWf (st) (hd : MemsWf (memories d)) : MemsWf (memories (endHandoffs d st)) := by
  have sent (e : Dev) (he : MemsWf (memories e)) (l : List Running) :
      MemsWf (memories
        (l.foldl (fun d r => turnEnd (dropWorks d fun w => w.owner = r.id) { r with late := false } st 0) e)) :=
    foldl_memsWf (fun d r hd => by simp [hd]) l he
  refine foldl_memsWf (fun d i hd => ?_) _ (sent d hd _)
  exact foldl_memsWf (fun d r hd => turnEnd_memsWf d r st 0 hd) _ (dropIncoming_memsWf d i hd)

@[simp] theorem sendSegments_mems (ss) : memories (sendSegments d ss) = memories d := by simp [sendSegments]

@[simp] theorem applyTopology_mems : memories (applyTopology d) = memories d := by
  unfold applyTopology
  dsimp only
  repeat' split
  all_goals simp

@[simp] theorem announce_mems (c) : memories (announce d c) = memories d := (rfl)

@[simp] theorem requestChange_mems (c) : memories (requestChange d c).1 = memories d := by
  unfold requestChange
  split <;> simp

@[simp] theorem failSetTicks_memsWf (hd : MemsWf (memories d)) : MemsWf (memories (failSetTicks d)) := by
  simp +contextual [failSetTicks, foldl_memsWf, hd]

@[simp] theorem traceAlmanac_mems (event) : memories (traceAlmanac d event) = memories d := by simp [traceAlmanac]

@[simp] theorem setLocked_mems (b) : memories (setLocked d b) = memories d := by simp [setLocked]

@[simp] theorem sendProclamations_mems (b except) : memories (sendProclamations d b except) = memories d := by
  simp [sendProclamations]

@[simp] theorem copyProclamation_mems (b p) : memories (copyProclamation d b p) = memories d := by simp [copyProclamation]

@[simp] theorem releaseProclamation_mems : memories (releaseProclamation d) = memories d := by
  unfold releaseProclamation
  dsimp only
  repeat' split
  all_goals simp

@[simp] theorem switchPlacement_mems (mask) : memories (switchPlacement d mask) = memories d := (rfl)

@[simp] theorem eraPlacement_mems : memories (eraPlacement d) = memories d := by simp [eraPlacement]

@[simp] theorem dropPlan_mems : memories (dropPlan d) = memories d := (rfl)

@[simp] theorem sendEraFrames_mems (p master hops except) :
    memories (sendEraFrames d p master hops except) = memories d := by
  simp [sendEraFrames]

@[simp] theorem establishEra_memsWf (e priority) (hd : MemsWf (memories d)) :
    MemsWf (memories (establishEra d e priority)) := by simp [establishEra, hd]

@[simp] theorem leaveEra_memsWf (hd : MemsWf (memories d)) : MemsWf (memories (leaveEra d)) := by
  unfold leaveEra
  dsimp only
  rw [withJoin_mems, withTik_mems, setLocked_mems, dropPlan_mems]
  split
  · exact failSetTicks_memsWf _ (by simp [hd])
  · exact hd

@[simp] theorem attachTo_mems (p) : memories (attachTo d p) = memories d := by simp [attachTo]

@[simp] theorem excludeDuplicate_mems (s) : memories (excludeDuplicate d s) = memories d := by simp [excludeDuplicate]

@[simp] theorem recordJoin_mems (b) : memories (recordJoin d b) = memories d := (rfl)

@[simp] theorem markLost_memsWf (m) (hd : MemsWf (memories d)) : MemsWf (memories (markLost d m)) := by simp [markLost, hd]

@[simp] theorem linkChanges_memsWf (b) (hd : MemsWf (memories d)) : MemsWf (memories (linkChanges d b)) := by
  simp +contextual [linkChanges, foldl_memsWf, hd]

@[simp] theorem keepReport_memsWf (b joining) (hd : MemsWf (memories d)) : MemsWf (memories (keepReport d b joining)) := by
  simp [keepReport, hd]

@[simp] theorem masterReport_memsWf (b joining) (hd : MemsWf (memories d)) :
    MemsWf (memories (masterReport d b joining)) := by
  unfold masterReport
  split <;> simp [hd]

@[simp] theorem reportLinks_memsWf (hd : MemsWf (memories d)) : MemsWf (memories (reportLinks d)) := by
  simp [reportLinks, hd]

/-! ### The loss of a port -/

@[simp] theorem traceFault_mems (status unit) : memories (traceFault d status unit) = memories d := by simp [traceFault]

@[simp] theorem groupWorksMap_memsWf (h f) (hd : MemsWf (memories d)) : MemsWf (memories (groupWorksMap d h f)) := by
  simp +contextual [groupWorksMap, foldl_memsWf, hd]

@[simp] theorem orphanGroup_memsWf (h g p) (hd : MemsWf (memories d)) : MemsWf (memories (orphanGroup d h g p)) := by
  unfold orphanGroup
  dsimp only
  repeat' split
  all_goals simp [hd]

@[simp] theorem dropChild_memsWf (h g n) (hd : MemsWf (memories d)) : MemsWf (memories (dropChild d h g n)) := by
  simp [dropChild, hd]

@[simp] theorem groupLosesPort_memsWf (p h) (hd : MemsWf (memories d)) : MemsWf (memories (groupLosesPort p d h)) := by
  unfold groupLosesPort
  repeat' split
  all_goals simp [hd]

@[simp] theorem handoffLosesPort_memsWf (p r) (hd : MemsWf (memories d)) : MemsWf (memories (handoffLosesPort p d r)) := by
  unfold handoffLosesPort
  split <;> simp [hd]

@[simp] theorem failWaitingStages_memsWf (h st) (hd : MemsWf (memories d)) :
    MemsWf (memories (failWaitingStages d h st)) := by simp +contextual [failWaitingStages, foldl_memsWf, hd]

@[simp] theorem incomingLosesPort_memsWf (p i) (hd : MemsWf (memories d)) : MemsWf (memories (incomingLosesPort p d i)) := by
  unfold incomingLosesPort
  repeat' split
  all_goals simp [hd]

@[simp] theorem treeLosesPort_mems (p) : memories (treeLosesPort d p) = memories d := by
  unfold treeLosesPort
  dsimp only
  repeat' split
  all_goals simp

@[simp] theorem losePort_memsWf (p final) (hd : MemsWf (memories d)) : MemsWf (memories (losePort d p final)) := by
  have groups (e : Dev) (he : MemsWf (memories e)) (l : List Nat) : MemsWf (memories (l.foldl (groupLosesPort p) e)) :=
    foldl_memsWf (fun d h hd => groupLosesPort_memsWf d p h hd) l he
  have handoffs (e : Dev) (he : MemsWf (memories e)) (l : List Running) :
      MemsWf (memories (l.foldl (handoffLosesPort p) e)) :=
    foldl_memsWf (fun d r hd => handoffLosesPort_memsWf d p r hd) l he
  have incoming (e : Dev) (he : MemsWf (memories e)) (l : List Incoming) :
      MemsWf (memories (l.foldl (incomingLosesPort p) e)) :=
    foldl_memsWf (fun d i hd => incomingLosesPort_memsWf d p i hd) l he
  unfold losePort
  extract_lets wasUp a b c e f g h
  have lost : MemsWf (memories h) := by
    rw [treeLosesPort_mems]
    exact incoming _ (handoffs _ (groups _ (by simp [c, b, a, hd]) _) _) _
  split
  · exact reportLinks_memsWf _ lost
  · exact lost

@[simp] theorem failDevice_memsWf (hd : MemsWf (memories d)) : MemsWf (memories (failDevice d)) := by
  have groups (e : Dev) (he : MemsWf (memories e)) (l : List Nat) :
      MemsWf (memories (l.foldl (fun d h => faultGroup d h 0x0503 none) e)) :=
    foldl_memsWf (fun d h hd => faultGroup_memsWf d h _ _ hd) l he
  unfold failDevice
  split
  · exact hd
  · refine foldl_memsWf (fun d p hd => ?_) _ (endHandoffs_memsWf _ _ (groups _ (by simp [hd]) _))
    split <;> simp [hd]

/-! ### Repairs -/

@[simp] theorem setRprEvent_mems (b) : memories (setRprEvent d b) = memories d := (rfl)

@[simp] theorem setPhys_mems (p f) : memories (setPhys d p f) = memories d := (rfl)

@[simp] theorem startCopy_mems (source) : memories (startCopy d source) = memories d := by
  unfold startCopy
  split <;> simp

@[simp] theorem proposeSwap_mems (p lane approved) : memories (proposeSwap d p lane approved) = memories d := by
  simp [proposeSwap]

@[simp] theorem approveSwap_mems (p lane) : memories (approveSwap d p lane) = memories d := by
  unfold approveSwap
  split <;> simp

@[simp] theorem scheduleRepair_mems (q) : memories (scheduleRepair d q) = memories d := by
  unfold scheduleRepair
  repeat' split
  all_goals simp

@[simp] theorem postRequests_memsWf (fuel : Nat) (hd : MemsWf (memories d)) : MemsWf (memories (postRequests fuel d)) := by
  induction fuel generalizing d with
  | zero => exact hd
  | succ fuel ih =>
    unfold postRequests
    split <;> simp [ih, hd]

@[simp] theorem requestRepair_memsWf (kind unit detail) (hd : MemsWf (memories d)) :
    MemsWf (memories (requestRepair d kind unit detail)) := by
  unfold requestRepair
  dsimp only
  repeat' split
  all_goals simp [hd]

theorem startRepairApprove_memsWf (request decision) (hd : MemsWf (memories d)) :
    (startRepairApprove d request decision).MemsWf := by
  unfold startRepairApprove
  dsimp only
  repeat' split
  all_goals simp [hd]

@[simp] theorem scheduleDeclined_mems : memories (scheduleDeclined d) = memories d := by simp [scheduleDeclined]

@[simp] theorem releaseRepairs_memsWf (hd : MemsWf (memories d)) : MemsWf (memories (releaseRepairs d)) := by
  simp +contextual [releaseRepairs, foldl_memsWf, hd]

@[simp] theorem putMapEntry_mems (kind unit detail) : memories (putMapEntry d kind unit detail) = memories d := by
  simp [putMapEntry]

@[simp] theorem appendMap_mems (kind unit detail) : memories (appendMap d kind unit detail) = memories d := by
  simp [appendMap]

/-! ### The administrative commands -/

@[simp] theorem placeAnnals_memsWf (s) (hd : MemsWf (memories d)) : MemsWf (memories (placeAnnals d s)) :=
  store_memsWf _ _ _ ⟨memErase_wf hd.1 _ _, hd.2⟩

theorem startInit_memsWf (annals) (hd : MemsWf (memories d)) : (startInit d annals).MemsWf := by
  generalize hb : startInit d annals = b
  unfold startInit at hb
  split at hb
  · subst hb; trivial
  split at hb
  · subst hb; trivial
  extract_lets e at hb
  have placed : MemsWf (memories e) := placeAnnals_memsWf _ _ hd
  split at hb
  · rw [← hb, Begin.memsWf_ended]
    exact failDevice_memsWf _ placed
  · rw [← hb, Begin.memsWf_done]
    exact postRequests_memsWf _ _ (by simp [placed])

@[simp] theorem writeMode_memsWf (mode) (hd : MemsWf (memories d)) : MemsWf (memories (writeMode d mode)) := by
  simp +contextual [writeMode, foldl_memsWf, hd]

theorem startSetPlacement_memsWf (c mask value) (hd : MemsWf (memories d)) : (startSetPlacement d c mask value).MemsWf := by
  simp [startSetPlacement, hd]

theorem startSetTick_memsWf (c period floor holiday) (hd : MemsWf (memories d)) :
    (startSetTick d c period floor holiday).MemsWf := by
  simp [startSetTick, hd]

theorem startBindTenant_memsWf (mailbox label unbind) (hd : MemsWf (memories d)) :
    (startBindTenant d mailbox label unbind).MemsWf := by
  unfold startBindTenant
  split <;> simp [hd]

theorem startAlloc_memsWf (label memory size) (hd : MemsWf (memories d)) : (startAlloc d label memory size).MemsWf := by
  unfold startAlloc
  dsimp only
  repeat' split
  all_goals simp [hd]

theorem startFree_memsWf (allocation) (hd : MemsWf (memories d)) : (startFree d allocation).MemsWf := by
  unfold startFree
  split <;> simp [hd]

theorem startFwUpdate_memsWf (address length) (hd : MemsWf (memories d)) : (startFwUpdate d address length).MemsWf := by
  unfold startFwUpdate
  dsimp only
  repeat' split
  all_goals simp [hd]

/-! ### What follows from an effect -/

@[simp] theorem clearWorks_mems (r) : memories (clearWorks d r) = memories d := (rfl)

@[simp] theorem endCompress_memsWf (r o) (hd : MemsWf (memories d)) : MemsWf (memories (endCompress d r o)) := by
  simp [endCompress, hd]

@[simp] theorem finishOwner_memsWf (r) (hd : MemsWf (memories d)) : MemsWf (memories (finishOwner d r)) := by
  unfold finishOwner
  repeat' split
  all_goals simp [hd]

theorem bucketTurn_memsWf (r) (hd : MemsWf (memories d)) : (bucketTurn d r).MemsWf := by
  unfold bucketTurn
  split
  · exact startBucketOpen_memsWf d _ _ _ hd
  · exact startBucketAdd_memsWf d _ _ _ hd
  · exact startBucketSeal_memsWf d _ _ hd
  · exact startResidualFlush_memsWf d _ _ _ _ _ hd
  · trivial

@[simp] theorem rerunBucket_memsWf (r) (hd : MemsWf (memories d)) : MemsWf (memories (rerunBucket d r)) := by
  unfold rerunBucket
  extract_lets next seed active back e
  have kept := bucketTurn_memsWf e r hd
  split
  next => simp [hd]
  all_goals
    next heq =>
      rw [heq] at kept
      simp only [Begin.memsWf_done, Begin.memsWf_ended, Begin.memsWf_go] at kept
      simp [back, kept]

@[simp] theorem sealIfReady_memsWf (r) (hd : MemsWf (memories d)) : MemsWf (memories (sealIfReady d r)) := by
  unfold sealIfReady
  split <;> simp [hd]

@[simp] theorem formIfReady_memsWf (r) (hd : MemsWf (memories d)) : MemsWf (memories (formIfReady d r)) := by
  unfold formIfReady
  split <;> simp [hd]

@[simp] theorem stageIfReady_memsWf (r) (hd : MemsWf (memories d)) : MemsWf (memories (stageIfReady d r)) := by
  unfold stageIfReady
  split <;> simp [hd]

@[simp] theorem destroyIfReady_memsWf (r k) (hd : MemsWf (memories d)) : MemsWf (memories (destroyIfReady d r k)) := by
  simp [destroyIfReady, hd]

@[simp] theorem traceChunk_mems (event cls handle seq p label) :
    memories (traceChunk d event cls handle seq p label) = memories d := by
  simp [traceChunk]

@[simp] theorem traceGot_mems (event stream h seq p) : memories (traceGot d event stream h seq p) = memories d := by
  simp [traceGot]

@[simp] theorem holdItem_mems (i) : memories (holdItem d i) = memories d := (rfl)

@[simp] theorem ackChunk_mems (p stream h seq attempt pages) :
    memories (ackChunk d p stream h seq attempt pages) = memories d := by
  simp [ackChunk]

@[simp] theorem sendReAsk_mems (p stream h seq attempt reason missing) :
    memories (sendReAsk d p stream h seq attempt reason missing) = memories d := by
  simp [sendReAsk]

@[simp] theorem askGroup_memsWf (p h seq attempt reason missing) (hd : MemsWf (memories d)) :
    MemsWf (memories (askGroup d p h seq attempt reason missing)) := by
  simp [askGroup, hd]

@[simp] theorem settleArrival_memsWf (h x) (hd : MemsWf (memories d)) : MemsWf (memories (settleArrival d h x)) := by
  unfold settleArrival
  dsimp only
  repeat' split
  all_goals simp [hd]

@[simp] theorem settleArrivals_memsWf (hd : MemsWf (memories d)) : MemsWf (memories (settleArrivals d)) :=
  foldl_memsWf (fun _ e hd => foldl_memsWf (fun d x hd => settleArrival_memsWf d e.1 x hd) _ hd) _ hd

@[simp] theorem checkReady_mems : memories (checkReady d) = memories d := by simp [checkReady]

@[simp] theorem dropCopying_mems : memories (dropCopying d) = memories d := by simp [dropCopying]

@[simp] theorem scheduleHeld_memsWf (hd : MemsWf (memories d)) : MemsWf (memories (scheduleHeld d)) := by
  simp [scheduleHeld, hd]

/-! ### Start of the commands and the mailboxes -/

theorem queueOpen_memsWf (c o) (hd : MemsWf (memories d)) : (queueOpen d c o).MemsWf := by
  unfold queueOpen
  split <;> simp [hd]

theorem queueFlush_memsWf (c cmd) (hd : MemsWf (memories d)) : (queueFlush d c cmd).MemsWf := hd

theorem startCmd_memsWf (c cmd) (hd : MemsWf (memories d)) : (startCmd d c cmd).MemsWf := by
  cases cmd
  all_goals dsimp only [startCmd]
  case init => exact startInit_memsWf (hd := hd) ..
  case setPlacement => exact startSetPlacement_memsWf (hd := hd) ..
  case setSeed => exact hd
  case loadTree => exact startLoadTree_memsWf (hd := hd) ..
  case openGroup => exact startOpenGroup_memsWf (hd := hd) ..
  case closeGroup => exact startCloseGroup_memsWf (hd := hd) ..
  case setTick => exact startSetTick_memsWf (hd := hd) ..
  case repairApprove => exact startRepairApprove_memsWf (hd := hd) ..
  case bindTenant => exact startBindTenant_memsWf (hd := hd) ..
  case alloc => exact startAlloc_memsWf (hd := hd) ..
  case free => exact startFree_memsWf (hd := hd) ..
  case fwUpdate => exact startFwUpdate_memsWf (hd := hd) ..
  case createDesc => exact startCreateDesc_memsWf (hd := hd) ..
  case destroyDesc => exact startDestroyDesc_memsWf (hd := hd) ..
  case loadOwners => exact startLoadOwners_memsWf (hd := hd) ..
  case topk => exact startCompress_memsWf (hd := hd) ..
  case quant => exact startCompress_memsWf (hd := hd) ..
  case lowrank => exact startCompress_memsWf (hd := hd) ..
  case residualFlush => simp [queueFlush_memsWf, startResidualFlush_memsWf, hd]
  case maskGen => exact startMaskGen_memsWf (hd := hd) ..
  case bcast => exact startBcast_memsWf (hd := hd) ..
  case reduceToOne => exact startReduce_memsWf (hd := hd) ..
  case bucketOpen => simp [queueOpen_memsWf, startBucketOpen_memsWf, hd]
  case bucketAdd => simp [startBucketAdd_memsWf, hd]
  case bucketSeal => simp [startBucketSeal_memsWf, hd]
  case streamOpen => exact startStreamOpen_memsWf (hd := hd) ..
  case traceStart => exact startTraceStart_memsWf (hd := hd) ..
  case traceStop => exact startTraceStop_memsWf (hd := hd) ..
  case watchTensor => exact startWatch_memsWf (hd := hd) ..
  case breakSet => exact startBreak_memsWf (hd := hd) ..
  case countersSnapshot => exact startSnapshot_memsWf (hd := hd) ..
  case unknown => trivial
  all_goals exact startOnStream_memsWf (hd := hd) ..

@[simp] theorem traceBegin_mems (n label h cmd) : memories (traceBegin d n label h cmd) = memories d := by simp [traceBegin]

@[simp] theorem startOne_memsWf (n f) (hd : MemsWf (memories d)) : MemsWf (memories (startOne d n f)) := by
  unfold startOne
  extract_lets c e
  have same : memories e = memories d := by simp [e]
  have started := startCmd_memsWf e c f.cmd (by rwa [same])
  split
  · simp [hd]
  split
  next => simp [hd]
  all_goals
    next heq =>
      rw [heq] at started
      simp only [Begin.memsWf_done, Begin.memsWf_ended, Begin.memsWf_go] at started
      simp [started]

@[simp] theorem startReady_memsWf (n : Mbx) (fuel : Nat) (hd : MemsWf (memories d)) :
    MemsWf (memories (startReady n fuel d)) := by
  induction fuel generalizing d with
  | zero => exact hd
  | succ fuel ih =>
    unfold startReady
    repeat' split
    all_goals simp [ih, hd]

@[simp] theorem startHeld_memsWf (n) (hd : MemsWf (memories d)) : MemsWf (memories (startHeld d n)) := by
  simp [startHeld, hd]

@[simp] theorem takeEntry_mems (n f) : memories (takeEntry d n f) = memories d := (rfl)

@[simp] theorem fetchOne_memsWf (n) (hd : MemsWf (memories d)) : MemsWf (memories (fetchOne d n)) := by simp [fetchOne, hd]

@[simp] theorem fetchTurn_memsWf (hd : MemsWf (memories d)) : MemsWf (memories (fetchTurn d)) := by
  unfold fetchTurn
  dsimp only
  repeat' split
  all_goals simp [hd]

@[simp] theorem fetchMany_memsWf (fuel : Nat) (hd : MemsWf (memories d)) : MemsWf (memories (fetchMany fuel d)) := by
  induction fuel generalizing d with
  | zero => exact hd
  | succ fuel ih =>
    unfold fetchMany
    split <;> simp [ih, hd]

@[simp] theorem fetchTurns_memsWf (hd : MemsWf (memories d)) : MemsWf (memories (fetchTurns d)) := by simp [fetchTurns, hd]

@[simp] theorem hostStore_memsWf (x) (hd : MemsWf (memories d)) : MemsWf (memories (hostStore d x)) := by
  obtain ⟨hmem, hbar⟩ := hostStore_wf d x hd.1 hd.2.1
  have staging : (hostStore d x).kvs.staging = d.kvs.staging := by
    unfold hostStore
    dsimp only
    repeat' split
    all_goals rfl
  refine ⟨hmem, hbar, ?_⟩
  rw [memories, staging]
  exact hd.2.2

@[simp] theorem doorbellError_mems (n) : memories (doorbellError d n) = memories d := (rfl)

@[simp] theorem cancelFetched_memsWf (n) (hd : MemsWf (memories d)) : MemsWf (memories (cancelFetched d n)) := by
  simp +contextual [cancelFetched, foldl_memsWf, hd]

@[simp] theorem writeMbxCtrl_memsWf (n w) (hd : MemsWf (memories d)) : MemsWf (memories (writeMbxCtrl d n w)) := by
  simp [writeMbxCtrl, hd]

@[simp] theorem giveUpNext_memsWf (n) (hd : MemsWf (memories d)) : MemsWf (memories (giveUpNext d n)) := by
  unfold giveUpNext
  split <;> simp [hd]

end Sys2Proof.Machine
end


section
/-!
SUPPORT. The memories keep their canonical form: the plan, the Almanac and the frames of the neighbours.
-/
namespace Sys2Proof.Machine

variable (d : Dev)

/-! ### The plan and its entries -/

@[simp] theorem writePlan_memsWf (lo es) (hd : MemsWf (memories d)) : MemsWf (memories (writePlan d lo es)) := by
  simp [writePlan, hd]

@[simp] theorem markPlanned_mems (e) : memories (markPlanned d e) = memories d := by
  unfold markPlanned
  dsimp only
  repeat' split
  all_goals simp

@[simp] theorem addPlanned_mems (e) : memories (addPlanned d e) = memories d := (rfl)

@[simp] theorem planOne_mems (boundary e) : memories (planOne boundary d e) = memories d := by simp [planOne]

@[simp] theorem planWork_mems (boundary d w) : memories (planWork boundary d w) = memories d := by
  unfold planWork
  dsimp only
  split
  · rfl
  split
  · rfl
  have chosen := choose_mems d ((stepEntries d w).filter fun e =>
    entryOk d e && !stepPlanned d e && (planOne boundary d e).plan.taken != d.plan.taken)
  split
  all_goals
    next heq =>
      rw [heq] at chosen
      simpa using chosen

@[simp] theorem planFirmware_mems (boundary es) : memories (planFirmware boundary d es) = memories d := by
  simp [planFirmware]

@[simp] theorem traceEntry_mems (kind x w) : memories (traceEntry d kind x w) = memories d := by simp [traceEntry]

@[simp] theorem queueChunk_mems (p w) : memories (queueChunk d p w) = memories d := by simp [queueChunk]

@[simp] theorem beginEntry_mems (x) : memories (beginEntry d x) = memories d := by
  unfold beginEntry
  dsimp only
  repeat' split
  all_goals simp

@[simp] theorem assign_mems (r n) : memories (assign d r n) = memories d := (rfl)

@[simp] theorem startPlanned_mems (e) : memories (startPlanned d e) = memories d := by
  unfold startPlanned
  split <;> simp

@[simp] theorem startCarried_mems (x) : memories (startCarried d x) = memories d := by
  unfold startCarried
  dsimp only
  repeat' split
  all_goals simp

@[simp] theorem startAlone_mems : memories (startAlone d) = memories d := by simp [startAlone]

@[simp] theorem keepDisplaced_mems : memories (keepDisplaced d) = memories d := (rfl)

@[simp] theorem takePlan_memsWf (firmware again) (hd : MemsWf (memories d)) :
    MemsWf (memories (takePlan d firmware again)) := by
  unfold takePlan
  dsimp only
  repeat' split
  all_goals simp [hd]

@[simp] theorem appendPlan_memsWf (firmware) (hd : MemsWf (memories d)) : MemsWf (memories (appendPlan d firmware)) := by
  unfold appendPlan
  dsimp only
  repeat' split
  all_goals simp [hd]

@[simp] theorem noteBusy_mems (x) : memories (noteBusy d x) = memories d := by simp [noteBusy]

@[simp] theorem clearSuspect_mems (r) : memories (clearSuspect d r) = memories d := by
  unfold clearSuspect
  repeat' split
  all_goals simp

@[simp] theorem endEntry_mems (x) : memories (endEntry d x) = memories d := by simp [endEntry]

@[simp] theorem noteBytes_mems (w read written) : memories (noteBytes d w read written) = memories d := by
  unfold noteBytes
  split <;> simp

@[simp] theorem noteSums_memsWf (w f change lost bmax) (hd : MemsWf (memories d)) :
    MemsWf (memories (noteSums d w f change lost bmax)) := by simp [noteSums, hd]

@[simp] theorem copyRecords_mems (unit w c recs) : memories (copyRecords d unit w c recs) = memories d := by
  unfold copyRecords
  split
  · rfl
  refine foldl_mems (fun d r => ?_) _ _
  split <;> simp

@[simp] theorem damageRecords_memsWf (k) (hd : MemsWf (memories d)) : MemsWf (memories (damageRecords d k)) := by
  simp +contextual [damageRecords, foldl_memsWf, hd]

@[simp] theorem failEntry_memsWf (w c x) (hd : MemsWf (memories x.dev)) : MemsWf (memories (failEntry w c x)) := by
  unfold failEntry
  dsimp only
  repeat' split
  all_goals simp [hd]

@[simp] theorem noteLostProof_memsWf (w resource c hop recs) (hd : MemsWf (memories d)) :
    MemsWf (memories (noteLostProof d w resource c hop recs)) := by
  unfold noteLostProof
  split <;> simp [hd]

@[simp] theorem bufferLost_mems (h) : memories (bufferLost d h).2 = memories d := by
  unfold bufferLost
  dsimp only
  repeat' split
  all_goals simp

@[simp] theorem sendToParent_memsWf (w chunk) (hd : MemsWf (memories d)) : MemsWf (memories (sendToParent d w chunk)) := by
  unfold sendToParent
  split <;> simp [hd]

@[simp] theorem runReduce_memsWf (x w c recs index engineFault) (hd : MemsWf (memories d)) :
    MemsWf (memories (runReduce d x w c recs index engineFault)) := by
  unfold runReduce
  extract_lets h
  split
  · exact hd
  next g hg =>
  extract_lets root kids covered
  have same : memories (if kids.isEmpty = true then (false, d) else bufferLost d h).2 = memories d := by split <;> simp
  split
  next lost e he =>
  rw [he] at same
  dsimp only at same
  have kept : MemsWf (memories e) := by rwa [same]
  split
  · simp [kept]
  split
  · simp [kept]
  split
  · simp [kept]
  · simp [kept]
  next ls rs _ _ =>
  extract_lets hop
  have formed := formChunk_memsWf e c hop recs kept
  split
  · simp [kept]
  split
  · simp [kept]
  split
  next heq =>
    rw [heq] at formed
    exact failEntry_memsWf _ _ _ formed
  next heq =>
    rw [heq, chunkMemsWf_ok] at formed
    dsimp only
    repeat' split
    all_goals simp [formed]

@[simp] theorem noteFailedEntry_memsWf (x w) (hd : MemsWf (memories d)) : MemsWf (memories (noteFailedEntry d x w)) := by
  unfold noteFailedEntry
  repeat' split
  all_goals simp [hd]

@[simp] theorem runCompress_memsWf (x w c recs engineFault) (hd : MemsWf (memories d)) :
    MemsWf (memories (runCompress d x w c recs engineFault)) := by
  have formed := formChunk_memsWf d c .leaf recs hd
  unfold runCompress
  split
  · simp [hd]
  split
  next heq =>
    rw [heq] at formed
    exact failEntry_memsWf _ _ _ formed
  next heq =>
    rw [heq, chunkMemsWf_ok] at formed
    dsimp only
    split <;> simp [formed]

@[simp] theorem runOther_memsWf (w r) (hd : MemsWf (memories d)) : MemsWf (memories (runOther d w r)) := by
  unfold runOther
  dsimp only
  repeat' split
  all_goals simp [hd]
  next => exact failOwner_memsWf _ _ _ (by simp [hd])

@[simp] theorem runEngine_memsWf (x w engineFault) (hd : MemsWf (memories d)) :
    MemsWf (memories (runEngine d x w engineFault)) := by
  unfold runEngine
  repeat' split
  all_goals simp [hd]

@[simp] theorem encodeParcel_memsWf (x w c) (hd : MemsWf (memories d)) : MemsWf (memories (encodeParcel d x w c)) := by
  unfold encodeParcel
  split <;> simp [hd]

@[simp] theorem decodeChunk_memsWf (x w) (hd : MemsWf (memories d)) : MemsWf (memories (decodeChunk d x w)) := by
  unfold decodeChunk
  dsimp only
  repeat' split
  all_goals simp [hd]

@[simp] theorem encodeStep_mems (x w s bs) : memories (encodeStep d x w s bs).1 = memories d := by simp [encodeStep]

@[simp] theorem encodePage_mems (x : RunEntry) (s : Stream) (bs : List Byte) (fuel : Nat) (w : Work) (u : CodecRun) :
    memories (encodePage x s bs fuel d w u).1 = memories d := by
  induction fuel generalizing d w u with
  | zero => rfl
  | succ fuel ih =>
    unfold encodePage
    dsimp only
    repeat' split
    all_goals simp [ih]

theorem decodePage_mems {x : RunEntry} {fuel : Nat} {d : Dev} {w : Work} {bs : List Byte} {u : CodecRun}
    {y : Dev × Work × CodecRun × Bool} (h : decodePage x fuel d w bs u = some y) : memories y.1 = memories d := by
  induction fuel generalizing d w bs u with
  | zero => cases h; rfl
  | succ fuel ih =>
    unfold decodePage at h
    dsimp only at h
    repeat' split at h
    · cases h; rfl
    · cases h; rfl
    · cases h
    · rw [ih h]; simp

@[simp] theorem runPage_memsWf (x w r s u) (hd : MemsWf (memories d)) : MemsWf (memories (runPage d x w r s u).1) := by
  unfold runPage
  split
  · split
    · dsimp only
      split <;> simp [hd]
    · dsimp only
      split <;> simp [hd]
  · split
    · simp [hd]
    dsimp only
    split
    · simp [hd]
    split
    · simp [hd]
    next h =>
      have same := decodePage_mems h
      dsimp only at same
      split <;> simp [same, hd]
  · exact hd

@[simp] theorem runPages_memsWf (x : RunEntry) (fuel : Nat) (seq : BitVec 32) (u : CodecRun) (hd : MemsWf (memories d)) :
    MemsWf (memories (runPages x fuel d seq u)) := by
  induction fuel generalizing d seq u with
  | zero => exact hd
  | succ fuel ih =>
    unfold runPages
    split
    · exact hd
    next w hw =>
      split
      next r s hr hs =>
        have page := runPage_memsWf d x w r s u hd
        split
        · exact hd
        split
        next heq =>
          rw [heq] at page
          exact ih _ _ _ page
        next heq =>
          rw [heq] at page
          exact page
      · exact hd

@[simp] theorem runCodec_memsWf (x w) (hd : MemsWf (memories d)) : MemsWf (memories (runCodec d x w)) := by
  unfold runCodec
  repeat' split
  all_goals simp [hd]

@[simp] theorem chunkLeft_memsWf (w p) (hd : MemsWf (memories d)) : MemsWf (memories (chunkLeft d w p)) := by
  unfold chunkLeft
  split <;> simp [hd]

@[simp] theorem noteLaunch_mems (w bytes) : memories (noteLaunch d w bytes) = memories d := by
  unfold noteLaunch
  dsimp only
  repeat' split
  all_goals simp

@[simp] theorem dropSent_mems (p c) : memories (dropSent d p c) = memories d := (rfl)

@[simp] theorem sendLost_mems (w) : memories (sendLost d w).2 = memories d := by
  unfold sendLost
  split <;> simp

/-! ### Placements, ticks and eras -/

@[simp] theorem functionChanged_mems (n) : memories (functionChanged d n) = memories d := by simp [functionChanged]

@[simp] theorem takeFunction_mems (n) : memories (takeFunction d n) = memories d := by simp [takeFunction]

@[simp] theorem planPlacement_mems : memories (planPlacement d) = memories d := by simp [planPlacement]

@[simp] theorem markOwner_mems (w) : memories (markOwner d w) = memories d := by simp [markOwner]

@[simp] theorem markLate_mems : memories (markLate d) = memories d := by simp [markLate]

@[simp] theorem throttleTick_memsWf (settled) (hd : MemsWf (memories d)) : MemsWf (memories (throttleTick d settled)) := by
  simp [throttleTick, hd]

@[simp] theorem announceLeap_mems (l) : memories (announceLeap d l) = memories d := (rfl)

@[simp] theorem raiseLeap_mems : memories (raiseLeap d) = memories d := by
  unfold raiseLeap
  split <;> simp

@[simp] theorem leapTick_mems : memories (leapTick d) = memories d := by
  unfold leapTick
  split <;> simp

@[simp] theorem floorTick_mems : memories (floorTick d) = memories d := by simp [floorTick]

@[simp] theorem recoverAlmanac_mems : memories (recoverAlmanac d) = memories d := by simp [recoverAlmanac]

@[simp] theorem cableTick_mems : memories (cableTick d) = memories d := by simp [cableTick]

@[simp] theorem sendTick_mems (b) : memories (sendTick d b) = memories d := by simp [sendTick]

@[simp] theorem masterFrame_mems : memories (masterFrame d) = memories d := by simp [masterFrame]

@[simp] theorem endSetTicks_memsWf (hd : MemsWf (memories d)) : MemsWf (memories (endSetTicks d)) := by
  unfold endSetTicks
  split <;> simp +contextual [foldl_memsWf, hd]

@[simp] theorem dropTile_memsWf (p) (hd : MemsWf (memories d)) : MemsWf (memories (dropTile d p)) := by simp [dropTile, hd]

@[simp] theorem leaveTiles_memsWf (hd : MemsWf (memories d)) : MemsWf (memories (leaveTiles d)) := by
  simp +contextual [leaveTiles, foldl_memsWf, hd]

@[simp] theorem settleTick_mems (ns) : memories (settleTick ns d) = memories d := (rfl)

@[simp] theorem settleBudgets_mems : memories (settleBudgets d) = memories d := (rfl)

@[simp] theorem pageTick_memsWf (hd : MemsWf (memories d)) : MemsWf (memories (pageTick d)) := by simp [pageTick, hd]

@[simp] theorem openTick_memsWf (firmware settled) (hd : MemsWf (memories d)) :
    MemsWf (memories (openTick d firmware settled)) := by
  unfold openTick
  dsimp only
  refine leaveTiles_memsWf _ (takePlan_memsWf _ _ _ ?_)
  simp [hd]

@[simp] theorem changeRate_mems (q) : memories (changeRate q d) = memories d := by
  unfold changeRate
  dsimp only
  split
  · rfl
  · exact foldl_mems (by simp) _ _

@[simp] theorem takeMember_mems (era) : memories (takeMember d era) = memories d := by simp [takeMember]

@[simp] theorem announceDeferred_mems : memories (announceDeferred d) = memories d := by
  unfold announceDeferred
  split <;> simp

@[simp] theorem loneTopology_mems (era) : memories (loneTopology d era) = memories d := by simp [loneTopology]

@[simp] theorem turnEra_mems (c) : memories (turnEra d c) = memories d := by
  unfold turnEra
  dsimp only
  repeat' split
  all_goals simp

@[simp] theorem shiftGroup_mems (h stamp count own) : memories (shiftGroup d h stamp count own) = memories d := (rfl)

@[simp] theorem sendSlip_mems (h g stamp count except) : memories (sendSlip d h g stamp count except) = memories d := by
  simp [sendSlip]

@[simp] theorem judgeSum_mems (before count) : memories (judgeSum d before count) = memories d := by simp [judgeSum]

@[simp] theorem addReport_mems (window count) : memories (addReport d window count) = memories d := by
  unfold addReport
  split <;> simp

@[simp] theorem forwardTick_mems (p b) : memories (forwardTick d p b) = memories d := by simp [forwardTick]

@[simp] theorem enterEra_mems (p b) : memories (enterEra d p b) = memories d := by simp [enterEra]

@[simp] theorem adoptEra_mems (p b) : memories (adoptEra d p b) = memories d := by simp [adoptEra]

@[simp] theorem catchUpEra_memsWf (p b) (hd : MemsWf (memories d)) : MemsWf (memories (catchUpEra d p b)) := by
  simp [catchUpEra, hd]

@[simp] theorem followTick_mems (b measured) : memories (followTick d b measured) = memories d := by simp [followTick]

@[simp] theorem lastFrame_mems (b measured) : memories (lastFrame d b measured) = memories d := by simp [lastFrame]

/-! ### Elections and joins -/

@[simp] theorem startElection_mems : memories (startElection d) = memories d := (rfl)

@[simp] theorem proclaim_mems : memories (proclaim d) = memories d := by simp [proclaim]

@[simp] theorem answerEra_mems (p) : memories (answerEra d p) = memories d := by
  unfold answerEra
  split <;> simp

@[simp] theorem takeProclamation_mems (p b) : memories (takeProclamation d p b) = memories d := by simp [takeProclamation]

@[simp] theorem loseAlmanac_mems : memories (loseAlmanac d) = memories d := by simp [loseAlmanac]

@[simp] theorem acceptEra_memsWf (p x master) (hd : MemsWf (memories d)) : MemsWf (memories (acceptEra d p x master)) := by
  simp [acceptEra, hd]

@[simp] theorem repeatEra_memsWf (p x master) (hd : MemsWf (memories d)) : MemsWf (memories (repeatEra d p x master)) := by
  unfold repeatEra
  dsimp only
  repeat' split
  all_goals simp [hd]

@[simp] theorem compareEra_memsWf (p x y master) (hd : MemsWf (memories d)) :
    MemsWf (memories (compareEra d p x y master)) := by simp [compareEra, hd]

@[simp] theorem receiveDisc_mems (p h good) : memories (receiveDisc d p h good).2 = memories d := by
  unfold receiveDisc
  dsimp only
  repeat' split
  all_goals simp

@[simp] theorem takeReport_memsWf (p b kind) (hd : MemsWf (memories d)) : MemsWf (memories (takeReport d p b kind)) := by
  simp [takeReport, hd]

/-! ### Chunks, grants and credit -/

@[simp] theorem traceSent_mems (event c p) : memories (traceSent d event c p) = memories d := by simp [traceSent]

@[simp] theorem exhaust_memsWf (p c st) (hd : MemsWf (memories d)) : MemsWf (memories (exhaust d p c st)) := by
  unfold exhaust
  dsimp only
  repeat' split
  all_goals simp [hd]

@[simp] theorem resend_mems (p c segments) : memories (resend d p c segments) = memories d := (rfl)

@[simp] theorem retry_memsWf (p c segments st) (hd : MemsWf (memories d)) : MemsWf (memories (retry d p c segments st)) := by
  simp [retry, hd]

@[simp] theorem acknowledged_memsWf (p c) (hd : MemsWf (memories d)) : MemsWf (memories (acknowledged d p c)) := by
  unfold acknowledged
  dsimp only
  repeat' split
  all_goals simp [hd]

@[simp] theorem askAgain_memsWf (p x reason missing) (hd : MemsWf (memories d)) :
    MemsWf (memories (askAgain d p x reason missing)) := by
  unfold askAgain
  dsimp only
  repeat' split
  all_goals simp [hd]

@[simp] theorem sendAck_mems (p x pages) : memories (sendAck d p x pages) = memories d := by simp [sendAck]

@[simp] theorem groupArrival_memsWf (p x bs) (hd : MemsWf (memories d)) : MemsWf (memories (groupArrival d p x bs)) := by
  unfold groupArrival
  dsimp only
  repeat' split
  all_goals simp [hd]

@[simp] theorem failIncoming_memsWf (i st) (hd : MemsWf (memories d)) : MemsWf (memories (failIncoming d i st)) := by
  simp [failIncoming, hd]

@[simp] theorem handoffArrival_memsWf (p x bs) (hd : MemsWf (memories d)) : MemsWf (memories (handoffArrival d p x bs)) := by
  have buffer := bufferLost_mems d (handoffTag x.handle.toNat)
  unfold handoffArrival
  split
  · split
    · simp [hd]
    split
    · simp [hd]
    split
    · simp [hd]
    split
    next lost e he =>
    rw [he] at buffer
    dsimp only at buffer
    split
    · simp [buffer, hd]
    split
    · simp [buffer, hd]
    next h =>
      have stored := storeAll_memsWf h (by simp [buffer, hd])
      dsimp only at stored ⊢
      split
      · simp [stored]
      split <;> simp [stored]
  · exact hd

@[simp] theorem dropPartial_mems (p x) : memories (dropPartial d p x) = memories d := (rfl)

@[simp] theorem holdSlot_mems (x) : memories (holdSlot d x) = memories d := by
  unfold holdSlot
  split <;> simp

@[simp] theorem addSegment_memsWf (p h payload) (hd : MemsWf (memories d)) :
    MemsWf (memories (addSegment d p h payload)) := by simp [addSegment, hd]

@[simp] theorem ackAgain_mems (p h a) : memories (ackAgain d p h a) = memories d := by simp [ackAgain]

@[simp] theorem noteAttempt_mems (p h) : memories (noteAttempt d p h) = memories d := (rfl)

@[simp] theorem withNbr_mems (h p f) : memories (withNbr d h p f) = memories d := (rfl)

@[simp] theorem takeGrant_mems (p h limit) : memories (takeGrant d p h limit) = memories d := by simp [takeGrant]

@[simp] theorem adoptChild_mems (h p first) : memories (adoptChild d h p first) = memories d := (rfl)

@[simp] theorem addDestination_mems (h p first) : memories (addDestination h p first d) = memories d := (rfl)

@[simp] theorem takeParent_mems (h g p first) : memories (takeParent d h g p first) = memories d := by
  unfold takeParent
  dsimp only
  repeat' split
  all_goals simp

@[simp] theorem sendCredit_mems (p) : memories (sendCredit d p) = memories d := by simp [sendCredit]

@[simp] theorem moveLane_mems (p lane) : memories (moveLane d p lane) = memories d := by simp [moveLane]

@[simp] theorem proposeAgain_mems (p) : memories (proposeAgain d p) = memories d := by
  unfold proposeAgain
  split <;> simp

end Sys2Proof.Machine
end


section
/-!
SUPPORT. The memories keep their canonical form: power, faults and the host's accesses.
-/
namespace Sys2Proof.Machine

variable (d : Dev)

/-! ### Brown-out hold, start-up and lost clocks -/

@[simp] theorem setPwrEvent_mems (b) : memories (setPwrEvent d b) = memories d := (rfl)

@[simp] theorem senseDip_mems (mv) : memories (senseDip d mv) = memories d := (rfl)

@[simp] theorem carryVerify_mems (x) : memories (carryVerify d x) = memories d := (rfl)

@[simp] theorem ungather_mems (h seq) : memories (ungather d h seq) = memories d := by
  unfold ungather
  split <;> simp

@[simp] theorem forgetReceived_mems (p stream h seq attempt pages) :
    memories (forgetReceived d p stream h seq attempt pages) = memories d := by
  unfold forgetReceived
  dsimp only
  repeat' split
  all_goals simp

@[simp] theorem damageLaunched_memsWf (p stream h seq) (hd : MemsWf (memories d)) :
    MemsWf (memories (damageLaunched d p stream h seq)) := by
  unfold damageLaunched
  repeat' split
  all_goals simp [hd]

@[simp] theorem damageCodec_memsWf (w) (hd : MemsWf (memories d)) : MemsWf (memories (damageCodec d w)) := by
  unfold damageCodec
  split <;> simp [hd]

@[simp] theorem failItem_memsWf (x1) (hd : MemsWf (memories d)) : MemsWf (memories (failItem d x1)) := by
  unfold failItem
  repeat' split
  all_goals simp [hd]

@[simp] theorem passItem_mems (x1) : memories (passItem d x1) = memories d := by
  unfold passItem
  split <;> simp

@[simp] theorem verifyFrom_memsWf (bad : Nat → Bool) (i : Nat) (items : List HoldItem) (hd : MemsWf (memories d)) :
    MemsWf (memories (verifyFrom bad i items d)) := by
  induction items generalizing i d with
  | nil => exact hd
  | cons x t ih =>
    unfold verifyFrom
    refine ih _ _ ?_
    split <;> simp [hd]

@[simp] theorem verifyAll_memsWf (bad) (hd : MemsWf (memories d)) : MemsWf (memories (verifyAll d bad)) := by
  simp [verifyAll, hd]

@[simp] theorem configPort_mems (p) : memories (configPort d p) = memories d := by
  unfold configPort
  split <;> simp

@[simp] theorem trainPorts_mems : memories (trainPorts d) = memories d := by
  unfold trainPorts
  dsimp only
  rw [foldl_mems (by simp), foldl_mems (by simp), foldl_mems (by simp)]

@[simp] theorem drawFailures_mems : memories (drawFailures d).2 = memories d := (rfl)

@[simp] theorem zeroStores_memsWf (hd : MemsWf (memories d)) : MemsWf (memories (zeroStores d)) := by
  simp +contextual [zeroStores, foldl_memsWf, hd]

@[simp] theorem loseAon_mems : memories (loseAon d) = memories d := (rfl)

@[simp] theorem chooseMap_mems : memories (chooseMap d) = memories d := (rfl)

@[simp] theorem numberTiles_mems (ps) : memories (numberTiles ps d) = memories d := by
  unfold numberTiles
  exact foldl_mems (by simp) _ _

@[simp] theorem bistTiles_memsWf (bad) (hd : MemsWf (memories d)) : MemsWf (memories (bistTiles d bad)) := by
  unfold bistTiles
  extract_lets known fresh out good blank all e f g h
  have numbered (ps) : MemsWf (memories (numberTiles ps all)) := by rwa [numberTiles_mems]
  have marked : memories h = memories f := foldl_mems (fun d p => setPhys_mems d p _) _ _
  split
  · exact foldl_memsWf (fun d p hd => by simp [hd]) _ (numbered _)
  · exact foldl_memsWf (fun d p hd => by simp [hd]) _ (by rw [marked]; exact numbered _)

@[simp] theorem placeBanks_mems : memories (placeBanks d) = memories d := by
  unfold placeBanks
  exact foldl_mems (by simp) _ _

@[simp] theorem bistBank_memsWf (e) (hd : MemsWf (memories d)) : MemsWf (memories (bistBank d e)) := by
  unfold bistBank
  dsimp only
  repeat' split
  all_goals simp [hd]

@[simp] theorem placeLanes_mems : memories (placeLanes d) = memories d := by
  unfold placeLanes
  refine foldl_mems (fun d e => ?_) _ _
  split <;> rfl

@[simp] theorem trainHbm_mems : memories (trainHbm d) = memories d := by simp [trainHbm]

theorem takeReplacement_mems {d : Dev} {stack page : Nat} {x : Nat × Dev} (h : takeReplacement d stack page = some x) :
    memories x.2 = memories d := by
  unfold takeReplacement at h
  dsimp only at h
  split at h
  · cases h
  · cases h; rfl

@[simp] theorem retireMapped_mems (stack page) : memories (retireMapped d stack page) = memories d := by
  unfold retireMapped
  dsimp only
  repeat' split
  · rfl
  · rfl
  next taken => exact takeReplacement_mems taken

@[simp] theorem bootFail_mems (stage code) : memories (bootFail d stage code) = memories d := (rfl)

@[simp] theorem startClocks_mems : memories (startClocks d) = memories d := (rfl)

@[simp] theorem sampleStraps_mems (b) : memories (sampleStraps d b) = memories d := (rfl)

@[simp] theorem judgeLevel_mems : memories (judgeLevel d) = memories d := by simp [judgeLevel]

@[simp] theorem tickFault_mems : memories (tickFault d) = memories d := by simp [tickFault]

@[simp] theorem stopTrace_mems : memories (stopTrace d) = memories d := by
  unfold stopTrace
  exact foldl_mems (by simp) _ _

@[simp] theorem dropQuad_memsWf (q) (hd : MemsWf (memories d)) : MemsWf (memories (dropQuad d q)) := by
  refine foldl_memsWf (fun d p hd => ?_) _ hd
  split <;> simp [hd]

/-! ### Failed tiles, memory errors and background tasks -/

@[simp] theorem otherTile_mems : memories (otherTile d).2 = memories d := (rfl)

@[simp] theorem moveEntry_mems (x lastTry) : memories (moveEntry d x lastTry) = memories d := by
  unfold moveEntry
  dsimp only
  repeat' split
  all_goals simp

@[simp] theorem evacuate_mems (l twice) : memories (evacuate d l twice) = memories d := by simp [evacuate]

@[simp] theorem dropBankRepairs_mems (p) : memories (dropBankRepairs d p) = memories d := (rfl)

@[simp] theorem failActive_memsWf (p twice) (hd : MemsWf (memories d)) : MemsWf (memories (failActive d p twice)) := by
  simp [failActive, hd]

@[simp] theorem failReceiver_mems (p) : memories (failReceiver d p) = memories d := by
  unfold failReceiver
  split <;> simp

@[simp] theorem failTile_memsWf (p twice) (hd : MemsWf (memories d)) : MemsWf (memories (failTile d p twice)) := by
  unfold failTile
  split <;> simp [hd]

@[simp] theorem noteParity_mems (tile engine) : memories (noteParity d tile engine) = memories d := (rfl)

@[simp] theorem parityEntry_memsWf (p engine x) (hd : MemsWf (memories d)) :
    MemsWf (memories (parityEntry d p engine x)) := by
  unfold parityEntry
  dsimp only
  repeat' split
  all_goals simp [hd]

@[simp] theorem switchTile_mems (c) : memories (switchTile d c) = memories d := by simp [switchTile]

@[simp] theorem clearApproved_mems (kind unit fits) : memories (clearApproved d kind unit fits) = memories d := (rfl)

@[simp] theorem repairDue_memsWf (kind unit detail) (hd : MemsWf (memories d)) :
    MemsWf (memories (repairDue d kind unit detail)) := by simp [repairDue, hd]

@[simp] theorem bankDue_memsWf (p bank) (hd : MemsWf (memories d)) : MemsWf (memories (bankDue d p bank)) := by
  unfold bankDue
  split <;> simp [hd]

@[simp] theorem switchBank_mems (p bank sb) : memories (switchBank d p bank sb) = memories d := by simp [switchBank]

@[simp] theorem retirePage_memsWf (stack page a) (hd : MemsWf (memories d)) :
    MemsWf (memories (retirePage d stack page a)) := by
  unfold retirePage
  dsimp only
  rw [traceDevice_mems, setRprEvent_mems, appendMap_mems, withStack_mems, clearApproved_mems]
  exact ⟨movePage_wf hd.1 _ _, hd.2⟩

@[simp] theorem damageStore_mems : memories (damageStore d) = memories d := by
  unfold damageStore
  dsimp only
  repeat' split
  all_goals simp

@[simp] theorem countUncorrectable_mems (a) : memories (countUncorrectable d a) = memories d := by
  unfold countUncorrectable
  dsimp only
  repeat' split
  all_goals simp

@[simp] theorem scratchError_memsWf (a) (hd : MemsWf (memories d)) : MemsWf (memories (scratchError d a)) := by
  unfold scratchError
  split <;> simp [hd]

@[simp] theorem hbmError_memsWf (a) (hd : MemsWf (memories d)) : MemsWf (memories (hbmError d a)) := by
  generalize hx : hbmError d a = x
  unfold hbmError at hx
  extract_lets i up e at hx
  have kept : memories e = memories d := by simp [e]
  clear_value e
  split at hx
  · rw [← hx, damageStore_mems, kept]
    exact hd
  dsimp only at hx
  split at hx
  all_goals
    rw [← hx]
    refine repairDue_memsWf _ _ _ _ ?_
    rw [draw_mems, poisonLine_mems, kept]
    exact hd

@[simp] theorem noteOverdue_mems (k) : memories (noteOverdue d k) = memories d := (rfl)

@[simp] theorem displace_mems (unit) : memories (displace d unit) = memories d := (rfl)

@[simp] theorem recalibrate_mems (q) : memories (recalibrate d q) = memories d := by
  unfold recalibrate
  exact foldl_mems (by simp) _ _

@[simp] theorem countCorrected_mems (index lo hi) : memories (countCorrected d index lo hi).2 = memories d := by
  simp [countCorrected]

@[simp] theorem scrubTile_mems (p) : memories (scrubTile d p) = memories d := by
  unfold scrubTile
  dsimp only
  repeat' split
  all_goals simp

@[simp] theorem scrubStack_mems (i) : memories (scrubStack d i) = memories d := by
  obtain ⟨f, hf⟩ : ∃ f, f = @scrubStack := ⟨_, rfl⟩
  obtain ⟨stack, hs⟩ : ∃ s, s = stackOf := ⟨_, rfl⟩
  rw [← hf]
  delta scrubStack at hf
  rw [← hs] at hf
  subst hf
  dsimp only
  split <;> simp

@[simp] theorem passTask_mems (unit k) : memories (passTask d unit k) = memories d := by
  unfold passTask
  repeat' split
  all_goals simp

/-! ### The host's accesses -/

@[simp] theorem takeSnap_mems : memories (takeSnap d) = memories d := (rfl)

@[simp] theorem writeTikControl_mems (w) : memories (writeTikControl d w) = memories d := by simp [writeTikControl]

@[simp] theorem writeCable_mems (w) : memories (writeCable d w) = memories d := (rfl)

@[simp] theorem writeTray_mems (w) : memories (writeTray d w) = memories d := by
  unfold writeTray
  dsimp only
  repeat' split
  all_goals simp

@[simp] theorem writeDesignate_memsWf (set) (hd : MemsWf (memories d)) : MemsWf (memories (writeDesignate d set)) := by
  unfold writeDesignate
  dsimp only
  repeat' split
  all_goals simp [hd]

@[simp] theorem writeThermal_mems (w) : memories (writeThermal d w) = memories d := by simp [writeThermal]

@[simp] theorem writeBrown_mems (w) : memories (writeBrown d w) = memories d := (rfl)

@[simp] theorem writeDbgCtrl_mems (w) : memories (writeDbgCtrl d w) = memories d := by simp [writeDbgCtrl]

@[simp] theorem hostHalt_mems : memories (hostHalt d) = memories d := by simp [hostHalt]

@[simp] theorem startDestroy_memsWf (n) (hd : MemsWf (memories d)) : MemsWf (memories (startDestroy d n)) := by
  unfold startDestroy
  split <;> simp [hd]

@[simp] theorem restartMailboxes_memsWf (hd : MemsWf (memories d)) : MemsWf (memories (restartMailboxes d)) := by
  have destroyed (l : List Mbx) : MemsWf (memories (l.foldl startDestroy d)) :=
    foldl_memsWf (fun d n hd => startDestroy_memsWf d n hd) l hd
  exact fetchTurns_memsWf _ (foldl_memsWf (fun d n hd => startHeld_memsWf d n hd) _ (destroyed _))

@[simp] theorem verifyAfterHalt_memsWf (hd : MemsWf (memories d)) : MemsWf (memories (verifyAfterHalt d)) := by
  simp [verifyAfterHalt, hd]

@[simp] theorem hostResume_memsWf (hd : MemsWf (memories d)) : MemsWf (memories (hostResume d)) := by
  unfold hostResume
  split
  · exact hd
  · exact restartMailboxes_memsWf _ (verifyAfterHalt_memsWf _ (by simp [hd]))

@[simp] theorem hostStep_mems (core) : memories (hostStep d core) = memories d := by simp [hostStep]

@[simp] theorem writeHalt_memsWf (w) (hd : MemsWf (memories d)) : MemsWf (memories (writeHalt d w)) := by
  simp [writeHalt, hd]

@[simp] theorem cancelWatches_mems (mask) : memories (cancelWatches d mask) = memories d := by simp [cancelWatches]

@[simp] theorem writePortCtrl_memsWf (p w) (hd : MemsWf (memories d)) : MemsWf (memories (writePortCtrl d p w)) := by
  simp [writePortCtrl, hd]

@[simp] theorem accessError_mems : memories (accessError d) = memories d := (rfl)

@[simp] theorem countUnbacked_mems : memories (countUnbacked d) = memories d := (rfl)

@[simp] theorem poisonRead_mems (n) : memories (poisonRead d n) = memories d := (rfl)

@[simp] theorem readMemory_mems (a n) : memories (readMemory d a n) = memories d := by simp [readMemory]

@[simp] theorem bar4Read_mems (o n) : memories (bar4Read d o n) = memories d := by
  unfold bar4Read
  split <;> simp

@[simp] theorem bar4Write_memsWf (o bs) (hd : MemsWf (memories d)) : MemsWf (memories (bar4Write d o bs)) := by
  unfold bar4Write
  split <;> simp [hd]

@[simp] theorem grantIf_mems (cached line) : memories (grantIf cached d line) = memories d := by simp [grantIf]

@[simp] theorem windowRead_mems (line cached) : memories (windowRead d line cached) = memories d := by
  unfold windowRead
  split <;> simp

@[simp] theorem dropWac_memsWf (h s pos) (hd : MemsWf (memories d)) : MemsWf (memories (dropWac d h s pos)) := by
  simp [dropWac, hd]

@[simp] theorem windowLineWrite_memsWf (o bs) (hd : MemsWf (memories d)) : MemsWf (memories (windowLineWrite d o bs)) := by
  unfold windowLineWrite
  split <;> simp [hd]

@[simp] theorem windowWrite_memsWf (fuel : Nat) (o : Nat) (bs : List Byte) (hd : MemsWf (memories d)) :
    MemsWf (memories (windowWrite fuel d o bs)) := by
  induction fuel generalizing d o bs with
  | zero => exact hd
  | succ fuel ih =>
    unfold windowWrite
    split
    · exact hd
    · exact ih _ _ _ (windowLineWrite_memsWf d o _ hd)

@[simp] theorem serveRoom_mems : memories (serveRoom d) = memories d := by
  unfold serveRoom
  split <;> simp

@[simp] theorem snoopDone_mems (line) : memories (snoopDone d line) = memories d := by simp [snoopDone]

end Sys2Proof.Machine
end


section
/-!
SUPPORT. The memories keep their canonical form: the turns of the commands, the island, resets and register accesses.
-/
namespace Sys2Proof.Machine

variable (d : Dev)

/-! ### The turns of the commands -/

@[simp] theorem turnCommit_memsWf (r h s n) (hd : MemsWf (memories d)) : MemsWf (memories (turnCommit d r h s n)) := by
  unfold turnCommit
  dsimp only
  repeat' split
  all_goals simp [hd]
  all_goals
    next reserved _ _ => simp [reservePages_mems reserved, hd]

@[simp] theorem dropCommit_memsWf (r st) (hd : MemsWf (memories d)) : MemsWf (memories (dropCommit d r st)) := by
  simp [dropCommit, hd]

@[simp] theorem commitEvent_mems (h s n) : memories (commitEvent d h s n) = memories d := by simp [commitEvent]

@[simp] theorem commitStep5_memsWf (r n) (hd : MemsWf (memories d)) : MemsWf (memories (commitStep5 d r n)) := by
  unfold commitStep5
  dsimp only
  repeat' split
  all_goals simp [hd]

@[simp] theorem giveUp_memsWf (r) (hd : MemsWf (memories d)) : MemsWf (memories (giveUp d r)) := by
  unfold giveUp
  split <;> simp [hd]

@[simp] theorem takeTurn_memsWf (r) (hd : MemsWf (memories d)) : MemsWf (memories (takeTurn d r)) := by
  unfold takeTurn
  dsimp only
  generalize r.cmd = c
  cases c
  case bucketOpen | bucketAdd | bucketSeal | topk | quant | lowrank | reduceToOne => simp [hd]
  case residualFlush => split <;> simp [hd]
  all_goals
    dsimp only
    split <;> simp [hd]

@[simp] theorem commitIfReady_memsWf (r) (hd : MemsWf (memories d)) : MemsWf (memories (commitIfReady d r)) := by
  unfold commitIfReady
  split <;> simp [hd]

@[simp] theorem turnIfReady_memsWf (r) (hd : MemsWf (memories d)) : MemsWf (memories (turnIfReady d r)) := by
  unfold turnIfReady
  split
  · simp [hd]
  · split <;> simp [hd]

@[simp] theorem wakeOne_memsWf (id) (hd : MemsWf (memories d)) : MemsWf (memories (wakeOne d id)) := by
  unfold wakeOne
  repeat' split
  all_goals simp [hd]

@[simp] theorem wakePass_memsWf (hd : MemsWf (memories d)) : MemsWf (memories (wakePass d)) :=
  foldl_memsWf wakeOne_memsWf _ (advanceAll_memsWf _ (settleArrivals_memsWf d hd))

@[simp] theorem wakeLoop_memsWf (n : Nat) (hd : MemsWf (memories d)) : MemsWf (memories (wakeLoop n d)) := by
  induction n generalizing d with
  | zero => exact hd
  | succ n ih => exact ih _ (wakePass_memsWf d hd)

@[simp] theorem wake_memsWf (hd : MemsWf (memories d)) : MemsWf (memories (wake d)) := by simp [wake, hd]

@[simp] theorem firmwareGivesUp_memsWf (n) (hd : MemsWf (memories d)) : MemsWf (memories (firmwareGivesUp d n)) := by
  have same := choose_mems d (none :: some none :: (d.running.filter fun r => r.mbx = n).map (some ∘ some))
  unfold firmwareGivesUp
  split
  all_goals
    next heq =>
      rw [heq] at same
      dsimp only at same
      simp [same, hd]

/-! ### Time, the event tap and the records -/

@[simp] theorem passTime_memsWf (ns) (hd : MemsWf (memories d)) : MemsWf (memories (passTime d ns)) := by
  unfold passTime
  dsimp only
  split <;> simp [hd]

@[simp] theorem endTick_memsWf (hd : MemsWf (memories d)) : MemsWf (memories (endTick d)) := by simp [endTick, hd]

@[simp] theorem metLog_mems (kind detail) : memories (metLog d kind detail) = memories d := by
  unfold metLog
  split <;> simp

@[simp] theorem takeTap_mems (e) : memories (takeTap d e) = memories d := by
  unfold takeTap
  dsimp only
  repeat' split
  all_goals simp

@[simp] theorem endDue_mems : memories (endDue d) = memories d := by
  unfold endDue
  split <;> simp

@[simp] theorem drainTap_mems : memories (drainTap d) = memories d := by
  rw [drainTap, foldl_mems takeTap_mems, endDue_mems, withMet_mems]

@[simp] theorem endExtension_mems : memories (endExtension d) = memories d := by
  unfold endExtension
  split <;> simp

@[simp] theorem endOpenCommits_memsWf (hd : MemsWf (memories d)) : MemsWf (memories (endOpenCommits d)) := by
  refine foldl_memsWf (fun d r hd => ?_) _ hd
  split <;> simp [hd]

/-! ### Resets, start-up and lost clocks -/

@[simp] theorem bootEntry_mems (version) : memories (bootEntry d version) = memories d := by
  unfold bootEntry
  split <;> simp

@[simp] theorem bootCores_mems : memories (bootCores d) = memories d := by simp [bootCores]

@[simp] theorem recover_mems : memories (recover d) = memories d := by
  unfold recover
  dsimp only
  split <;> simp

@[simp] theorem resumeBoot_mems : memories (resumeBoot d) = memories d := by
  unfold resumeBoot
  split <;> simp

@[simp] theorem resumeHold_memsWf (bad) (hd : MemsWf (memories d)) : MemsWf (memories (resumeHold d bad)) := by
  unfold resumeHold
  dsimp only
  rw [resumeBoot_mems]
  refine takePlan_memsWf _ _ _ ?_
  rw [planPlacement_mems]
  repeat' split
  all_goals simp [hd]

@[simp] theorem islandReset_mems : memories (islandReset d) = memories d := by
  unfold islandReset
  dsimp only
  rw [withMet_mems]
  split <;> simp

theorem dieReset_bar2 (kind kept) : (dieReset d kind kept).bar2
    = undefine (zeroStores (islandReset d)) (zeroStores (islandReset d)).bar2 fun _ => true :=
  rfl

/-- A reset erases scratchpad, leaves undefined what it does not keep, and empties the staging (Table 13-6). -/
@[simp] theorem dieReset_memsWf (kind kept) (hd : MemsWf (memories d)) : MemsWf (memories (dieReset d kind kept)) := by
  have zeroed : MemoriesWf (zeroStores (islandReset d)) := by simp [memoriesWf_iff, hd]
  obtain ⟨hmem, hbar, -⟩ := zeroed
  refine ⟨?mem, ?bar2, rfl⟩
  case mem =>
    show (dieReset d kind kept).mem.wf = true
    rw [dieReset_mem]
    exact undefine_wf _ (memErase_wf hmem _ _) _
  case bar2 =>
    show (dieReset d kind kept).bar2.wf = true
    rw [dieReset_bar2]
    exact undefine_wf _ hbar _

@[simp] theorem deviceReset_memsWf (kind) (hd : MemsWf (memories d)) : MemsWf (memories (deviceReset d kind)) := by
  unfold deviceReset
  split <;> simp [hd]

@[simp] theorem startUp_memsWf (b) (hd : MemsWf (memories d)) : MemsWf (memories (startUp d b)) := by
  unfold startUp
  dsimp only
  repeat' split
  all_goals simp +contextual [foldl_memsWf, hd]

@[simp] theorem linkLost_memsWf (hd : MemsWf (memories d)) : MemsWf (memories (linkLost d)) := by
  unfold linkLost
  dsimp only
  refine foldl_memsWf (fun d n hd => ?_) _ (endOpenCommits_memsWf d hd)
  split <;> simp [hd]

@[simp] theorem clockLost_memsWf (i) (hd : MemsWf (memories d)) : MemsWf (memories (clockLost d i)) := by
  unfold clockLost
  repeat' split
  all_goals simp [hd]

@[simp] theorem recordError_mems (o) : memories (recordError d o) = memories d := by
  unfold recordError
  dsimp only
  split <;> simp

/-! ### Register accesses -/

@[simp] theorem writeRecover_mems (w) : memories (writeRecover d w) = memories d := by
  unfold writeRecover
  dsimp only
  repeat' split
  all_goals simp

@[simp] theorem writeReg_memsWf (r w) (hd : MemsWf (memories d)) : MemsWf (memories (writeReg d r w)) := by
  unfold writeReg
  split
  case h_2 => split <;> simp [hd]
  all_goals simp [hd]

@[simp] theorem collect_mems : memories (collect d) = memories d := by simp [collect]

@[simp] theorem markRead_mems (o n) : memories (markRead d o n) = memories d := by
  unfold markRead
  split <;> rfl

@[simp] theorem readEffect_mems (r) : memories (readEffect d r) = memories d := by
  unfold readEffect
  repeat' split
  all_goals simp

@[simp] theorem readWord_mems (o) : memories (readWord d o) = memories d := by
  unfold readWord
  split <;> simp

end Sys2Proof.Machine
end


section
/-!
SUPPORT. What every command does: it completes, takes nothing from the queue, and keeps the memories in canonical form.
-/
namespace Sys2Proof.Machine

/-- The outcome is a next state that differs from `s` in its device only, whose memories keep their canonical form. -/
def Keeps (s : State) (o : Host.Outcome State Fault Refusal) : Prop :=
  ∃ d, o = .next { s with dev := d } ∧ (MemsWf (memories s.dev) → MemsWf (memories d))

section
variable (s : State)

@[simp] theorem keeps_self : Keeps s (.next s) := ⟨s.dev, rfl, id⟩

@[simp] theorem keeps_finish (d : Dev) : Keeps s (finish s d) ↔ (MemsWf (memories s.dev) → MemsWf (memories (wake d))) := by
  have settles : finish s d = .next { s with dev := raiseInts s.dev (wake d) } := rfl
  constructor
  · rintro ⟨e, he, kept⟩
    cases settles.symm.trans he
    simpa using kept
  · exact fun kept => ⟨_, settles, by simpa using kept⟩

theorem keeps_finish_of {d : Dev} (h : MemsWf (memories s.dev) → MemsWf (memories d)) : Keeps s (finish s d) :=
  (keeps_finish s d).mpr fun hs => wake_memsWf d (h hs)

@[simp] theorem issue_keeps (n : Mbx) (h : Hdr) (c : Cmd) : Keeps s (issue n h c s) := by
  unfold issue
  dsimp only
  split <;> simp +contextual

@[simp] theorem hostWrite_keeps (r : Reg) (w : Word) : Keeps s (hostWrite s r w) := by
  unfold hostWrite
  split <;> simp +contextual

@[simp] theorem hostRead_keeps (o : Nat) : Keeps s (hostRead s o) := by
  unfold hostRead
  repeat' split
  all_goals simp +contextual

@[simp] theorem execSubmissionTailDoorbell_keeps (n : Mbx) (tail : Word) (stores : List HostStore) :
    Keeps s (execSubmissionTailDoorbell n tail stores s) := by
  have stored (hs : MemsWf (memories s.dev)) : MemsWf (memories (stores.foldl hostStore s.dev)) :=
    foldl_memsWf hostStore_memsWf stores hs
  unfold execSubmissionTailDoorbell
  dsimp only
  repeat' split
  · exact keeps_finish_of s stored
  · exact keeps_finish_of s fun hs => by simp [stored hs]
  · exact keeps_finish_of s fun hs => by simp [stored hs]

@[simp] theorem execCompletionHeadDoorbell_keeps (n : Mbx) (head : Word) :
    Keeps s (execCompletionHeadDoorbell n head s) := by
  unfold execCompletionHeadDoorbell
  dsimp only
  repeat' split
  · simp
  · simp +contextual
  · exact keeps_finish_of s fun hs => fetchTurns_memsWf _ (by simp [hs])

@[simp] theorem execMailboxEnable_keeps (n : Mbx) (value : Word) : Keeps s (execMailboxEnable n value s) := by
  unfold execMailboxEnable
  split <;> simp +contextual

@[simp] theorem execMailboxDisable_keeps (n : Mbx) (value : Word) : Keeps s (execMailboxDisable n value s) := by
  unfold execMailboxDisable
  split <;> simp +contextual

@[simp] theorem execCommandStart_keeps (n : Mbx) : Keeps s (execCommandStart n s) :=
  keeps_finish_of s fun hs => fetchTurns_memsWf _ (by simp [hs])

@[simp] theorem execPlanEntryStart_keeps (resource : BitVec 16) (appended : List PlanEntry) :
    Keeps s (execPlanEntryStart resource appended s) := by
  unfold execPlanEntryStart
  dsimp only
  repeat' split
  all_goals simp +contextual

@[simp] theorem execCompressEntryDone_keeps (resource : BitVec 16) (engineFault : Bool) :
    Keeps s (execCompressEntryDone resource engineFault s) := by
  unfold execCompressEntryDone
  dsimp only
  repeat' split
  all_goals simp +contextual

@[simp] theorem execCodecEntryDone_keeps (resource : BitVec 16) : Keeps s (execCodecEntryDone resource s) := by
  unfold execCodecEntryDone
  dsimp only
  repeat' split
  all_goals simp +contextual

@[simp] theorem execTransmitEntryDone_keeps (p : Port) : Keeps s (execTransmitEntryDone p s) := by
  unfold execTransmitEntryDone
  dsimp only
  repeat' split
  all_goals simp +contextual

@[simp] theorem execPlacementTakesEffect_keeps (fn : MovFn) : Keeps s (execPlacementTakesEffect fn s) := by
  unfold execPlacementTakesEffect
  split <;> simp +contextual

@[simp] theorem execTickBoundary_keeps (firmwarePlan : List PlanEntry) (vcoreSettled : Bool) :
    Keeps s (execTickBoundary firmwarePlan vcoreSettled s) := by
  unfold execTickBoundary
  split
  · simp
  · exact keeps_finish_of s fun hs => openTick_memsWf _ _ _ (by simp [hs])

@[simp] theorem execEraBoundary_keeps : Keeps s (execEraBoundary s) := by
  unfold execEraBoundary
  dsimp only
  repeat' split
  · simp
  · simp
  · exact keeps_finish_of s fun hs => openTick_memsWf _ _ _ (by simp [hs])

@[simp] theorem execTickWrapEraChange_keeps : Keeps s (execTickWrapEraChange s) := by
  unfold execTickWrapEraChange
  dsimp only
  split <;> simp +contextual

@[simp] theorem execGroupSlip_keeps (group : Fin 256) : Keeps s (execGroupSlip group s) := by
  unfold execGroupSlip
  dsimp only
  repeat' split
  all_goals simp +contextual

@[simp] theorem execGroupStalled_keeps (group : Fin 256) : Keeps s (execGroupStalled group s) := by
  unfold execGroupStalled
  dsimp only
  repeat' split
  all_goals simp +contextual

@[simp] theorem execTickReportSend_keeps : Keeps s (execTickReportSend s) := by
  unfold execTickReportSend
  dsimp only
  repeat' split
  all_goals simp +contextual

@[simp] theorem execTickReport_keeps (p : Port) (h : LysHdr) (window : BitVec 48) (count : BitVec 16) :
    Keeps s (execTickReport p h window count s) := by
  unfold execTickReport
  dsimp only
  split <;> simp +contextual

@[simp] theorem execLeapLower_keeps : Keeps s (execLeapLower s) := by
  unfold execLeapLower
  dsimp only
  repeat' split
  all_goals simp +contextual

@[simp] theorem execTickFrame_keeps (p : Port) (h : LysHdr) (b : TickBody) (measuredOffset : Int) :
    Keeps s (execTickFrame p h b measuredOffset s) := by
  unfold execTickFrame
  dsimp only
  repeat' split
  all_goals simp +contextual

@[simp] theorem execTickLock_keeps : Keeps s (execTickLock s) := by
  unfold execTickLock
  dsimp only
  split <;> simp +contextual

@[simp] theorem execCableFault_keeps : Keeps s (execCableFault s) := by
  unfold execCableFault
  split <;> simp +contextual

@[simp] theorem execPeerDelaySend_keeps (p : Port) : Keeps s (execPeerDelaySend p s) := by
  unfold execPeerDelaySend
  dsimp only
  split <;> simp +contextual

@[simp] theorem execPeerDelayRequest_keeps (p : Port) (h : LysHdr) (number : BitVec 16) (received : WireTime) :
    Keeps s (execPeerDelayRequest p h number received s) := by
  unfold execPeerDelayRequest
  dsimp only
  split <;> simp +contextual

@[simp] theorem execPeerDelayResponse_keeps (p : Port) (h : LysHdr) (number : BitVec 16) (t2 t3 t4 : WireTime) :
    Keeps s (execPeerDelayResponse p h number t2 t3 t4 s) := by
  unfold execPeerDelayResponse
  dsimp only
  repeat' split
  all_goals simp +contextual

@[simp] theorem execHoldoverEntry_keeps : Keeps s (execHoldoverEntry s) := by
  unfold execHoldoverEntry
  dsimp only
  split <;> simp +contextual

@[simp] theorem execElectionStart_keeps : Keeps s (execElectionStart s) := by
  unfold execElectionStart
  dsimp only
  split <;> simp +contextual

@[simp] theorem execProclamationSend_keeps : Keeps s (execProclamationSend s) := by
  unfold execProclamationSend
  dsimp only
  split <;> simp +contextual

@[simp] theorem execProclamation_keeps (p : Port) (h : LysHdr) (b : ProcBody) : Keeps s (execProclamation p h b s) := by
  unfold execProclamation
  dsimp only
  repeat' split
  all_goals simp +contextual

@[simp] theorem execBecomeMaster_keeps : Keeps s (execBecomeMaster s) := by
  unfold execBecomeMaster
  dsimp only
  repeat' split
  all_goals simp +contextual

@[simp] theorem execAlmanacLost_keeps : Keeps s (execAlmanacLost s) := by
  unfold execAlmanacLost
  dsimp only
  split <;> simp +contextual

@[simp] theorem execEraFrame_keeps (p : Port) (h : LysHdr) (b : ProcBody) : Keeps s (execEraFrame p h b s) := by
  unfold execEraFrame
  dsimp only
  repeat' split
  all_goals simp +contextual

@[simp] theorem execEraFramePeriodic_keeps : Keeps s (execEraFramePeriodic s) := by
  unfold execEraFramePeriodic
  dsimp only
  repeat' split
  all_goals simp +contextual

@[simp] theorem execTopologyForm_keeps : Keeps s (execTopologyForm s) := by
  unfold execTopologyForm
  dsimp only
  split <;> simp +contextual

@[simp] theorem execTopologyMissing_keeps : Keeps s (execTopologyMissing s) := by
  unfold execTopologyMissing
  dsimp only
  split <;> simp +contextual

@[simp] theorem execTopologySegment_keeps (p : Port) (h : LysHdr) (b : TopoBody) :
    Keeps s (execTopologySegment p h b s) := by
  unfold execTopologySegment
  dsimp only
  repeat' split
  all_goals simp +contextual

@[simp] theorem execHelloSend_keeps (p : Port) : Keeps s (execHelloSend p s) := by
  unfold execHelloSend
  dsimp only
  split <;> simp +contextual

@[simp] theorem execHello_keeps (p : Port) (h : LysHdr) (b : HelloBody) : Keeps s (execHello p h b s) := by
  unfold execHello
  dsimp only
  repeat' split
  all_goals simp +contextual

@[simp] theorem execLinkReport_keeps (p : Port) (h : LysHdr) (b : ReportBody) : Keeps s (execLinkReport p h b s) := by
  unfold execLinkReport
  dsimp only
  split <;> simp +contextual

@[simp] theorem execJoinRequest_keeps (p : Port) (h : LysHdr) (b : ReportBody) : Keeps s (execJoinRequest p h b s) := by
  unfold execJoinRequest
  dsimp only
  split <;> simp +contextual

@[simp] theorem execJoinAnnounce_keeps : Keeps s (execJoinAnnounce s) := by
  unfold execJoinAnnounce
  dsimp only
  repeat' split
  all_goals simp +contextual

@[simp] theorem execMemberLost_keeps (p : Port) (h : LysHdr) (member : BitVec 12) :
    Keeps s (execMemberLost p h member s) := by
  unfold execMemberLost
  dsimp only
  split <;> simp +contextual

@[simp] theorem execChildAttach_keeps (p : Port) (h : LysHdr) : Keeps s (execChildAttach p h s) := by
  unfold execChildAttach
  dsimp only
  split <;> simp +contextual

@[simp] theorem execDuplicateNotice_keeps (p : Port) (h : LysHdr) (serial : BitVec 64) :
    Keeps s (execDuplicateNotice p h serial s) := by
  unfold execDuplicateNotice
  dsimp only
  repeat' split
  all_goals simp +contextual

@[simp] theorem execReAsk_keeps (p : Port) (h : LysHdr) (reason : BitVec 8) (missing : BitVec 32) :
    Keeps s (execReAsk p h reason missing s) := by
  unfold execReAsk
  dsimp only
  repeat' split
  all_goals simp +contextual

@[simp] theorem execAckTimeout_keeps (p : Port) (stream : Bool) (handle : BitVec 16) (seq : BitVec 32) :
    Keeps s (execAckTimeout p stream handle seq s) := by
  unfold execAckTimeout
  repeat' split
  all_goals simp +contextual

@[simp] theorem execAck_keeps (p : Port) (h : LysHdr) : Keeps s (execAck p h s) := by
  unfold execAck
  dsimp only
  repeat' split
  all_goals simp +contextual

@[simp] theorem execChunkSegment_keeps (p : Port) (h : LysHdr) (payload : List Byte) :
    Keeps s (execChunkSegment p h payload s) := by
  unfold execChunkSegment
  dsimp only
  repeat' split
  all_goals simp +contextual

@[simp] theorem execReasmTimeout_keeps (p : Port) (stream : Bool) (handle : BitVec 16) (seq : BitVec 32) :
    Keeps s (execReasmTimeout p stream handle seq s) := by
  unfold execReasmTimeout
  split <;> simp +contextual

@[simp] theorem execSlipNotice_keeps (p : Port) (h : LysHdr) (tick : BitVec 48) (group : BitVec 16)
    (count : BitVec 32) :
    Keeps s (execSlipNotice p h tick group count s) := by
  unfold execSlipNotice
  dsimp only
  repeat' split
  all_goals simp +contextual

@[simp] theorem execExponentNotice_keeps (p : Port) (h : LysHdr) (group : BitVec 16) (bucket exponent : BitVec 8) :
    Keeps s (execExponentNotice p h group bucket exponent s) := by
  unfold execExponentNotice
  dsimp only
  repeat' split
  all_goals simp +contextual

@[simp] theorem execGrant_keeps (p : Port) (h : LysHdr) (limit : BitVec 32) : Keeps s (execGrant p h limit s) := by
  unfold execGrant
  dsimp only
  split <;> simp +contextual

@[simp] theorem execAdopt_keeps (p : Port) (h : LysHdr) (first : BitVec 32) : Keeps s (execAdopt p h first s) := by
  unfold execAdopt
  dsimp only
  repeat' split
  all_goals simp +contextual

@[simp] theorem execAdoptReply_keeps (p : Port) (h : LysHdr) (first : BitVec 32) (accepted : Bool) :
    Keeps s (execAdoptReply p h first accepted s) := by
  unfold execAdoptReply
  dsimp only
  repeat' split
  all_goals simp +contextual

@[simp] theorem execAbort_keeps (p : Port) (h : LysHdr) (status : BitVec 16) : Keeps s (execAbort p h status s) := by
  unfold execAbort
  dsimp only
  repeat' split
  all_goals simp +contextual

@[simp] theorem execHandoffBegin_keeps (p : Port) (h : LysHdr) (first positions : BitVec 32)
    (firstLayer layersM1 bppUnits format : BitVec 8) :
    Keeps s (execHandoffBegin p h first positions firstLayer layersM1 bppUnits format s) := by
  unfold execHandoffBegin
  dsimp only
  repeat' split
  case h_2 room => exact keeps_finish_of s fun hs => by simp [handoffRoom_mems room, hs]
  all_goals simp +contextual

@[simp] theorem execHandoffReply_keeps (p : Port) (h : LysHdr) (status : BitVec 16) (limit : BitVec 32) :
    Keeps s (execHandoffReply p h status limit s) := by
  unfold execHandoffReply
  dsimp only
  repeat' split
  all_goals simp +contextual

@[simp] theorem execHandoffGrant_keeps (p : Port) (h : LysHdr) (limit : BitVec 32) :
    Keeps s (execHandoffGrant p h limit s) := by
  unfold execHandoffGrant
  dsimp only
  repeat' split
  all_goals simp +contextual

@[simp] theorem execHandoffDone_keeps (p : Port) (h : LysHdr) (status : BitVec 16) :
    Keeps s (execHandoffDone p h status s) := by
  unfold execHandoffDone
  dsimp only
  repeat' split
  all_goals simp +contextual
  exact fun hs => wake_memsWf _ (failWaitingStages_memsWf _ _ _ (by simp [hs]))

@[simp] theorem execCredit_keeps (p : Port) (h : LysHdr) (limits : Vector (BitVec 30) 4) :
    Keeps s (execCredit p h limits s) := by
  unfold execCredit
  dsimp only
  split <;> simp +contextual

@[simp] theorem execCreditSend_keeps (p : Port) : Keeps s (execCreditSend p s) := by
  unfold execCreditSend
  split <;> simp +contextual

@[simp] theorem execCreditSyncSend_keeps (p : Port) : Keeps s (execCreditSyncSend p s) := by
  unfold execCreditSyncSend
  dsimp only
  split <;> simp +contextual

@[simp] theorem execCreditSync_keeps (p : Port) (h : LysHdr) (sent : Vector (BitVec 30) 4) :
    Keeps s (execCreditSync p h sent s) := by
  unfold execCreditSync
  dsimp only
  repeat' split
  all_goals simp +contextual

@[simp] theorem execLaneSwap_keeps (p : Port) (h : LysHdr) (kind lane : BitVec 8) (swapTick : BitVec 48) :
    Keeps s (execLaneSwap p h kind lane swapTick s) := by
  unfold execLaneSwap
  dsimp only
  repeat' split
  all_goals simp +contextual

@[simp] theorem execLaneSwapExecute_keeps (p : Port) : Keeps s (execLaneSwapExecute p s) := by
  unfold execLaneSwapExecute
  dsimp only
  repeat' split
  all_goals simp +contextual

@[simp] theorem execLaneDegraded_keeps (p : Port) (lane : Fin 4) : Keeps s (execLaneDegraded p lane s) := by
  unfold execLaneDegraded
  dsimp only
  repeat' split
  all_goals simp +contextual

@[simp] theorem execLaneSignalLoss_keeps (p : Port) (lane : Fin 4) (peerSpareFree : Bool) :
    Keeps s (execLaneSignalLoss p lane peerSpareFree s) := by
  unfold execLaneSignalLoss
  dsimp only
  repeat' split
  all_goals simp +contextual

@[simp] theorem execMacControlFrame_keeps (p : Port) : Keeps s (execMacControlFrame p s) := by
  unfold execMacControlFrame
  split <;> simp +contextual

@[simp] theorem execFcsErrorFrame_keeps (p : Port) (badFcs : Bool) : Keeps s (execFcsErrorFrame p badFcs s) := by
  unfold execFcsErrorFrame
  repeat' split
  all_goals simp +contextual

@[simp] theorem execUnlistedFrameType_keeps (p : Port) : Keeps s (execUnlistedFrameType p s) := by
  unfold execUnlistedFrameType
  split <;> simp +contextual

@[simp] theorem execPortUp_keeps (p : Port) (rate : BitVec 2) (limits : Vector (BitVec 30) 4) :
    Keeps s (execPortUp p rate limits s) := by
  unfold execPortUp
  dsimp only
  repeat' split
  all_goals simp +contextual

@[simp] theorem execPortDown_keeps (p : Port) : Keeps s (execPortDown p s) := by
  unfold execPortDown
  dsimp only
  repeat' split
  all_goals simp +contextual

@[simp] theorem execQuadSettled_keeps (q : Quad) : Keeps s (execQuadSettled q s) := by
  unfold execQuadSettled
  dsimp only
  repeat' split
  all_goals simp +contextual

@[simp] theorem execIntervalEnd_keeps : Keeps s (execIntervalEnd s) := by
  unfold execIntervalEnd
  split <;> simp +contextual

@[simp] theorem execTapEntryTake_keeps : Keeps s (execTapEntryTake s) := by
  unfold execTapEntryTake
  repeat' split
  all_goals simp +contextual

@[simp] theorem execIslandSupplyLoss_keeps : Keeps s (execIslandSupplyLoss s) := by
  unfold execIslandSupplyLoss
  dsimp only
  split <;> simp +contextual

@[simp] theorem execClockAnomaly_keeps (deviation : BitVec 16) : Keeps s (execClockAnomaly deviation s) := by
  unfold execClockAnomaly
  split <;> simp +contextual

@[simp] theorem execBrownHoldEntry_keeps (vcoreMv : BitVec 12) : Keeps s (execBrownHoldEntry vcoreMv s) := by
  unfold execBrownHoldEntry
  dsimp only
  repeat' split
  all_goals simp +contextual

@[simp] theorem execRequalificationStart_keeps (vcoreMv : BitVec 12) : Keeps s (execRequalificationStart vcoreMv s) := by
  unfold execRequalificationStart
  dsimp only
  split <;> simp +contextual

@[simp] theorem execBrownHoldResume_keeps (failed : List Nat) : Keeps s (execBrownHoldResume failed s) := by
  unfold execBrownHoldResume
  dsimp only
  split <;> simp +contextual

@[simp] theorem execRequalificationComplete_keeps : Keeps s (execRequalificationComplete s) := by
  unfold execRequalificationComplete
  dsimp only
  repeat' split
  all_goals simp +contextual

@[simp] theorem execBrownoutReset_keeps : Keeps s (execBrownoutReset s) := by
  simp +contextual [execBrownoutReset]

@[simp] theorem execPowerReset_keeps (aonLost : Bool) : Keeps s (execPowerReset aonLost s) := by
  unfold execPowerReset
  dsimp only
  split <;> simp +contextual

@[simp] theorem execFundamentalReset_keeps : Keeps s (execFundamentalReset s) := by
  unfold execFundamentalReset
  split <;> simp +contextual

@[simp] theorem execDeviceReset_keeps : Keeps s (execDeviceReset s) := by
  unfold execDeviceReset
  split <;> simp +contextual

@[simp] theorem execSequenceError_keeps : Keeps s (execSequenceError s) := by
  unfold execSequenceError
  dsimp only
  split <;> simp +contextual

@[simp] theorem execThermalTrip_keeps : Keeps s (execThermalTrip s) := by
  unfold execThermalTrip
  dsimp only
  split <;> simp +contextual

@[simp] theorem execStartup_keeps (b : BootInputs) : Keeps s (execStartup b s) := by
  unfold execStartup
  dsimp only
  split <;> simp +contextual

@[simp] theorem execThermalCompare_keeps (readings : List (Nat × Nat)) : Keeps s (execThermalCompare readings s) := by
  unfold execThermalCompare
  dsimp only
  split <;> simp +contextual

@[simp] theorem execSensorTimeout_keeps (sensor : Nat) : Keeps s (execSensorTimeout sensor s) := by
  unfold execSensorTimeout
  dsimp only
  repeat' split
  all_goals simp +contextual

@[simp] theorem execTickLogicFault_keeps : Keeps s (execTickLogicFault s) := by
  unfold execTickLogicFault
  split <;> simp +contextual

@[simp] theorem execHostLinkDown_keeps : Keeps s (execHostLinkDown s) := by
  unfold execHostLinkDown
  split <;> simp +contextual

@[simp] theorem execHostLinkUp_keeps (width : BitVec 5) (speed : BitVec 3) (flit cxl hdm : Bool) :
    Keeps s (execHostLinkUp width speed flit cxl hdm s) := by
  unfold execHostLinkUp
  split <;> simp +contextual

@[simp] theorem execClockLockLoss_keeps (domain : Fin 25) : Keeps s (execClockLockLoss domain s) := by
  unfold execClockLockLoss
  dsimp only
  split <;> simp +contextual

@[simp] theorem execClockLockRegained_keeps (domain : Fin 25) : Keeps s (execClockLockRegained domain s) := by
  unfold execClockLockRegained
  dsimp only
  repeat' split
  all_goals simp +contextual

@[simp] theorem execTileFailure_keeps (tile : Tile) : Keeps s (execTileFailure tile s) := by
  unfold execTileFailure
  dsimp only
  repeat' split
  all_goals simp +contextual

@[simp] theorem execEngineParityError_keeps (tile : Tile) (engine : Fin 4) :
    Keeps s (execEngineParityError tile engine s) := by
  unfold execEngineParityError
  dsimp only
  repeat' split
  all_goals simp +contextual

@[simp] theorem execEntryOverrun_keeps (resource : BitVec 16) : Keeps s (execEntryOverrun resource s) := by
  unfold execEntryOverrun
  dsimp only
  repeat' split
  all_goals simp +contextual

@[simp] theorem execTileCopyDone_keeps (logical : Fin 64) : Keeps s (execTileCopyDone logical s) := by
  unfold execTileCopyDone
  dsimp only
  repeat' split
  all_goals simp +contextual

@[simp] theorem execTileSwitch_keeps (logical : Fin 64) : Keeps s (execTileSwitch logical s) := by
  unfold execTileSwitch
  dsimp only
  repeat' split
  all_goals simp +contextual

@[simp] theorem execBankRepair_keeps (tile : Tile) (bank : Fin 48) : Keeps s (execBankRepair tile bank s) := by
  unfold execBankRepair
  dsimp only
  repeat' split
  all_goals simp +contextual

@[simp] theorem execHbmRowRepair_keeps (stack : Stack) (detail : Word) : Keeps s (execHbmRowRepair stack detail s) := by
  unfold execHbmRowRepair
  dsimp only
  repeat' split
  all_goals simp +contextual

@[simp] theorem execPageRetire_keeps (stack : Stack) (page : Word) : Keeps s (execPageRetire stack page s) := by
  unfold execPageRetire
  dsimp only
  repeat' split
  case h_2 a e replaced =>
    have same : memories e = memories s.dev := takeReplacement_mems replaced
    exact keeps_finish_of s fun hs => retirePage_memsWf _ _ _ _ (by rwa [same])
  all_goals simp +contextual

@[simp] theorem execUncorrectableEcc_keeps (address : DevAddr) : Keeps s (execUncorrectableEcc address s) := by
  unfold execUncorrectableEcc
  dsimp only
  repeat' split
  all_goals simp +contextual

@[simp] theorem execBackgroundTask_keeps (unit : Fin 90) (overdue passed : List (Fin 5)) :
    Keeps s (execBackgroundTask unit overdue passed s) := by
  unfold execBackgroundTask
  dsimp only
  repeat' split
  all_goals simp +contextual

@[simp] theorem execBreakpointHit_keeps (core : CtrlCore) (slot : Fin 4) (pc : Word) :
    Keeps s (execBreakpointHit core slot pc s) := by
  unfold execBreakpointHit
  split <;> simp +contextual

@[simp] theorem execBar0Misaligned_keeps (write : Bool) (offset : BitVec 26) (size : Nat) :
    Keeps s (execBar0Misaligned write offset size s) := by
  unfold execBar0Misaligned
  dsimp only
  repeat' split
  all_goals simp +contextual

@[simp] theorem execRegisterWrite_keeps (offset : BitVec 26) (value : Word) :
    Keeps s (execRegisterWrite offset value s) := by
  unfold execRegisterWrite
  repeat' split
  all_goals simp +contextual

@[simp] theorem execBar4Read_keeps (offset : Word) (length : Nat) : Keeps s (execBar4Read offset length s) := by
  unfold execBar4Read
  split <;> simp +contextual

@[simp] theorem execBar4Write_keeps (offset : Word) (data : List Byte) : Keeps s (execBar4Write offset data s) := by
  unfold execBar4Write
  split <;> simp +contextual

@[simp] theorem execWindowRead_keeps (offset : BitVec 40) (cached : Bool) : Keeps s (execWindowRead offset cached s) := by
  unfold execWindowRead
  split <;> simp +contextual

@[simp] theorem execWindowWrite_keeps (offset : BitVec 40) (data : List Byte) : Keeps s (execWindowWrite offset data s) := by
  unfold execWindowWrite
  split <;> simp +contextual

@[simp] theorem execBirsp_keeps (offset : BitVec 40) (dirty : Option (List Byte)) : Keeps s (execBirsp offset dirty s) := by
  unfold execBirsp
  dsimp only
  repeat' split
  all_goals simp +contextual

@[simp] theorem execStagingReadTimeout_keeps (offset : BitVec 40) : Keeps s (execStagingReadTimeout offset s) := by
  unfold execStagingReadTimeout
  dsimp only
  split <;> simp +contextual
@[simp] theorem execIslandBoot_keeps (checksPass : Bool) : Keeps s (execIslandBoot checksPass s) := by
  unfold execIslandBoot
  dsimp only
  split <;> simp +contextual

@[simp] theorem execIslandDebugAccess_keeps : Keeps s (execIslandDebugAccess s) := by
  unfold execIslandDebugAccess
  split <;> simp +contextual

@[simp] theorem execSealFuseBlow_keeps : Keeps s (execSealFuseBlow s) := by
  unfold execSealFuseBlow
  dsimp only
  split <;> simp +contextual

theorem exec_keeps (c : Instr) : Keeps s (exec c s) := by
  cases c
  case init | setPlacement | setSeed | loadTree | openGroup | closeGroup | setTick | repairApprove | bindTenant |
      alloc | free | fwUpdate | createDesc | destroyDesc | loadOwners | topk | quant | lowrank | residualFlush |
      maskGen | bcast | reduceToOne | bucketOpen | bucketAdd | bucketSeal | streamOpen | streamClose | kvPut |
      kvHandoff | kvStage | kvCommit | kvEvict | traceStart | traceStop | watchTensor | breakSet | countersSnapshot |
      unknownOpcode =>
    exact issue_keeps _ _ _ _
  case fplModeWrite | tickSnap | tikCableDlyWrite | trayWrite | designateMaster | undesignateMaster | pwrResetKey |
      recoverGo | openSettingWrite | halt | resume | step | watchCancel | intAck =>
    exact hostWrite_keeps _ _ _
  case metCollectRead | loReadLatch | clvGrpStateRead | rcCounterRead | metRecRead =>
    exact hostRead_keeps _ _
  all_goals simp [exec]

@[simp] theorem idleTick_memsWf {d : Dev} (hd : MemsWf (memories d)) : MemsWf (memories (idleTick d)) := by
  unfold idleTick
  repeat' split
  all_goals simp [hd]

theorem idle_keeps : Keeps s (idle s) := by simp +contextual [idle]

variable {s} {t : State} {o : Host.Outcome State Fault Refusal}

theorem Keeps.pending_eq (h : Keeps s o) (ho : o = .next t) : t.pending = s.pending := by
  obtain ⟨d, hd, -⟩ := h
  cases hd.symm.trans ho
  rfl

theorem Keeps.memoriesWf (h : Keeps s o) (ho : o = .next t) (hwf : MemoriesWf s.dev) : MemoriesWf t.dev := by
  obtain ⟨d, hd, kept⟩ := h
  cases hd.symm.trans ho
  exact kept hwf

/-- A step is a command on the rest of the queue, or an idle step. -/
theorem step_keeps (s : State) : Keeps { s with pending := s.pending.tail } (step s) := by
  unfold step
  split
  next none =>
    have same : { s with pending := s.pending.tail } = s := by rw [none, List.tail_nil, ← none]
    rw [same]
    exact idle_keeps s
  next c rest waiting =>
    rw [waiting]
    exact exec_keeps _ c

end

/-- Settles O2: no command touches the queue (`exec_keeps`), so a step leaves its tail (`step_keeps`). -/
theorem queueIsFirstInFirstOut : Obligations.QueueIsFirstInFirstOut := by
  refine ⟨fun c s t h => (exec_keeps s c).pending_eq h, fun s t h => (step_keeps s).pending_eq h,
    fun s _ hwf h c hc => ?_⟩
  rw [(step_keeps s).pending_eq h] at hc
  exact hwf c (List.mem_of_mem_tail hc)

/-- Settles O3: `exec_keeps`, and the accesses of a reserved offset as the register file serves them (R16). -/
theorem everyCommandCompletes : Obligations.EveryCommandCompletes := by
  refine ⟨fun c s => ?_, fun o w s hopen haligned hreserved => ?_⟩
  · obtain ⟨d, hd, -⟩ := exec_keeps s c
    exact ⟨_, hd⟩
  · have zero : hostRead s o.toNat = .next (settled s (putRead s.dev (zeros 4) false)) :=
      hostRead_reserved hopen haligned hreserved
    exact ⟨execRegisterWrite_reserved hopen haligned hreserved w, zero, zero⟩

/-- Settles O50: every function that a command or the idle step runs keeps the canonical form of the memories (the lemmas
`f_mems` and `f_memsWf`), and so does the step (`step_keeps`). -/
theorem memoriesStayCanonical : Obligations.MemoriesStayCanonical :=
  fun s _ hwf h => (step_keeps s).memoriesWf h hwf

end Sys2Proof.Machine
end
